-- ==== Sys2Proof/Word.lean ====
section
/-! DEFINITION. The word types of the SD protocol engine (00_scope.md R12): a byte, a clock sample or
deadline, and a 16-byte register image. All values are unsigned; nothing is sign-extended. -/

namespace Sys2Proof

/-- A byte: 8 bits, bit 7 the most significant (R12). -/
abbrev Byte := BitVec 8

/-- A clock sample or a deadline: `CLOCK_W` = 64 bits of milliseconds (R7, R160, R35). -/
abbrev Clock := BitVec 64

/-- A 16-byte register image (`REG_LEN`, R7): entry 0 is the byte received first (R69). -/
abbrev Image := Vector Byte 16

/-- The 6-byte command frame (`FRAME_LEN`, R7, R90): entry 0 is sent first. -/
abbrev Frame := Vector Byte 6

end Sys2Proof
end

