-- ==== Sys2Proof/Machine/Checksum.lean ====
section
/-! DEFINITION. The checksum engine (40_checksum.md): the CRC7 and CRC16-CCITT generators, bit-serial
and, for CRC7, table-driven. Pure functions over byte sequences; no state (R39). -/

namespace Sys2Proof.Machine

/-- The bits of a byte in the order both generators take them, most significant first (R72). -/
def msbFirst (b : Byte) : List Bool :=
  [b.getLsbD 7, b.getLsbD 6, b.getLsbD 5, b.getLsbD 4, b.getLsbD 3, b.getLsbD 2, b.getLsbD 1, b.getLsbD 0]

/-- One shift of the CRC7 register (R141, inner loop): generator x⁷ + x³ + 1. -/
def crc7Bit (c : BitVec 7) (bit : Bool) : BitVec 7 :=
  if c.getLsbD 6 ^^ bit then (c <<< 1) ^^^ 0x09#7 else c <<< 1

/-- One byte through the CRC7 register (R141). -/
def crc7Byte (c : BitVec 7) (b : Byte) : BitVec 7 := (msbFirst b).foldl crc7Bit c

/-- `crc7(bytes)` (R140, R141): the register starts at 0 and the result is not adjusted. -/
def crc7 (bytes : List Byte) : BitVec 7 := bytes.foldl crc7Byte 0#7

/-- One shift of the CRC16 register (R148, inner loop): generator x¹⁶ + x¹² + x⁵ + 1. -/
def crc16Bit (c : BitVec 16) (bit : Bool) : BitVec 16 :=
  if c.getLsbD 15 ^^ bit then (c <<< 1) ^^^ 0x1021#16 else c <<< 1

/-- `crc16_update(c, b)` (R307): the inner loop of R148 for one byte. -/
def crc16Update (c : BitVec 16) (b : Byte) : BitVec 16 := (msbFirst b).foldl crc16Bit c

/-- `crc16_ccitt(bytes)` (R147, R148). -/
def crc16 (bytes : List Byte) : BitVec 16 := bytes.foldl crc16Update 0#16

/-- Rows 0 to 3 of the table of R142: entry `16·r + k` is row r, column k. -/
def crc7Rows0 : List Nat :=
  [0x00, 0x09, 0x12, 0x1B, 0x24, 0x2D, 0x36, 0x3F, 0x48, 0x41, 0x5A, 0x53, 0x6C, 0x65, 0x7E, 0x77] ++
  [0x19, 0x10, 0x0B, 0x02, 0x3D, 0x34, 0x2F, 0x26, 0x51, 0x58, 0x43, 0x4A, 0x75, 0x7C, 0x67, 0x6E] ++
  [0x32, 0x3B, 0x20, 0x29, 0x16, 0x1F, 0x04, 0x0D, 0x7A, 0x73, 0x68, 0x61, 0x5E, 0x57, 0x4C, 0x45] ++
  [0x2B, 0x22, 0x39, 0x30, 0x0F, 0x06, 0x1D, 0x14, 0x63, 0x6A, 0x71, 0x78, 0x47, 0x4E, 0x55, 0x5C]

/-- Rows 4 to 7 of the table of R142. -/
def crc7Rows1 : List Nat :=
  [0x64, 0x6D, 0x76, 0x7F, 0x40, 0x49, 0x52, 0x5B, 0x2C, 0x25, 0x3E, 0x37, 0x08, 0x01, 0x1A, 0x13] ++
  [0x7D, 0x74, 0x6F, 0x66, 0x59, 0x50, 0x4B, 0x42, 0x35, 0x3C, 0x27, 0x2E, 0x11, 0x18, 0x03, 0x0A] ++
  [0x56, 0x5F, 0x44, 0x4D, 0x72, 0x7B, 0x60, 0x69, 0x1E, 0x17, 0x0C, 0x05, 0x3A, 0x33, 0x28, 0x21] ++
  [0x4F, 0x46, 0x5D, 0x54, 0x6B, 0x62, 0x79, 0x70, 0x07, 0x0E, 0x15, 0x1C, 0x23, 0x2A, 0x31, 0x38]

/-- Rows 8 to B of the table of R142. -/
def crc7Rows2 : List Nat :=
  [0x41, 0x48, 0x53, 0x5A, 0x65, 0x6C, 0x77, 0x7E, 0x09, 0x00, 0x1B, 0x12, 0x2D, 0x24, 0x3F, 0x36] ++
  [0x58, 0x51, 0x4A, 0x43, 0x7C, 0x75, 0x6E, 0x67, 0x10, 0x19, 0x02, 0x0B, 0x34, 0x3D, 0x26, 0x2F] ++
  [0x73, 0x7A, 0x61, 0x68, 0x57, 0x5E, 0x45, 0x4C, 0x3B, 0x32, 0x29, 0x20, 0x1F, 0x16, 0x0D, 0x04] ++
  [0x6A, 0x63, 0x78, 0x71, 0x4E, 0x47, 0x5C, 0x55, 0x22, 0x2B, 0x30, 0x39, 0x06, 0x0F, 0x14, 0x1D]

/-- Rows C to F of the table of R142. -/
def crc7Rows3 : List Nat :=
  [0x25, 0x2C, 0x37, 0x3E, 0x01, 0x08, 0x13, 0x1A, 0x6D, 0x64, 0x7F, 0x76, 0x49, 0x40, 0x5B, 0x52] ++
  [0x3C, 0x35, 0x2E, 0x27, 0x18, 0x11, 0x0A, 0x03, 0x74, 0x7D, 0x66, 0x6F, 0x50, 0x59, 0x42, 0x4B] ++
  [0x17, 0x1E, 0x05, 0x0C, 0x33, 0x3A, 0x21, 0x28, 0x5F, 0x56, 0x4D, 0x44, 0x7B, 0x72, 0x69, 0x60] ++
  [0x0E, 0x07, 0x1C, 0x15, 0x2A, 0x23, 0x38, 0x31, 0x46, 0x4F, 0x54, 0x5D, 0x62, 0x6B, 0x70, 0x79]

/-- The 256-entry table `T` of R142. -/
def crc7Table : List Nat := crc7Rows0 ++ crc7Rows1 ++ crc7Rows2 ++ crc7Rows3

/-- The table's entry `T[i]` (R142). -/
def crc7T (i : Byte) : BitVec 7 := BitVec.ofNat 7 (crc7Table.getD i.toNat 0)

/-- One byte through the table (R142): `T[((c << 1)[7:0]) xor b]`. -/
def crc7TableByte (c : BitVec 7) (b : Byte) : BitVec 7 := crc7T (((c.setWidth 8) <<< 1) ^^^ b)

/-- The table-driven `crc7(bytes)` of R142. -/
def crc7ByTable (bytes : List Byte) : BitVec 7 := bytes.foldl crc7TableByte 0#7

/-- The trailing byte of a frame made from its CRC: `(crc << 1) | 1` (R90, R144). -/
def crcStopByte (c : BitVec 7) : Byte := ((c.setWidth 8) <<< 1) ||| 0x01#8

end Sys2Proof.Machine
end

