-- ==== Sys2Proof/Machine/Decoder.lean ====
section
/-! DEFINITION. The register field decoder (44_register_decoder.md): combinational views of a CID or CSD
image. They read nothing else, write nothing and raise nothing; `img[i]` is byte i of the image. -/

namespace Sys2Proof.Machine

/-! ### CID (R104, R250 to R256) -/

/-- `cid_manufacturer_id` (R251): byte 0. -/
def cidManufacturerId (img : Image) : BitVec 8 := img[0]

/-- `cid_oem_id` (R252): bytes 1 and 2, big-endian. -/
def cidOemId (img : Image) : BitVec 16 := img[1] ++ img[2]

/-- `cid_product_name` (R253): bytes 3 to 7 up to the first NUL (C11). -/
def cidProductName (img : Image) : List Byte :=
  [img[3], img[4], img[5], img[6], img[7]].takeWhile fun b => b != 0x00#8

/-- `cid_revision` (R254), major: byte 8, high nibble. -/
def cidRevisionMajor (img : Image) : BitVec 4 := img[8].extractLsb' 4 4

/-- `cid_revision` (R254), minor: byte 8, low nibble. -/
def cidRevisionMinor (img : Image) : BitVec 4 := img[8].extractLsb' 0 4

/-- `cid_serial` (R255): bytes 9 to 12, big-endian. -/
def cidSerial (img : Image) : BitVec 32 := img[9] ++ img[10] ++ img[11] ++ img[12]

/-- `cid_date` (R256), year code: low nibble of byte 13, high nibble of byte 14 (D29, C5). -/
def cidYearCode (img : Image) : BitVec 8 := img[13].extractLsb' 0 4 ++ img[14].extractLsb' 4 4

/-- `cid_date` (R256), month: low nibble of byte 14. -/
def cidMonth (img : Image) : BitVec 4 := img[14].extractLsb' 0 4

/-! ### CSD, fields common to every structure version (R105, R257 to R275) -/

/-- `LOG10TAB` (R257): entries 0 to 6; selector 7 selects nothing (D31). -/
def log10Tab (sel : BitVec 3) : Option Nat :=
  if sel = 7#3 then none else some (10 ^ sel.toNat)

/-- `csd_version` (R258): byte 0, bits 7:6. -/
def csdVersion (img : Image) : BitVec 2 := img[0].extractLsb' 6 2

/-- `csd_taac` (R259), raw code: byte 1. -/
def csdTaac (img : Image) : BitVec 8 := img[1]

/-- `csd_taac` (R259), unit in nanoseconds; `none` for selector 7. -/
def csdTaacUnit (img : Image) : Option Nat := log10Tab (img[1].extractLsb' 0 3)

/-- `csd_nsac` (R260), raw code: byte 2. -/
def csdNsac (img : Image) : BitVec 8 := img[2]

/-- `csd_tran_speed` (R261), raw code: byte 3. -/
def csdTranSpeed (img : Image) : BitVec 8 := img[3]

/-- `csd_tran_speed` (R261), rate in kbit/s: 100 × table entry; `none` for selector 7. -/
def csdRateKbps (img : Image) : Option Nat :=
  (log10Tab (img[3].extractLsb' 0 3)).map fun u => 100 * u

/-- `csd_ccc` (R262): byte 4 and the high nibble of byte 5. -/
def csdCcc (img : Image) : BitVec 12 := img[4] ++ img[5].extractLsb' 4 4

/-- `READ_BL_LEN` (R263), exponent: byte 5, low nibble. -/
def csdReadBlExp (img : Image) : BitVec 4 := img[5].extractLsb' 0 4

/-- `csd_read_bl_len` (R263): `1 << e` bytes, never 0. -/
def csdReadBlLen (img : Image) : Nat := 2 ^ (csdReadBlExp img).toNat

/-- `csd_read_bl_partial` (R264). -/
def csdReadBlPartial (img : Image) : Bool := img[6].getLsbD 7

/-- `csd_write_blk_misalign` (R265). -/
def csdWriteBlkMisalign (img : Image) : Bool := img[6].getLsbD 6

/-- `csd_read_blk_misalign` (R266). -/
def csdReadBlkMisalign (img : Image) : Bool := img[6].getLsbD 5

/-- `csd_dsr_imp` (R267). -/
def csdDsrImp (img : Image) : Bool := img[6].getLsbD 4

/-- `csd_sector_size` (R268): 7 stored bits plus 1. -/
def csdSectorSize (img : Image) : BitVec 8 :=
  (img[10].extractLsb' 0 6 ++ img[11].extractLsb' 7 1).setWidth 8 + 1#8

/-- `csd_wp_grp_size` (R269): 7 stored bits plus 1. -/
def csdWpGrpSize (img : Image) : BitVec 8 := (img[11].extractLsb' 0 7).setWidth 8 + 1#8

/-- `csd_wp_grp_enable` (R270). -/
def csdWpGrpEnable (img : Image) : Bool := img[12].getLsbD 7

/-- `WRITE_BL_LEN` (R271), exponent: byte 12 bits 1:0, byte 13 bits 7:6 (R108, D30). -/
def csdWriteBlExp (img : Image) : BitVec 4 := img[12].extractLsb' 0 2 ++ img[13].extractLsb' 6 2

/-- `csd_write_bl_len` (R271): `1 << e` bytes. -/
def csdWriteBlLen (img : Image) : Nat := 2 ^ (csdWriteBlExp img).toNat

/-- `csd_write_bl_partial` (R272). -/
def csdWriteBlPartial (img : Image) : Bool := img[13].getLsbD 5

/-- `csd_file_format_grp` (R273). -/
def csdFileFormatGrp (img : Image) : Bool := img[14].getLsbD 7

/-- `csd_copy` (R274). -/
def csdCopy (img : Image) : Bool := img[14].getLsbD 6

/-- `csd_perm_write_protect` (R274). -/
def csdPermWriteProtect (img : Image) : Bool := img[14].getLsbD 5

/-- `csd_tmp_write_protect` (R274). -/
def csdTmpWriteProtect (img : Image) : Bool := img[14].getLsbD 4

/-- The file formats of R275 in the spec's order (D32). -/
inductive FileFormat where
  | partitionTable
  | dosFat
  | universal
  | unknown
  deriving DecidableEq, Repr

/-- `csd_file_format` (R275): byte 14, bits 3:2. -/
def csdFileFormat (img : Image) : FileFormat :=
  match (img[14].extractLsb' 2 2).toNat with
  | 0 => .partitionTable
  | 1 => .dosFat
  | 2 => .universal
  | _ => .unknown

/-! ### Capacity (R106, R107, R277 to R282) -/

/-- `csd_c_size_v1` (R277); meaningful for version 0 only (R284). -/
def csdCSizeV1 (img : Image) : BitVec 12 := img[6].extractLsb' 0 2 ++ img[7] ++ img[8].extractLsb' 6 2

/-- `csd_c_size_mult_v1` (R278); meaningful for version 0 only (R284). -/
def csdCSizeMultV1 (img : Image) : BitVec 3 := img[9].extractLsb' 0 2 ++ img[10].extractLsb' 7 1

/-- `MULT` of R278: `1 << (2 + C_SIZE_MULT)`. -/
def csdMultV1 (img : Image) : Nat := 2 ^ (2 + (csdCSizeMultV1 img).toNat)

/-- `csd_c_size_v2` (R279); meaningful for version 1 only (R284). -/
def csdCSizeV2 (img : Image) : BitVec 22 := img[7].extractLsb' 0 6 ++ img[8] ++ img[9]

/-- `csd_device_size` (R280), exact; `none` for versions 2 and 3 (D18). -/
def csdDeviceBytes (img : Image) : Option Nat :=
  match (csdVersion img).toNat with
  | 0 => some (((csdCSizeV1 img).toNat + 1) * csdMultV1 img * csdReadBlLen img)
  | 1 => some ((csdCSizeV2 img).toNat * 512000)
  | _ => none

/-- `csd_device_size` (R280) as the 64-bit number it is (R283). -/
def csdDeviceSize (img : Image) : Option (BitVec 64) := (csdDeviceBytes img).map (BitVec.ofNat 64)

/-- `csd_block_count` (R281) as the 64-bit number it is: the size divided by the read-block length,
rounded down (D20). -/
def csdBlockCount (img : Image) : Option (BitVec 64) :=
  (csdDeviceBytes img).map fun n => BitVec.ofNat 64 (n / csdReadBlLen img)

/-- `csd_is_valid` (R282): the CRC7 of bytes 0 to 14 is byte 15 bits 7:1, and bit 0 is 1. -/
def csdIsValid (img : Image) : Bool :=
  crc7 (img.toList.take 15) == img[15].extractLsb' 1 7 && img[15].getLsbD 0

end Sys2Proof.Machine
end

