-- ==== Sys2Proof/Config.lean ====
section
/-! DEFINITION. The implementation parameters of 00_scope.md R7, and the free values: opaque
constants without a body, of which nothing can be proved. -/

namespace Sys2Proof.Config

/-- `BLOCK_LEN`: bytes per block and per host buffer (R7). -/
def blockLen : Nat := 512

/-- `REG_LEN`: bytes of a CID or CSD image (R7). -/
def regLen : Nat := 16

/-- `T_CMD_BUSY`, ms: busy-wait before a command (R7, R167). -/
def tCmdBusy : Nat := 300

/-- `T_IDLE`, ms: go-idle loop (R7, R167). -/
def tIdle : Nat := 2000

/-- `T_OPCOND`, ms: operating-condition loop (R7, R167). -/
def tOpCond : Nat := 2000

/-- `T_TOKEN`, ms: start-token wait (R7, R167). -/
def tToken : Nat := 300

/-- `T_WRITE_BUSY`, ms: busy-wait after a written block (R7, R167). -/
def tWriteBusy : Nat := 600

/-- `N_INIT_FILLER`: filler bytes clocked while deselected (R7, R222, D13). -/
def nInitFiller : Nat := 10

/-- `FILL`: the byte sent while only receiving (R7, R62, D3). -/
def fill : Byte := 0xFF#8

/-- `CMD8_ARG`: the interface-condition argument (R7, R93). -/
def cmd8Arg : BitVec 32 := 0x000001AA#32

/-- `CMD16_ARG`: the set-block-length argument (R7, R93). -/
def cmd16Arg : BitVec 32 := 0x00000200#32

/-- The operating-condition argument with the high-capacity bit, bit 30 (R93, GK3). -/
def hcsArg : BitVec 32 := 0x40000000#32

/-- `START_TOKEN` (R7, R100). -/
def startToken : Byte := 0xFE#8

/-- `IDLE_LINE`: the not-busy byte (R7, R103). -/
def idleLine : Byte := 0xFF#8

/-- `COUNT_MAX`: the largest accepted block count (R7, R235, D19). -/
def countMax : Nat := 4294967295

/-- `N_RESP_POLL` − 1 at reset. OPEN in the spec (R7, D8: an integer ≥ 1), so opaque here (log 4). -/
opaque pollExtra : Nat

/-- `TCODE_W` at reset. OPEN in the spec (R7, D35), so opaque here (log 4). -/
opaque tcodeW : Nat

/-- Free value: whether the n-th exchange fails, once the queued answers are used up (R60, U6; log 1). -/
opaque freeFails : Nat → Bool

/-- Free value: the code of the n-th exchange's failure (R60, U5; log 1). -/
opaque freeCode : Nat → Nat

/-- Free value: the byte the n-th exchange returns (R60, U6; log 1). -/
opaque freeByte : Nat → Byte

/-- Free value: how far the clock moves at the n-th sample, 0 included (R160, U7; log 2). -/
opaque freeTick : Nat → Clock

/-- Free value: after the n-th sample, how many samples need not be later than it. The fairness assumption
bounds that number by none, it asks only that a later sample comes (R163, U7; log 2). -/
opaque freeHold : Nat → Nat

/-- Free value: the same before the first sample (log 2, log 10). -/
opaque firstHold : Nat

end Sys2Proof.Config
end

