-- ==== Sys2Proof/Syntax.lean ====
section
/-! DEFINITION. The instructions: one constructor per row of spec/opcode_table.json (R92, R130, R131).
The operands of RDBLK and WRBLK are registers of `REQ` (R33), not fields of the 4-bit code. -/

namespace Sys2Proof

/-- The rows of the opcode table. -/
inductive Instr where
  /-- `CMD0 arg` go-idle (R196). -/
  | cmd0 (arg : BitVec 32)
  /-- `CMD8 arg` interface-condition (R197). -/
  | cmd8 (arg : BitVec 32)
  /-- `CMD9 arg` CSD register read (R198). -/
  | cmd9 (arg : BitVec 32)
  /-- `CMD10 arg` CID register read (R199). -/
  | cmd10 (arg : BitVec 32)
  /-- `CMD12 arg` stream-stop (R200, R188). -/
  | cmd12 (arg : BitVec 32)
  /-- `CMD16 arg` set-block-length (R201). -/
  | cmd16 (arg : BitVec 32)
  /-- `CMD17 arg` read-single-block (R202). -/
  | cmd17 (arg : BitVec 32)
  /-- `CMD24 arg` write-block (R203). -/
  | cmd24 (arg : BitVec 32)
  /-- `CMD55 arg` application-command prefix (R204). -/
  | cmd55 (arg : BitVec 32)
  /-- `CMD41 arg` operating-condition (R205). -/
  | cmd41 (arg : BitVec 32)
  /-- `CMD58 arg` OCR-read (R206). -/
  | cmd58 (arg : BitVec 32)
  /-- Host code 0x0 (R343). -/
  | nop
  /-- Host code 0x1 (R220). -/
  | init
  /-- Host code 0x2 (R304). -/
  | rdblk
  /-- Host code 0x3 (R314). -/
  | wrblk
  /-- Host code 0x4 (R344). -/
  | blkcnt
  /-- Host code 0x5 (R345). -/
  | cid
  /-- Host code 0x6 (R346). -/
  | csd
  /-- Host code 0x7 (R347). -/
  | lastcrc
  /-- Host code 0x8 (R348). -/
  | kind
  /-- Host code 0x9 (R349). -/
  | calccrc
  /-- Host code 0xA (R350). -/
  | csdvalid
  /-- Host code 0xB, reserved (R342). -/
  | reservedB
  /-- Host code 0xC, reserved (R342). -/
  | reservedC
  /-- Host code 0xD, reserved (R342). -/
  | reservedD
  /-- Host code 0xE, reserved (R342). -/
  | reservedE
  /-- Host code 0xF, reserved (R342). -/
  | reservedF
  /-- Pseudo-operation `ACMD41 arg`: `CMD55 0` then `CMD41 arg` (R131, R193). -/
  | acmd41 (arg : BitVec 32)
  /-- Pseudo-operation `ZCMDn arg`: `CMDn arg`, zero status required (R131, R194). -/
  | zcmd (n : BitVec 6) (arg : BitVec 32)
  /-- Pseudo-operation `RDREG n`: a register read, n = 9 or 10 (R131, R320). -/
  | rdreg (n : BitVec 6)
  deriving DecidableEq, Repr

end Sys2Proof
end

