-- ==== Sys2Proof/WellFormed.lean ====
section
/-! DEFINITION. Which instructions the spec's tables give: the fixed arguments of R92 and R93, the
indices issued with a required zero status (R194), and the two register reads (R320). The machine gives
an ill-formed term the same meaning for the operand it carries; only the encoder's law asks for
well-formedness. -/

namespace Sys2Proof

/-- The argument R92 gives the command of index `n`: `some a` where it is fixed, `none` where it is the
translated address (CMD17, CMD24). -/
def fixedArg : Nat → Option (BitVec 32)
  | 8 => some Config.cmd8Arg
  | 16 => some Config.cmd16Arg
  | 17 => none
  | 24 => none
  | _ => some 0#32

/-- `arg` is the argument R92 gives the command of index `n`. -/
def argOk (n : Nat) (arg : BitVec 32) : Bool :=
  match fixedArg n with
  | some a => arg == a
  | none => true

/-- R92, R93: the operating-condition argument is 0x40000000 or 0. -/
def opCondArgOk (arg : BitVec 32) : Bool := arg == Config.hcsArg || arg == 0#32

/-- The command indices issued with `ensure_zero_status` (R198, R199, R201, R202, R203, R206). -/
def zeroStatusIndex (n : BitVec 6) : Bool :=
  n == 9#6 || n == 10#6 || n == 16#6 || n == 17#6 || n == 24#6 || n == 58#6

/-- Well-formedness of an instruction (R92, R93, R131). -/
def Instr.wellFormed : Instr → Bool
  | .cmd0 arg => argOk 0 arg
  | .cmd8 arg => argOk 8 arg
  | .cmd9 arg => argOk 9 arg
  | .cmd10 arg => argOk 10 arg
  | .cmd12 arg => argOk 12 arg
  | .cmd16 arg => argOk 16 arg
  | .cmd17 arg => argOk 17 arg
  | .cmd24 arg => argOk 24 arg
  | .cmd55 arg => argOk 55 arg
  | .cmd41 arg => opCondArgOk arg
  | .cmd58 arg => argOk 58 arg
  | .acmd41 arg => opCondArgOk arg
  | .zcmd n arg => zeroStatusIndex n && argOk n.toNat arg
  | .rdreg n => n == 9#6 || n == 10#6
  | .nop => true
  | .init => true
  | .rdblk => true
  | .wrblk => true
  | .blkcnt => true
  | .cid => true
  | .csd => true
  | .lastcrc => true
  | .kind => true
  | .calccrc => true
  | .csdvalid => true
  | .reservedB => true
  | .reservedC => true
  | .reservedD => true
  | .reservedE => true
  | .reservedF => true

end Sys2Proof
end

