-- ==== Sys2Proof/Decode.lean ====
section
/-! DEFINITION. The encodings of 30_encoding.md: the decoder, total on any bytes and rejecting by
name, and the encoder. A `Code` is a run of bytes under the table's format; the pseudo-operations have
no words of their own (R131), so each stands under its own name (log 12). -/

namespace Sys2Proof

/-- The formats of the opcode table: `HOSTOP4` (R130), `CMDFRAME48` (R90) and the three
pseudo-operations (R131). -/
inductive Format where
  | hostop4
  | cmdframe48
  | pseudoAcmd41
  | pseudoZcmd
  | pseudoRdreg
  deriving DecidableEq, Repr

/-- An encoded object: its format and its bytes, the first sent first. -/
structure Code where
  fmt : Format
  bytes : List Byte
  deriving DecidableEq, Repr

/-- Why bytes are no instruction. -/
inductive DecodeError where
  /-- The wrong number of bytes for the format. -/
  | length
  /-- The top two bits of a frame's byte 0 are not `01` (R90). -/
  | startBits
  /-- Bit 0 of a frame's byte 5 is not 1 (R90). -/
  | stopBit
  /-- A frame's CRC field is not the CRC7 of its bytes 0 to 4 (R91). -/
  | crcField
  /-- A command index that the engine never emits (R92, R113). -/
  | commandIndex
  /-- A host operation code wider than 4 bits (R130). -/
  | hostCode
  /-- An ACMD41 whose first frame is not `CMD55 0` or whose second is not index 41 (R131). -/
  | appPrefix
  /-- A register read whose index is not 9 or 10 or whose argument is not 0 (R131). -/
  | registerRead
  deriving DecidableEq, Repr

/-- The index and argument of a 6-byte frame (R90, R91). -/
def decodeFrame : List Byte → Except DecodeError (BitVec 6 × BitVec 32)
  | [b0, b1, b2, b3, b4, b5] =>
    if b0.extractLsb' 6 2 ≠ 0b01#2 then .error .startBits
    else if b5.extractLsb' 0 1 ≠ 1#1 then .error .stopBit
    else if b5.extractLsb' 1 7 ≠ Machine.crc7 [b0, b1, b2, b3, b4] then .error .crcField
    else .ok (b0.extractLsb' 0 6, b1 ++ b2 ++ b3 ++ b4)
  | _ => .error .length

/-- The command of an index (R92); no other index is ever emitted (R113). -/
def commandOf (n : BitVec 6) (arg : BitVec 32) : Except DecodeError Instr :=
  match n.toNat with
  | 0 => .ok (.cmd0 arg)
  | 8 => .ok (.cmd8 arg)
  | 9 => .ok (.cmd9 arg)
  | 10 => .ok (.cmd10 arg)
  | 12 => .ok (.cmd12 arg)
  | 16 => .ok (.cmd16 arg)
  | 17 => .ok (.cmd17 arg)
  | 24 => .ok (.cmd24 arg)
  | 55 => .ok (.cmd55 arg)
  | 41 => .ok (.cmd41 arg)
  | 58 => .ok (.cmd58 arg)
  | _ => .error .commandIndex

/-- The host operation of a 4-bit code (R130). -/
def hostOf (code : BitVec 4) : Instr :=
  match code.toNat with
  | 0x0 => .nop
  | 0x1 => .init
  | 0x2 => .rdblk
  | 0x3 => .wrblk
  | 0x4 => .blkcnt
  | 0x5 => .cid
  | 0x6 => .csd
  | 0x7 => .lastcrc
  | 0x8 => .kind
  | 0x9 => .calccrc
  | 0xA => .csdvalid
  | 0xB => .reservedB
  | 0xC => .reservedC
  | 0xD => .reservedD
  | 0xE => .reservedE
  | _ => .reservedF

/-- `HOSTOP4`: one byte whose high nibble is 0 (R130). -/
def decodeHost : List Byte → Except DecodeError Instr
  | [b] => if b.extractLsb' 4 4 ≠ 0#4 then .error .hostCode else .ok (hostOf (b.extractLsb' 0 4))
  | _ => .error .length

/-- `CMDFRAME48` (R90, R92). -/
def decodeCommand (bytes : List Byte) : Except DecodeError Instr :=
  match decodeFrame bytes with
  | .error e => .error e
  | .ok (n, arg) => commandOf n arg

/-- `ACMD41 arg`: the frame of `CMD55 0`, then a frame of index 41 (R94, R131). -/
def decodeAppCommand (bytes : List Byte) : Except DecodeError Instr :=
  match decodeFrame (bytes.take 6), decodeFrame (bytes.drop 6) with
  | .error e, _ => .error e
  | _, .error e => .error e
  | .ok (n, a), .ok (m, arg) =>
    if n = 55#6 ∧ a = 0#32 ∧ m = 41#6 then .ok (.acmd41 arg) else .error .appPrefix

/-- `ZCMDn arg`: the frame of index n (R131), an index of R92: no other is ever emitted (R113). -/
def decodeZeroCommand (bytes : List Byte) : Except DecodeError Instr :=
  match decodeFrame bytes with
  | .error e => .error e
  | .ok (n, arg) =>
    match commandOf n arg with
    | .error e => .error e
    | .ok _ => .ok (.zcmd n arg)

/-- `RDREG n`: the frame of index 9 or 10 with argument 0 (R131). -/
def decodeRegisterRead (bytes : List Byte) : Except DecodeError Instr :=
  match decodeFrame bytes with
  | .error e => .error e
  | .ok (n, arg) =>
    if (n = 9#6 ∨ n = 10#6) ∧ arg = 0#32 then .ok (.rdreg n) else .error .registerRead

/-- The decoder. -/
def decode (c : Code) : Except DecodeError Instr :=
  match c.fmt with
  | .hostop4 => decodeHost c.bytes
  | .cmdframe48 => decodeCommand c.bytes
  | .pseudoAcmd41 => decodeAppCommand c.bytes
  | .pseudoZcmd => decodeZeroCommand c.bytes
  | .pseudoRdreg => decodeRegisterRead c.bytes

/-! ### The encoder -/

/-- The four bytes of an argument, big-endian (R68). -/
def argBytes (arg : BitVec 32) : List Byte :=
  [arg.extractLsb' 24 8, arg.extractLsb' 16 8, arg.extractLsb' 8 8, arg.extractLsb' 0 8]

/-- The frame of a command (R90): `01 ‖ index`, the argument, `crc7 ‖ 1`. -/
def encodeFrame (n : BitVec 6) (arg : BitVec 32) : List Byte :=
  let head := (0b01#2 ++ n) :: argBytes arg
  head ++ [Machine.crc7 head ++ 1#1]

/-- The code of a host operation (R130) as one byte. -/
def hostCode (code : BitVec 4) : Code := ⟨.hostop4, [0#4 ++ code]⟩

/-- The encoder. -/
def encode : Instr → Code
  | .cmd0 arg => ⟨.cmdframe48, encodeFrame 0#6 arg⟩
  | .cmd8 arg => ⟨.cmdframe48, encodeFrame 8#6 arg⟩
  | .cmd9 arg => ⟨.cmdframe48, encodeFrame 9#6 arg⟩
  | .cmd10 arg => ⟨.cmdframe48, encodeFrame 10#6 arg⟩
  | .cmd12 arg => ⟨.cmdframe48, encodeFrame 12#6 arg⟩
  | .cmd16 arg => ⟨.cmdframe48, encodeFrame 16#6 arg⟩
  | .cmd17 arg => ⟨.cmdframe48, encodeFrame 17#6 arg⟩
  | .cmd24 arg => ⟨.cmdframe48, encodeFrame 24#6 arg⟩
  | .cmd55 arg => ⟨.cmdframe48, encodeFrame 55#6 arg⟩
  | .cmd41 arg => ⟨.cmdframe48, encodeFrame 41#6 arg⟩
  | .cmd58 arg => ⟨.cmdframe48, encodeFrame 58#6 arg⟩
  | .nop => hostCode 0x0#4
  | .init => hostCode 0x1#4
  | .rdblk => hostCode 0x2#4
  | .wrblk => hostCode 0x3#4
  | .blkcnt => hostCode 0x4#4
  | .cid => hostCode 0x5#4
  | .csd => hostCode 0x6#4
  | .lastcrc => hostCode 0x7#4
  | .kind => hostCode 0x8#4
  | .calccrc => hostCode 0x9#4
  | .csdvalid => hostCode 0xA#4
  | .reservedB => hostCode 0xB#4
  | .reservedC => hostCode 0xC#4
  | .reservedD => hostCode 0xD#4
  | .reservedE => hostCode 0xE#4
  | .reservedF => hostCode 0xF#4
  | .acmd41 arg => ⟨.pseudoAcmd41, encodeFrame 55#6 0#32 ++ encodeFrame 41#6 arg⟩
  | .zcmd n arg => ⟨.pseudoZcmd, encodeFrame n arg⟩
  | .rdreg n => ⟨.pseudoRdreg, encodeFrame n 0#32⟩

/-! ### The words of the opcode table -/

/-- The `k` bytes of a number, the most significant first: the table numbers a frame's bits from the
last sent (bit 0) to the first sent (bit 47) (R90; log 12). -/
def bigEndian : Nat → Nat → List Byte
  | 0, _ => []
  | k + 1, w => BitVec.ofNat 8 (w / 256 ^ k) :: bigEndian k w

/-- A table word gives the CRC field of a frame no bits (its mask leaves them out), so the field may stand
at 0 there; it is then filled with the CRC7 that R91 gives the frame (log 12). -/
def fillCrc : List Byte → List Byte
  | [b0, b1, b2, b3, b4, b5] =>
    if b5.extractLsb' 1 7 = 0#7 then
      [b0, b1, b2, b3, b4, Machine.crc7 [b0, b1, b2, b3, b4] ++ b5.extractLsb' 0 1]
    else [b0, b1, b2, b3, b4, b5]
  | bytes => bytes

/-- The bytes of a table word of `nbits` bits: a host code up to 8, one frame up to 48, the two frames
of ACMD41 beyond. -/
def tableCode (nbits w : Nat) : Code :=
  if nbits ≤ 8 then ⟨.hostop4, bigEndian 1 w⟩
  else if nbits ≤ 48 then ⟨.cmdframe48, fillCrc (bigEndian 6 w)⟩
  else ⟨.pseudoAcmd41, fillCrc ((bigEndian 12 w).take 6) ++ fillCrc (bigEndian 6 w)⟩

/-- What the decoder reads from a table word. -/
def decodeTableWord (nbits w : Nat) : Option Instr :=
  match decode (tableCode nbits w) with
  | .ok i => some i
  | .error _ => none

end Sys2Proof
end

