-- ==== Sys2Proof/Machine/State.lean ====
section
/-! DEFINITION. The state of the engine (10_state.md), as plain data, with its reset value (R41, R400),
and the reasons a step can stop. The groups follow the spec: the session registers, the sequencer, the
working registers, `REQ`, `RES`; after them stand the model's own fields. -/

namespace Sys2Proof.Machine

/-- `S.kind` (R21). -/
inductive CardKind where
  | none
  | sd1
  | sd2
  | sdhc
  deriving DecidableEq, Repr

/-- `S.op` (R25). -/
inductive Op where
  | idle
  | init
  | rdblk
  | wrblk
  deriving DecidableEq, Repr

/-- `S.fsm` (R25): the step the running operation stands at the start of. -/
inductive Fsm where
  | fIdle
  | iReset
  | iGoIdle
  | iIfCond
  | iOpCond
  | iOcr
  | iBlkLen
  | iCid
  | iCsd
  | iCommit
  | rCheck
  | rCmd
  | rToken
  | rData
  | rCrc
  | wCheck
  | wCmd
  | wToken
  | wData
  | wCrc
  | wResp
  | wBusy
  deriving DecidableEq, Repr

/-- `S.cfsm` (R26). -/
inductive Cfsm where
  | cOff
  | cSelect
  | cBusy
  | cFrame
  | cStuff
  | cPoll
  | cTimeout
  deriving DecidableEq, Repr

/-- The host buffer and the scratch buffer: byte-addressable memories of 512 bytes, as the list of their
cells that differ from the reset contents 0x00 (R40, R41, R67; log 13). -/
abbrev Memory := List Host.Cell

/-- The session registers (R20). -/
structure Session where
  kind : CardKind
  cid : Image
  csd : Image
  blockCount : BitVec 64
  lastCrc16 : BitVec 16
  calcCrc16 : BitVec 16
  deriving DecidableEq, Repr

/-- The sequencer registers (R25, R26). -/
structure Sequencer where
  op : Op
  fsm : Fsm
  cfsm : Cfsm
  deriving DecidableEq, Repr

/-- The flags and working registers (R28, R29, R31, R35, R36, R37). -/
structure Working where
  status : Byte
  rto : Bool
  dresp : Byte
  dl0 : Clock
  dl1 : Clock
  csActive : Bool
  frame : Frame
  r7 : Vector Byte 4
  ocr0 : Byte
  scratch : Memory
  deriving DecidableEq, Repr

/-- The request registers `REQ` (R33): the operation code, its operands, the host buffer. -/
structure Request where
  op : BitVec 4
  index : BitVec 64
  len : BitVec 32
  buf : Memory
  deriving DecidableEq, Repr

/-- The result registers `RES` (R33). `tcode` is a number below 2^TCODE_W (log 18). -/
structure Result where
  kind : BitVec 4
  status : Byte
  tcode : Nat
  data : BitVec 128
  deriving DecidableEq, Repr

/-- The two OPEN parameters of R7, fixed for the machine; no instruction writes them (log 4).
`N_RESP_POLL` is `pollExtra + 1`, so that it is at least 1. -/
structure Params where
  pollExtra : Nat
  tcodeW : Nat
  deriving DecidableEq, Repr

/-- What one exchange answers (R60): a received byte, or the transport's failure code. -/
inductive Answer where
  | byte (b : Byte)
  | fail (code : Nat)
  deriving DecidableEq, Repr

/-- The environment's inputs (R9, R10): the queued answers of the transport and samples of the clock,
oldest first, how many of each were drawn, the last sample, and how many free samples may still come before
one must be later than the last (log 1, log 2). -/
structure Env where
  rx : List Answer
  clk : List Clock
  rxCount : Nat
  clkCount : Nat
  lastClk : Clock
  hold : Nat
  deriving DecidableEq, Repr

/-- What the transport side and the clock observe of the engine (R15, R63, R64). -/
inductive Event where
  /-- A change of the chip-select level. -/
  | cs (active : Bool)
  /-- One exchange: the byte sent and the answer. -/
  | xchg (sent : Byte) (got : Answer)
  /-- One clock sample. -/
  | sample (t : Clock)
  deriving DecidableEq, Repr

/-- The state of the engine. `hostPort` is a request the host has made and the engine has not taken (R340,
R341; log 8), `cmdPort` a command handed to the command engine on its own (log 7). -/
structure State where
  ses : Session
  seq : Sequencer
  wrk : Working
  req : Request
  res : Result
  par : Params
  env : Env
  trace : List Event
  hostPort : Option Request
  cmdPort : Option Code
  deriving DecidableEq, Repr

/-- The state after reset (R41, R400): every register of the spec at the value its table gives. The
model's own fields: the parameters and the hold of the clock at opaque constants (log 2, log 4), the inputs,
the history and the two ports empty (log 10). -/
def State.reset : State where
  ses :=
    { kind := .none, cid := Vector.replicate 16 0x00#8, csd := Vector.replicate 16 0x00#8
      blockCount := 0#64, lastCrc16 := 0x0000#16, calcCrc16 := 0x0000#16 }
  seq := { op := .idle, fsm := .fIdle, cfsm := .cOff }
  wrk :=
    { status := 0xFF#8, rto := false, dresp := 0x00#8, dl0 := 0#64, dl1 := 0#64, csActive := false
      frame := Vector.replicate 6 0x00#8, r7 := Vector.replicate 4 0x00#8, ocr0 := 0x00#8, scratch := [] }
  req := { op := 0x0#4, index := 0#64, len := 0#32, buf := [] }
  res := { kind := 0x0#4, status := 0x00#8, tcode := 0, data := 0#128 }
  par := { pollExtra := Config.pollExtra, tcodeW := Config.tcodeW }
  env := { rx := [], clk := [], rxCount := 0, clkCount := 0, lastClk := 0#64, hold := Config.firstHold }
  trace := []
  hostPort := Option.none
  cmdPort := Option.none

/-- The machine stops with a fault. -/
inductive Fault where
  /-- Raised by `MemRead` and `MemWrite` (`bufRead`, `bufWrite`, `scratchWrite`) for an offset outside
  the 512 bytes of a buffer, which does not exist (R13, R67). No rule makes such an access. Safe. -/
  | bufferAddress
  deriving DecidableEq, Repr

/-- The model gives no move. -/
inductive Refusal where
  /-- Raised by `exec` for an instruction that has no meaning yet. Safe. -/
  | notModelled (mnemonic : String)
  /-- Raised by every host operation requested while `S.op ≠ IDLE`, and by the step that finds such a
  request in the host port (R341, U1: refuse). Safe. -/
  | requestWhileBusy
  /-- Raised by the reserved operation codes 0xB to 0xF (R342, U2: refuse). Safe. -/
  | reservedOperation
  /-- Raised by the load of a deadline that does not fit 64 bits: the clock is at its wrap (R160, U15:
  refuse). Safe. -/
  | clockWrap
  /-- Raised by a wait whose clock does not reach the deadline (R163, the fairness assumption). The
  model's clock is fair, so no run meets it (log 22). Safe. -/
  | clockUnfair
  /-- Raised by the step when the command port holds bytes that are no instruction. Safe. -/
  | illegalEncoding (why : DecodeError)
  /-- Raised by the step when (`S.op`, `S.fsm`, `S.cfsm`) is no pair of R25's table with the command
  engine off, or when the command port holds a command that the running operation does not issue
  (R92). Safe (log 16). -/
  | sequencerState
  deriving DecidableEq, Repr

end Sys2Proof.Machine
end

