-- ==== Sys2Proof/Machine/Ops.lean ====
section
/-! DEFINITION. The pseudocode primitives of 00_scope.md R13 as operations on State: the register
writes, chip-select, the exchange, the clock, the buffers, `raise`, and the exit actions. A procedure of
the spec is a `Proc`: it ends with a value and a state, or it stops with a reason and the state at that
point (R372: nothing is rolled back). -/

namespace Sys2Proof.Machine

/-- The error kinds of R360 with what each records (R361). -/
inductive Err where
  | transport (code : Nat)
  | noCard
  | notSupported
  | protocol (status : Byte)
  | ifcondMismatch
  | noBlocks
  | bufLen
  | range
  | startToken
  | writeReject
  | writeTimeout
  | respTimeout
  deriving DecidableEq, Repr

/-- Why a procedure stops before its end. -/
inductive Stop where
  /-- `raise E(info)` (R13): the host operation ends with this error. -/
  | raise (e : Err)
  /-- The machine stops with a fault. -/
  | fault (f : Fault)
  /-- The model gives no move. -/
  | refuse (r : Refusal)
  deriving DecidableEq, Repr

/-- A procedure of the spec. -/
abbrev Proc := EStateM Stop State

/-- Read the state. -/
def rd : Proc State := fun s => .ok s s

/-- Write registers. -/
def upd (f : State → State) : Proc Unit := fun s => .ok () (f s)

/-- Stop with a reason; the state stays as it is. -/
def stop {α : Type} (r : Stop) : Proc α := fun s => .error r s

/-- `raise E(info)` (R13, R366). -/
def raise {α : Type} (e : Err) : Proc α := stop (.raise e)

/-! ### Register writes -/

/-- The code of `S.kind` (R21). -/
def CardKind.code : CardKind → BitVec 2
  | .none => 0#2
  | .sd1 => 1#2
  | .sd2 => 2#2
  | .sdhc => 3#2

/-- The code of an error kind in `RES.kind` (R360). -/
def Err.code : Err → BitVec 4
  | .transport _ => 1#4
  | .noCard => 2#4
  | .notSupported => 3#4
  | .protocol _ => 4#4
  | .ifcondMismatch => 5#4
  | .noBlocks => 6#4
  | .bufLen => 7#4
  | .range => 8#4
  | .startToken => 9#4
  | .writeReject => 10#4
  | .writeTimeout => 11#4
  | .respTimeout => 12#4

/-- `RES.kind` of a completion: `E_OK` = 0 (R360). -/
def kindCode : Option Err → BitVec 4
  | some e => e.code
  | none => 0#4

/-- `RES.status` of a completion: the raw status with `E_PROTOCOL`, otherwise 0 (R361). -/
def statusInfo : Option Err → Byte
  | some (.protocol st) => st
  | _ => 0x00#8

/-- `RES.tcode` of a completion: the transport's code with `E_TRANSPORT`, otherwise 0 (R361). -/
def tcodeInfo : Option Err → Nat
  | some (.transport c) => c
  | _ => 0

/-- `fsm <- X` (R13, R25). -/
def goFsm (x : Fsm) : Proc Unit := upd fun s => { s with seq.fsm := x }

/-- `S.cfsm <- X` (R26). -/
def goCfsm (x : Cfsm) : Proc Unit := upd fun s => { s with seq.cfsm := x }

/-- `S.status <- b; S.rto <- t; S.cfsm <- C_OFF`: the end of a command (R28, R29, R186). -/
def endCommand (b : Byte) (t : Bool) : Proc Unit :=
  upd fun s => { s with wrk.status := b, wrk.rto := t, seq.cfsm := .cOff }

/-- `S.kind <- k` (R20, R22). -/
def setKind (k : CardKind) : Proc Unit := upd fun s => { s with ses.kind := k }

/-! ### Chip-select -/

/-- The chip-select latch at level `a`; only a change of level is an event (R36, R64). -/
def State.withCs (s : State) (a : Bool) : State :=
  if s.wrk.csActive = a then s else { s with wrk.csActive := a, trace := .cs a :: s.trace }

/-- `cs(a)` (R13, R36). -/
def cs (a : Bool) : Proc Unit := upd fun s => s.withCs a

/-! ### The exchange -/

/-- An answer as the transport port delivers it: a failure code has `TCODE_W` bits (R60, D35; log 18). -/
def Answer.trim (w : Nat) : Answer → Answer
  | .byte b => .byte b
  | .fail code => .fail (code % 2 ^ w)

/-- The free answer of the n-th exchange (log 1). -/
def freeAnswer (n : Nat) : Answer :=
  if Config.freeFails n then .fail (Config.freeCode n) else .byte (Config.freeByte n)

/-- The answer the next exchange gets: the oldest queued one, or a free one (R60, U6; log 1). -/
def State.nextAnswer (s : State) : Answer :=
  match s.env.rx with
  | a :: _ => a.trim s.par.tcodeW
  | [] => (freeAnswer s.env.rxCount).trim s.par.tcodeW

/-- The state after one exchange that sent `b`: the answer is drawn, the event recorded (R63). -/
def State.afterXchg (s : State) (b : Byte) : State :=
  { s with
    env.rx := s.env.rx.tail
    env.rxCount := s.env.rxCount + 1
    trace := .xchg b s.nextAnswer :: s.trace }

/-- `xchg(b)` (R13, R60); a failure ends the host operation at once (R14, R239). -/
def xchg (b : Byte) : Proc Byte := fun s =>
  match s.nextAnswer with
  | .byte r => .ok r (s.afterXchg b)
  | .fail code => .error (.raise (.transport code)) (s.afterXchg b)

/-- `_ <- xchg(b)` for each byte of a list, in order (R61, R62). -/
def sendAll : List Byte → Proc Unit
  | [] => pure ()
  | b :: bs => do
    let _ ← xchg b
    sendAll bs

/-- `n` exchanges of `FILL` whose received bytes are discarded (R62). -/
def discard (n : Nat) : Proc Unit := sendAll (List.replicate n Config.fill)

/-- `n` exchanges of `FILL`, the received bytes in order. -/
def receive : Nat → Proc (List Byte)
  | 0 => pure []
  | n + 1 => do
    let b ← xchg Config.fill
    let bs ← receive n
    pure (b :: bs)

/-! ### The clock -/

/-- The free sample after `last`: no earlier, by an unknown amount, and within 64 bits (R160, U7); later, if no
sample is left that need not be (R163; log 2). -/
def freeSample (last : Clock) (n hold : Nat) : Clock :=
  let room := 2 ^ 64 - 1 - last.toNat
  let least := if hold = 0 then min 1 room else 0
  BitVec.ofNat 64 (last.toNat + least + (Config.freeTick n).toNat % (room - least + 1))

/-- The next clock sample: the oldest queued one, read as no earlier than the last, or a free one
(R160, U7; log 2). -/
def Env.nextSample (e : Env) : Clock :=
  match e.clk with
  | t :: _ => if t.toNat < e.lastClk.toNat then e.lastClk else t
  | [] => freeSample e.lastClk e.clkCount e.hold

/-- How many free samples after the next need not be later than the one before: a queued sample counts for
none of them, and a sample that had to be later leaves a free number (R163; log 2). -/
def Env.nextHold (e : Env) : Nat :=
  match e.clk, e.hold with
  | _ :: _, h => h
  | [], 0 => Config.freeHold e.clkCount
  | [], h + 1 => h

/-- The inputs after one clock sample. -/
def Env.afterSample (e : Env) : Env :=
  { e with clk := e.clk.tail, clkCount := e.clkCount + 1, lastClk := e.nextSample, hold := e.nextHold }

/-- The next clock sample of the engine. -/
def State.nextSample (s : State) : Clock := s.env.nextSample

/-- The state after one clock sample. -/
def State.afterSample (s : State) : State :=
  { s with env := s.env.afterSample, trace := .sample s.nextSample :: s.trace }

/-- `now()` (R13, R160). -/
def now : Proc Clock := fun s => .ok s.nextSample s.afterSample

/-- `now() + T` (R161); a deadline past 64 bits means that the clock wraps: refused (R160, U15; log 3). -/
def deadline (T : Nat) : Proc Clock := do
  let t ← now
  if t.toNat + T < 2 ^ 64 then pure (BitVec.ofNat 64 (t.toNat + T)) else stop (.refuse .clockWrap)

/-- `load(DL0, T)` (R161, R165). -/
def loadDl0 (T : Nat) : Proc Unit := do
  let d ← deadline T
  upd fun s => { s with wrk.dl0 := d }

/-- `load(DL1, T)` (R161, R165). -/
def loadDl1 (T : Nat) : Proc Unit := do
  let d ← deadline T
  upd fun s => { s with wrk.dl1 := d }

/-- `expired(DL0)`: `now() ≥ S.DL0`, one sample (R162). -/
def expiredDl0 : Proc Bool := do
  let t ← now
  let s ← rd
  pure (decide (s.wrk.dl0.toNat ≤ t.toNat))

/-- `expired(DL1)`: `now() ≥ S.DL1`, one sample (R162). -/
def expiredDl1 : Proc Bool := do
  let t ← now
  let s ← rd
  pure (decide (s.wrk.dl1.toNat ≤ t.toNat))

/-- How many free samples the clock can take to advance by `t` ms, when `n` samples were drawn and the next
`h` need not be later than the one before (R163; log 22). -/
def freeBound : Nat → Nat → Nat → Nat
  | 0, _, _ => 0
  | t + 1, n, 0 => freeBound t (n + 1) (Config.freeHold n) + 1
  | t + 1, n, h + 1 => freeBound t (n + h + 2) (Config.freeHold (n + h + 1)) + h + 2

/-- How many deadline tests a wait of `T` ms can take at most: every queued sample, then the free ones
(R163; log 22). -/
def Env.waitBound (e : Env) (T : Nat) : Nat :=
  freeBound T (e.clkCount + e.clk.length) e.hold + e.clk.length + 1

/-! ### The buffers -/

/-- The byte at offset `a`; an unlisted offset reads as the reset contents 0x00 (R41; log 13). -/
def Memory.get (m : Memory) (a : Nat) : Byte :=
  match m with
  | [] => 0x00#8
  | (k, v) :: rest => if k = a then v else Memory.get rest a

/-- The memory with byte `v` at offset `a`, in canonical form: offsets strictly rising, no 0x00 listed. -/
def Memory.set (m : Memory) (a : Nat) (v : Byte) : Memory :=
  match m with
  | [] => if v = 0x00#8 then [] else [(a, v)]
  | (k, w) :: rest =>
    if a < k then (if v = 0x00#8 then (k, w) :: rest else (a, v) :: (k, w) :: rest)
    else if a = k then (if v = 0x00#8 then rest else (a, v) :: rest)
    else (k, w) :: Memory.set rest a v

/-- Canonical from offset `lo` on: strictly rising offsets in `lo .. 511`, no 0x00 listed. -/
def Memory.wfFrom (lo : Nat) : Memory → Bool
  | [] => true
  | (k, v) :: rest =>
    decide (lo ≤ k) && decide (k < Config.blockLen) && decide (v ≠ 0x00#8) && Memory.wfFrom (k + 1) rest

/-- The canonical form of a 512-byte buffer. -/
def Memory.wf (m : Memory) : Bool := Memory.wfFrom 0 m

/-- The bytes `bs` written at the offsets from `a` on. -/
def Memory.write (m : Memory) (a : Nat) : List Byte → Memory
  | [] => m
  | b :: bs => Memory.write (m.set a b) (a + 1) bs

/-- The bytes at offsets `a .. a + n − 1`, ascending. -/
def Memory.bytes (m : Memory) : Nat → Nat → List Byte
  | _, 0 => []
  | a, n + 1 => Memory.get m a :: Memory.bytes m (a + 1) n

/-- `MemRead(i, 1)` (R13). -/
def bufRead (i : Nat) : Proc Byte := fun s =>
  if i < Config.blockLen then .ok (s.req.buf.get i) s else .error (.fault .bufferAddress) s

/-- `MemWrite(i, 1, v)` (R13). -/
def bufWrite (i : Nat) (v : Byte) : Proc Unit := fun s =>
  if i < Config.blockLen then .ok () { s with req.buf := s.req.buf.set i v }
  else .error (.fault .bufferAddress) s

/-- `S.scratch[i] <- v` (R37, R320). -/
def scratchWrite (i : Nat) (v : Byte) : Proc Unit := fun s =>
  if i < Config.blockLen then .ok () { s with wrk.scratch := s.wrk.scratch.set i v }
  else .error (.fault .bufferAddress) s

/-! ### The exit actions: this block's exception entry -/

/-- `exit(kind, info)` (R372): deselect, write `RES`, return the sequencers to idle. Nothing is saved and
control goes nowhere (R373); there is no return from it (R374). `none` is the success exit. -/
def exitActions (r : Option Err) (s : State) : State :=
  let t := s.withCs false
  { t with
    res.kind := kindCode r
    res.status := statusInfo r
    res.tcode := tcodeInfo r
    seq := { op := .idle, fsm := .fIdle, cfsm := .cOff } }

/-- The outcome of a procedure: an error ends the operation through the exit actions (R13, R366, R374). -/
def settle (p : Proc Unit) (s : State) : Host.Outcome State Fault Refusal :=
  match p s with
  | .ok _ t => .next t
  | .error (.raise e) t => .next (exitActions (some e) t)
  | .error (.fault f) _ => .fault f
  | .error (.refuse r) _ => .refused r

/-- A host operation: taken only when the engine is idle (R340); a request while an operation runs has
no move (R341, U1). -/
def hostCall (p : Proc Unit) (s : State) : Host.Outcome State Fault Refusal :=
  if s.seq.op = .idle then settle p s else .refused .requestWhileBusy

/-- The end of an operation that succeeded (R237, R304, R314): the exit actions with `E_OK`. -/
def finish : Proc Unit := upd (exitActions none)

/-- The request registers as the host writes them: the code and every operand, with the 512 bytes of the
host buffer at offsets 0 to 511 (R33, R67, R340). -/
def Request.of (code : BitVec 4) (index : BitVec 64) (len : BitVec 32) (bytes : Vector Byte 512) : Request :=
  { op := code, index := index, len := len, buf := Memory.write [] 0 bytes.toList }

/-- The host makes a request: what it writes to `REQ` stands in the host port until the next step, in which
an idle engine takes it (R340) and a busy one has no move (R341; log 8). A second request made before the first
is taken breaks R410's wait, which gives that no behaviour: here it replaces the first, which never runs
(DESIGN CHOICE, log 8). -/
def State.request (s : State) (code : BitVec 4) (index : BitVec 64) (len : BitVec 32)
    (bytes : Vector Byte 512) : State :=
  { s with hostPort := some (Request.of code index len bytes) }

/-- The host's write of `REQ` reaches the registers and the host port is empty (R33, R340). -/
def State.take (s : State) (r : Request) : State := { s with req := r, hostPort := none }

/-- The reset of the block at any moment (R400, R402, U21): every register at its reset value,
chip-select at its deselected level, no byte exchanged; parameters, inputs and history stay (log 20). -/
def State.blockReset (s : State) : State :=
  { State.reset with par := s.par, env := s.env, trace := (s.withCs false).trace }

end Sys2Proof.Machine
end

