-- ==== Sys2Proof/Machine/Flags.lean ====
section
/-! DEFINITION. The combinational tests on received bytes: the R1 flag predicates and the response
classifier (R97, R189 to R191), the R7 payload, the OCR byte, the tokens and the busy byte (R98 to R103),
and the derived flag `ready` (R30). -/

namespace Sys2Proof.Machine

/-- The pending test (R189): bit 7 set, no response yet. -/
def pending (b : Byte) : Bool := b.getLsbD 7

/-- `idle(s)` (R97, R191). -/
def idleFlag (s : Byte) : Bool := s.getLsbD 0

/-- `erase_reset(s)` (R97, R191). -/
def eraseReset (s : Byte) : Bool := s.getLsbD 1

/-- `illegal_command(s)` (R97, R191). -/
def illegalCommand (s : Byte) : Bool := s.getLsbD 2

/-- `crc_error(s)` (R97, R191). -/
def crcError (s : Byte) : Bool := s.getLsbD 3

/-- `erase_sequence_error(s)` (R97, R191). -/
def eraseSequenceError (s : Byte) : Bool := s.getLsbD 4

/-- `address_error(s)` (R97, R191). -/
def addressError (s : Byte) : Bool := s.getLsbD 5

/-- `parameter_error(s)` (R97, R191). -/
def parameterError (s : Byte) : Bool := s.getLsbD 6

/-- The classes of a command's result (R190). -/
inductive RespClass where
  | timeout
  | clear
  | idleOnly
  | flagged
  deriving DecidableEq, Repr

/-- `classify(status, rto)` (R190): a time-out is told by `rto`, never by the status (R192, R418). -/
def classify (status : Byte) (rto : Bool) : RespClass :=
  if rto then .timeout
  else if status = 0x00#8 then .clear
  else if status = 0x01#8 then .idleOnly
  else .flagged

/-- The R7 payload passes (R98): low nibble of the third byte 1, fourth byte 0xAA. -/
def r7Ok (p : Vector Byte 4) : Bool := p[2].extractLsb' 0 4 == 0x1#4 && p[3] == 0xAA#8

/-- The first OCR byte names a high-capacity card (R99, R231): top two bits set. -/
def ocrHighCapacity (b : Byte) : Bool := b.extractLsb' 6 2 == 0b11#2

/-- The classes of a byte in the start-token wait (R100). -/
inductive Token where
  | start
  | idleLine
  | invalid
  deriving DecidableEq, Repr

/-- The class of a byte in the start-token wait (R100, R112). -/
def tokenClass (b : Byte) : Token :=
  if b = Config.startToken then .start else if b = Config.idleLine then .idleLine else .invalid

/-- The data-response token says "accepted" (R102, R317): low 5 bits 0b00101. -/
def writeAccepted (t : Byte) : Bool := t &&& 0x1F#8 == 0x05#8

/-- The busy byte says "not-busy" (R103). -/
def notBusy (b : Byte) : Bool := b == Config.idleLine

/-- The derived flag `ready` (R30, R376). -/
def State.ready (s : State) : Bool := s.ses.blockCount != 0#64

end Sys2Proof.Machine
end

