-- ==== Sys2Proof/Machine/Operands.lean ====
section
/-! DEFINITION. The operands: the two request checks and the address translation (R300 to R303), and the
128-bit values the getters return (R344 to R350). -/

namespace Sys2Proof.Machine

/-- `translate(index)` (R300): the block number for SDHC/SDXC, otherwise the byte address `index << 9`;
`none` where that needs more than 32 bits (D26). -/
def translate (k : CardKind) (index : BitVec 64) : Option (BitVec 32) :=
  if k = .sdhc then some (index.extractLsb' 0 32)
  else if index.toNat * 512 < 2 ^ 32 then some (BitVec.ofNat 32 (index.toNat * 512))
  else none

/-- The checks of `R_CHECK` and `W_CHECK` in their order (R301, R302, R300, R303): the first that fails
decides the error kind. The value is the translated address. -/
def checkRequest (ses : Session) (req : Request) : Except Err (BitVec 32) :=
  if req.len ≠ 512#32 then .error .bufLen
  else if ses.blockCount.toNat ≤ req.index.toNat then .error .range
  else
    match translate ses.kind req.index with
    | none => .error .range
    | some a => .ok a

/-- A 16-byte image as one 128-bit number, byte 0 in bits 127:120 (R12, R345). -/
def imageWord (img : Image) : BitVec 128 :=
  img[0] ++ img[1] ++ img[2] ++ img[3] ++ img[4] ++ img[5] ++ img[6] ++ img[7] ++
  img[8] ++ img[9] ++ img[10] ++ img[11] ++ img[12] ++ img[13] ++ img[14] ++ img[15]

/-- A 16-byte image from received bytes (R69). -/
def imageOf (bytes : List Byte) : Image := Vector.ofFn fun i => bytes.getD i.val 0x00#8

end Sys2Proof.Machine
end

