-- ==== Sys2Proof/Machine/HostOps.lean ====
section
/-! DEFINITION. The host operations that complete at once (46_host_operations.md): NOP, the getters, and
the reserved codes. -/

namespace Sys2Proof.Machine

/-- `RES.kind <- E_OK; RES.status <- 0; RES.tcode <- 0` (R343 to R350). -/
def completeOk : Proc Unit :=
  upd fun s => { s with res.kind := 0#4, res.status := 0x00#8, res.tcode := 0 }

/-- A getter (R344 to R351): `RES.data <- v`, then success. -/
def getter (v : State → BitVec 128) : Proc Unit := do
  upd fun s => { s with res.data := v s }
  completeOk

/-- `NOP` (R343): `RES.data` stays. -/
def execNop (s : State) : Host.Outcome State Fault Refusal := hostCall completeOk s

/-- `BLKCNT` (R344). -/
def execBlkcnt (s : State) : Host.Outcome State Fault Refusal :=
  hostCall (getter fun t => t.ses.blockCount.setWidth 128) s

/-- `CID` (R345). -/
def execCid (s : State) : Host.Outcome State Fault Refusal := hostCall (getter fun t => imageWord t.ses.cid) s

/-- `CSD` (R346). -/
def execCsd (s : State) : Host.Outcome State Fault Refusal := hostCall (getter fun t => imageWord t.ses.csd) s

/-- `LASTCRC` (R347). -/
def execLastcrc (s : State) : Host.Outcome State Fault Refusal :=
  hostCall (getter fun t => t.ses.lastCrc16.setWidth 128) s

/-- `KIND` (R348). -/
def execKind (s : State) : Host.Outcome State Fault Refusal :=
  hostCall (getter fun t => t.ses.kind.code.setWidth 128) s

/-- `CALCCRC` (R349). -/
def execCalccrc (s : State) : Host.Outcome State Fault Refusal :=
  hostCall (getter fun t => t.ses.calcCrc16.setWidth 128) s

/-- `CSDVALID` (R350). -/
def execCsdvalid (s : State) : Host.Outcome State Fault Refusal :=
  hostCall (getter fun t => (BitVec.ofBool (csdIsValid t.ses.csd)).setWidth 128) s

/-- Code 0xB (R342, U2): no behaviour is specified and the model gives it no move. -/
def execReservedB (_ : State) : Host.Outcome State Fault Refusal := .refused .reservedOperation

/-- Code 0xC (R342, U2): no behaviour is specified and the model gives it no move. -/
def execReservedC (_ : State) : Host.Outcome State Fault Refusal := .refused .reservedOperation

/-- Code 0xD (R342, U2): no behaviour is specified and the model gives it no move. -/
def execReservedD (_ : State) : Host.Outcome State Fault Refusal := .refused .reservedOperation

/-- Code 0xE (R342, U2): no behaviour is specified and the model gives it no move. -/
def execReservedE (_ : State) : Host.Outcome State Fault Refusal := .refused .reservedOperation

/-- Code 0xF (R342, U2): no behaviour is specified and the model gives it no move. -/
def execReservedF (_ : State) : Host.Outcome State Fault Refusal := .refused .reservedOperation

end Sys2Proof.Machine
end

