-- ==== Sys2Proof/Machine/Timer.lean ====
section
/-! DEFINITION. The busy-wait timeout controller (41_timeout_busywait.md): the busy-wait over DL1. The
loops of the spec recurse on a bound that the clock's fairness makes sufficient (R163; log 22). -/

namespace Sys2Proof.Machine

/-- The results of a busy-wait (R164). -/
inductive Wait where
  | ready
  | expired
  deriving DecidableEq, Repr

/-- The loop of `wait_not_busy` (R164): exchange, test the byte, test the deadline (D6). -/
def busyLoop : Nat → Proc Wait
  | 0 => stop (.refuse .clockUnfair)
  | n + 1 => do
    let b ← xchg Config.fill
    if notBusy b then pure .ready
    else
      let e ← expiredDl1
      if e then pure .expired else busyLoop n

/-- `wait_not_busy(T)` (R164). -/
def waitNotBusy (T : Nat) : Proc Wait := do
  loadDl1 T
  let s ← rd
  busyLoop (s.env.waitBound T)

/-- The loop of `wait_start_token` (R305): exchange, test the byte, test the deadline (D6). -/
def tokenLoop : Nat → Proc Unit
  | 0 => stop (.refuse .clockUnfair)
  | n + 1 => do
    let b ← xchg Config.fill
    match tokenClass b with
    | .start => pure ()
    | .invalid => do
      cs false
      raise .startToken
    | .idleLine => do
      let e ← expiredDl1
      if e then do
        cs false
        raise .startToken
      else tokenLoop n

/-- `wait_start_token()` (R305), the data-token synchronizer. -/
def waitStartToken : Proc Unit := do
  loadDl1 Config.tToken
  let s ← rd
  tokenLoop (s.env.waitBound Config.tToken)

end Sys2Proof.Machine
end

