-- ==== Sys2Proof/Machine/Command.lean ====
section
/-! DEFINITION. The command protocol engine (42_command_engine.md): the framer, the response poll, the
procedures built on them, and the meanings of the command rows that end with the R1 byte or a few bytes
after it. -/

namespace Sys2Proof.Machine

/-! ### The framer -/

/-- The six bytes of `build_frame(index, arg)` (R181, R90, R91). -/
def frameOf (index : BitVec 6) (arg : BitVec 32) : Frame :=
  let f0 : Byte := 0x40#8 ||| index.setWidth 8
  let f1 : Byte := arg.extractLsb' 24 8
  let f2 : Byte := arg.extractLsb' 16 8
  let f3 : Byte := arg.extractLsb' 8 8
  let f4 : Byte := arg.extractLsb' 0 8
  #v[f0, f1, f2, f3, f4, crcStopByte (crc7 [f0, f1, f2, f3, f4])]

/-- `S.frame <- f` (R181). -/
def setFrame (f : Frame) : Proc Unit := upd fun s => { s with wrk.frame := f }

/-- The response poll of R186 step 5, `n` exchanges at most; `none` if no response came (R189). -/
def pollResponse : Nat → Proc (Option Byte)
  | 0 => pure none
  | n + 1 => do
    let b ← xchg Config.fill
    if pending b then pollResponse n else pure (some b)

/-- What a command returns (R186): the status and the time-out flag. -/
structure Reply where
  status : Byte
  rto : Bool
  deriving DecidableEq, Repr

/-- The end of R186 when a response came. -/
def respond (b : Byte) : Proc Reply := do
  endCommand b false
  pure { status := b, rto := false }

/-- The time-out path of R186: deselect, one filler byte, status all ones, `rto` set (R192). -/
def timeOut : Proc Reply := do
  goCfsm .cTimeout
  cs false
  discard 1
  endCommand 0xFF#8 true
  pure { status := 0xFF#8, rto := true }

/-- Step 2 of R186: the busy-wait before the frame, its result ignored (R187); skipped for the
stream-stop command (R188). -/
def busyPhase (index : BitVec 6) : Proc Unit :=
  if index = 12#6 then pure ()
  else do
    goCfsm .cBusy
    let _ ← waitNotBusy Config.tCmdBusy

/-- Step 3 of R186: the frame. -/
def framePhase (index : BitVec 6) (arg : BitVec 32) : Proc Unit := do
  goCfsm .cFrame
  setFrame (frameOf index arg)
  sendAll (frameOf index arg).toList

/-- Step 4 of R186: the stuff byte, after the stream-stop command only (R188, R95). -/
def stuffPhase (index : BitVec 6) : Proc Unit :=
  if index = 12#6 then do
    goCfsm .cStuff
    discard 1
  else pure ()

/-- Steps 1 to 4 of R186: select, busy-wait, frame, stuff byte. -/
def sendCommand (index : BitVec 6) (arg : BitVec 32) : Proc Unit := do
  goCfsm .cSelect
  cs true
  busyPhase index
  framePhase index arg
  stuffPhase index

/-- Step 5 and the two endings of R186. -/
def finishCommand (r : Option Byte) : Proc Reply :=
  match r with
  | some b => respond b
  | none => timeOut

/-- `issue_command(index, arg)` (R186). -/
def issueCommand (index : BitVec 6) (arg : BitVec 32) : Proc Reply := do
  sendCommand index arg
  goCfsm .cPoll
  let s ← rd
  let r ← pollResponse (s.par.pollExtra + 1)
  finishCommand r

/-- `issue_app_command(index, arg)` (R193): the prefix's status is not examined; its time-out stops the
target command (D11). -/
def issueAppCommand (index : BitVec 6) (arg : BitVec 32) : Proc Reply := do
  let p ← issueCommand 55#6 0#32
  if p.rto then pure { status := 0xFF#8, rto := true } else issueCommand index arg

/-- `ensure_zero_status(index, arg)` (R194): time-out before status (R366). -/
def ensureZeroStatus (index : BitVec 6) (arg : BitVec 32) : Proc Unit := do
  let r ← issueCommand index arg
  match classify r.status r.rto with
  | .timeout => raise .respTimeout
  | .clear => pure ()
  | .idleOnly => raise (.protocol r.status)
  | .flagged => raise (.protocol r.status)

/-! ### The two commands with a short reply after R1 -/

/-- One byte of the R7 payload: `S.r7[i] <- xchg(0xFF)` (R225). -/
def receiveR7 (i : Fin 4) : Proc Unit := do
  let b ← xchg Config.fill
  upd fun s => { s with wrk.r7 := s.wrk.r7.set i b }

/-- The R7 payload received and tested (R225, R98). -/
def classifyPayload : Proc Unit := do
  receiveR7 0
  receiveR7 1
  receiveR7 2
  receiveR7 3
  let s ← rd
  if r7Ok s.wrk.r7 then setKind .sd2 else raise .ifcondMismatch

/-- The interface-condition exchange (R197, R225): time-out, then illegal-command, then the payload
(R366); `S.kind` is classified SD1 or SD2. -/
def interfaceCondition (arg : BitVec 32) : Proc Unit := do
  let r ← issueCommand 8#6 arg
  if r.rto then raise .respTimeout
  else if illegalCommand r.status then do
    setKind .sd1
    raise .notSupported
  else classifyPayload

/-- `S.ocr0 <- b` (R230). -/
def setOcr0 (b : Byte) : Proc Unit := upd fun s => { s with wrk.ocr0 := b }

/-- `if S.ocr0[7:6] = 0b11: S.kind <- SDHC` (R230, R231). -/
def reclassify (b : Byte) : Proc Unit := if ocrHighCapacity b then setKind .sdhc else pure ()

/-- The OCR read (R206, R230, R231): zero status, the first byte tested, three bytes discarded. -/
def readOcr (arg : BitVec 32) : Proc Unit := do
  ensureZeroStatus 58#6 arg
  let b ← xchg Config.fill
  setOcr0 b
  reclassify b
  discard 3

/-! ### The meanings -/

/-- A command whose reply is R1 alone: the reply stays in `S.status` and `S.rto`. -/
def issueOnly (index : BitVec 6) (arg : BitVec 32) : Proc Unit := do
  let _ ← issueCommand index arg

/-- `CMD0` (R196). -/
def execCmd0 (arg : BitVec 32) (s : State) : Host.Outcome State Fault Refusal := settle (issueOnly 0#6 arg) s

/-- `CMD8` (R197). -/
def execCmd8 (arg : BitVec 32) (s : State) : Host.Outcome State Fault Refusal := settle (interfaceCondition arg) s

/-- `CMD12` (R200, R188). -/
def execCmd12 (arg : BitVec 32) (s : State) : Host.Outcome State Fault Refusal := settle (issueOnly 12#6 arg) s

/-- `CMD16` (R201). -/
def execCmd16 (arg : BitVec 32) (s : State) : Host.Outcome State Fault Refusal := settle (ensureZeroStatus 16#6 arg) s

/-- `CMD55` (R204): the reply is not examined. -/
def execCmd55 (arg : BitVec 32) (s : State) : Host.Outcome State Fault Refusal := settle (issueOnly 55#6 arg) s

/-- `CMD41` (R205). -/
def execCmd41 (arg : BitVec 32) (s : State) : Host.Outcome State Fault Refusal := settle (issueOnly 41#6 arg) s

/-- `CMD58` (R206). -/
def execCmd58 (arg : BitVec 32) (s : State) : Host.Outcome State Fault Refusal := settle (readOcr arg) s

/-- `ACMD41` (R131, R193). -/
def execAcmd41 (arg : BitVec 32) (s : State) : Host.Outcome State Fault Refusal :=
  settle (do let _ ← issueAppCommand 41#6 arg) s

/-- `ZCMDn` (R131, R194). -/
def execZcmd (n : BitVec 6) (arg : BitVec 32) (s : State) : Host.Outcome State Fault Refusal :=
  settle (ensureZeroStatus n arg) s

end Sys2Proof.Machine
end

