-- ==== Sys2Proof/Machine/Transfer.lean ====
section
/-! DEFINITION. The block transfer state machine (45_block_transfer.md): the steps of RDBLK and WRBLK,
the register read, and the meanings of the instructions with a data phase. `fromX` runs a sequence from
the start of its step X to its end (R311, R319). -/

namespace Sys2Proof.Machine

/-- The engine takes an operation: `S.op` and the first step (R340). -/
def start (op : Op) (fsm : Fsm) : Proc Unit := upd fun s => { s with seq.op := op, seq.fsm := fsm }

/-! ### The data phase of a read -/

/-- `k` data bytes into the host buffer from offset `i` on, the CRC register at `c` (R304 R_DATA, R307). -/
def receiveBlock : Nat → Nat → BitVec 16 → Proc (BitVec 16)
  | 0, _, c => pure c
  | k + 1, i, c => do
    let b ← xchg Config.fill
    bufWrite i b
    receiveBlock k (i + 1) (crc16Update c b)

/-- `S.last_crc16 <- observed; S.calc_crc16 <- computed` (R309, R310). -/
def setCrcs (observed computed : BitVec 16) : Proc Unit :=
  upd fun s => { s with ses.lastCrc16 := observed, ses.calcCrc16 := computed }

/-- The two trailing bytes recorded, the generator's output recorded, the card deselected
(R304 R_CRC, R308, R309, R310). -/
def recordCrc (c : BitVec 16) : Proc Unit := do
  let h ← xchg Config.fill
  let l ← xchg Config.fill
  setCrcs (h ++ l) c
  cs false

/-! ### The data phase of a write -/

/-- The write start token (R314 W_TOKEN, R315). -/
def sendToken : Proc Unit := sendAll [Config.startToken]

/-- `k` bytes of the host buffer from offset `i` on, sent unchanged (R314 W_DATA, R315). -/
def sendBlock : Nat → Nat → Proc Unit
  | 0, _ => pure ()
  | k + 1, i => do
    let v ← bufRead i
    let _ ← xchg v
    sendBlock k (i + 1)

/-- The two dummy CRC bytes (R314 W_CRC, R101, D22). -/
def sendDummyCrc : Proc Unit := sendAll [0xFF#8, 0xFF#8]

/-- `S.dresp <- t` (R31). -/
def setDresp (t : Byte) : Proc Unit := upd fun s => { s with wrk.dresp := t }

/-- The data-response token (R314 W_RESP, R317). -/
def writeResponse : Proc Unit := do
  let t ← xchg Config.fill
  setDresp t
  if writeAccepted t then pure ()
  else do
    cs false
    raise .writeReject

/-- The busy-wait after a write (R314 W_BUSY, R318). -/
def writeBusy : Proc Unit := do
  let r ← waitNotBusy Config.tWriteBusy
  cs false
  match r with
  | .ready => pure ()
  | .expired => raise .writeTimeout

/-! ### The register read -/

/-- `k` bytes into the scratch buffer from offset `i` on (R320). -/
def receiveScratch : Nat → Nat → Proc Unit
  | 0, _ => pure ()
  | k + 1, i => do
    let b ← xchg Config.fill
    scratchWrite i b
    receiveScratch k (i + 1)

/-- `read_register(n)` (R320): the bytes of `S.scratch[0..15]`. -/
def readRegister (n : BitVec 6) (arg : BitVec 32) : Proc Image := do
  ensureZeroStatus n arg
  waitStartToken
  receiveScratch Config.regLen 0
  discard 2
  cs false
  let s ← rd
  pure (imageOf (s.wrk.scratch.bytes 0 Config.regLen))

/-! ### RDBLK (R304, R311) -/

/-- RDBLK from R_CRC on. -/
def fromRCrc (c : BitVec 16) : Proc Unit := do
  recordCrc c
  finish

/-- RDBLK from R_DATA on. -/
def fromRData : Proc Unit := do
  let c ← receiveBlock Config.blockLen 0 0#16
  goFsm .rCrc
  fromRCrc c

/-- RDBLK from R_TOKEN on. -/
def fromRToken : Proc Unit := do
  waitStartToken
  goFsm .rData
  fromRData

/-- RDBLK from R_CMD on. The translated address is that of the check step: neither `REQ.index` nor
`S.kind` has changed since (R84, R412). -/
def fromRCmd : Proc Unit := do
  let s ← rd
  match translate s.ses.kind s.req.index with
  | none => raise .range
  | some a => do
    ensureZeroStatus 17#6 a
    goFsm .rToken
    fromRToken

/-- RDBLK from R_CHECK on (R303). -/
def fromRCheck : Proc Unit := do
  let s ← rd
  match checkRequest s.ses s.req with
  | .error e => raise e
  | .ok _ => do
    goFsm .rCmd
    fromRCmd

/-! ### WRBLK (R314, R319) -/

/-- WRBLK from W_BUSY on. -/
def fromWBusy : Proc Unit := do
  writeBusy
  finish

/-- WRBLK from W_RESP on. -/
def fromWResp : Proc Unit := do
  writeResponse
  goFsm .wBusy
  fromWBusy

/-- WRBLK from W_CRC on. -/
def fromWCrc : Proc Unit := do
  sendDummyCrc
  goFsm .wResp
  fromWResp

/-- WRBLK from W_DATA on. -/
def fromWData : Proc Unit := do
  sendBlock Config.blockLen 0
  goFsm .wCrc
  fromWCrc

/-- WRBLK from W_TOKEN on. -/
def fromWToken : Proc Unit := do
  sendToken
  goFsm .wData
  fromWData

/-- WRBLK from W_CMD on (the address as in RDBLK). -/
def fromWCmd : Proc Unit := do
  let s ← rd
  match translate s.ses.kind s.req.index with
  | none => raise .range
  | some a => do
    ensureZeroStatus 24#6 a
    goFsm .wToken
    fromWToken

/-- WRBLK from W_CHECK on (R303). -/
def fromWCheck : Proc Unit := do
  let s ← rd
  match checkRequest s.ses s.req with
  | .error e => raise e
  | .ok _ => do
    goFsm .wCmd
    fromWCmd

/-! ### The meanings -/

/-- `RDBLK` (R304, R340). -/
def execRdblk (s : State) : Host.Outcome State Fault Refusal :=
  hostCall (do start .rdblk .rCheck; fromRCheck) s

/-- `WRBLK` (R314, R340). -/
def execWrblk (s : State) : Host.Outcome State Fault Refusal :=
  hostCall (do start .wrblk .wCheck; fromWCheck) s

/-- `CMD9` (R198): the command with its data phase into the scratch buffer. -/
def execCmd9 (arg : BitVec 32) (s : State) : Host.Outcome State Fault Refusal :=
  settle (do let _ ← readRegister 9#6 arg) s

/-- `CMD10` (R199): the command with its data phase into the scratch buffer. -/
def execCmd10 (arg : BitVec 32) (s : State) : Host.Outcome State Fault Refusal :=
  settle (do let _ ← readRegister 10#6 arg) s

/-- `RDREG n` (R131, R320). -/
def execRdreg (n : BitVec 6) (s : State) : Host.Outcome State Fault Refusal :=
  settle (do let _ ← readRegister n 0#32) s

/-- `CMD17` (R202): the command with its data phase of 512 bytes and 2 CRC bytes (R304). -/
def execCmd17 (arg : BitVec 32) (s : State) : Host.Outcome State Fault Refusal :=
  settle (do
    ensureZeroStatus 17#6 arg
    waitStartToken
    let c ← receiveBlock Config.blockLen 0 0#16
    recordCrc c) s

/-- `CMD24` (R203): the command with its data packet, data-response token and busy-wait (R314). -/
def execCmd24 (arg : BitVec 32) (s : State) : Host.Outcome State Fault Refusal :=
  settle (do
    ensureZeroStatus 24#6 arg
    sendToken
    sendBlock Config.blockLen 0
    sendDummyCrc
    writeResponse
    writeBusy) s

end Sys2Proof.Machine
end

