-- ==== Sys2Proof/Machine/Init.lean ====
section
/-! DEFINITION. The card initialization FSM (43_init_fsm.md). `fromX` runs the sequence from the start
of its state X to its end (R238). -/

namespace Sys2Proof.Machine

/-- State `I_START` (R221): the session becomes not-ready at once. -/
def enterInit : Proc Unit := upd fun s => { s with ses.blockCount := 0#64, ses.kind := .none }

/-- `S.block_count <- n` (R236). -/
def setBlockCount (n : BitVec 64) : Proc Unit := upd fun s => { s with ses.blockCount := n }

/-- `S.csd <- img` (R234). -/
def setCsd (img : Image) : Proc Unit := upd fun s => { s with ses.csd := img }

/-- `S.cid <- img` (R233). -/
def setCid (img : Image) : Proc Unit := upd fun s => { s with ses.cid := img }

/-- State `I_COMMIT`: the checks in their order (R235, R366), the commit (R236), Ready (R237). -/
def fromICommit : Proc Unit := do
  let s ← rd
  match csdBlockCount s.ses.csd with
  | none => raise .notSupported
  | some n =>
    if Config.countMax < n.toNat then raise .notSupported
    else if n = 0#64 then raise .noBlocks
    else do
      setBlockCount n
      cs false
      finish

/-- INIT from `I_CSD` on (R234). -/
def fromICsd : Proc Unit := do
  let img ← readRegister 9#6 0#32
  setCsd img
  goFsm .iCommit
  fromICommit

/-- INIT from `I_CID` on (R233). -/
def fromICid : Proc Unit := do
  let img ← readRegister 10#6 0#32
  setCid img
  goFsm .iCsd
  fromICsd

/-- INIT from `I_BLKLEN` on (R232). -/
def fromIBlkLen : Proc Unit := do
  ensureZeroStatus 16#6 Config.cmd16Arg
  goFsm .iCid
  fromICid

/-- State `I_OCR` (R230, R231). -/
def ocrStep : Proc Unit := do
  let s ← rd
  if s.ses.kind = .sd2 then readOcr 0#32 else pure ()

/-- INIT from `I_OCR` on (R230, R231). -/
def fromIOcr : Proc Unit := do
  ocrStep
  goFsm .iBlkLen
  fromIBlkLen

/-- The argument of the operating-condition command (R227, R93). -/
def opCondArg (k : CardKind) : BitVec 32 := if k = .sd2 then Config.hcsArg else 0#32

/-- The loop of `I_OPCOND` (R227); on expiry the error of the last attempt (R228). -/
def opCondLoop (arg : BitVec 32) : Nat → Proc Unit
  | 0 => stop (.refuse .clockUnfair)
  | n + 1 => do
    let r ← issueAppCommand 41#6 arg
    match classify r.status r.rto with
    | .clear => pure ()
    | .timeout => do
      let e ← expiredDl0
      if e then raise .respTimeout else opCondLoop arg n
    | .idleOnly => do
      let e ← expiredDl0
      if e then raise (.protocol r.status) else opCondLoop arg n
    | .flagged => do
      let e ← expiredDl0
      if e then raise (.protocol r.status) else opCondLoop arg n

/-- INIT from `I_OPCOND` on (R227, R228). -/
def fromIOpCond : Proc Unit := do
  let s ← rd
  loadDl0 Config.tOpCond
  let t ← rd
  opCondLoop (opCondArg s.ses.kind) (t.env.waitBound Config.tOpCond)
  goFsm .iOcr
  fromIOcr

/-- INIT from `I_IFCOND` on (R225). -/
def fromIIfCond : Proc Unit := do
  interfaceCondition Config.cmd8Arg
  goFsm .iOpCond
  fromIOpCond

/-- The loop of `I_GOIDLE` (R223): a response time-out is an unsuccessful attempt like any other. -/
def goIdleLoop : Nat → Proc Unit
  | 0 => stop (.refuse .clockUnfair)
  | n + 1 => do
    let r ← issueCommand 0#6 0#32
    match classify r.status r.rto with
    | .idleOnly => pure ()
    | .timeout => do
      let e ← expiredDl0
      if e then raise .noCard else goIdleLoop n
    | .clear => do
      let e ← expiredDl0
      if e then raise .noCard else goIdleLoop n
    | .flagged => do
      let e ← expiredDl0
      if e then raise .noCard else goIdleLoop n

/-- INIT from `I_GOIDLE` on (R223). -/
def fromIGoIdle : Proc Unit := do
  loadDl0 Config.tIdle
  let s ← rd
  goIdleLoop (s.env.waitBound Config.tIdle)
  goFsm .iIfCond
  fromIIfCond

/-- INIT from `I_RESET` on (R222). -/
def fromIReset : Proc Unit := do
  cs false
  discard Config.nInitFiller
  goFsm .iGoIdle
  fromIGoIdle

/-- `INIT` (R220, R340). -/
def execInit (s : State) : Host.Outcome State Fault Refusal :=
  hostCall (do start .init .iReset; enterInit; fromIReset) s

end Sys2Proof.Machine
end

