-- ==== Sys2Proof/Machine/Dispatch.lean ====
section
/-! DEFINITION. The one dispatch from instructions to meanings. -/

namespace Sys2Proof.Machine

def exec (i : Instr) (s : State) : Host.Outcome State Fault Refusal :=
  match i with
  | .cmd0 arg => Sys2Proof.Machine.execCmd0 arg s
  | .cmd8 arg => Sys2Proof.Machine.execCmd8 arg s
  | .cmd9 arg => Sys2Proof.Machine.execCmd9 arg s
  | .cmd10 arg => Sys2Proof.Machine.execCmd10 arg s
  | .cmd12 arg => Sys2Proof.Machine.execCmd12 arg s
  | .cmd16 arg => Sys2Proof.Machine.execCmd16 arg s
  | .cmd17 arg => Sys2Proof.Machine.execCmd17 arg s
  | .cmd24 arg => Sys2Proof.Machine.execCmd24 arg s
  | .cmd55 arg => Sys2Proof.Machine.execCmd55 arg s
  | .cmd41 arg => Sys2Proof.Machine.execCmd41 arg s
  | .cmd58 arg => Sys2Proof.Machine.execCmd58 arg s
  | .nop => Sys2Proof.Machine.execNop s
  | .init => Sys2Proof.Machine.execInit s
  | .rdblk => Sys2Proof.Machine.execRdblk s
  | .wrblk => Sys2Proof.Machine.execWrblk s
  | .blkcnt => Sys2Proof.Machine.execBlkcnt s
  | .cid => Sys2Proof.Machine.execCid s
  | .csd => Sys2Proof.Machine.execCsd s
  | .lastcrc => Sys2Proof.Machine.execLastcrc s
  | .kind => Sys2Proof.Machine.execKind s
  | .calccrc => Sys2Proof.Machine.execCalccrc s
  | .csdvalid => Sys2Proof.Machine.execCsdvalid s
  | .reservedB => Sys2Proof.Machine.execReservedB s
  | .reservedC => Sys2Proof.Machine.execReservedC s
  | .reservedD => Sys2Proof.Machine.execReservedD s
  | .reservedE => Sys2Proof.Machine.execReservedE s
  | .reservedF => Sys2Proof.Machine.execReservedF s
  | .acmd41 arg => Sys2Proof.Machine.execAcmd41 arg s
  | .zcmd n arg => Sys2Proof.Machine.execZcmd n arg s
  | .rdreg n => Sys2Proof.Machine.execRdreg n s

end Sys2Proof.Machine
end

