-- ==== Sys2Proof/Machine/Fetch.lean ====
section
/-! DEFINITION. What the step runs next: a request of the host, a command standing in the command port, or
the rest of an operation that the sequencer stands inside; an idle engine with none of them waits (R401;
log 5, log 7, log 8, log 17). -/

namespace Sys2Proof.Machine

/-- The step of R25 that issues a command index (R92, "Issued by"). The stream-stop command is never
issued by a sequence (R188); its entry here only gives the framer a running operation to stand in. -/
def issuerOf (n : BitVec 6) : Op × Fsm :=
  match n.toNat with
  | 17 => (.rdblk, .rCmd)
  | 24 => (.wrblk, .wCmd)
  | 8 => (.init, .iIfCond)
  | 9 => (.init, .iCsd)
  | 10 => (.init, .iCid)
  | 16 => (.init, .iBlkLen)
  | 41 => (.init, .iOpCond)
  | 55 => (.init, .iOpCond)
  | 58 => (.init, .iOcr)
  | _ => (.init, .iGoIdle)

/-- The operation and step an instruction runs in: the issuing step for a command (R26, R92), the idle
engine for a host operation (R340). -/
def placeOf : Instr → Op × Fsm
  | .cmd0 _ => issuerOf 0#6
  | .cmd8 _ => issuerOf 8#6
  | .cmd9 _ => issuerOf 9#6
  | .cmd10 _ => issuerOf 10#6
  | .cmd12 _ => issuerOf 12#6
  | .cmd16 _ => issuerOf 16#6
  | .cmd17 _ => issuerOf 17#6
  | .cmd24 _ => issuerOf 24#6
  | .cmd55 _ => issuerOf 55#6
  | .cmd41 _ => issuerOf 41#6
  | .cmd58 _ => issuerOf 58#6
  | .acmd41 _ => issuerOf 41#6
  | .zcmd n _ => issuerOf n
  | .rdreg n => issuerOf n
  | .nop => (.idle, .fIdle)
  | .init => (.idle, .fIdle)
  | .rdblk => (.idle, .fIdle)
  | .wrblk => (.idle, .fIdle)
  | .blkcnt => (.idle, .fIdle)
  | .cid => (.idle, .fIdle)
  | .csd => (.idle, .fIdle)
  | .lastcrc => (.idle, .fIdle)
  | .kind => (.idle, .fIdle)
  | .calccrc => (.idle, .fIdle)
  | .csdvalid => (.idle, .fIdle)
  | .reservedB => (.idle, .fIdle)
  | .reservedC => (.idle, .fIdle)
  | .reservedD => (.idle, .fIdle)
  | .reservedE => (.idle, .fIdle)
  | .reservedF => (.idle, .fIdle)

/-- The operation a step name belongs to (R25's table). -/
def Fsm.op : Fsm → Op
  | .fIdle => .idle
  | .iReset => .init
  | .iGoIdle => .init
  | .iIfCond => .init
  | .iOpCond => .init
  | .iOcr => .init
  | .iBlkLen => .init
  | .iCid => .init
  | .iCsd => .init
  | .iCommit => .init
  | .rCheck => .rdblk
  | .rCmd => .rdblk
  | .rToken => .rdblk
  | .rData => .rdblk
  | .rCrc => .rdblk
  | .wCheck => .wrblk
  | .wCmd => .wrblk
  | .wToken => .wrblk
  | .wData => .wrblk
  | .wCrc => .wrblk
  | .wResp => .wrblk
  | .wBusy => .wrblk

/-- The sequencer stands at the start of a step of R25's table, the command engine off (R26). -/
def Sequencer.legal (q : Sequencer) : Bool := q.op == q.fsm.op && q.cfsm == .cOff

/-- The rest of the operation the sequencer stands inside (R238, R311, R319). At R_CRC the 512 bytes are
in the host buffer, so the generator's register is their CRC16 (R307). -/
def resume : Fsm → Proc Unit
  | .fIdle => pure ()
  | .iReset => fromIReset
  | .iGoIdle => fromIGoIdle
  | .iIfCond => fromIIfCond
  | .iOpCond => fromIOpCond
  | .iOcr => fromIOcr
  | .iBlkLen => fromIBlkLen
  | .iCid => fromICid
  | .iCsd => fromICsd
  | .iCommit => fromICommit
  | .rCheck => fromRCheck
  | .rCmd => fromRCmd
  | .rToken => fromRToken
  | .rData => fromRData
  | .rCrc => do
    let s ← rd
    fromRCrc (crc16 (s.req.buf.bytes 0 Config.blockLen))
  | .wCheck => fromWCheck
  | .wCmd => fromWCmd
  | .wToken => fromWToken
  | .wData => fromWData
  | .wCrc => fromWCrc
  | .wResp => fromWResp
  | .wBusy => fromWBusy

/-- What the step does next. -/
inductive Next where
  /-- Run an instruction in this state. -/
  | run (i : Instr) (s : State)
  /-- Carry the running operation on from its step. -/
  | carryOn
  /-- Wait for a request. -/
  | wait
  /-- No move. -/
  | refuse (r : Refusal)
  deriving DecidableEq, Repr

/-- The fetch of a command in the command port: it is issued inside the operation that issues it
(R26, R92). -/
def fetchCommand (c : Code) (s : State) : Next :=
  match decode c with
  | .error e => .refuse (.illegalEncoding e)
  | .ok i =>
    if s.seq.op = (placeOf i).1 then .run i { s with cmdPort := none } else .refuse .sequencerState

/-- The fetch. A request of the host comes first: its code runs on the registers the host has written; the
idle engine takes it (R340), and a busy one has no move for it (R341, `hostCall`). Without a request a
command in the command port is issued, a busy engine carries its operation on, and an idle one waits for a
request (R401). -/
def fetch (s : State) : Next :=
  if !s.seq.legal then .refuse .sequencerState
  else
    match s.hostPort, s.cmdPort with
    | some r, _ => .run (hostOf r.op) (s.take r)
    | none, some c => fetchCommand c s
    | none, none => if s.seq.op = .idle then .wait else .carryOn

/-- The sequencer after reset (R41). -/
def Sequencer.idle : Sequencer := { op := .idle, fsm := .fIdle, cfsm := .cOff }

/-- A command in its port, the sequencer in the operation that issues it. -/
def placeCommand (i : Instr) (c : Code) (s : State) : State :=
  { s with
    seq :=
      if s.seq.legal && s.seq.op == (placeOf i).1 then s.seq
      else { op := (placeOf i).1, fsm := (placeOf i).2, cfsm := .cOff }
    hostPort := none
    cmdPort := some c }

/-- The state in which the next step runs the instruction of a code. A 4-bit host code is a request of the
host that writes `REQ.op` and leaves the operands as they stand; a legal sequencer stays where it is, so a
busy engine has no move. A command goes to the command port, the sequencer at the step that issues it. -/
def placeCode (c : Code) (s : State) : State :=
  match decode c with
  | .error _ => { s with hostPort := none, cmdPort := some c }
  | .ok i =>
    match c.fmt with
    | .hostop4 =>
      { s with
        seq := if s.seq.legal then s.seq else .idle
        hostPort := some { s.req with op := (c.bytes.headD 0#8).extractLsb' 0 4 } }
    | .cmdframe48 => placeCommand i c s
    | .pseudoAcmd41 => placeCommand i c s
    | .pseudoZcmd => placeCommand i c s
    | .pseudoRdreg => placeCommand i c s

end Sys2Proof.Machine
end

