-- ==== Sys2Proof/Machine/Step.lean ====
section
/-! DEFINITION. One step: one host call run to its end (R340), one command of the command port, the rest of
an operation (log 5), or the idle engine's wait for a request (R401). -/

namespace Sys2Proof.Machine

/-- One step of the engine. -/
def step (s : State) : Host.Outcome State Fault Refusal :=
  match fetch s with
  | .run i t => exec i t
  | .carryOn => settle (resume s.seq.fsm) s
  | .wait => .next s
  | .refuse r => .refused r

/-- The state in which the next step runs the instruction of a table word (log 8). -/
def State.withFetchWord (s : State) (nbits w : Nat) : State := placeCode (tableCode nbits w) s

end Sys2Proof.Machine
end

