-- ==== Sys2Proof/Safety.lean ====
section
/-! DEFINITION. What counts as a safe state, and the vocabulary of the statements: what the transport
side observes, the coming clock samples and the deadlines they load, the two sides of a conversation, and the
registers a command leaves. -/

namespace Sys2Proof.Machine

/-- The invariant of the engine between steps. -/
structure State.Inv (s : State) : Prop where
  /-- The host buffer is in canonical form. -/
  bufWf : s.req.buf.wf = true
  /-- The buffer of a request that stands in the host port is in canonical form. -/
  portBufWf : ∀ r : Request, s.hostPort = some r → r.buf.wf = true
  /-- The scratch buffer is in canonical form. -/
  scratchWf : s.wrk.scratch.wf = true
  /-- The sequencer stands at a step of R25's table, the command engine off (R26). -/
  legal : s.seq.legal = true
  /-- R36: whenever `S.op = IDLE`, `S.cs_active = 0`. -/
  idleDeselected : s.seq.op = .idle → s.wrk.csActive = false
  /-- R241: a ready session has a classified card. -/
  readyKind : s.ses.blockCount ≠ 0#64 → s.ses.kind = .sd2 ∨ s.ses.kind = .sdhc
  /-- R225: from `I_OPCOND` on the card is classified. -/
  classified : s.seq.op = .init → s.seq.fsm ≠ .iReset → s.seq.fsm ≠ .iGoIdle → s.seq.fsm ≠ .iIfCond →
    s.ses.kind = .sd2 ∨ s.ses.kind = .sdhc
  /-- R20: every value `S.block_count` holds is at most 2^32 − 1. -/
  countBound : s.ses.blockCount.toNat ≤ Config.countMax
  /-- R221, R376: during INIT the session is not ready. -/
  initNotReady : s.seq.op = .init → s.ses.blockCount = 0#64
  /-- R192: a time-out leaves the status all ones. -/
  timeoutStatus : s.wrk.rto = true → s.wrk.status = 0xFF#8
  /-- R360: codes 13 to 15 are never written. -/
  resultKind : s.res.kind.toNat ≤ 12
  /-- R33: `RES.status` is 0 unless `RES.kind = E_PROTOCOL`. -/
  resultStatus : s.res.kind ≠ 4#4 → s.res.status = 0x00#8
  /-- R33: `RES.tcode` is 0 unless `RES.kind = E_TRANSPORT`. -/
  resultTcode : s.res.kind ≠ 1#4 → s.res.tcode = 0
  /-- R33: `RES.tcode` has `TCODE_W` bits. -/
  tcodeWidth : s.res.tcode < 2 ^ s.par.tcodeW

/-! ### What the outside observes -/

/-- The event is seen by the transport side: a change of the chip-select level or an exchange (R63). -/
def Event.onBus : Event → Bool
  | .cs _ => true
  | .xchg _ _ => true
  | .sample _ => false

/-- The transport events of a history, oldest first (R63, R64). -/
def bus (trace : List Event) : List Event := trace.reverse.filter Event.onBus

/-- The event is an exchange that the transport failed. -/
def Event.failed : Event → Bool
  | .cs _ => false
  | .xchg _ (.byte _) => false
  | .xchg _ (.fail _) => true
  | .sample _ => false

/-- The event is an exchange. -/
def Event.isXchg : Event → Bool
  | .cs _ => false
  | .xchg _ _ => true
  | .sample _ => false

/-- The clock samples of a history, newest first. -/
def samples : List Event → List Nat
  | [] => []
  | .sample t :: rest => t.toNat :: samples rest
  | .cs _ :: rest => samples rest
  | .xchg _ _ :: rest => samples rest

/-- The chip-select event of driving the latch to `a`: none if it stands there already (R64). -/
def State.csEvents (s : State) (a : Bool) : List Event := if s.wrk.csActive = a then [] else [.cs a]

/-- What the transport side sees of moves that drive chip-select, from a level on: driving the latch to the
level it stands at is no event (R64). -/
def levels : Bool → List Event → List Event
  | _, [] => []
  | l, .cs a :: es => if l = a then levels l es else .cs a :: levels a es
  | l, .xchg b r :: es => .xchg b r :: levels l es
  | l, .sample t :: es => .sample t :: levels l es

/-- The answers the transport gives in a list of moves. -/
def answersOf (moves : List Event) : List Answer :=
  moves.filterMap fun ev =>
    match ev with
    | .cs _ => none
    | .xchg _ a => some a
    | .sample _ => none

/-! ### The coming clock samples -/

/-- The inputs after `n` clock samples. -/
def Env.after : Env → Nat → Env
  | e, 0 => e
  | e, n + 1 => e.afterSample.after n

/-- The clock sample that comes after `k` others. -/
def Env.sampleAt (e : Env) (k : Nat) : Clock := (e.after k).nextSample

/-- The deadline that a load of `T` ms stores when it takes that sample (R161). -/
@[irreducible] def Env.deadlineAt (e : Env) (k T : Nat) : Clock := BitVec.ofNat 64 ((e.sampleAt k).toNat + T)

/-- The `n`-th sample after sample `i` is before the deadline of `T` ms that sample `i` loads, and so are those
between, since samples never run backwards (R160, R162); the deadline is not past the wrap of the clock (U15). -/
structure Env.Before (e : Env) (i n T : Nat) : Prop where
  noWrap : (e.sampleAt i).toNat + T < 2 ^ 64
  early : (e.sampleAt (i + n)).toNat < (e.sampleAt i).toNat + T

/-- The `n`-th sample after sample `i` has reached the deadline of `T` ms that sample `i` loads, equality
included (R162). -/
def Env.Reached (e : Env) (i n T : Nat) : Prop := (e.sampleAt i).toNat + T ≤ (e.sampleAt (i + n)).toNat

/-- A busy-wait of `T` ms whose load is sample `i` (R164): the tests after the bytes `busy` are before the
deadline; the byte `last` ends the wait, being not-busy or followed by a test that has reached the deadline. -/
structure Env.BusyWait (e : Env) (i T : Nat) (busy : List Byte) (last : Byte) : Prop where
  before : e.Before i busy.length T
  reached : last ≠ Config.idleLine → e.Reached i (busy.length + 1) T

/-- How many clock samples a busy-wait takes: the load, and one test for each busy byte. -/
def busyTicks (busy : List Byte) (last : Byte) : Nat :=
  busy.length + (if last = Config.idleLine then 0 else 1) + 1

/-! ### Conversations -/

/-- Exchanges as pairs: the byte sent, the byte received. -/
abbrev Talk := List (Byte × Byte)

/-- The events of a conversation. -/
def Talk.events (k : Talk) : List Event := k.map fun p => .xchg p.1 (.byte p.2)

/-- The transport's side of a conversation: the queued answers. -/
def Talk.answers (k : Talk) : List Answer := k.map fun p => .byte p.2

/-- Receiving bytes: each exchange sends `FILL` (R62). -/
def polls (bytes : List Byte) : Talk := bytes.map fun b => (Config.fill, b)

/-- Sending a frame; the received bytes are discarded. -/
def frameTalk (index : BitVec 6) (arg : BitVec 32) (during : Vector Byte 6) : Talk :=
  (frameOf index arg).toList.zip during.toList

/-- A card's side of one command (R186): the busy bytes before the frame and the byte that ends that wait, a
not-busy one or, when the deadline has passed, a busy one (R187); the six bytes received while the frame is
sent, the pending bytes before the response, the response. -/
structure CardReply where
  busy : List Byte
  busyEnd : Byte
  during : Vector Byte 6
  pend : List Byte
  resp : Byte
  deriving DecidableEq, Repr

/-- The reply is a response within the poll bound (R103, R186, R189). -/
structure CardReply.Ok (r : CardReply) (p : Params) : Prop where
  busy : ∀ b ∈ r.busy, b ≠ Config.idleLine
  pend : ∀ b ∈ r.pend, pending b = true
  bound : r.pend.length ≤ p.pollExtra
  resp : pending r.resp = false

/-- The exchanges of a command other than the stream-stop command (R186). -/
def CardReply.talk (r : CardReply) (index : BitVec 6) (arg : BitVec 32) : Talk :=
  polls (r.busy ++ [r.busyEnd]) ++ frameTalk index arg r.during ++ polls (r.pend ++ [r.resp])

/-- How many clock samples the command takes. -/
def CardReply.ticks (r : CardReply) : Nat := busyTicks r.busy r.busyEnd

/-- The busy-wait of the command, whose load is sample `i`, ends as the reply says (R186, R187). -/
def CardReply.InTime (r : CardReply) (e : Env) (i : Nat) : Prop := e.BusyWait i 300 r.busy r.busyEnd

/-- A card that does not answer a command (R186, C_TIMEOUT): the busy bytes and the byte that ends that wait,
the bytes during the frame, one pending byte for each poll, the byte of the filler exchange. -/
structure Silence where
  busy : List Byte
  busyEnd : Byte
  during : Vector Byte 6
  pend : List Byte
  last : Byte
  deriving DecidableEq, Repr

/-- No response within the poll bound of `N_RESP_POLL` (R186, R189). -/
structure Silence.Ok (q : Silence) (p : Params) : Prop where
  busy : ∀ b ∈ q.busy, b ≠ Config.idleLine
  pend : ∀ b ∈ q.pend, pending b = true
  bound : q.pend.length = p.pollExtra + 1

/-- The exchanges before the deselect of the time-out path. -/
def Silence.talk (q : Silence) (index : BitVec 6) (arg : BitVec 32) : Talk :=
  polls (q.busy ++ [q.busyEnd]) ++ frameTalk index arg q.during ++ polls q.pend

/-- How many clock samples an unanswered command takes. -/
def Silence.ticks (q : Silence) : Nat := busyTicks q.busy q.busyEnd

/-- The busy-wait of the command, whose load is sample `i`, ends as the silence says (R186, R187). -/
def Silence.InTime (q : Silence) (e : Env) (i : Nat) : Prop := e.BusyWait i 300 q.busy q.busyEnd

/-- A card's side of one attempt at a command: it answers, or it does not. -/
inductive Attempt where
  | answered (r : CardReply)
  | silent (q : Silence)
  deriving DecidableEq, Repr

/-- The attempt keeps to the poll bound (R186, R189). -/
def Attempt.Ok (p : Params) : Attempt → Prop
  | .answered r => r.Ok p
  | .silent q => q.Ok p

/-- What `issue_command` returns (R186). -/
def Attempt.reply : Attempt → Reply
  | .answered r => { status := r.resp, rto := false }
  | .silent _ => { status := 0xFF#8, rto := true }

/-- How many clock samples the attempt takes. -/
def Attempt.ticks : Attempt → Nat
  | .answered r => r.ticks
  | .silent q => q.ticks

/-- The busy-wait of the attempt, whose load is sample `i`, ends as the attempt says. -/
def Attempt.InTime (e : Env) (i : Nat) : Attempt → Prop
  | .answered r => r.InTime e i
  | .silent q => q.InTime e i

/-- What the engine does on the bus during the attempt, every drive of chip-select included (R186). -/
def Attempt.moves (index : BitVec 6) (arg : BitVec 32) : Attempt → List Event
  | .answered r => .cs true :: (r.talk index arg).events
  | .silent q => .cs true :: (q.talk index arg).events ++ .cs false :: (polls [q.last]).events

/-- A card's side of one attempt at the operating-condition command with its prefix (R193): the prefix is
answered and the target command attempted, or the prefix is not answered. -/
inductive AppAttempt where
  | sent (p : CardReply) (a : Attempt)
  | prefixSilent (q : Silence)
  deriving DecidableEq, Repr

/-- The attempt keeps to the poll bound. -/
def AppAttempt.Ok (p : Params) : AppAttempt → Prop
  | .sent r a => r.Ok p ∧ a.Ok p
  | .prefixSilent q => q.Ok p

/-- The error that a result other than the awaited one is reported with (R194, R228). -/
def Reply.error (r : Reply) : Err := if r.rto then .respTimeout else .protocol r.status

/-- What `issue_app_command` returns (R193). -/
def AppAttempt.reply : AppAttempt → Reply
  | .sent _ a => a.reply
  | .prefixSilent _ => { status := 0xFF#8, rto := true }

/-- How many clock samples come before the last load of the inner deadline. -/
def AppAttempt.loadAt : AppAttempt → Nat
  | .sent r _ => r.ticks
  | .prefixSilent _ => 0

/-- How many clock samples the attempt takes. -/
def AppAttempt.ticks : AppAttempt → Nat
  | .sent r a => r.ticks + a.ticks
  | .prefixSilent q => q.ticks

/-- The busy-waits of the attempt, the first load being sample `i`, end as the attempt says. -/
def AppAttempt.InTime (e : Env) (i : Nat) : AppAttempt → Prop
  | .sent r a => r.InTime e i ∧ a.InTime e (i + r.ticks)
  | .prefixSilent q => q.InTime e i

/-- What the engine does on the bus during the attempt (R193, R94). -/
def AppAttempt.moves (arg : BitVec 32) : AppAttempt → List Event
  | .sent r a => .cs true :: (r.talk 55#6 0#32).events ++ a.moves 41#6 arg
  | .prefixSilent q => (Attempt.silent q).moves 55#6 0#32

/-- A data phase from the card (R101, R305): idle-line bytes before the start token, the data, the two
trailing bytes. -/
structure DataReply (n : Nat) where
  gap : Nat
  data : Vector Byte n
  crcHigh : Byte
  crcLow : Byte
  deriving DecidableEq, Repr

/-- The exchanges of an incoming data phase. -/
def DataReply.talk {n : Nat} (d : DataReply n) : Talk :=
  polls (List.replicate d.gap Config.idleLine ++ [Config.startToken] ++ d.data.toList ++ [d.crcHigh, d.crcLow])

/-- How many clock samples an incoming data phase takes: the load, and one test for each idle-line byte. -/
def DataReply.ticks {n : Nat} (d : DataReply n) : Nat := d.gap + 1

/-- The token wait, whose load is sample `i`, sees the token in time (R305). -/
def DataReply.InTime {n : Nat} (d : DataReply n) (e : Env) (i : Nat) : Prop := e.Before i d.gap 300

/-- A card that sends no start token (R305): idle-line bytes, then a wrong byte, or one more idle-line byte at
which the deadline has passed. -/
structure NoToken where
  gap : Nat
  last : Byte
  deriving DecidableEq, Repr

/-- The exchanges of a token wait without a token. -/
def NoToken.talk (q : NoToken) : Talk := polls (List.replicate q.gap Config.idleLine ++ [q.last])

/-- How many clock samples such a wait takes: a wrong byte is told before the deadline is tested (R305, R366). -/
def NoToken.ticks (q : NoToken) : Nat := q.gap + (if q.last = Config.idleLine then 1 else 0) + 1

/-- The wait, whose load is sample `i`, ends with its last byte and not before. -/
structure NoToken.InTime (q : NoToken) (e : Env) (i : Nat) : Prop where
  before : e.Before i q.gap 300
  reached : q.last = Config.idleLine → e.Reached i (q.gap + 1) 300

/-- The card's side of an outgoing data phase (R101, R317, R318): the bytes received meanwhile, the
data-response token, the busy bytes before the not-busy byte. -/
structure WriteReply where
  atToken : Byte
  during : Vector Byte 512
  atCrc1 : Byte
  atCrc2 : Byte
  token : Byte
  busy : List Byte
  deriving DecidableEq, Repr

/-- The exchanges of an outgoing data phase up to the data-response token, for a payload. -/
def WriteReply.packet (w : WriteReply) (payload : List Byte) : Talk :=
  [(Config.startToken, w.atToken)] ++ payload.zip w.during.toList ++
    [(0xFF#8, w.atCrc1), (0xFF#8, w.atCrc2), (Config.fill, w.token)]

/-- The exchanges of an outgoing data phase that is accepted. -/
def WriteReply.talk (w : WriteReply) (payload : List Byte) : Talk :=
  w.packet payload ++ polls (w.busy ++ [Config.idleLine])

/-- How many clock samples the busy-wait after a write takes. -/
def WriteReply.ticks (w : WriteReply) : Nat := w.busy.length + 1

/-- The busy-wait after the write, whose load is sample `i`, sees the not-busy byte in time (R318). -/
def WriteReply.InTime (w : WriteReply) (e : Env) (i : Nat) : Prop := e.Before i w.busy.length 600

/-! ### A whole initialization -/

/-- A go-idle attempt fails (R223): any result but the status 0x01. -/
def Attempt.NotIdle (a : Attempt) : Prop := a.reply ≠ { status := 0x01#8, rto := false }

/-- A command that requires a zero status fails (R194): any result but the status 0x00. -/
def Attempt.NotClear (a : Attempt) : Prop := a.reply ≠ { status := 0x00#8, rto := false }

/-- An operating-condition attempt fails (R227): any result but the status 0x00. -/
def AppAttempt.NotReady (c : AppAttempt) : Prop := c.reply ≠ { status := 0x00#8, rto := false }

/-- The clock samples of attempts that fail: each takes its own and one for the test of the deadline. -/
def idleTicks (tries : List Attempt) : Nat := (tries.map fun a => a.ticks + 1).sum

/-- The clock samples of operating-condition attempts that fail. -/
def condTicks (tries : List AppAttempt) : Nat := (tries.map fun c => c.ticks + 1).sum

/-- The busy-waits of go-idle attempts, the first load being sample `i`, end as the attempts say. -/
def IdleInTime (e : Env) : Nat → List Attempt → Prop
  | _, [] => True
  | i, a :: as => a.InTime e i ∧ IdleInTime e (i + (a.ticks + 1)) as

/-- The busy-waits of operating-condition attempts, the first load being sample `i`, end as the attempts say. -/
def CondInTime (e : Env) : Nat → List AppAttempt → Prop
  | _, [] => True
  | i, c :: cs => c.InTime e i ∧ CondInTime e (i + (c.ticks + 1)) cs

/-- The states of `INIT` in their order (R220, R238). -/
inductive InitStep where
  | reset
  | goIdle
  | ifCond
  | opCond
  | ocr
  | blkLen
  | cid
  | csd
  | commit
  deriving DecidableEq, Repr

/-- The states that `INIT` goes through before this one (R238). -/
def InitStep.before : InitStep → List InitStep
  | .reset => []
  | .goIdle => [.reset]
  | .ifCond => [.reset, .goIdle]
  | .opCond => [.reset, .goIdle, .ifCond]
  | .ocr => [.reset, .goIdle, .ifCond, .opCond]
  | .blkLen => [.reset, .goIdle, .ifCond, .opCond, .ocr]
  | .cid => [.reset, .goIdle, .ifCond, .opCond, .ocr, .blkLen]
  | .csd => [.reset, .goIdle, .ifCond, .opCond, .ocr, .blkLen, .cid]
  | .commit => [.reset, .goIdle, .ifCond, .opCond, .ocr, .blkLen, .cid, .csd]

/-- A card's side of an initialization, state by state (R220): the bytes of the filler exchanges; the go-idle
attempts that fail and the reply that does not; the interface-condition reply and its payload; the
operating-condition attempts that fail and the replies to the one that does not; the OCR reply and its four
bytes; the block-length reply; the two register reads. -/
structure InitScript where
  filler : Vector Byte 10
  idleTries : List Attempt
  idle : CardReply
  probe : CardReply
  payload : Vector Byte 4
  condTries : List AppAttempt
  condPrefix : CardReply
  cond : CardReply
  ocrReply : CardReply
  ocr : Vector Byte 4
  blkLen : CardReply
  cidReply : CardReply
  cid : DataReply 16
  csdReply : CardReply
  csd : DataReply 16
  deriving DecidableEq, Repr

/-- The replies that make `INIT` go on from a state to the next (R238). -/
def InitScript.OkIn (x : InitScript) (p : Params) : InitStep → Prop
  | .reset => True
  | .goIdle => (∀ a ∈ x.idleTries, a.Ok p ∧ a.NotIdle) ∧ x.idle.Ok p ∧ x.idle.resp = 0x01#8
  | .ifCond => x.probe.Ok p ∧ illegalCommand x.probe.resp = false ∧ r7Ok x.payload = true
  | .opCond => (∀ c ∈ x.condTries, c.Ok p ∧ c.NotReady) ∧ x.condPrefix.Ok p ∧ x.cond.Ok p ∧ x.cond.resp = 0x00#8
  | .ocr => x.ocrReply.Ok p ∧ x.ocrReply.resp = 0x00#8
  | .blkLen => x.blkLen.Ok p ∧ x.blkLen.resp = 0x00#8
  | .cid => x.cidReply.Ok p ∧ x.cidReply.resp = 0x00#8
  | .csd => x.csdReply.Ok p ∧ x.csdReply.resp = 0x00#8
  | .commit => True

/-- What the engine does on the bus in I_RESET (R222). -/
def fillerMoves (filler : Vector Byte 10) : List Event := .cs false :: (polls filler.toList).events

/-- What the engine does on the bus in a register read (R320). -/
def readMoves (n : BitVec 6) (r : CardReply) (d : DataReply 16) : List Event :=
  .cs true :: (r.talk n 0#32 ++ d.talk).events ++ [.cs false]

/-- What the engine does on the bus in a state of `INIT`. -/
def InitScript.movesIn (x : InitScript) : InitStep → List Event
  | .reset => fillerMoves x.filler
  | .goIdle => x.idleTries.flatMap (Attempt.moves 0#6 0#32) ++ .cs true :: (x.idle.talk 0#6 0#32).events
  | .ifCond => .cs true :: (x.probe.talk 8#6 Config.cmd8Arg ++ polls x.payload.toList).events
  | .opCond => x.condTries.flatMap (AppAttempt.moves Config.hcsArg) ++
      (AppAttempt.sent x.condPrefix (.answered x.cond)).moves Config.hcsArg
  | .ocr => .cs true :: (x.ocrReply.talk 58#6 0#32 ++ polls x.ocr.toList).events
  | .blkLen => .cs true :: (x.blkLen.talk 16#6 Config.cmd16Arg).events
  | .cid => readMoves 10#6 x.cidReply x.cid
  | .csd => readMoves 9#6 x.csdReply x.csd
  | .commit => []

/-- How many clock samples a state of `INIT` takes; the load of a loop's deadline is the first. -/
def InitScript.ticksIn (x : InitScript) : InitStep → Nat
  | .reset => 0
  | .goIdle => 1 + (idleTicks x.idleTries + x.idle.ticks)
  | .ifCond => x.probe.ticks
  | .opCond => 1 + (condTicks x.condTries + (x.condPrefix.ticks + x.cond.ticks))
  | .ocr => x.ocrReply.ticks
  | .blkLen => x.blkLen.ticks
  | .cid => x.cidReply.ticks + x.cid.ticks
  | .csd => x.csdReply.ticks + x.csd.ticks
  | .commit => 0

/-- Every wait in a state of `INIT`, whose first sample is `i`, ends as the script says: each busy-wait and
token wait by its own deadline, and the last test of a loop before the loop's deadline (R223, R227). -/
def InitScript.InTimeIn (x : InitScript) (e : Env) (i : Nat) : InitStep → Prop
  | .reset => True
  | .goIdle => e.Before i (idleTicks x.idleTries) 2000 ∧ IdleInTime e (i + 1) x.idleTries ∧
      x.idle.InTime e (i + 1 + idleTicks x.idleTries)
  | .ifCond => x.probe.InTime e i
  | .opCond => e.Before i (condTicks x.condTries) 2000 ∧ CondInTime e (i + 1) x.condTries ∧
      (AppAttempt.sent x.condPrefix (.answered x.cond)).InTime e (i + 1 + condTicks x.condTries)
  | .ocr => x.ocrReply.InTime e i
  | .blkLen => x.blkLen.InTime e i
  | .cid => x.cidReply.InTime e i ∧ x.cid.InTime e (i + x.cidReply.ticks)
  | .csd => x.csdReply.InTime e i ∧ x.csd.InTime e (i + x.csdReply.ticks)
  | .commit => True

/-- What the engine does on the bus before a state. -/
def InitScript.moves (x : InitScript) (g : InitStep) : List Event := g.before.flatMap x.movesIn

/-- How many clock samples come before a state. -/
def InitScript.ticks (x : InitScript) (g : InitStep) : Nat := (g.before.map x.ticksIn).sum

/-- The replies that make `INIT` reach a state. -/
def InitScript.Ok (x : InitScript) (p : Params) (g : InitStep) : Prop := ∀ h ∈ g.before, x.OkIn p h

/-- Every wait before a state ends as the script says. -/
def InitScript.InTime (x : InitScript) (e : Env) (g : InitStep) : Prop :=
  ∀ h ∈ g.before, x.InTimeIn e (x.ticks h) h

/-- The scratch buffer `m` when `INIT` enters a state: the image read last at offsets 0 to 15, everything else
as in `m₀` (R320). -/
def InitScript.Scratch (x : InitScript) (g : InitStep) (m₀ m : Memory) : Prop :=
  ∀ a : Nat, m.get a =
    if h : a < 16 then
      if .csd ∈ g.before then x.csd.data[a] else if .cid ∈ g.before then x.cid.data[a] else m₀.get a
    else m₀.get a

/-! ### What a command leaves -/

/-- The state with these inputs left and this history; every register as before. -/
def State.io (s : State) (e : Env) (trace : List Event) : State := { s with env := e, trace := trace }

/-- The registers after `issue_command` got a response (R186): everything else as before. The final
deadline, inputs and history are arguments. -/
def State.answered (s : State) (index : BitVec 6) (arg : BitVec 32) (resp : Byte) (dl1 : Clock) (e : Env)
    (trace : List Event) : State :=
  { s with
    seq.cfsm := .cOff
    wrk.status := resp
    wrk.rto := false
    wrk.csActive := true
    wrk.frame := frameOf index arg
    wrk.dl1 := dl1
    env := e
    trace := trace }

/-- The registers after `issue_command` got no response (R186, C_TIMEOUT). -/
def State.unanswered (s : State) (index : BitVec 6) (arg : BitVec 32) (dl1 : Clock) (e : Env)
    (trace : List Event) : State :=
  { s with
    seq.cfsm := .cOff
    wrk.status := 0xFF#8
    wrk.rto := true
    wrk.csActive := false
    wrk.frame := frameOf index arg
    wrk.dl1 := dl1
    env := e
    trace := trace }

/-- The registers after one attempt at a command. -/
def State.attempted (s : State) (index : BitVec 6) (arg : BitVec 32) (a : Attempt) (dl1 : Clock) (e : Env)
    (trace : List Event) : State :=
  match a with
  | .answered r => s.answered index arg r.resp dl1 e trace
  | .silent _ => s.unanswered index arg dl1 e trace

/-- The registers after one attempt at the operating-condition command. -/
def State.appAttempted (s : State) (arg : BitVec 32) (c : AppAttempt) (dl1 : Clock) (e : Env)
    (trace : List Event) : State :=
  match c with
  | .sent _ a => s.attempted 41#6 arg a dl1 e trace
  | .prefixSilent _ => s.unanswered 55#6 0#32 dl1 e trace

/-- The registers when `INIT` enters a state (R221 to R234), but for what every command overwrites; the scratch
buffer is an argument. -/
def State.initAt (s : State) (x : InitScript) (g : InitStep) (m : Memory) : State :=
  { s with
    ses.kind :=
      if .ocr ∈ g.before then (if 0xC0#8 ≤ x.ocr[0] then .sdhc else .sd2)
      else if .ifCond ∈ g.before then .sd2 else .none
    ses.cid := if .cid ∈ g.before then x.cid.data else s.ses.cid
    ses.csd := if .csd ∈ g.before then x.csd.data else s.ses.csd
    ses.blockCount := 0#64
    wrk.dl0 :=
      if .opCond ∈ g.before then s.env.deadlineAt (x.ticks .opCond) 2000
      else if .goIdle ∈ g.before then s.env.deadlineAt (x.ticks .goIdle) 2000 else s.wrk.dl0
    wrk.r7 := if .ifCond ∈ g.before then x.payload else s.wrk.r7
    wrk.ocr0 := if .ocr ∈ g.before then x.ocr[0] else s.wrk.ocr0
    wrk.scratch := m }

/-- The registers when `INIT` enters `I_COMMIT`, the card deselected after the CSD read (R234): the scratch
buffer, inputs and history are arguments. -/
def State.initRead (s : State) (x : InitScript) (m : Memory) (e : Env) (trace : List Event) : State :=
  { (s.initAt x .commit m).answered 9#6 0#32 0x00#8 (s.env.deadlineAt (x.ticks .csd + x.csdReply.ticks) 300)
      e trace with
    wrk.csActive := false }

/-- The state an operation that ended with success leaves its sequencer and `RES` in (R237, R304, R314). -/
def State.done (s : State) : State :=
  { s with
    seq := { op := .idle, fsm := .fIdle, cfsm := .cOff }
    res.kind := 0#4
    res.status := 0x00#8
    res.tcode := 0 }

/-! ### What an instruction issues -/

/-- The idle engine's request passes its checks and translates to `arg` (R300, R301, R302). -/
structure State.RequestOk (s : State) (arg : BitVec 32) : Prop where
  idle : s.seq.op = .idle
  len : s.req.len = 512#32
  range : s.req.index.toNat < s.ses.blockCount.toNat
  address : translate s.ses.kind s.req.index = some arg

/-- The instruction begins, in this state, with `ensure_zero_status(n, arg)` and nothing before it on the bus
(R194, R198, R199, R201, R202, R203, R206, R304, R314, R320). -/
def Issues (s : State) (i : Instr) (n : BitVec 6) (arg : BitVec 32) : Prop :=
  (i, n) ∈ [(Instr.cmd9 arg, 9#6), (.cmd10 arg, 10#6), (.cmd16 arg, 16#6), (.cmd17 arg, 17#6),
    (.cmd24 arg, 24#6), (.cmd58 arg, 58#6), (.zcmd n arg, n)] ∨
  (i = .rdreg n ∧ arg = 0#32) ∨ (i = .rdblk ∧ n = 17#6 ∧ s.RequestOk arg) ∨
  (i = .wrblk ∧ n = 24#6 ∧ s.RequestOk arg)

/-- The instruction waits for a start token after its command (R305, R320). -/
def WaitsForToken (i : Instr) (n : BitVec 6) (arg : BitVec 32) : Prop :=
  i ∈ [Instr.cmd9 arg, .cmd10 arg, .rdreg n, .cmd17 arg, .rdblk]

/-- The history of `t` since `s` holds a whole register read (R320): the frame of command `n`, the response
0x00, the start token and the 16 bytes of the image. -/
def ReadBy (s t : State) (n : BitVec 6) (img : Image) : Prop :=
  ∃ (before after : List Event) (during : Vector Byte 6) (pend : List Byte) (d : DataReply 16),
    d.data = img ∧ (∀ b ∈ pend, pending b = true) ∧
    bus t.trace = bus s.trace ++ before ++
      (frameTalk n 0#32 during ++ polls (pend ++ [0x00#8]) ++ d.talk).events ++ after

/-- The history of `t` since `s` holds the first byte of CMD10's frame and, after it, the selection of the card:
`I_CID` completed and `I_CSD` began (R233, R234, R238). -/
def CsdBegun (s t : State) : Prop :=
  ∃ (before between after : List Event) (a : Answer),
    bus t.trace = bus s.trace ++ before ++ .xchg 0x4A#8 a :: between ++ .cs true :: after

end Sys2Proof.Machine
end

