-- ==== Sys2Proof/Certificates/Slice0/Obligations.lean ====
section
/-! DEFINITION. The statements for the provers: what the rules of the spec say of this model. -/

open Sys2Proof Sys2Proof.Machine

/-! ### Checksums -/

/-- R142: the table is the bit-serial CRC7 of each byte, and the table-driven CRC7 is the bit-serial one.
(R142 is the spec's own inference from R141.) -/
def Obligations.Crc7TableAgrees : Prop :=
  (∀ i : Byte, crc7T i = crc7 [i]) ∧ ∀ bytes : List Byte, crc7ByTable bytes = crc7 bytes

/-- R143: the CRC7 corner cases, the augmentation property, and that any single-bit change shows.
(R143 is the spec's own inference from R141.) -/
def Obligations.Crc7Corners : Prop :=
  crc7 [] = 0x00#7 ∧ (∀ n : Nat, crc7 (List.replicate n 0x00#8) = 0x00#7) ∧
  (∀ (n : Nat) (m : List Byte), crc7 (List.replicate n 0x00#8 ++ m) = crc7 m) ∧
  crc7 [0x01#8] = 0x09#7 ∧ crc7 [0x80#8] = 0x41#7 ∧ crc7 [0xFF#8] = 0x79#7 ∧
  crc7 [0x31#8, 0x32#8, 0x33#8, 0x34#8, 0x35#8, 0x36#8, 0x37#8, 0x38#8, 0x39#8] = 0x75#7 ∧
  (∀ m : List Byte, crc7 (m ++ [crc7 m ++ 0#1]) = 0x00#7) ∧
  ∀ (before after : List Byte) (b : Byte) (k : Nat), k < 8 →
    crc7 (before ++ (b ^^^ (1#8 <<< k)) :: after) ≠ crc7 (before ++ b :: after)

/-- R149: the CRC16 corner cases and the augmentation property.
(R149 is the spec's own inference from R148.) -/
def Obligations.Crc16Corners : Prop :=
  crc16 [] = 0x0000#16 ∧ (∀ n : Nat, crc16 (List.replicate n 0x00#8) = 0x0000#16) ∧
  crc16 [0x01#8] = 0x1021#16 ∧ crc16 [0x80#8] = 0x9188#16 ∧ crc16 [0xFF#8] = 0x1EF0#16 ∧
  crc16 [0x31#8, 0x32#8, 0x33#8, 0x34#8, 0x35#8, 0x36#8, 0x37#8, 0x38#8, 0x39#8] = 0x31C3#16 ∧
  crc16 (List.replicate 512 0xFF#8) = 0x7FA1#16 ∧
  crc16 ((List.range 512).map fun i => BitVec.ofNat 8 (i % 256)) = 0x40DA#16 ∧
  ∀ m : List Byte, crc16 (m ++ [(crc16 m).extractLsb' 8 8, (crc16 m).extractLsb' 0 8]) = 0x0000#16

/-! ### Encodings -/

/-- R90, R181: the frame the framer builds, field by field, and that it is the encoder's frame. -/
def Obligations.FrameShape : Prop :=
  ∀ (index : BitVec 6) (arg : BitVec 32),
    (frameOf index arg)[0] = 0x40#8 ||| index.setWidth 8 ∧
    (frameOf index arg)[0].extractLsb' 6 2 = 0b01#2 ∧ (frameOf index arg)[0].extractLsb' 0 6 = index ∧
    (frameOf index arg)[1] = arg.extractLsb' 24 8 ∧ (frameOf index arg)[2] = arg.extractLsb' 16 8 ∧
    (frameOf index arg)[3] = arg.extractLsb' 8 8 ∧ (frameOf index arg)[4] = arg.extractLsb' 0 8 ∧
    (frameOf index arg)[5].extractLsb' 1 7 = crc7 ((frameOf index arg).toList.take 5) ∧
    (frameOf index arg)[5].extractLsb' 0 1 = 1#1 ∧
    (frameOf index arg).toList = encodeFrame index arg

/-- Decoding an encoded well-formed instruction gives it back, with every operand (R90, R130, R131).
(The bytes and the strict CRC test are log 12.) -/
def Obligations.DecodeEncode : Prop := ∀ i : Instr, i.wellFormed = true → decode (encode i) = .ok i

/-- Each accepted word is the encoding of what it decodes to: no word has two readings, and no bit of a
word is free (R90, R91, R130).
(Rejecting every other word is the model's choice: log 12.) -/
def Obligations.EncodeDecode : Prop := ∀ (c : Code) (i : Instr), decode c = .ok i → encode i = c

/-- R130: the table of host operation codes. -/
def Obligations.HostCodes : Prop :=
  (∀ code : BitVec 4, decode (hostCode code) = .ok (hostOf code)) ∧
  hostOf 0x0#4 = .nop ∧ hostOf 0x1#4 = .init ∧ hostOf 0x2#4 = .rdblk ∧ hostOf 0x3#4 = .wrblk ∧
  hostOf 0x4#4 = .blkcnt ∧ hostOf 0x5#4 = .cid ∧ hostOf 0x6#4 = .csd ∧ hostOf 0x7#4 = .lastcrc ∧
  hostOf 0x8#4 = .kind ∧ hostOf 0x9#4 = .calccrc ∧ hostOf 0xA#4 = .csdvalid ∧ hostOf 0xB#4 = .reservedB ∧
  hostOf 0xC#4 = .reservedC ∧ hostOf 0xD#4 = .reservedD ∧ hostOf 0xE#4 = .reservedE ∧ hostOf 0xF#4 = .reservedF

/-- Words written out from the spec's encodings (R90, R92, R130, R131) decode to what they stand for; a
wrong CRC, a wrong stop bit and an index the engine never emits, alone or as ZCMDn, are rejected by name.
(The numbering of a table word and the rejections are log 12.) -/
def Obligations.WordsDecode : Prop :=
  decodeTableWord 48 0x400000000095 = some (.cmd0 0x00000000#32) ∧
  decodeTableWord 48 0x48000001AA87 = some (.cmd8 0x000001AA#32) ∧
  decodeTableWord 48 0x510000000147 = some (.cmd17 0x00000001#32) ∧
  decodeTableWord 48 0x51FFFFFE009B = some (.cmd17 0xFFFFFE00#32) ∧
  decodeTableWord 48 0x580000000359 = some (.cmd24 0x00000003#32) ∧
  decodeTableWord 48 0x694000000077 = some (.cmd41 0x40000000#32) ∧
  decodeTableWord 4 0x2 = some .rdblk ∧ decodeTableWord 8 0xA = some .csdvalid ∧
  decodeTableWord 96 0x770000000065694000000077 = some (.acmd41 0x40000000#32) ∧
  decode ⟨.pseudoZcmd, [0x50#8, 0x00#8, 0x00#8, 0x02#8, 0x00#8, 0x15#8]⟩ = .ok (.zcmd 16#6 0x00000200#32) ∧
  decode ⟨.pseudoRdreg, [0x49#8, 0x00#8, 0x00#8, 0x00#8, 0x00#8, 0xAF#8]⟩ = .ok (.rdreg 9#6) ∧
  decode ⟨.cmdframe48, [0x40#8, 0x00#8, 0x00#8, 0x00#8, 0x00#8, 0x97#8]⟩ = .error .crcField ∧
  decode ⟨.cmdframe48, [0x40#8, 0x00#8, 0x00#8, 0x00#8, 0x00#8, 0x94#8]⟩ = .error .stopBit ∧
  decode ⟨.cmdframe48, [0x7F#8, 0xFF#8, 0xFF#8, 0xFF#8, 0xFF#8, 0x19#8]⟩ = .error .commandIndex ∧
  decode ⟨.pseudoZcmd, [0x7F#8, 0xFF#8, 0xFF#8, 0xFF#8, 0xFF#8, 0x19#8]⟩ = .error .commandIndex

/-! ### Received bytes -/

/-- R98, R99, R100, R102, R103: the tests on received bytes. -/
def Obligations.ByteTests : Prop :=
  (∀ p : Vector Byte 4, r7Ok p = true ↔ p[2] &&& 0x0F#8 = 0x01#8 ∧ p[3] = 0xAA#8) ∧
  (∀ b : Byte, ocrHighCapacity b = true ↔ b &&& 0xC0#8 = 0xC0#8) ∧
  (∀ b : Byte, tokenClass b = .start ↔ b = 0xFE#8) ∧ (∀ b : Byte, tokenClass b = .idleLine ↔ b = 0xFF#8) ∧
  (∀ b : Byte, tokenClass b = .invalid ↔ b ≠ 0xFE#8 ∧ b ≠ 0xFF#8) ∧
  (∀ t : Byte, writeAccepted t = true ↔ t.extractLsb' 0 5 = 0b00101#5) ∧
  ∀ b : Byte, notBusy b = true ↔ b = 0xFF#8

/-- R189, R190, R191: the pending test, the classes of a command's result, the flag positions. -/
def Obligations.ResponseClasses : Prop :=
  (∀ b : Byte, pending b = true ↔ b &&& 0x80#8 = 0x80#8) ∧
  (∀ (st : Byte) (rto : Bool), classify st rto = .timeout ↔ rto = true) ∧
  (∀ (st : Byte) (rto : Bool), classify st rto = .clear ↔ rto = false ∧ st = 0x00#8) ∧
  (∀ (st : Byte) (rto : Bool), classify st rto = .idleOnly ↔ rto = false ∧ st = 0x01#8) ∧
  (∀ (st : Byte) (rto : Bool), classify st rto = .flagged ↔ rto = false ∧ st ≠ 0x00#8 ∧ st ≠ 0x01#8) ∧
  ∀ st : Byte, idleFlag st = (st &&& 0x01#8 == 0x01#8) ∧ eraseReset st = (st &&& 0x02#8 == 0x02#8) ∧
    illegalCommand st = (st &&& 0x04#8 == 0x04#8) ∧ crcError st = (st &&& 0x08#8 == 0x08#8) ∧
    eraseSequenceError st = (st &&& 0x10#8 == 0x10#8) ∧ addressError st = (st &&& 0x20#8 == 0x20#8) ∧
    parameterError st = (st &&& 0x40#8 == 0x40#8)

/-- R192, R28, R29: whatever the card and the clock do, a command that returns leaves its reply in
`S.status` and `S.rto`; the status is 0xFF only together with `rto = 1`, and any other status passed the
pending test. -/
def Obligations.TimeoutIsNotAStatus : Prop :=
  ∀ (index : BitVec 6) (arg : BitVec 32) (s t : State) (r : Reply), issueCommand index arg s = .ok r t →
    t.wrk.status = r.status ∧ t.wrk.rto = r.rto ∧ t.seq.cfsm = .cOff ∧ (r.rto = true ↔ r.status = 0xFF#8) ∧
      (r.rto = false → pending r.status = false ∧ t.wrk.csActive = true) ∧ (r.rto = true → t.wrk.csActive = false)

/-! ### Reset -/

/-- Every register after reset (R41, R400; every value but that of `S.block_count` is the spec's own decision
D27, log 11), and what follows: not ready, no valid CSD, no block reachable. (That a length of 512 gives
E_RANGE after reset is the consequence R41 marks as derived from R30 and R302.) -/
def Obligations.ResetValues : Prop :=
  State.reset.ses.kind = .none ∧ State.reset.ses.cid = Vector.replicate 16 0x00#8 ∧
  State.reset.ses.csd = Vector.replicate 16 0x00#8 ∧ State.reset.ses.blockCount = 0#64 ∧
  State.reset.ses.lastCrc16 = 0x0000#16 ∧ State.reset.ses.calcCrc16 = 0x0000#16 ∧
  State.reset.seq = { op := .idle, fsm := .fIdle, cfsm := .cOff } ∧
  State.reset.wrk.status = 0xFF#8 ∧ State.reset.wrk.rto = false ∧ State.reset.wrk.dresp = 0x00#8 ∧
  State.reset.wrk.dl0 = 0#64 ∧ State.reset.wrk.dl1 = 0#64 ∧ State.reset.wrk.csActive = false ∧
  State.reset.wrk.frame = Vector.replicate 6 0x00#8 ∧ State.reset.wrk.r7 = Vector.replicate 4 0x00#8 ∧
  State.reset.wrk.ocr0 = 0x00#8 ∧ (∀ a : Nat, State.reset.wrk.scratch.get a = 0x00#8) ∧
  State.reset.req.op = 0x0#4 ∧ State.reset.req.index = 0#64 ∧ State.reset.req.len = 0#32 ∧
  (∀ a : Nat, State.reset.req.buf.get a = 0x00#8) ∧
  State.reset.res = { kind := 0#4, status := 0x00#8, tcode := 0, data := 0#128 } ∧
  State.reset.ready = false ∧ csdIsValid State.reset.ses.csd = false ∧
  ∀ (i : Instr) (index : BitVec 64), i ∈ [Instr.rdblk, .wrblk] → ∃ t : State,
    exec i { State.reset with req.index := index, req.len := 512#32 } = .next t ∧ t.res.kind = 8#4

/-- R402, R400: a reset at any moment puts every register at its reset value and only drives chip-select to
its deselected level; no byte is exchanged. (That the inputs, the parameters and the history stay is the
model's choice: log 20.) -/
def Obligations.BlockReset : Prop :=
  ∀ s : State, ∃ trace : List Event,
    s.blockReset = { State.reset with par := s.par, env := s.env, trace := trace } ∧
      bus trace = bus s.trace ++ s.csEvents false

/-! ### The step -/

/-- A step runs the decoded instruction. A request of the host puts its five fields, the host buffer's 512
bytes among them, where the next step takes it (R33, R340); the step runs its code on the registers it
wrote. Without a request the step issues a frame of the command port inside the operation that issues it,
carries a running operation on, or waits (R401). (The step structure and the two ports are the model's:
log 5, log 7, log 8, log 17.) -/
def Obligations.StepRunsDecoded : Prop :=
  (∀ (s : State) (r : Request) (i : Instr), s.seq.legal = true → s.hostPort = some r →
    decode (hostCode r.op) = .ok i → step s = exec i { s with req := r, hostPort := none }) ∧
  (∀ (s : State) (code : BitVec 4) (index : BitVec 64) (len : BitVec 32) (bytes : Vector Byte 512),
    ∃ r : Request, s.request code index len bytes = { s with hostPort := some r } ∧
      r.op = code ∧ r.index = index ∧ r.len = len ∧ r.buf.wf = true ∧
      ∀ a : Nat, r.buf.get a = if h : a < 512 then bytes[a] else 0x00#8) ∧
  (∀ (s : State) (c : Code) (i : Instr), s.seq.legal = true → s.hostPort = none → s.cmdPort = some c →
    decode c = .ok i → s.seq.op = (placeOf i).1 → step s = exec i { s with cmdPort := none }) ∧
  (∀ s : State, s.seq.legal = true → s.hostPort = none → s.cmdPort = none → s.seq.op ≠ .idle →
    step s = settle (resume s.seq.fsm) s) ∧
  (∀ s : State, s.seq.legal = true → s.hostPort = none → s.cmdPort = none → s.seq.op = .idle →
    step s = .next s)

/-- A table word placed where the step fetches runs as the instruction it decodes to, in a state that
differs from the given one in the sequencer, the ports and the operation code only; a legal sequencer is
kept for a host code, and a frame runs in the operation that issues it (log 8). -/
def Obligations.FetchWordRuns : Prop :=
  ∀ (s : State) (nbits w : Nat) (i : Instr), decodeTableWord nbits w = some i →
    ∃ t : State, step (s.withFetchWord nbits w) = exec i t ∧ t.seq.legal = true ∧
      t = { s with seq := t.seq, hostPort := none, cmdPort := t.cmdPort, req.op := t.req.op } ∧
      (nbits ≤ 8 → t.cmdPort = s.cmdPort ∧ (s.seq.legal = true → t.seq = s.seq) ∧
        (s.seq.legal = false → t.seq.op = .idle)) ∧
      (8 < nbits → t.cmdPort = none ∧ t.req = s.req ∧ t.seq.op = (placeOf i).1)

/-! ### Host operations that complete at once -/

/-- R343: NOP. -/
def Obligations.NopEffect : Prop :=
  hostOf State.reset.req.op = .nop ∧
  ∀ s : State, s.seq.op = .idle →
    exec .nop s = .next { s with res.kind := 0#4, res.status := 0x00#8, res.tcode := 0 }

/-- R344 to R351: each getter returns its register, zero-extended, changes nothing but `RES`, and cannot
fail; byte k of an image stands in bits 127 − 8k to 120 − 8k (R12), and the kinds have the codes of R21. -/
def Obligations.GetterValues : Prop :=
  ∀ s : State, s.seq.op = .idle →
    (exec .blkcnt s = .next { s with res := ⟨0#4, 0x00#8, 0, s.ses.blockCount.setWidth 128⟩ }) ∧
    (exec .cid s = .next { s with res := ⟨0#4, 0x00#8, 0, imageWord s.ses.cid⟩ }) ∧
    (exec .csd s = .next { s with res := ⟨0#4, 0x00#8, 0, imageWord s.ses.csd⟩ }) ∧
    (exec .lastcrc s = .next { s with res := ⟨0#4, 0x00#8, 0, s.ses.lastCrc16.setWidth 128⟩ }) ∧
    (exec .kind s = .next { s with res := ⟨0#4, 0x00#8, 0, s.ses.kind.code.setWidth 128⟩ }) ∧
    (exec .calccrc s = .next { s with res := ⟨0#4, 0x00#8, 0, s.ses.calcCrc16.setWidth 128⟩ }) ∧
    (exec .csdvalid s =
      .next { s with res := ⟨0#4, 0x00#8, 0, if csdIsValid s.ses.csd = true then 1#128 else 0#128⟩ }) ∧
    CardKind.none.code = 0#2 ∧ CardKind.sd1.code = 1#2 ∧ CardKind.sd2.code = 2#2 ∧ CardKind.sdhc.code = 3#2 ∧
    ∀ (img : Image) (k : Fin 16), (imageWord img).extractLsb' (120 - 8 * k.val) 8 = img[k.val]

/-- R341: a request while an operation runs has no move, for each of the eleven operations: neither the
operation itself nor the step that finds the request.
(The host port, and that the step refuses what it finds there, are the model's: log 8, log 25.) -/
def Obligations.BusyRequestRefused : Prop :=
  (∀ (s : State) (i : Instr), s.seq.op ≠ .idle →
    i ∈ [Instr.nop, .init, .rdblk, .wrblk, .blkcnt, .cid, .csd, .lastcrc, .kind, .calccrc, .csdvalid] →
    exec i s = .refused .requestWhileBusy) ∧
  ∀ (s : State) (code : BitVec 4) (index : BitVec 64) (len : BitVec 32) (bytes : Vector Byte 512),
    s.seq.legal = true → s.seq.op ≠ .idle → code.toNat ≤ 10 →
    step (s.request code index len bytes) = .refused .requestWhileBusy

/-- R342: the reserved codes have no move, in any state. -/
def Obligations.ReservedRefused : Prop :=
  ∀ (s : State) (i : Instr), i ∈ [Instr.reservedB, .reservedC, .reservedD, .reservedE, .reservedF] →
    exec i s = .refused .reservedOperation

/-! ### The end of an operation -/

/-- R372: the exit actions, after a `raise` and after success: the card deselected, `RES` written, the
sequencers idle, nothing else changed and nothing rolled back; the codes of R360 and what each kind records
(R361). -/
def Obligations.ExitActions : Prop :=
  (∀ (p : Proc Unit) (s t : State) (e : Err), p s = .error (.raise e) t → ∃ trace : List Event,
    settle p s = .next { t with
      res.kind := e.code
      res.status := statusInfo (some e)
      res.tcode := tcodeInfo (some e)
      seq := { op := .idle, fsm := .fIdle, cfsm := .cOff }
      wrk.csActive := false
      trace := trace } ∧ bus trace = bus t.trace ++ t.csEvents false) ∧
  (∀ (p : Proc Unit) (s t : State), p s = .ok () t → ∃ trace : List Event,
    settle (p >>= fun _ => finish) s =
      .next { t.done with wrk.csActive := false, trace := trace } ∧
      bus trace = bus t.trace ++ t.csEvents false) ∧
  (∀ st : Byte, statusInfo (some (.protocol st)) = st) ∧ (∀ c : Nat, tcodeInfo (some (.transport c)) = c) ∧
  (∀ e : Err, e.code ≠ 4#4 → statusInfo (some e) = 0x00#8) ∧
  (∀ e : Err, e.code ≠ 1#4 → tcodeInfo (some e) = 0) ∧
  kindCode none = 0#4 ∧ (∀ c : Nat, (Err.transport c).code = 1#4) ∧ Err.noCard.code = 2#4 ∧
  Err.notSupported.code = 3#4 ∧ (∀ st : Byte, (Err.protocol st).code = 4#4) ∧ Err.ifcondMismatch.code = 5#4 ∧
  Err.noBlocks.code = 6#4 ∧ Err.bufLen.code = 7#4 ∧ Err.range.code = 8#4 ∧ Err.startToken.code = 9#4 ∧
  Err.writeReject.code = 10#4 ∧ Err.writeTimeout.code = 11#4 ∧ Err.respTimeout.code = 12#4

/-- R27, R36: after every host operation the engine is idle and the card deselected; and each operation ends
only with a kind of its row in the table of R364.
(R364 is the spec's own inference from R360.) -/
def Obligations.OperationsEndIdle : Prop :=
  ∀ (s t : State) (i : Instr), s.Inv →
    i ∈ [Instr.nop, .init, .rdblk, .wrblk, .blkcnt, .cid, .csd, .lastcrc, .kind, .calccrc, .csdvalid] →
    exec i s = .next t →
    t.seq = { op := .idle, fsm := .fIdle, cfsm := .cOff } ∧ t.wrk.csActive = false ∧
      (i = .init → t.res.kind ∈ [0#4, 1#4, 2#4, 3#4, 4#4, 5#4, 6#4, 9#4, 12#4]) ∧
      (i = .rdblk → t.res.kind ∈ [0#4, 1#4, 4#4, 7#4, 8#4, 9#4, 12#4]) ∧
      (i = .wrblk → t.res.kind ∈ [0#4, 1#4, 4#4, 7#4, 8#4, 10#4, 11#4, 12#4]) ∧
      (i ≠ .init → i ≠ .rdblk → i ≠ .wrblk → t.res.kind = 0#4)

/-! ### Commands -/

/-- R186, R187, R192, R196, R204, R205: CMD0, CMD41 and CMD55, answered or not, whichever way the busy-wait
before the frame ends: the exact next state and the exact transport events. Without an answer the card is
deselected, one filler byte follows, the status is 0xFF with `rto = 1`, and no error is raised. Every register
not named keeps its value.
(A command row as an instruction of its own: log 9.) -/
def Obligations.PlainCommand : Prop :=
  ∀ (s : State) (i : Instr) (n : BitVec 6) (arg : BitVec 32) (a : Attempt) (rest : List Answer),
    (i, n) ∈ [(Instr.cmd0 arg, 0#6), (.cmd41 arg, 41#6), (.cmd55 arg, 55#6)] → a.Ok s.par → a.InTime s.env 0 →
    s.env.rx = answersOf (a.moves n arg) ++ rest →
    ∃ (e : Env) (trace : List Event),
      exec i s = .next (s.attempted n arg a (s.env.deadlineAt 0 300) e trace) ∧ e.rx = rest ∧
      bus trace = bus s.trace ++ levels s.wrk.csActive (a.moves n arg)

/-- R187: a busy-wait of `T_CMD_BUSY` = 300 ms that runs out before a frame does not stop it: the frame is sent
with no not-busy byte seen. The test that ends the wait is the one whose sample reaches the deadline, equality
included (R162).
(A command row as an instruction of its own: log 9.) -/
def Obligations.BusyExpiryIgnored : Prop :=
  ∀ (s : State) (i : Instr) (n : BitVec 6) (arg : BitVec 32) (busy : List Byte) (b : Byte)
    (during : Vector Byte 6) (pend : List Byte) (resp : Byte) (rest : List Answer),
    (i, n) ∈ [(Instr.cmd0 arg, 0#6), (.cmd41 arg, 41#6), (.cmd55 arg, 55#6)] →
    (∀ c ∈ busy ++ [b], c ≠ 0xFF#8) → (∀ c ∈ pend, pending c = true) → pend.length ≤ s.par.pollExtra →
    pending resp = false →
    s.env.rx = (polls (busy ++ [b]) ++ frameTalk n arg during ++ polls (pend ++ [resp])).answers ++ rest →
    s.env.Before 0 busy.length 300 → s.env.Reached 0 (busy.length + 1) 300 →
    ∃ (e : Env) (trace : List Event),
      exec i s = .next (s.answered n arg resp (s.env.deadlineAt 0 300) e trace) ∧ e.rx = rest ∧
      e.clk = (s.env.after (busy.length + 2)).clk ∧
      bus trace = bus s.trace ++ s.csEvents true ++
        (polls (busy ++ [b]) ++ frameTalk n arg during ++ polls (pend ++ [resp])).events

/-- R188, R200: CMD12: no busy-wait and no clock sample, one stuff byte after the frame.
(A command row as an instruction of its own: log 9.) -/
def Obligations.StreamStop : Prop :=
  ∀ (s : State) (arg : BitVec 32) (during : Vector Byte 6) (stuff : Byte) (pend : List Byte) (resp : Byte)
    (rest : List Answer), (∀ b ∈ pend, pending b = true) → pend.length ≤ s.par.pollExtra →
    pending resp = false →
    s.env.rx = (frameTalk 12#6 arg during ++ polls [stuff] ++ polls (pend ++ [resp])).answers ++ rest →
    ∃ (e : Env) (trace : List Event),
      exec (.cmd12 arg) s = .next (s.answered 12#6 arg resp s.wrk.dl1 e trace) ∧
      e.rx = rest ∧ e.clk = s.env.clk ∧ e.clkCount = s.env.clkCount ∧
      bus trace = bus s.trace ++ s.csEvents true ++
        (frameTalk 12#6 arg during ++ polls [stuff] ++ polls (pend ++ [resp])).events

/-- R193, R94: ACMD41: the prefix frame and then the target frame, answered or not, the prefix's status not
examined; an unanswered prefix stops the target command. The exact next state and transport events.
(A command row as an instruction of its own: log 9.) -/
def Obligations.AppCommand : Prop :=
  ∀ (s : State) (arg : BitVec 32) (c : AppAttempt) (rest : List Answer), c.Ok s.par →
    c.InTime s.env 0 → s.env.rx = answersOf (c.moves arg) ++ rest →
    ∃ (e : Env) (trace : List Event),
      exec (.acmd41 arg) s = .next (s.appAttempted arg c (s.env.deadlineAt c.loadAt 300) e trace) ∧ e.rx = rest ∧
      bus trace = bus s.trace ++ levels s.wrk.csActive (c.moves arg)

/-- R194, R201: CMD16 and ZCMDn answered with 0x00.
(A command row as an instruction of its own: log 9.) -/
def Obligations.ZeroStatusAccepted : Prop :=
  ∀ (s : State) (i : Instr) (n : BitVec 6) (arg : BitVec 32) (r : CardReply) (rest : List Answer),
    ((i = .cmd16 arg ∧ n = 16#6) ∨ (i = .zcmd n arg ∧ n ≠ 12#6)) → r.Ok s.par → r.resp = 0x00#8 →
    s.env.rx = (r.talk n arg).answers ++ rest → r.InTime s.env 0 →
    ∃ (e : Env) (trace : List Event),
      exec i s = .next (s.answered n arg 0x00#8 (s.env.deadlineAt 0 300) e trace) ∧ e.rx = rest ∧
      bus trace = bus s.trace ++ s.csEvents true ++ (r.talk n arg).events

/-- R194: every instruction that requires a zero status, RDBLK, WRBLK and RDREG among them, ends with
E_PROTOCOL and the raw status on any other status, and with E_RESP_TIMEOUT on none; nothing after the R1 byte
is exchanged.
(A command row as an instruction of its own: log 9. That the refused transfers keep the scratch buffer: log 14.) -/
def Obligations.ZeroStatusErrors : Prop :=
  ∀ (s : State) (i : Instr) (n : BitVec 6) (arg : BitVec 32) (a : Attempt) (rest : List Answer),
    Issues s i n arg → n ≠ 12#6 → a.Ok s.par → a.NotClear → a.InTime s.env 0 →
    s.env.rx = answersOf (a.moves n arg) ++ rest →
    ∃ (e : Env) (trace : List Event),
      exec i s = .next (exitActions (some (if a.reply.rto then .respTimeout else .protocol a.reply.status))
        (s.attempted n arg a (s.env.deadlineAt 0 300) e trace)) ∧
      e.rx = rest ∧ bus trace = bus s.trace ++ levels s.wrk.csActive (a.moves n arg)

/-- R225, R197, R366: CMD8: an illegal-command answer classifies SD1 and reads no payload; otherwise the
payload is read and classifies SD2 or is a mismatch; no answer is E_RESP_TIMEOUT.
(A command row as an instruction of its own: log 9.) -/
def Obligations.InterfaceCondition : Prop :=
  ∀ (s : State) (arg : BitVec 32) (rest : List Answer),
    (∀ (r : CardReply) (p : Vector Byte 4), r.Ok s.par → illegalCommand r.resp = false → r7Ok p = true →
      s.env.rx = (r.talk 8#6 arg ++ polls p.toList).answers ++ rest → r.InTime s.env 0 →
      ∃ (e : Env) (trace : List Event),
        exec (.cmd8 arg) s =
          .next { s.answered 8#6 arg r.resp (s.env.deadlineAt 0 300) e trace with
            wrk.r7 := p, ses.kind := .sd2 } ∧ e.rx = rest ∧
        bus trace = bus s.trace ++ s.csEvents true ++ (r.talk 8#6 arg ++ polls p.toList).events) ∧
    (∀ (r : CardReply) (p : Vector Byte 4), r.Ok s.par → illegalCommand r.resp = false → r7Ok p = false →
      s.env.rx = (r.talk 8#6 arg ++ polls p.toList).answers ++ rest → r.InTime s.env 0 →
      ∃ (e : Env) (trace : List Event),
        exec (.cmd8 arg) s = .next (exitActions (some .ifcondMismatch)
          { s.answered 8#6 arg r.resp (s.env.deadlineAt 0 300) e trace with wrk.r7 := p }) ∧ e.rx = rest ∧
        bus trace = bus s.trace ++ s.csEvents true ++ (r.talk 8#6 arg ++ polls p.toList).events) ∧
    (∀ r : CardReply, r.Ok s.par → illegalCommand r.resp = true →
      s.env.rx = (r.talk 8#6 arg).answers ++ rest → r.InTime s.env 0 →
      ∃ (e : Env) (trace : List Event),
        exec (.cmd8 arg) s = .next (exitActions (some .notSupported)
          { s.answered 8#6 arg r.resp (s.env.deadlineAt 0 300) e trace with ses.kind := .sd1 }) ∧ e.rx = rest ∧
        bus trace = bus s.trace ++ s.csEvents true ++ (r.talk 8#6 arg).events) ∧
    (∀ q : Silence, q.Ok s.par → s.env.rx = (q.talk 8#6 arg ++ polls [q.last]).answers ++ rest →
      q.InTime s.env 0 →
      ∃ (e : Env) (trace : List Event),
        exec (.cmd8 arg) s = .next (exitActions (some .respTimeout)
          (s.unanswered 8#6 arg (s.env.deadlineAt 0 300) e trace)) ∧ e.rx = rest ∧
        bus trace = bus s.trace ++ s.csEvents true ++ (q.talk 8#6 arg).events ++ [.cs false] ++
          (polls [q.last]).events)

/-- R230, R231, R206: CMD58: the first of four bytes classifies, the others are discarded.
(A command row as an instruction of its own: log 9.) -/
def Obligations.OcrRead : Prop :=
  ∀ (s : State) (arg : BitVec 32) (r : CardReply) (p : Vector Byte 4) (rest : List Answer),
    r.Ok s.par → r.resp = 0x00#8 → s.env.rx = (r.talk 58#6 arg ++ polls p.toList).answers ++ rest →
    r.InTime s.env 0 →
    ∃ (e : Env) (trace : List Event),
      exec (.cmd58 arg) s = .next { s.answered 58#6 arg 0x00#8 (s.env.deadlineAt 0 300) e trace with
        wrk.ocr0 := p[0]
        ses.kind := if 0xC0#8 ≤ p[0] then .sdhc else s.ses.kind } ∧ e.rx = rest ∧
      bus trace = bus s.trace ++ s.csEvents true ++ (r.talk 58#6 arg ++ polls p.toList).events

/-- R320, R198, R199: CMD9, CMD10 and RDREG: the 16 bytes go to offsets 0 to 15 of the scratch buffer and
nowhere else, the two trailing bytes are discarded, the card is deselected.
(A command row as an instruction of its own: log 9.) -/
def Obligations.RegisterRead : Prop :=
  ∀ (s : State) (i : Instr) (n : BitVec 6) (arg : BitVec 32) (r : CardReply) (d : DataReply 16)
    (rest : List Answer),
    ((i = .cmd9 arg ∧ n = 9#6) ∨ (i = .cmd10 arg ∧ n = 10#6) ∨ (i = .rdreg n ∧ arg = 0#32 ∧ n ≠ 12#6)) →
    s.wrk.scratch.wf = true → r.Ok s.par → r.resp = 0x00#8 →
    s.env.rx = (r.talk n arg ++ d.talk).answers ++ rest → r.InTime s.env 0 → d.InTime s.env r.ticks →
    ∃ (e : Env) (trace : List Event) (m : Memory),
      exec i s = .next { s.answered n arg 0x00#8 (s.env.deadlineAt r.ticks 300) e trace with
        wrk.csActive := false, wrk.scratch := m } ∧ e.rx = rest ∧
      (∀ a : Nat, m.get a = if h : a < 16 then d.data[a] else s.wrk.scratch.get a) ∧
      bus trace = bus s.trace ++ s.csEvents true ++ (r.talk n arg ++ d.talk).events ++ [.cs false]

/-- R305, R322: in the start-token wait of a register read, of CMD17 and of RDBLK a byte other than 0xFE and
0xFF, or `T_TOKEN` = 300 ms of idle-line bytes, ends the instruction with E_START_TOKEN, the card deselected
and no data byte read. The wrong byte is told before the deadline is tested (R366), and the deadline expires at
equality (R162).
(A command row as an instruction of its own: log 9. That RDBLK and CMD17 keep the scratch buffer: log 14.) -/
def Obligations.TokenError : Prop :=
  ∀ (s : State) (i : Instr) (n : BitVec 6) (arg : BitVec 32) (r : CardReply) (q : NoToken) (rest : List Answer),
    Issues s i n arg → WaitsForToken i n arg → n ≠ 12#6 → r.Ok s.par → r.resp = 0x00#8 → q.last ≠ 0xFE#8 →
    r.InTime s.env 0 → q.InTime s.env r.ticks → s.env.rx = (r.talk n arg ++ q.talk).answers ++ rest →
    ∃ (e : Env) (trace : List Event),
      exec i s = .next (exitActions (some .startToken)
        { s.answered n arg 0x00#8 (s.env.deadlineAt r.ticks 300) e trace with wrk.csActive := false }) ∧
      e.rx = rest ∧
      bus trace = bus s.trace ++ s.csEvents true ++ (r.talk n arg ++ q.talk).events ++ [.cs false]

/-- R202, R304, R307 to R310: CMD17 with its data phase: the 512 bytes go to the host buffer in order,
the two trailing bytes and the computed CRC16 are recorded, the card is deselected.
(A command row as an instruction of its own: log 9. That the scratch buffer is kept: log 14.) -/
def Obligations.ReadCommand : Prop :=
  ∀ (s : State) (arg : BitVec 32) (r : CardReply) (d : DataReply 512) (rest : List Answer),
    s.req.buf.wf = true → r.Ok s.par → r.resp = 0x00#8 →
    s.env.rx = (r.talk 17#6 arg ++ d.talk).answers ++ rest → r.InTime s.env 0 → d.InTime s.env r.ticks →
    ∃ (e : Env) (trace : List Event) (m : Memory),
      exec (.cmd17 arg) s = .next { s.answered 17#6 arg 0x00#8 (s.env.deadlineAt r.ticks 300) e trace with
        wrk.csActive := false, req.buf := m
        ses.lastCrc16 := d.crcHigh ++ d.crcLow, ses.calcCrc16 := crc16 d.data.toList } ∧ e.rx = rest ∧
      (∀ a : Nat, m.get a = if h : a < 512 then d.data[a] else s.req.buf.get a) ∧
      bus trace = bus s.trace ++ s.csEvents true ++ (r.talk 17#6 arg ++ d.talk).events ++ [.cs false]

/-- R203, R314, R315, R317, R318: CMD24 with its data packet: the payload sent is the host buffer, byte 0
first; an accepted token is followed by the busy-wait of `T_WRITE_BUSY` = 600 ms; the card is deselected.
(A command row as an instruction of its own: log 9. That the scratch buffer is kept: log 14.) -/
def Obligations.WriteCommand : Prop :=
  ∀ (s : State) (arg : BitVec 32) (r : CardReply) (w : WriteReply) (rest : List Answer),
    r.Ok s.par → r.resp = 0x00#8 → writeAccepted w.token = true → (∀ b ∈ w.busy, b ≠ 0xFF#8) →
    s.env.rx = (r.talk 24#6 arg ++ w.talk (s.req.buf.bytes 0 512)).answers ++ rest →
    r.InTime s.env 0 → w.InTime s.env r.ticks →
    ∃ (e : Env) (trace : List Event),
      exec (.cmd24 arg) s = .next { s.answered 24#6 arg 0x00#8 (s.env.deadlineAt r.ticks 600) e trace with
        wrk.csActive := false, wrk.dresp := w.token } ∧ e.rx = rest ∧
      bus trace = bus s.trace ++ s.csEvents true ++
        (r.talk 24#6 arg ++ w.talk (s.req.buf.bytes 0 512)).events ++ [.cs false]

/-- R317, R318, D44: the ends of a write after its packet, in CMD24 and in WRBLK: a rejected data-response
token is E_WRITE_REJECT with no busy-wait; after an accepted one, `T_WRITE_BUSY` = 600 ms of busy bytes are
E_WRITE_TIMEOUT, the deadline expiring at equality (R162). The card is deselected and the whole token stays in
`S.dresp`.
(A command row as an instruction of its own: log 9. That the scratch buffer is kept: log 14.) -/
def Obligations.WriteErrors : Prop :=
  ∀ (s : State) (i : Instr) (arg : BitVec 32) (r : CardReply) (w : WriteReply) (rest : List Answer),
    i ∈ [Instr.cmd24 arg, .wrblk] → Issues s i 24#6 arg → r.Ok s.par → r.resp = 0x00#8 →
    (w.token &&& 0x1F#8 ≠ 0x05#8 →
      s.env.rx = (r.talk 24#6 arg ++ w.packet (s.req.buf.bytes 0 512)).answers ++ rest →
      r.InTime s.env 0 →
      ∃ (e : Env) (trace : List Event),
        exec i s = .next (exitActions (some .writeReject)
          { s.answered 24#6 arg 0x00#8 (s.env.deadlineAt 0 300) e trace with
            wrk.csActive := false, wrk.dresp := w.token }) ∧ e.rx = rest ∧
        bus trace = bus s.trace ++ s.csEvents true ++
          (r.talk 24#6 arg ++ w.packet (s.req.buf.bytes 0 512)).events ++ [.cs false]) ∧
    (∀ b : Byte, w.token &&& 0x1F#8 = 0x05#8 → (∀ c ∈ w.busy ++ [b], c ≠ 0xFF#8) →
      s.env.rx =
        (r.talk 24#6 arg ++ w.packet (s.req.buf.bytes 0 512) ++ polls (w.busy ++ [b])).answers ++ rest →
      r.InTime s.env 0 → s.env.BusyWait r.ticks 600 w.busy b →
      ∃ (e : Env) (trace : List Event),
        exec i s = .next (exitActions (some .writeTimeout)
          { s.answered 24#6 arg 0x00#8 (s.env.deadlineAt r.ticks 600) e trace with
            wrk.csActive := false, wrk.dresp := w.token }) ∧ e.rx = rest ∧
        bus trace = bus s.trace ++ s.csEvents true ++
          (r.talk 24#6 arg ++ w.packet (s.req.buf.bytes 0 512) ++ polls (w.busy ++ [b])).events ++ [.cs false])

/-! ### Block transfers -/

/-- R300: the translation of a block index, exact. -/
def Obligations.Translation : Prop :=
  (∀ index : BitVec 64, translate .sdhc index = some (index.extractLsb' 0 32)) ∧
  (∀ (k : CardKind) (index : BitVec 64) (a : BitVec 32), k ≠ .sdhc →
    (translate k index = some a ↔ a.toNat = index.toNat * 512)) ∧
  (∀ (k : CardKind) (index : BitVec 64), translate k index = none ↔
    k ≠ .sdhc ∧ 2 ^ 32 ≤ (index.zeroExtend 73 <<< 9).toNat) ∧
  translate .sd2 3#64 = some 0x00000600#32 ∧ translate .sd2 0x7FFFFF#64 = some 0xFFFFFE00#32 ∧
  translate .sd2 0x800000#64 = none ∧ translate .sdhc 0xFFFFFFFE#64 = some 0xFFFFFFFE#32

/-- R301, R302, R303, R323: a refused RDBLK or WRBLK changes `RES` only: no transport event, no clock
sample, no other register; length before range before address overflow.
(The order of the checks and the overflow are decisions of the spec: D24 in R303, D26 in R300.) -/
def Obligations.RefusedTransfers : Prop :=
  ∀ (s : State) (i : Instr), i ∈ [Instr.rdblk, .wrblk] → s.Inv → s.seq.op = .idle →
    (s.req.len ≠ 512#32 → exec i s = .next { s with res := ⟨7#4, 0x00#8, 0, s.res.data⟩ }) ∧
    (s.req.len = 512#32 → s.ses.blockCount.toNat ≤ s.req.index.toNat →
      exec i s = .next { s with res := ⟨8#4, 0x00#8, 0, s.res.data⟩ }) ∧
    (s.req.len = 512#32 → s.req.index.toNat < s.ses.blockCount.toNat → s.ses.kind ≠ .sdhc →
      2 ^ 32 ≤ s.req.index.toNat * 512 →
      exec i s = .next { s with res := ⟨8#4, 0x00#8, 0, s.res.data⟩ })

/-- R304, R305, R307 to R311: RDBLK against a card that delivers, whatever the two trailing bytes are: the
exact next state, with the deadline of the token wait in `S.DL1`, and the exact transport events.
(That the two CRC registers keep the received and the computed value, uncompared, is D21; the order of the two
bytes is GK13: both are decisions of the spec, log 11. That the scratch buffer is kept: log 14.) -/
def Obligations.RdblkSucceeds : Prop :=
  ∀ (s : State) (addr : BitVec 32) (r : CardReply) (d : DataReply 512) (rest : List Answer),
    s.seq.op = .idle → s.req.buf.wf = true → s.req.len = 512#32 →
    s.req.index.toNat < s.ses.blockCount.toNat → translate s.ses.kind s.req.index = some addr →
    r.Ok s.par → r.resp = 0x00#8 →
    s.env.rx = (r.talk 17#6 addr ++ d.talk).answers ++ rest → r.InTime s.env 0 → d.InTime s.env r.ticks →
    ∃ (e : Env) (trace : List Event) (m : Memory),
      exec .rdblk s = .next { (s.answered 17#6 addr 0x00#8 (s.env.deadlineAt r.ticks 300) e trace).done with
        wrk.csActive := false, req.buf := m
        ses.lastCrc16 := d.crcHigh ++ d.crcLow, ses.calcCrc16 := crc16 d.data.toList } ∧ e.rx = rest ∧
      (∀ a : Nat, m.get a = if h : a < 512 then d.data[a] else s.req.buf.get a) ∧
      bus trace = bus s.trace ++ s.csEvents true ++ (r.talk 17#6 addr ++ d.talk).events ++ [.cs false]

/-- R307, R77: a RDBLK whose transport fails at data byte k has overwritten bytes 0 to k − 1 of the host
buffer, keeps both CRC registers, and ends with E_TRANSPORT and the transport's code.
(The code taken modulo 2^TCODE_W is log 18.) -/
def Obligations.RdblkPartial : Prop :=
  ∀ (s : State) (addr : BitVec 32) (r : CardReply) (gap : Nat) (first : List Byte) (code : Nat)
    (rest : List Answer),
    s.seq.op = .idle → s.req.buf.wf = true → s.req.len = 512#32 →
    s.req.index.toNat < s.ses.blockCount.toNat → translate s.ses.kind s.req.index = some addr →
    r.Ok s.par → r.resp = 0x00#8 → first.length < 512 →
    s.env.rx = (r.talk 17#6 addr ++ polls (List.replicate gap 0xFF#8 ++ [0xFE#8] ++ first)).answers ++
      .fail code :: rest →
    r.InTime s.env 0 → s.env.Before r.ticks gap 300 →
    ∃ t : State, exec .rdblk s = .next t ∧ t.res.kind = 1#4 ∧ t.res.status = 0x00#8 ∧
      t.res.tcode = code % 2 ^ s.par.tcodeW ∧ t.ses = s.ses ∧ t.wrk.dl1 = s.env.deadlineAt r.ticks 300 ∧
      t.env.rx = rest ∧
      (∀ a : Nat, t.req.buf.get a = if h : a < first.length then first[a] else s.req.buf.get a) ∧
      bus t.trace = bus s.trace ++ s.csEvents true ++
        (r.talk 17#6 addr ++ polls (List.replicate gap 0xFF#8 ++ [0xFE#8] ++ first)).events ++
        [.xchg 0xFF#8 (.fail t.res.tcode), .cs false]

/-- R309, R310, R150: whatever the card does, a RDBLK writes the two CRC registers exactly when it succeeds:
then the computed one is the CRC16 of the host buffer and the observed one is the last two bytes received,
high byte first; they are never compared. -/
def Obligations.RdblkDiagnostics : Prop :=
  ∀ s t : State, s.req.buf.wf = true → exec .rdblk s = .next t →
    (t.res.kind = 0#4 → t.ses.calcCrc16 = crc16 (t.req.buf.bytes 0 512) ∧
      ∃ (h l : Byte) (older : List Event), t.ses.lastCrc16 = h ++ l ∧
        t.trace = .cs false :: .xchg 0xFF#8 (.byte l) :: .xchg 0xFF#8 (.byte h) :: older) ∧
    (t.res.kind ≠ 0#4 → t.ses.calcCrc16 = s.ses.calcCrc16 ∧ t.ses.lastCrc16 = s.ses.lastCrc16)

/-- R314, R315, R317, R318: WRBLK against a card that accepts: the exact next state, with the deadline of the
busy-wait after the write in `S.DL1`, and the exact transport events; the host buffer stays.
(That the scratch buffer is kept: log 14.) -/
def Obligations.WrblkSucceeds : Prop :=
  ∀ (s : State) (addr : BitVec 32) (r : CardReply) (w : WriteReply) (rest : List Answer),
    s.seq.op = .idle → s.req.len = 512#32 → s.req.index.toNat < s.ses.blockCount.toNat →
    translate s.ses.kind s.req.index = some addr → r.Ok s.par → r.resp = 0x00#8 →
    writeAccepted w.token = true → (∀ b ∈ w.busy, b ≠ 0xFF#8) →
    s.env.rx = (r.talk 24#6 addr ++ w.talk (s.req.buf.bytes 0 512)).answers ++ rest →
    r.InTime s.env 0 → w.InTime s.env r.ticks →
    ∃ (e : Env) (trace : List Event),
      exec .wrblk s = .next { (s.answered 24#6 addr 0x00#8 (s.env.deadlineAt r.ticks 600) e trace).done with
        wrk.csActive := false, wrk.dresp := w.token } ∧ e.rx = rest ∧
      bus trace = bus s.trace ++ s.csEvents true ++
        (r.talk 24#6 addr ++ w.talk (s.req.buf.bytes 0 512)).events ++ [.cs false]

/-- R81: whatever the card does, WRBLK reports success only after the data-response token said "accepted"
and the card returned 0xFF in the busy-wait, the last byte exchanged. -/
def Obligations.WrblkPromise : Prop :=
  ∀ s t : State, exec .wrblk s = .next t → t.res.kind = 0#4 →
    t.wrk.dresp &&& 0x1F#8 = 0x05#8 ∧
      ∃ older : List Event, t.trace = .cs false :: .xchg 0xFF#8 (.byte 0xFF#8) :: older

/-! ### Initialization -/

/-- R220 to R237: INIT against a card that plays its part, with any number of unsuccessful attempts in the two
loops, answered or not, each wait ended before its own deadline: the exact next state and the exact transport
events. Beside the session's kind, images and count it changes what its commands and waits write: the status,
the time-out flag, the frame, both deadlines, the payload, the OCR byte, the first 16 bytes of the scratch
buffer, the chip-select latch, the sequencers and `RES`. -/
def Obligations.InitSucceeds : Prop :=
  ∀ (s : State) (x : InitScript) (count : BitVec 64) (rest : List Answer),
    s.seq.op = .idle → s.wrk.scratch.wf = true → x.Ok s.par .commit → x.InTime s.env .commit →
    csdBlockCount x.csd.data = some count → count ≠ 0#64 → count.toNat < 2 ^ 32 →
    s.env.rx = answersOf (x.moves .commit) ++ rest →
    ∃ (e : Env) (trace : List Event) (m : Memory),
      exec .init s = .next { (s.initRead x m e trace).done with ses.blockCount := count } ∧ e.rx = rest ∧
      x.Scratch .commit s.wrk.scratch m ∧ bus trace = bus s.trace ++ levels s.wrk.csActive (x.moves .commit)

/-- R223, R227, R228, R235: the ends of INIT on its own waits and checks, the deadlines expiring at equality
(R162). `T_IDLE` = 2000 ms of failed go-idle attempts are E_NO_CARD. `T_OPCOND` = 2000 ms of failed
operating-condition attempts end with the error of the last one: E_RESP_TIMEOUT if it was not answered,
E_PROTOCOL with its status if it was. At the commit a CSD without a count, or with one of 2^32 or more, is
E_NOT_SUPPORTED, and a count of 0 E_NO_BLOCKS. -/
def Obligations.InitErrors : Prop :=
  ∀ (s : State) (x : InitScript) (rest : List Answer), s.seq.op = .idle →
    (∀ last : Attempt, (∀ a ∈ x.idleTries ++ [last], a.Ok s.par ∧ a.NotIdle) →
      IdleInTime s.env 1 (x.idleTries ++ [last]) → s.env.Before 0 (idleTicks x.idleTries) 2000 →
      s.env.Reached 0 (idleTicks (x.idleTries ++ [last])) 2000 →
      s.env.rx = answersOf (x.moves .goIdle ++
        (x.idleTries.flatMap (Attempt.moves 0#6 0#32) ++ last.moves 0#6 0#32)) ++ rest →
      ∃ (e : Env) (trace : List Event),
        exec .init s = .next (exitActions (some .noCard)
          { s.attempted 0#6 0#32 last (s.env.deadlineAt (1 + idleTicks x.idleTries) 300) e trace with
            ses.kind := .none, ses.blockCount := 0#64, wrk.dl0 := s.env.deadlineAt 0 2000 }) ∧
        e.rx = rest ∧ bus trace = bus s.trace ++ levels s.wrk.csActive (x.moves .goIdle ++
          (x.idleTries.flatMap (Attempt.moves 0#6 0#32) ++ last.moves 0#6 0#32))) ∧
    (∀ (last : AppAttempt) (n : Nat), x.Ok s.par .opCond → x.InTime s.env .opCond → n = x.ticks .opCond →
      (∀ c ∈ x.condTries ++ [last], c.Ok s.par ∧ c.NotReady) → CondInTime s.env (n + 1) (x.condTries ++ [last]) →
      s.env.Before n (condTicks x.condTries) 2000 → s.env.Reached n (condTicks (x.condTries ++ [last])) 2000 →
      s.env.rx = answersOf (x.moves .opCond ++
        (x.condTries.flatMap (AppAttempt.moves 0x40000000#32) ++ last.moves 0x40000000#32)) ++ rest →
      ∃ (e : Env) (trace : List Event),
        exec .init s = .next (exitActions
          (some (if last.reply.rto then .respTimeout else .protocol last.reply.status))
          { s.appAttempted 0x40000000#32 last
              (s.env.deadlineAt (n + 1 + condTicks x.condTries + last.loadAt) 300) e trace with
            ses.kind := .sd2, ses.blockCount := 0#64, wrk.dl0 := s.env.deadlineAt n 2000, wrk.r7 := x.payload }) ∧
        e.rx = rest ∧ bus trace = bus s.trace ++ levels s.wrk.csActive (x.moves .opCond ++
          (x.condTries.flatMap (AppAttempt.moves 0x40000000#32) ++ last.moves 0x40000000#32))) ∧
    (∀ err : Err, s.wrk.scratch.wf = true → x.Ok s.par .commit → x.InTime s.env .commit →
      (csdBlockCount x.csd.data = none ∧ err = .notSupported ∨
        (∃ n : BitVec 64, csdBlockCount x.csd.data = some n ∧ 2 ^ 32 ≤ n.toNat ∧ err = .notSupported) ∨
        csdBlockCount x.csd.data = some 0#64 ∧ err = .noBlocks) →
      s.env.rx = answersOf (x.moves .commit) ++ rest →
      ∃ (e : Env) (trace : List Event) (m : Memory),
        exec .init s = .next (exitActions (some err) (s.initRead x m e trace)) ∧ e.rx = rest ∧
        x.Scratch .commit s.wrk.scratch m ∧ bus trace = bus s.trace ++ levels s.wrk.csActive (x.moves .commit))

/-- R225, R230, R232, R233, R234 with R194, R305, R322: the ends of INIT at its commands. In `I_IFCOND` no answer
is E_RESP_TIMEOUT, an illegal-command answer E_NOT_SUPPORTED with the kind SD1 and no payload read, a payload
that fails E_IFCOND_MISMATCH. In `I_OCR`, `I_BLKLEN`, `I_CID` and `I_CSD` a status other than 0x00 is E_PROTOCOL
with it and no answer E_RESP_TIMEOUT; in `I_CID` and `I_CSD` a wrong byte in the token wait, or `T_TOKEN` = 300 ms
of idle-line bytes, is E_START_TOKEN. What the states before wrote stays written: the kind, the OCR byte, after
`I_CID` the CID and the scratch buffer. -/
def Obligations.InitCommandErrors : Prop :=
  ∀ (s : State) (x : InitScript) (rest : List Answer), s.seq.op = .idle → s.wrk.scratch.wf = true →
    (x.Ok s.par .ifCond → x.InTime s.env .ifCond →
      (∀ q : Silence, q.Ok s.par → q.InTime s.env (x.ticks .ifCond) →
        s.env.rx = answersOf (x.moves .ifCond ++ (Attempt.silent q).moves 8#6 0x000001AA#32) ++ rest →
        ∃ (e : Env) (trace : List Event) (m : Memory),
          exec .init s = .next (exitActions (some .respTimeout)
            ((s.initAt x .ifCond m).unanswered 8#6 0x000001AA#32 (s.env.deadlineAt (x.ticks .ifCond) 300) e trace)) ∧
          e.rx = rest ∧ x.Scratch .ifCond s.wrk.scratch m ∧
          bus trace = bus s.trace ++ levels s.wrk.csActive
            (x.moves .ifCond ++ (Attempt.silent q).moves 8#6 0x000001AA#32)) ∧
      (∀ r : CardReply, r.Ok s.par → illegalCommand r.resp = true → r.InTime s.env (x.ticks .ifCond) →
        s.env.rx = answersOf (x.moves .ifCond ++ .cs true :: (r.talk 8#6 0x000001AA#32).events) ++ rest →
        ∃ (e : Env) (trace : List Event) (m : Memory),
          exec .init s = .next (exitActions (some .notSupported)
            { (s.initAt x .ifCond m).answered 8#6 0x000001AA#32 r.resp (s.env.deadlineAt (x.ticks .ifCond) 300)
                e trace with
              ses.kind := .sd1 }) ∧
          e.rx = rest ∧ x.Scratch .ifCond s.wrk.scratch m ∧
          bus trace = bus s.trace ++ levels s.wrk.csActive
            (x.moves .ifCond ++ .cs true :: (r.talk 8#6 0x000001AA#32).events)) ∧
      (∀ (r : CardReply) (p : Vector Byte 4), r.Ok s.par → illegalCommand r.resp = false → r7Ok p = false →
        r.InTime s.env (x.ticks .ifCond) →
        s.env.rx =
          answersOf (x.moves .ifCond ++ .cs true :: (r.talk 8#6 0x000001AA#32 ++ polls p.toList).events) ++ rest →
        ∃ (e : Env) (trace : List Event) (m : Memory),
          exec .init s = .next (exitActions (some .ifcondMismatch)
            { (s.initAt x .ifCond m).answered 8#6 0x000001AA#32 r.resp (s.env.deadlineAt (x.ticks .ifCond) 300)
                e trace with
              wrk.r7 := p }) ∧
          e.rx = rest ∧ x.Scratch .ifCond s.wrk.scratch m ∧
          bus trace = bus s.trace ++ levels s.wrk.csActive
            (x.moves .ifCond ++ .cs true :: (r.talk 8#6 0x000001AA#32 ++ polls p.toList).events))) ∧
    (∀ (g : InitStep) (n : BitVec 6) (arg : BitVec 32),
      (g, n, arg) ∈ [(InitStep.ocr, 58#6, 0#32), (.blkLen, 16#6, 0x00000200#32), (.cid, 10#6, 0#32),
        (.csd, 9#6, 0#32)] → x.Ok s.par g → x.InTime s.env g →
      (∀ a : Attempt, a.Ok s.par → a.NotClear → a.InTime s.env (x.ticks g) →
        s.env.rx = answersOf (x.moves g ++ a.moves n arg) ++ rest →
        ∃ (e : Env) (trace : List Event) (m : Memory),
          exec .init s = .next (exitActions (some (if a.reply.rto then .respTimeout else .protocol a.reply.status))
            ((s.initAt x g m).attempted n arg a (s.env.deadlineAt (x.ticks g) 300) e trace)) ∧
          e.rx = rest ∧ x.Scratch g s.wrk.scratch m ∧
          bus trace = bus s.trace ++ levels s.wrk.csActive (x.moves g ++ a.moves n arg)) ∧
      (∀ (r : CardReply) (q : NoToken), g = .cid ∨ g = .csd → r.Ok s.par → r.resp = 0x00#8 → q.last ≠ 0xFE#8 →
        r.InTime s.env (x.ticks g) → q.InTime s.env (x.ticks g + r.ticks) →
        s.env.rx = answersOf (x.moves g ++ .cs true :: (r.talk n arg ++ q.talk).events ++ [.cs false]) ++ rest →
        ∃ (e : Env) (trace : List Event) (m : Memory),
          exec .init s = .next (exitActions (some .startToken)
            { (s.initAt x g m).answered n arg 0x00#8 (s.env.deadlineAt (x.ticks g + r.ticks) 300) e trace with
              wrk.csActive := false }) ∧
          e.rx = rest ∧ x.Scratch g s.wrk.scratch m ∧
          bus trace = bus s.trace ++ levels s.wrk.csActive
            (x.moves g ++ .cs true :: (r.talk n arg ++ q.talk).events ++ [.cs false])))

/-- R241, R221, R233 to R236: what INIT leaves on each outcome, whatever the card does: an image is fresh, the
16 data bytes of the register read of this INIT, or unchanged; both are fresh on success and at the checks of
`I_COMMIT`; once `I_CSD` began, so that `I_CID` completed, the CID is fresh, whatever the CSD read ends with.
(R241 is the spec's own inference from R221 to R236.) -/
def Obligations.InitOutcome : Prop :=
  ∀ s t : State, s.wrk.scratch.wf = true → exec .init s = .next t →
    (t.res.kind = 0#4 → (t.ses.kind = .sd2 ∨ t.ses.kind = .sdhc) ∧ t.ses.blockCount ≠ 0#64 ∧
      t.ses.blockCount.toNat < 2 ^ 32 ∧ csdBlockCount t.ses.csd = some t.ses.blockCount ∧
      ReadBy s t 10#6 t.ses.cid ∧ ReadBy s t 9#6 t.ses.csd) ∧
    (t.res.kind ≠ 0#4 → t.ready = false ∧
      (((t.ses.kind = .none ∨ (t.ses.kind = .sd1 ∧ t.res.kind = 3#4)) ∧ t.ses.cid = s.ses.cid ∧
          t.ses.csd = s.ses.csd) ∨
        (t.ses.kind = .sd2 ∨ t.ses.kind = .sdhc) ∧
          (t.ses.cid = s.ses.cid ∨ ReadBy s t 10#6 t.ses.cid) ∧
          (t.ses.csd = s.ses.csd ∨ ReadBy s t 10#6 t.ses.cid ∧ ReadBy s t 9#6 t.ses.csd))) ∧
    (t.res.kind = 6#4 ∨ (t.res.kind = 3#4 ∧ t.ses.kind ≠ .sd1) →
      ReadBy s t 10#6 t.ses.cid ∧ ReadBy s t 9#6 t.ses.csd) ∧
    (CsdBegun s t → (t.ses.kind = .sd2 ∨ t.ses.kind = .sdhc) ∧ ReadBy s t 10#6 t.ses.cid)

/-! ### What each operation may write -/

/-- R354, R220: INIT writes no CRC register, no data-response token, nothing of `REQ`, not `RES.data`; every
byte of the host buffer stays.
(R354 is the spec's own inference.) -/
def Obligations.InitWrites : Prop :=
  ∀ s t : State, exec .init s = .next t →
    t.ses.lastCrc16 = s.ses.lastCrc16 ∧ t.ses.calcCrc16 = s.ses.calcCrc16 ∧ t.wrk.dresp = s.wrk.dresp ∧
      t.req = s.req ∧ (∀ a : Nat, t.req.buf.get a = s.req.buf.get a) ∧ t.res.data = s.res.data ∧
      t.par = s.par ∧ t.hostPort = s.hostPort ∧ t.cmdPort = s.cmdPort

/-- R354, R304, R22: RDBLK writes no card data register (kind, CID, CSD, block count), of `REQ` only the
buffer, not `RES.data`; the scratch buffer is not used (log 14).
(R354 is the spec's own inference.) -/
def Obligations.RdblkWrites : Prop :=
  ∀ s t : State, exec .rdblk s = .next t →
    t.ses.kind = s.ses.kind ∧ t.ses.cid = s.ses.cid ∧ t.ses.csd = s.ses.csd ∧
      t.ses.blockCount = s.ses.blockCount ∧ t.wrk.dresp = s.wrk.dresp ∧ t.wrk.dl0 = s.wrk.dl0 ∧
      t.wrk.r7 = s.wrk.r7 ∧ t.wrk.ocr0 = s.wrk.ocr0 ∧ (∀ a : Nat, t.wrk.scratch.get a = s.wrk.scratch.get a) ∧
      t.req.op = s.req.op ∧ t.req.index = s.req.index ∧ t.req.len = s.req.len ∧ t.res.data = s.res.data ∧
      t.par = s.par ∧ t.hostPort = s.hostPort ∧ t.cmdPort = s.cmdPort

/-- R354, R314, R22: WRBLK writes no session register, nothing of `REQ`, not `RES.data`; every byte of the
host buffer and of the scratch buffer stays (the latter is not used: log 14).
(R354 is the spec's own inference.) -/
def Obligations.WrblkWrites : Prop :=
  ∀ s t : State, exec .wrblk s = .next t →
    t.ses = s.ses ∧ t.wrk.dl0 = s.wrk.dl0 ∧ t.wrk.r7 = s.wrk.r7 ∧ t.wrk.ocr0 = s.wrk.ocr0 ∧
      (∀ a : Nat, t.wrk.scratch.get a = s.wrk.scratch.get a) ∧ t.req = s.req ∧
      (∀ a : Nat, t.req.buf.get a = s.req.buf.get a) ∧ t.res.data = s.res.data ∧ t.par = s.par ∧
      t.hostPort = s.hostPort ∧ t.cmdPort = s.cmdPort

/-- R186, R193, R194: the frame of the commands whose reply is R1 alone: they write the status, the
time-out flag, the inner deadline, the frame and the chip-select latch, and on an error `RES` and the
sequencers; nothing else.
(A command row as an instruction of its own: log 9.) -/
def Obligations.StatusCommandFrame : Prop :=
  ∀ (s t : State) (i : Instr) (n : BitVec 6) (arg : BitVec 32),
    i ∈ [Instr.cmd0 arg, .cmd12 arg, .cmd16 arg, .cmd41 arg, .cmd55 arg, .acmd41 arg, .zcmd n arg] →
    exec i s = .next t →
    t.ses = s.ses ∧ t.req = s.req ∧ (∀ a : Nat, t.req.buf.get a = s.req.buf.get a) ∧
      (∀ a : Nat, t.wrk.scratch.get a = s.wrk.scratch.get a) ∧ t.wrk.dresp = s.wrk.dresp ∧
      t.wrk.dl0 = s.wrk.dl0 ∧ t.wrk.r7 = s.wrk.r7 ∧ t.wrk.ocr0 = s.wrk.ocr0 ∧ t.res.data = s.res.data ∧
      t.par = s.par ∧ t.hostPort = s.hostPort ∧ t.cmdPort = s.cmdPort ∧
      (t.seq.op = s.seq.op ∧ t.seq.fsm = s.seq.fsm ∧ t.res = s.res ∨ t.seq.op = .idle ∧ t.seq.fsm = .fIdle)

/-- R225, R230: the frame of CMD8 and CMD58: beside what every command writes, only the kind and the bytes
of their own reply.
(A command row as an instruction of its own: log 9.) -/
def Obligations.ProbeCommandFrame : Prop :=
  ∀ (s t : State) (i : Instr) (arg : BitVec 32), i ∈ [Instr.cmd8 arg, .cmd58 arg] → exec i s = .next t →
    t.ses.cid = s.ses.cid ∧ t.ses.csd = s.ses.csd ∧ t.ses.blockCount = s.ses.blockCount ∧
      t.ses.lastCrc16 = s.ses.lastCrc16 ∧ t.ses.calcCrc16 = s.ses.calcCrc16 ∧ t.req = s.req ∧
      (∀ a : Nat, t.req.buf.get a = s.req.buf.get a) ∧
      (∀ a : Nat, t.wrk.scratch.get a = s.wrk.scratch.get a) ∧ t.wrk.dresp = s.wrk.dresp ∧
      t.wrk.dl0 = s.wrk.dl0 ∧ t.res.data = s.res.data ∧ t.par = s.par ∧ t.hostPort = s.hostPort ∧ t.cmdPort = s.cmdPort ∧
      (i = .cmd8 arg → t.wrk.ocr0 = s.wrk.ocr0) ∧ (i = .cmd58 arg → t.wrk.r7 = s.wrk.r7)

/-- R320, R304, R314: the frame of the commands with a data phase: a register read writes only offsets 0
to 15 of the scratch buffer, CMD17 only the host buffer and the CRC registers, CMD24 only the
data-response token.
(A command row as an instruction of its own: log 9. That CMD17 and CMD24 leave every byte of the scratch buffer,
which R307, D42 and R354 let a block transfer write: log 14.) -/
def Obligations.DataCommandFrame : Prop :=
  ∀ (s t : State) (i : Instr) (n : BitVec 6) (arg : BitVec 32),
    i ∈ [Instr.cmd9 arg, .cmd10 arg, .rdreg n, .cmd17 arg, .cmd24 arg] → s.wrk.scratch.wf = true →
    exec i s = .next t →
    t.ses.kind = s.ses.kind ∧ t.ses.cid = s.ses.cid ∧ t.ses.csd = s.ses.csd ∧
      t.ses.blockCount = s.ses.blockCount ∧ t.req.op = s.req.op ∧ t.req.index = s.req.index ∧
      t.req.len = s.req.len ∧ t.wrk.dl0 = s.wrk.dl0 ∧ t.wrk.r7 = s.wrk.r7 ∧ t.wrk.ocr0 = s.wrk.ocr0 ∧
      t.res.data = s.res.data ∧ t.par = s.par ∧ t.hostPort = s.hostPort ∧ t.cmdPort = s.cmdPort ∧
      (∀ a : Nat, 16 ≤ a → t.wrk.scratch.get a = s.wrk.scratch.get a) ∧
      (i ≠ .cmd24 arg → t.wrk.dresp = s.wrk.dresp) ∧
      (i ≠ .cmd17 arg → t.ses = s.ses ∧ ∀ a : Nat, t.req.buf.get a = s.req.buf.get a) ∧
      (i = .cmd17 arg ∨ i = .cmd24 arg → ∀ a : Nat, t.wrk.scratch.get a = s.wrk.scratch.get a)

/-! ### The whole machine -/

/-- The invariant of the engine holds after reset. -/
def Obligations.ResetInv : Prop := State.reset.Inv

/-- Every step keeps the invariant (R20, R26, R33, R36, R192, R241, R360, R361, R376): the buffers stay
canonical, the sequencer stays legal, an idle engine has the card deselected, a ready session is
classified and within bounds, `RES` has its shape. -/
def Obligations.StepKeepsInv : Prop := ∀ s t : State, s.Inv → step s = .next t → t.Inv

/-- R163, R112: no operation hangs and no received byte and no clock is undefined: from every state a step is a
next state or one of five named refusals, never a fault, and never for want of a deadline that passes. The
spec gives three of them no move: a clock at its wrap (U15, log 3), a request while an operation runs (R341),
a reserved code (R342). The other two are the model's own choices: a sequencer outside R25's table (log 16) and
bytes in the command port that are no instruction (log 7, log 12).
(The fairness of the clock is log 2.) -/
def Obligations.NoHang : Prop :=
  ∀ s : State, (∃ t : State, step s = .next t) ∨ step s = .refused .clockWrap ∨
    step s = .refused .requestWhileBusy ∨ step s = .refused .reservedOperation ∨
    step s = .refused .sequencerState ∨ ∃ e : DecodeError, step s = .refused (.illegalEncoding e)

/-- R160: clock samples never run backwards, over any step.
(The samples are drawn from the model's clock: log 2.) -/
def Obligations.ClockMonotone : Prop :=
  ∀ s t : State, step s = .next t →
    s.env.lastClk.toNat ≤ t.env.lastClk.toNat ∧
      ∃ new : List Event, t.trace = new ++ s.trace ∧ (samples new).Pairwise (fun later earlier => earlier ≤ later) ∧
        ∀ x ∈ samples new, s.env.lastClk.toNat ≤ x ∧ x ≤ t.env.lastClk.toNat

/-- R63, R80: a step only adds to the history, and draws exactly one answer for each byte it sends and one
sample for each time it reads the clock.
(The history and the input queues are the model's: log 1, log 2, log 6.) -/
def Obligations.HistoryGrows : Prop :=
  ∀ s t : State, step s = .next t → ∃ new : List Event, t.trace = new ++ s.trace ∧
    t.env.rxCount = s.env.rxCount + new.countP Event.isXchg ∧
    t.env.clkCount = s.env.clkCount + (samples new).length ∧
    t.env.rx = s.env.rx.drop (new.countP Event.isXchg) ∧ t.env.clk = s.env.clk.drop (samples new).length

/-- R14, R239, R361: a transport failure ends the operation at once with E_TRANSPORT and its code, and
E_TRANSPORT means exactly that: the failing exchange is the last exchange of the operation. -/
def Obligations.TransportFailure : Prop :=
  ∀ (s t : State) (i : Instr), i ∈ [Instr.init, .rdblk, .wrblk] → exec i s = .next t →
    ∃ new : List Event, t.trace = new ++ s.trace ∧
      (t.res.kind ≠ 1#4 → ∀ ev ∈ new, ev.failed = false) ∧
      (t.res.kind = 1#4 → ∃ (b : Byte) (older : List Event),
        new.filter Event.isXchg = .xchg b (.fail t.res.tcode) :: older ∧ ∀ ev ∈ older, ev.failed = false)

/-! ### The register field decoder -/

/-- R104 to R108, R251 to R275, R277 to R279: each decoded field is the field at its 128-bit position in the register, the
product name cut at its first NUL, the lengths and the scale table as computed views of their codes.
(The 128-bit positions are GK5 and GK16 of the spec; that TAAC's unit is the table's entry for its low three
bits is D31, the file formats' order D32. R277 to R279 give each capacity field for its own structure version;
that the raw views deliver the same bits of any image, which R284 and U12 leave without meaning, is log 23.) -/
def Obligations.FieldPositions : Prop :=
  ∀ img : Image,
    cidManufacturerId img = (imageWord img).extractLsb' 120 8 ∧ cidOemId img = (imageWord img).extractLsb' 104 16 ∧
    cidProductName img = ([96, 88, 80, 72, 64].map fun p => (imageWord img).extractLsb' p 8).takeWhile (· != 0x00#8) ∧
    cidRevisionMajor img = (imageWord img).extractLsb' 60 4 ∧
    cidRevisionMinor img = (imageWord img).extractLsb' 56 4 ∧ cidSerial img = (imageWord img).extractLsb' 24 32 ∧
    cidYearCode img = (imageWord img).extractLsb' 12 8 ∧ cidMonth img = (imageWord img).extractLsb' 8 4 ∧
    csdVersion img = (imageWord img).extractLsb' 126 2 ∧ csdTaac img = (imageWord img).extractLsb' 112 8 ∧
    csdNsac img = (imageWord img).extractLsb' 104 8 ∧ csdTranSpeed img = (imageWord img).extractLsb' 96 8 ∧
    csdCcc img = (imageWord img).extractLsb' 84 12 ∧ csdReadBlExp img = (imageWord img).extractLsb' 80 4 ∧
    csdReadBlPartial img = (imageWord img).getLsbD 79 ∧ csdWriteBlkMisalign img = (imageWord img).getLsbD 78 ∧
    csdReadBlkMisalign img = (imageWord img).getLsbD 77 ∧ csdDsrImp img = (imageWord img).getLsbD 76 ∧
    (csdSectorSize img).toNat = ((imageWord img).extractLsb' 39 7).toNat + 1 ∧
    (csdWpGrpSize img).toNat = ((imageWord img).extractLsb' 32 7).toNat + 1 ∧
    csdWpGrpEnable img = (imageWord img).getLsbD 31 ∧ csdWriteBlExp img = (imageWord img).extractLsb' 22 4 ∧
    csdWriteBlPartial img = (imageWord img).getLsbD 21 ∧ csdFileFormatGrp img = (imageWord img).getLsbD 15 ∧
    csdCopy img = (imageWord img).getLsbD 14 ∧ csdPermWriteProtect img = (imageWord img).getLsbD 13 ∧
    csdTmpWriteProtect img = (imageWord img).getLsbD 12 ∧ csdCSizeV1 img = (imageWord img).extractLsb' 62 12 ∧
    csdCSizeMultV1 img = (imageWord img).extractLsb' 47 3 ∧ csdCSizeV2 img = (imageWord img).extractLsb' 48 22 ∧
    csdReadBlLen img = 2 ^ ((imageWord img).extractLsb' 80 4).toNat ∧
    csdWriteBlLen img = 2 ^ ((imageWord img).extractLsb' 22 4).toNat ∧
    csdTaacUnit img = log10Tab ((imageWord img).extractLsb' 112 3) ∧
    csdRateKbps img = (log10Tab ((imageWord img).extractLsb' 96 3)).map (100 * ·) ∧
    ((imageWord img).extractLsb' 10 2 = 0#2 → csdFileFormat img = .partitionTable) ∧
    ((imageWord img).extractLsb' 10 2 = 1#2 → csdFileFormat img = .dosFat) ∧
    ((imageWord img).extractLsb' 10 2 = 2#2 → csdFileFormat img = .universal) ∧
    ((imageWord img).extractLsb' 10 2 = 3#2 → csdFileFormat img = .unknown) ∧
    (List.range 8).map (fun k => log10Tab (BitVec.ofNat 3 k)) =
      [some 1, some 10, some 100, some 1000, some 10000, some 100000, some 1000000, none]

/-- R280, R281, R283: the capacity and the block count, exact and without overflow, for every structure
version.
(The count's clauses are R281, decision D20 of the spec; that the V1 count does not depend on the read-block
length and that nothing overflows are its own inferences from R280.) -/
def Obligations.Capacity : Prop :=
  ∀ img : Image,
    (csdVersion img = 0#2 → ∃ size count : BitVec 64, csdDeviceSize img = some size ∧
      csdBlockCount img = some count ∧
      size.toNat = ((csdCSizeV1 img).toNat + 1) * 2 ^ (2 + (csdCSizeMultV1 img).toNat) * 2 ^ (csdReadBlExp img).toNat ∧
      4 ≤ size.toNat ∧ size.toNat ≤ 2 ^ 36 ∧
      count.toNat = ((csdCSizeV1 img).toNat + 1) * 2 ^ (2 + (csdCSizeMultV1 img).toNat) ∧
      4 ≤ count.toNat ∧ count.toNat ≤ 2 ^ 21) ∧
    (csdVersion img = 1#2 → ∃ size count : BitVec 64, csdDeviceSize img = some size ∧
      csdBlockCount img = some count ∧ size.toNat = (csdCSizeV2 img).toNat * 512000 ∧ size.toNat < 2 ^ 41 ∧
      count.toNat = (csdCSizeV2 img).toNat * 512000 / 2 ^ (csdReadBlExp img).toNat ∧
      (csdReadBlExp img = 9#4 → count.toNat = (csdCSizeV2 img).toNat * 1000 ∧ count.toNat ≤ 4194303000)) ∧
    (csdVersion img = 2#2 ∨ csdVersion img = 3#2 → csdDeviceSize img = none ∧ csdBlockCount img = none)

/-- R282: the validity view; flipping any single bit in bytes 0 to 14 of a valid image makes it false. -/
def Obligations.CsdValidity : Prop :=
  (∀ img : Image, csdIsValid img = true ↔
    crc7 (img.toList.take 15) = img[15].extractLsb' 1 7 ∧ img[15].extractLsb' 0 1 = 1#1) ∧
  (∀ (img : Image) (i : Fin 15) (k : Nat), k < 8 → csdIsValid img = true →
    csdIsValid (img.set i.val (img[i.val] ^^^ (1#8 <<< k))) = false) ∧
  csdIsValid (Vector.replicate 16 0x00#8) = false ∧ csdIsValid (Vector.replicate 16 0xFF#8) = true
end

