-- ==== Sys2Proof/Laws/State.lean ====
section
/-! SUPPORT. One lemma per field for each named update of State. -/

namespace Sys2Proof.Machine

/-! ### The chip-select latch -/

@[simp] theorem withCs_ses (s : State) (a : Bool) : (s.withCs a).ses = s.ses := by
  unfold State.withCs; split <;> rfl

@[simp] theorem withCs_seq (s : State) (a : Bool) : (s.withCs a).seq = s.seq := by
  unfold State.withCs; split <;> rfl

@[simp] theorem withCs_req (s : State) (a : Bool) : (s.withCs a).req = s.req := by
  unfold State.withCs; split <;> rfl

@[simp] theorem withCs_res (s : State) (a : Bool) : (s.withCs a).res = s.res := by
  unfold State.withCs; split <;> rfl

@[simp] theorem withCs_par (s : State) (a : Bool) : (s.withCs a).par = s.par := by
  unfold State.withCs; split <;> rfl

@[simp] theorem withCs_env (s : State) (a : Bool) : (s.withCs a).env = s.env := by
  unfold State.withCs; split <;> rfl

@[simp] theorem withCs_cmdPort (s : State) (a : Bool) : (s.withCs a).cmdPort = s.cmdPort := by
  unfold State.withCs; split <;> rfl

@[simp] theorem withCs_hostPort (s : State) (a : Bool) : (s.withCs a).hostPort = s.hostPort := by
  unfold State.withCs; split <;> rfl

@[simp] theorem withCs_wrk (s : State) (a : Bool) :
    (s.withCs a).wrk = { s.wrk with csActive := a } := by
  unfold State.withCs
  split
  · next h => rw [← h]
  · rfl

@[simp] theorem withCs_trace (s : State) (a : Bool) :
    (s.withCs a).trace = if s.wrk.csActive = a then s.trace else .cs a :: s.trace := by
  unfold State.withCs; split <;> rfl

/-! ### The exchange -/

@[simp] theorem afterXchg_ses (s : State) (b : Byte) : (s.afterXchg b).ses = s.ses := rfl
@[simp] theorem afterXchg_seq (s : State) (b : Byte) : (s.afterXchg b).seq = s.seq := rfl
@[simp] theorem afterXchg_wrk (s : State) (b : Byte) : (s.afterXchg b).wrk = s.wrk := rfl
@[simp] theorem afterXchg_req (s : State) (b : Byte) : (s.afterXchg b).req = s.req := rfl
@[simp] theorem afterXchg_res (s : State) (b : Byte) : (s.afterXchg b).res = s.res := rfl
@[simp] theorem afterXchg_par (s : State) (b : Byte) : (s.afterXchg b).par = s.par := rfl
@[simp] theorem afterXchg_cmdPort (s : State) (b : Byte) : (s.afterXchg b).cmdPort = s.cmdPort := rfl
@[simp] theorem afterXchg_hostPort (s : State) (b : Byte) : (s.afterXchg b).hostPort = s.hostPort := rfl
@[simp] theorem afterXchg_rx (s : State) (b : Byte) : (s.afterXchg b).env.rx = s.env.rx.tail := rfl
@[simp] theorem afterXchg_clk (s : State) (b : Byte) : (s.afterXchg b).env.clk = s.env.clk := rfl
@[simp] theorem afterXchg_rxCount (s : State) (b : Byte) :
    (s.afterXchg b).env.rxCount = s.env.rxCount + 1 := rfl
@[simp] theorem afterXchg_clkCount (s : State) (b : Byte) :
    (s.afterXchg b).env.clkCount = s.env.clkCount := rfl
@[simp] theorem afterXchg_lastClk (s : State) (b : Byte) :
    (s.afterXchg b).env.lastClk = s.env.lastClk := rfl
@[simp] theorem afterXchg_hold (s : State) (b : Byte) : (s.afterXchg b).env.hold = s.env.hold := rfl
@[simp] theorem afterXchg_trace (s : State) (b : Byte) :
    (s.afterXchg b).trace = .xchg b s.nextAnswer :: s.trace := rfl

/-! ### The clock sample -/

@[simp] theorem afterSample_ses (s : State) : s.afterSample.ses = s.ses := rfl
@[simp] theorem afterSample_seq (s : State) : s.afterSample.seq = s.seq := rfl
@[simp] theorem afterSample_wrk (s : State) : s.afterSample.wrk = s.wrk := rfl
@[simp] theorem afterSample_req (s : State) : s.afterSample.req = s.req := rfl
@[simp] theorem afterSample_res (s : State) : s.afterSample.res = s.res := rfl
@[simp] theorem afterSample_par (s : State) : s.afterSample.par = s.par := rfl
@[simp] theorem afterSample_cmdPort (s : State) : s.afterSample.cmdPort = s.cmdPort := rfl
@[simp] theorem afterSample_hostPort (s : State) : s.afterSample.hostPort = s.hostPort := rfl
@[simp] theorem afterSample_rx (s : State) : s.afterSample.env.rx = s.env.rx := rfl
@[simp] theorem afterSample_clk (s : State) : s.afterSample.env.clk = s.env.clk.tail := rfl
@[simp] theorem afterSample_rxCount (s : State) : s.afterSample.env.rxCount = s.env.rxCount := rfl
@[simp] theorem afterSample_clkCount (s : State) : s.afterSample.env.clkCount = s.env.clkCount + 1 := rfl
@[simp] theorem nextSample_env (s : State) : s.nextSample = s.env.nextSample := rfl
@[simp] theorem afterSample_lastClk (s : State) : s.afterSample.env.lastClk = s.env.nextSample := rfl
@[simp] theorem afterSample_hold (s : State) : s.afterSample.env.hold = s.env.nextHold := rfl
@[simp] theorem afterSample_trace (s : State) :
    s.afterSample.trace = .sample s.nextSample :: s.trace := rfl
@[simp] theorem afterSample_env (s : State) : s.afterSample.env = s.env.afterSample := rfl

/-! ### The inputs after a clock sample -/

@[simp] theorem env_afterSample_rx (e : Env) : e.afterSample.rx = e.rx := rfl
@[simp] theorem env_afterSample_clk (e : Env) : e.afterSample.clk = e.clk.tail := rfl
@[simp] theorem env_afterSample_rxCount (e : Env) : e.afterSample.rxCount = e.rxCount := rfl
@[simp] theorem env_afterSample_clkCount (e : Env) : e.afterSample.clkCount = e.clkCount + 1 := rfl
@[simp] theorem env_afterSample_lastClk (e : Env) : e.afterSample.lastClk = e.nextSample := rfl
@[simp] theorem env_afterSample_hold (e : Env) : e.afterSample.hold = e.nextHold := rfl

/-! ### The request ports -/

@[simp] theorem request_hostPort (s : State) (code : BitVec 4) (index : BitVec 64) (len : BitVec 32)
    (bytes : Vector Byte 512) :
    (s.request code index len bytes).hostPort = some (Request.of code index len bytes) := rfl
@[simp] theorem request_seq (s : State) (code : BitVec 4) (index : BitVec 64) (len : BitVec 32)
    (bytes : Vector Byte 512) : (s.request code index len bytes).seq = s.seq := rfl
@[simp] theorem take_ses (s : State) (r : Request) : (s.take r).ses = s.ses := rfl
@[simp] theorem take_seq (s : State) (r : Request) : (s.take r).seq = s.seq := rfl
@[simp] theorem take_wrk (s : State) (r : Request) : (s.take r).wrk = s.wrk := rfl
@[simp] theorem take_req (s : State) (r : Request) : (s.take r).req = r := rfl
@[simp] theorem take_res (s : State) (r : Request) : (s.take r).res = s.res := rfl
@[simp] theorem take_par (s : State) (r : Request) : (s.take r).par = s.par := rfl
@[simp] theorem take_env (s : State) (r : Request) : (s.take r).env = s.env := rfl
@[simp] theorem take_trace (s : State) (r : Request) : (s.take r).trace = s.trace := rfl
@[simp] theorem take_hostPort (s : State) (r : Request) : (s.take r).hostPort = none := rfl
@[simp] theorem take_cmdPort (s : State) (r : Request) : (s.take r).cmdPort = s.cmdPort := rfl

/-! ### Inputs and history -/

@[simp] theorem io_ses (s : State) (e : Env) (tr : List Event) : (s.io e tr).ses = s.ses := rfl
@[simp] theorem io_seq (s : State) (e : Env) (tr : List Event) : (s.io e tr).seq = s.seq := rfl
@[simp] theorem io_wrk (s : State) (e : Env) (tr : List Event) : (s.io e tr).wrk = s.wrk := rfl
@[simp] theorem io_req (s : State) (e : Env) (tr : List Event) : (s.io e tr).req = s.req := rfl
@[simp] theorem io_res (s : State) (e : Env) (tr : List Event) : (s.io e tr).res = s.res := rfl
@[simp] theorem io_par (s : State) (e : Env) (tr : List Event) : (s.io e tr).par = s.par := rfl
@[simp] theorem io_env (s : State) (e : Env) (tr : List Event) : (s.io e tr).env = e := rfl
@[simp] theorem io_trace (s : State) (e : Env) (tr : List Event) : (s.io e tr).trace = tr := rfl
@[simp] theorem io_cmdPort (s : State) (e : Env) (tr : List Event) : (s.io e tr).cmdPort = s.cmdPort := rfl
@[simp] theorem io_hostPort (s : State) (e : Env) (tr : List Event) : (s.io e tr).hostPort = s.hostPort := rfl
@[simp] theorem io_io (s : State) (e e' : Env) (tr tr' : List Event) :
    (s.io e tr).io e' tr' = s.io e' tr' := rfl

/-! ### The exit actions -/

@[simp] theorem exitActions_ses (r : Option Err) (s : State) : (exitActions r s).ses = s.ses := by
  simp [exitActions]

@[simp] theorem exitActions_seq (r : Option Err) (s : State) :
    (exitActions r s).seq = { op := .idle, fsm := .fIdle, cfsm := .cOff } := rfl

@[simp] theorem exitActions_wrk (r : Option Err) (s : State) :
    (exitActions r s).wrk = { s.wrk with csActive := false } := by
  simp [exitActions]

@[simp] theorem exitActions_req (r : Option Err) (s : State) : (exitActions r s).req = s.req := by
  simp [exitActions]

@[simp] theorem exitActions_res (r : Option Err) (s : State) :
    (exitActions r s).res =
      { kind := kindCode r, status := statusInfo r, tcode := tcodeInfo r, data := s.res.data } := by
  simp [exitActions]

@[simp] theorem exitActions_par (r : Option Err) (s : State) : (exitActions r s).par = s.par := by
  simp [exitActions]

@[simp] theorem exitActions_env (r : Option Err) (s : State) : (exitActions r s).env = s.env := by
  simp [exitActions]

@[simp] theorem exitActions_cmdPort (r : Option Err) (s : State) :
    (exitActions r s).cmdPort = s.cmdPort := by
  simp [exitActions]

@[simp] theorem exitActions_hostPort (r : Option Err) (s : State) :
    (exitActions r s).hostPort = s.hostPort := by
  simp [exitActions]

@[simp] theorem exitActions_trace (r : Option Err) (s : State) :
    (exitActions r s).trace = if s.wrk.csActive = false then s.trace else .cs false :: s.trace := by
  simp [exitActions]

end Sys2Proof.Machine
end

