-- ==== Sys2Proof/Laws/Memory.lean ====
section
/-! SUPPORT. The laws of the 512-byte buffers: read after write, and that a write keeps the canonical
form. -/

namespace Sys2Proof.Machine

theorem Memory.wfFrom_mono {lo lo' : Nat} (h : lo' ≤ lo) :
    ∀ m : Memory, Memory.wfFrom lo m = true → Memory.wfFrom lo' m = true
  | [] => fun _ => rfl
  | (k, v) :: rest => by
    simp only [Memory.wfFrom, Bool.and_eq_true, decide_eq_true_eq]
    rintro ⟨⟨⟨hk, h1⟩, h2⟩, h3⟩
    exact ⟨⟨⟨le_trans h hk, h1⟩, h2⟩, h3⟩

/-- An offset below the first listed one reads as the reset contents. -/
theorem Memory.get_below {a : Nat} :
    ∀ (m : Memory) {lo : Nat}, Memory.wfFrom lo m = true → a < lo → Memory.get m a = 0x00#8
  | [], _, _, _ => rfl
  | (k, v) :: rest, lo, hm, ha => by
    simp only [Memory.wfFrom, Bool.and_eq_true, decide_eq_true_eq] at hm
    obtain ⟨⟨⟨hk, -⟩, -⟩, h3⟩ := hm
    have hne : k ≠ a := by omega
    simp only [Memory.get, hne, if_false]
    exact Memory.get_below rest h3 (by omega)

/-- A write keeps the canonical form. -/
theorem Memory.set_wfFrom {a : Nat} (v : Byte) (hb : a < Config.blockLen) :
    ∀ (m : Memory) {lo : Nat}, lo ≤ a → Memory.wfFrom lo m = true →
      Memory.wfFrom lo (Memory.set m a v) = true
  | [], lo, hlo, _ => by
    by_cases hv : v = 0x00#8
    · simp [Memory.set, hv, Memory.wfFrom]
    · simp [Memory.set, hv, Memory.wfFrom, hlo, hb]
  | (k, w) :: rest, lo, hlo, hm => by
    have hm' := hm
    simp only [Memory.wfFrom, Bool.and_eq_true, decide_eq_true_eq] at hm
    obtain ⟨⟨⟨hk, hkb⟩, hw⟩, hr⟩ := hm
    by_cases hak : a < k
    · by_cases hv : v = 0x00#8
      · simp only [Memory.set, hak, hv, if_true]
        exact hm'
      · simp only [Memory.set, hak, hv, if_true, if_false, Memory.wfFrom, Bool.and_eq_true,
          decide_eq_true_eq]
        exact ⟨⟨⟨hlo, hb⟩, hv⟩, ⟨⟨by omega, hkb⟩, hw⟩, hr⟩
    · by_cases hake : a = k
      · by_cases hv : v = 0x00#8
        · simp only [Memory.set, hake, hv, if_true, if_false, lt_irrefl]
          exact Memory.wfFrom_mono (by omega) rest hr
        · subst hake
          simp only [Memory.set, lt_irrefl, hv, if_true, if_false, Memory.wfFrom, Bool.and_eq_true,
            decide_eq_true_eq]
          exact ⟨⟨⟨hlo, hb⟩, hv⟩, hr⟩
      · simp only [Memory.set, hak, hake, if_false, Memory.wfFrom, Bool.and_eq_true,
          decide_eq_true_eq]
        exact ⟨⟨⟨hk, hkb⟩, hw⟩, Memory.set_wfFrom v hb rest (by omega) hr⟩

/-- A write inside the buffer keeps the canonical form. -/
theorem Memory.set_wf {m : Memory} {a : Nat} (v : Byte) (hb : a < Config.blockLen)
    (hm : m.wf = true) : (m.set a v).wf = true :=
  Memory.set_wfFrom v hb m (Nat.zero_le _) hm

/-- A read after a write to the same offset gives the value written. -/
theorem Memory.get_set_same (v : Byte) {a : Nat} :
    ∀ (m : Memory) {lo : Nat}, Memory.wfFrom lo m = true → Memory.get (Memory.set m a v) a = v
  | [], _, _ => by
    by_cases hv : v = 0x00#8 <;> simp [Memory.set, hv, Memory.get]
  | (k, w) :: rest, lo, hm => by
    simp only [Memory.wfFrom, Bool.and_eq_true, decide_eq_true_eq] at hm
    obtain ⟨⟨⟨hk, hkb⟩, hw⟩, hr⟩ := hm
    by_cases hak : a < k
    · by_cases hv : v = 0x00#8
      · have hne : k ≠ a := by omega
        simp only [Memory.set, hak, hv, if_true, Memory.get, hne, if_false]
        exact Memory.get_below rest hr (by omega)
      · simp [Memory.set, hak, hv, Memory.get]
    · by_cases hake : a = k
      · by_cases hv : v = 0x00#8
        · subst hake
          simp only [Memory.set, lt_irrefl, hv, if_true, if_false]
          exact Memory.get_below rest hr (by omega)
        · simp [Memory.set, hake, hv, Memory.get]
      · have hne : k ≠ a := fun h => hake h.symm
        simp only [Memory.set, hak, hake, if_false, Memory.get, hne]
        exact Memory.get_set_same v rest hr

/-- A write leaves every other offset alone. -/
theorem Memory.get_set_other (v : Byte) {a b : Nat} (hab : b ≠ a) :
    ∀ (m : Memory) {lo : Nat}, Memory.wfFrom lo m = true → Memory.get (Memory.set m a v) b = Memory.get m b
  | [], _, _ => by
    have hne : a ≠ b := fun h => hab h.symm
    by_cases hv : v = 0x00#8 <;> simp [Memory.set, hv, Memory.get, hne]
  | (k, w) :: rest, lo, hm => by
    have hne : a ≠ b := fun h => hab h.symm
    simp only [Memory.wfFrom, Bool.and_eq_true, decide_eq_true_eq] at hm
    obtain ⟨⟨⟨hk, hkb⟩, hw⟩, hr⟩ := hm
    by_cases hak : a < k
    · by_cases hv : v = 0x00#8 <;> simp [Memory.set, hak, hv, Memory.get, hne]
    · by_cases hake : a = k
      · subst hake
        by_cases hv : v = 0x00#8 <;> simp [Memory.set, hv, Memory.get, hne]
      · simp only [Memory.set, hak, hake, if_false, Memory.get]
        rw [Memory.get_set_other v hab rest hr]

/-- Two canonical memories that read alike are equal. -/
theorem Memory.ext_get :
    ∀ (m n : Memory) {lo : Nat}, Memory.wfFrom lo m = true → Memory.wfFrom lo n = true →
      (∀ a, Memory.get m a = Memory.get n a) → m = n
  | [], [], _, _, _, _ => rfl
  | [], (k, v) :: rest, lo, _, hn, h => by
    simp only [Memory.wfFrom, Bool.and_eq_true, decide_eq_true_eq] at hn
    have := h k
    simp only [Memory.get, if_true] at this
    exact absurd this.symm hn.1.2
  | (k, v) :: rest, [], lo, hm, _, h => by
    simp only [Memory.wfFrom, Bool.and_eq_true, decide_eq_true_eq] at hm
    have := h k
    simp only [Memory.get, if_true] at this
    exact absurd this hm.1.2
  | (k, v) :: rest, (j, w) :: rest', lo, hm, hn, h => by
    simp only [Memory.wfFrom, Bool.and_eq_true, decide_eq_true_eq] at hm hn
    have hkj : k = j := by
      rcases Nat.lt_trichotomy k j with hlt | heq | hgt
      · have h1 := h k
        have hne : j ≠ k := by omega
        simp only [Memory.get, if_true, hne, if_false] at h1
        rw [Memory.get_below rest' hn.2 (by omega)] at h1
        exact absurd h1 hm.1.2
      · exact heq
      · have h1 := h j
        have hne : k ≠ j := by omega
        simp only [Memory.get, if_true, hne, if_false] at h1
        rw [Memory.get_below rest hm.2 (by omega)] at h1
        exact absurd h1.symm hn.1.2
    subst hkj
    have hvw : v = w := by simpa [Memory.get] using h k
    subst hvw
    have htail : rest = rest' := by
      refine Memory.ext_get rest rest' hm.2 hn.2 fun a => ?_
      by_cases hka : k = a
      · subst hka
        rw [Memory.get_below rest hm.2 (by omega), Memory.get_below rest' hn.2 (by omega)]
      · have h1 := h a
        simpa only [Memory.get, hka, if_false] using h1
    rw [htail]

@[simp] theorem Memory.bytes_length (m : Memory) : ∀ n a, (m.bytes a n).length = n
  | 0, _ => rfl
  | n + 1, a => by simp [Memory.bytes, Memory.bytes_length m n (a + 1)]

end Sys2Proof.Machine
end

