-- ==== Sys2Proof/Laws/Proc.lean ====
section
/-! SUPPORT. How procedures run: the equations of `bind` and of the primitives, the relation `Always`
(every ending of a procedure, good or bad, is related to its start), and what each primitive can do. -/

namespace Sys2Proof.Machine

@[simp] theorem run_pure {α : Type} (a : α) (s : State) : (pure a : Proc α) s = .ok a s := rfl

@[simp] theorem run_rd (s : State) : rd s = .ok s s := rfl

@[simp] theorem run_upd (f : State → State) (s : State) : upd f s = .ok () (f s) := rfl

@[simp] theorem run_stop {α : Type} (r : Stop) (s : State) : (stop r : Proc α) s = .error r s := rfl

@[simp] theorem run_raise {α : Type} (e : Err) (s : State) :
    (raise e : Proc α) s = .error (.raise e) s := rfl

@[simp] theorem run_cs (a : Bool) (s : State) : cs a s = .ok () (s.withCs a) := rfl

@[simp] theorem run_now (s : State) : now s = .ok s.nextSample s.afterSample := rfl

/-- A sequence after a first part that ended well. -/
theorem run_bind_ok {α β : Type} {p : Proc α} {f : α → Proc β} {s t : State} {a : α}
    (h : p s = .ok a t) : (p >>= f) s = f a t := by
  show EStateM.bind p f s = f a t
  simp only [EStateM.bind, h]

/-- A sequence after a first part that stopped. -/
theorem run_bind_error {α β : Type} {p : Proc α} {f : α → Proc β} {s t : State} {r : Stop}
    (h : p s = .error r t) : (p >>= f) s = .error r t := by
  show EStateM.bind p f s = .error r t
  simp only [EStateM.bind, h]

/-- How a sequence can end well. -/
theorem bind_ok_inv {α β : Type} {p : Proc α} {f : α → Proc β} {s u : State} {b : β}
    (h : (p >>= f) s = .ok b u) : ∃ a t, p s = .ok a t ∧ f a t = .ok b u := by
  cases hp : p s with
  | ok a t => exact ⟨a, t, rfl, by rwa [run_bind_ok hp] at h⟩
  | error r t => rw [run_bind_error hp] at h; cases h

/-- How a sequence can stop. -/
theorem bind_error_inv {α β : Type} {p : Proc α} {f : α → Proc β} {s u : State} {r : Stop}
    (h : (p >>= f) s = .error r u) :
    p s = .error r u ∨ ∃ a t, p s = .ok a t ∧ f a t = .error r u := by
  cases hp : p s with
  | ok a t => exact .inr ⟨a, t, rfl, by rwa [run_bind_ok hp] at h⟩
  | error q t =>
    rw [run_bind_error hp] at h
    cases h
    exact .inl rfl

/-- The relation between the first and the last state of one run, whichever way it ends. -/
def EndsIn {α : Type} (R : State → State → Prop) (s : State) : EStateM.Result Stop State α → Prop
  | .ok _ t => R s t
  | .error _ t => R s t

/-- `Always R p`: however `p` ends, its last state is in relation `R` to its first. -/
structure Always {α : Type} (R : State → State → Prop) (p : Proc α) : Prop where
  out : ∀ s, EndsIn R s (p s)

theorem Always.ok {α : Type} {R : State → State → Prop} {p : Proc α} (h : Always R p) {s t : State} {a : α}
    (hp : p s = .ok a t) : R s t := by
  have := h.out s
  rwa [hp] at this

theorem Always.error {α : Type} {R : State → State → Prop} {p : Proc α} (h : Always R p) {s t : State}
    {r : Stop} (hp : p s = .error r t) : R s t := by
  have := h.out s
  rwa [hp] at this

/-- The relations of this kind are closed under sequence. -/
structure Steady (R : State → State → Prop) : Prop where
  refl : ∀ s, R s s
  trans : ∀ {s t u}, R s t → R t u → R s u

theorem always_pure {α : Type} {R : State → State → Prop} (hR : Steady R) (a : α) :
    Always R (pure a : Proc α) := ⟨fun s => hR.refl s⟩

theorem always_stop {α : Type} {R : State → State → Prop} (hR : Steady R) (r : Stop) :
    Always R (stop r : Proc α) := ⟨fun s => hR.refl s⟩

theorem always_raise {α : Type} {R : State → State → Prop} (hR : Steady R) (e : Err) :
    Always R (raise e : Proc α) := ⟨fun s => hR.refl s⟩

theorem always_rd {R : State → State → Prop} (hR : Steady R) : Always R rd := ⟨fun s => hR.refl s⟩

theorem always_upd {R : State → State → Prop} {f : State → State} (h : ∀ s, R s (f s)) :
    Always R (upd f) := ⟨h⟩

theorem always_bind {α β : Type} {R : State → State → Prop} (hR : Steady R) {p : Proc α} {f : α → Proc β}
    (hp : Always R p) (hf : ∀ a, Always R (f a)) : Always R (p >>= f) := by
  refine ⟨fun s => ?_⟩
  cases h : p s with
  | ok a t =>
    rw [run_bind_ok h]
    cases h3 : f a t with
    | ok b u => exact hR.trans (hp.ok h) ((hf a).ok h3)
    | error r u => exact hR.trans (hp.ok h) ((hf a).error h3)
  | error r t => rw [run_bind_error h]; exact hp.error h

/-- An exchange that the next answer makes a received byte. -/
theorem run_xchg_byte {s : State} {b r : Byte} (h : s.nextAnswer = .byte r) :
    xchg b s = .ok r (s.afterXchg b) := by
  simp only [xchg, h]

/-- An exchange that the next answer makes a failure. -/
theorem run_xchg_fail {s : State} {b : Byte} {code : Nat} (h : s.nextAnswer = .fail code) :
    xchg b s = .error (.raise (.transport code)) (s.afterXchg b) := by
  simp only [xchg, h]

/-- A queued byte is the next answer. -/
theorem nextAnswer_queued {s : State} {r : Byte} {rest : List Answer} (h : s.env.rx = .byte r :: rest) :
    s.nextAnswer = .byte r := by
  simp only [State.nextAnswer, h, Answer.trim]

/-- Everything an exchange can do. -/
theorem xchg_cases (s : State) (b : Byte) :
    (∃ r, s.nextAnswer = .byte r ∧ xchg b s = .ok r (s.afterXchg b)) ∨
      (∃ c, s.nextAnswer = .fail c ∧ xchg b s = .error (.raise (.transport c)) (s.afterXchg b)) := by
  cases h : s.nextAnswer with
  | byte r => exact .inl ⟨r, rfl, run_xchg_byte h⟩
  | fail c => exact .inr ⟨c, rfl, run_xchg_fail h⟩

theorem always_xchg {R : State → State → Prop} (h : ∀ s b, R s (s.afterXchg b)) (b : Byte) :
    Always R (xchg b) := by
  refine ⟨fun s => ?_⟩
  rcases xchg_cases s b with ⟨r, -, hx⟩ | ⟨c, -, hx⟩ <;> rw [hx] <;> exact h s b

theorem always_cs {R : State → State → Prop} (h : ∀ s a, R s (s.withCs a)) (a : Bool) :
    Always R (cs a) := ⟨fun s => h s a⟩

theorem always_now {R : State → State → Prop} (h : ∀ s, R s s.afterSample) : Always R now := ⟨h⟩

/-- A failure code delivered by an exchange has `TCODE_W` bits. -/
theorem nextAnswer_fail_lt {s : State} {c : Nat} (h : s.nextAnswer = .fail c) : c < 2 ^ s.par.tcodeW := by
  have htrim : ∀ (a : Answer), a.trim s.par.tcodeW = .fail c → c < 2 ^ s.par.tcodeW := by
    intro a ha
    cases a with
    | byte b => simp [Answer.trim] at ha
    | fail d =>
      simp only [Answer.trim, Answer.fail.injEq] at ha
      rw [← ha]
      exact Nat.mod_lt _ (Nat.two_pow_pos _)
  unfold State.nextAnswer at h
  split at h <;> exact htrim _ h

end Sys2Proof.Machine
end

