-- ==== Sys2Proof/Laws/Frame.lean ====
section
/-! SUPPORT. What the procedures of the command engine, the timeout controller and the transfer machine
can change: one lemma per procedure for every relation that their primitive updates keep. -/

namespace Sys2Proof.Machine

/-- Relations kept by everything the command engine and the waits do. -/
structure EngineKeeps (R : State → State → Prop) : Prop extends Steady R where
  withCs : ∀ s a, R s (s.withCs a)
  afterXchg : ∀ s b, R s (s.afterXchg b)
  afterSample : ∀ s, R s s.afterSample
  dl1 : ∀ (s : State) d, R s { s with wrk.dl1 := d }
  cfsm : ∀ (s : State) x, R s { s with seq.cfsm := x }
  endCommand : ∀ (s : State) b t, R s { s with wrk.status := b, wrk.rto := t, seq.cfsm := .cOff }
  frame : ∀ (s : State) f, R s { s with wrk.frame := f }

variable {R : State → State → Prop}

theorem always_sendAll (hR : Steady R) (hx : ∀ s b, R s (s.afterXchg b)) :
    ∀ bs, Always R (sendAll bs)
  | [] => always_pure hR ()
  | b :: bs => always_bind hR (always_xchg hx b) fun _ => always_sendAll hR hx bs

theorem always_discard (hR : Steady R) (hx : ∀ s b, R s (s.afterXchg b)) (n : Nat) :
    Always R (discard n) := always_sendAll hR hx _

theorem always_deadline (hR : Steady R) (hs : ∀ s : State, R s s.afterSample) (T : Nat) :
    Always R (deadline T) := by
  refine always_bind hR (always_now hs) fun t => ?_
  split
  · exact always_pure hR _
  · exact always_stop hR _

theorem always_loadDl1 (h : EngineKeeps R) (T : Nat) : Always R (loadDl1 T) :=
  always_bind h.toSteady (always_deadline h.toSteady h.afterSample T) fun d => always_upd fun s => h.dl1 s d

theorem always_loadDl0 (h : EngineKeeps R) (h0 : ∀ (s : State) d, R s { s with wrk.dl0 := d }) (T : Nat) :
    Always R (loadDl0 T) :=
  always_bind h.toSteady (always_deadline h.toSteady h.afterSample T) fun d => always_upd fun s => h0 s d

theorem always_expiredDl1 (h : EngineKeeps R) : Always R expiredDl1 :=
  always_bind h.toSteady (always_now h.afterSample) fun _ =>
    always_bind h.toSteady (always_rd h.toSteady) fun _ => always_pure h.toSteady _

theorem always_expiredDl0 (h : EngineKeeps R) : Always R expiredDl0 :=
  always_bind h.toSteady (always_now h.afterSample) fun _ =>
    always_bind h.toSteady (always_rd h.toSteady) fun _ => always_pure h.toSteady _

theorem always_busyLoop (h : EngineKeeps R) : ∀ n, Always R (busyLoop n)
  | 0 => always_stop h.toSteady _
  | n + 1 => by
    refine always_bind h.toSteady (always_xchg h.afterXchg _) fun b => ?_
    split
    · exact always_pure h.toSteady _
    · refine always_bind h.toSteady (always_expiredDl1 h) fun e => ?_
      split
      · exact always_pure h.toSteady _
      · exact always_busyLoop h n

theorem always_waitNotBusy (h : EngineKeeps R) (T : Nat) : Always R (waitNotBusy T) :=
  always_bind h.toSteady (always_loadDl1 h T) fun _ =>
    always_bind h.toSteady (always_rd h.toSteady) fun _ => always_busyLoop h _

theorem always_tokenLoop (h : EngineKeeps R) : ∀ n, Always R (tokenLoop n)
  | 0 => always_stop h.toSteady _
  | n + 1 => by
    have hfail : Always R (do cs false; raise .startToken : Proc Unit) :=
      always_bind h.toSteady (always_cs h.withCs false) fun _ => always_raise h.toSteady _
    refine always_bind h.toSteady (always_xchg h.afterXchg _) fun b => ?_
    split
    · exact always_pure h.toSteady _
    · exact hfail
    · refine always_bind h.toSteady (always_expiredDl1 h) fun e => ?_
      split
      · exact hfail
      · exact always_tokenLoop h n

theorem always_waitStartToken (h : EngineKeeps R) : Always R waitStartToken :=
  always_bind h.toSteady (always_loadDl1 h _) fun _ =>
    always_bind h.toSteady (always_rd h.toSteady) fun _ => always_tokenLoop h _

theorem always_pollResponse (h : EngineKeeps R) : ∀ n, Always R (pollResponse n)
  | 0 => always_pure h.toSteady _
  | n + 1 => by
    refine always_bind h.toSteady (always_xchg h.afterXchg _) fun b => ?_
    split
    · exact always_pollResponse h n
    · exact always_pure h.toSteady _

theorem always_goCfsm (h : EngineKeeps R) (x : Cfsm) : Always R (goCfsm x) := always_upd fun s => h.cfsm s x

theorem always_endCommand (h : EngineKeeps R) (b : Byte) (t : Bool) : Always R (endCommand b t) :=
  always_upd fun s => h.endCommand s b t

theorem always_setFrame (h : EngineKeeps R) (f : Frame) : Always R (setFrame f) := always_upd fun s => h.frame s f

theorem always_busyPhase (h : EngineKeeps R) (n : BitVec 6) : Always R (busyPhase n) := by
  unfold busyPhase
  split
  · exact always_pure h.toSteady _
  · exact always_bind h.toSteady (always_goCfsm h _) fun _ =>
      always_bind h.toSteady (always_waitNotBusy h _) fun _ => always_pure h.toSteady _

theorem always_framePhase (h : EngineKeeps R) (n : BitVec 6) (arg : BitVec 32) :
    Always R (framePhase n arg) :=
  always_bind h.toSteady (always_goCfsm h _) fun _ =>
    always_bind h.toSteady (always_setFrame h _) fun _ => always_sendAll h.toSteady h.afterXchg _

theorem always_stuffPhase (h : EngineKeeps R) (n : BitVec 6) : Always R (stuffPhase n) := by
  unfold stuffPhase
  split
  · exact always_bind h.toSteady (always_goCfsm h _) fun _ => always_discard h.toSteady h.afterXchg 1
  · exact always_pure h.toSteady _

theorem always_sendCommand (h : EngineKeeps R) (n : BitVec 6) (arg : BitVec 32) :
    Always R (sendCommand n arg) :=
  always_bind h.toSteady (always_goCfsm h _) fun _ => always_bind h.toSteady (always_cs h.withCs _) fun _ =>
    always_bind h.toSteady (always_busyPhase h n) fun _ =>
      always_bind h.toSteady (always_framePhase h n arg) fun _ => always_stuffPhase h n

theorem always_finishCommand (h : EngineKeeps R) (r : Option Byte) : Always R (finishCommand r) := by
  cases r with
  | some b => exact always_bind h.toSteady (always_endCommand h _ _) fun _ => always_pure h.toSteady _
  | none =>
    exact always_bind h.toSteady (always_goCfsm h _) fun _ => always_bind h.toSteady (always_cs h.withCs _) fun _ =>
      always_bind h.toSteady (always_discard h.toSteady h.afterXchg 1) fun _ =>
        always_bind h.toSteady (always_endCommand h _ _) fun _ => always_pure h.toSteady _

theorem always_issueCommand (h : EngineKeeps R) (n : BitVec 6) (arg : BitVec 32) :
    Always R (issueCommand n arg) :=
  always_bind h.toSteady (always_sendCommand h n arg) fun _ =>
    always_bind h.toSteady (always_goCfsm h _) fun _ => always_bind h.toSteady (always_rd h.toSteady) fun _ =>
      always_bind h.toSteady (always_pollResponse h _) fun r => always_finishCommand h r

theorem always_issueAppCommand (h : EngineKeeps R) (n : BitVec 6) (arg : BitVec 32) :
    Always R (issueAppCommand n arg) := by
  refine always_bind h.toSteady (always_issueCommand h _ _) fun r => ?_
  split
  · exact always_pure h.toSteady _
  · exact always_issueCommand h n arg

theorem always_ensureZeroStatus (h : EngineKeeps R) (n : BitVec 6) (arg : BitVec 32) :
    Always R (ensureZeroStatus n arg) := by
  refine always_bind h.toSteady (always_issueCommand h n arg) fun r => ?_
  split <;> first | exact always_raise h.toSteady _ | exact always_pure h.toSteady _

theorem always_receiveScratch (h : EngineKeeps R)
    (hs : ∀ (s : State) i v, i < Config.regLen → R s { s with wrk.scratch := s.wrk.scratch.set i v }) :
    ∀ k i, i + k ≤ Config.regLen → Always R (receiveScratch k i)
  | 0, _, _ => always_pure h.toSteady _
  | k + 1, i, hi => by
    refine always_bind h.toSteady (always_xchg h.afterXchg _) fun b =>
      always_bind h.toSteady ⟨fun s => ?_⟩ fun _ => always_receiveScratch h hs k (i + 1) (by omega)
    have hb : i < Config.blockLen := by unfold Config.regLen at hi; unfold Config.blockLen; omega
    simp only [scratchWrite, hb, if_true]
    exact hs s i b (by omega)

theorem always_readRegister (h : EngineKeeps R)
    (hs : ∀ (s : State) i v, i < Config.regLen → R s { s with wrk.scratch := s.wrk.scratch.set i v })
    (n : BitVec 6) (arg : BitVec 32) : Always R (readRegister n arg) := by
  have hS := h.toSteady
  exact always_bind hS (always_ensureZeroStatus h n arg) fun _ =>
    always_bind hS (always_waitStartToken h) fun _ =>
      always_bind hS (always_receiveScratch h hs _ _ (Nat.zero_add _).le) fun _ =>
        always_bind hS (always_discard hS h.afterXchg 2) fun _ =>
          always_bind hS (always_cs h.withCs false) fun _ =>
            always_bind hS (always_rd hS) fun _ => always_pure hS _

theorem always_receiveBlock (h : EngineKeeps R)
    (hb : ∀ (s : State) i v, i < Config.blockLen → R s { s with req.buf := s.req.buf.set i v }) :
    ∀ k i c, Always R (receiveBlock k i c)
  | 0, _, _ => always_pure h.toSteady _
  | k + 1, i, c => by
    refine always_bind h.toSteady (always_xchg h.afterXchg _) fun b =>
      always_bind h.toSteady ⟨fun s => ?_⟩ fun _ => always_receiveBlock h hb k (i + 1) _
    by_cases hi : i < Config.blockLen
    · simp only [bufWrite, hi, if_true]; exact hb s i b hi
    · simp only [bufWrite, hi, if_false]; exact h.refl s

theorem always_sendBlock (h : EngineKeeps R) : ∀ k i, Always R (sendBlock k i)
  | 0, _ => always_pure h.toSteady _
  | k + 1, i => by
    refine always_bind h.toSteady ⟨fun s => ?_⟩ fun _ =>
      always_bind h.toSteady (always_xchg h.afterXchg _) fun _ => always_sendBlock h k (i + 1)
    by_cases hi : i < Config.blockLen
    · simp only [bufRead, hi, if_true]; exact h.refl s
    · simp only [bufRead, hi, if_false]; exact h.refl s

theorem always_recordCrc (h : EngineKeeps R)
    (hc : ∀ (s : State) a b, R s { s with ses.lastCrc16 := a, ses.calcCrc16 := b }) (c : BitVec 16) :
    Always R (recordCrc c) := by
  have hS := h.toSteady
  exact always_bind hS (always_xchg h.afterXchg _) fun _ =>
    always_bind hS (always_xchg h.afterXchg _) fun _ =>
      always_bind hS (always_upd fun s => hc s _ _) fun _ => always_cs h.withCs false

theorem always_writeResponse (h : EngineKeeps R) (hd : ∀ (s : State) t, R s { s with wrk.dresp := t }) :
    Always R writeResponse := by
  have hS := h.toSteady
  refine always_bind hS (always_xchg h.afterXchg _) fun t =>
    always_bind hS (always_upd fun s => hd s t) fun _ => ?_
  split
  · exact always_pure hS _
  · exact always_bind hS (always_cs h.withCs _) fun _ => always_raise hS _

theorem always_writeBusy (h : EngineKeeps R) : Always R writeBusy := by
  have hS := h.toSteady
  refine always_bind hS (always_waitNotBusy h _) fun r => always_bind hS (always_cs h.withCs _) fun _ => ?_
  split
  · exact always_pure hS _
  · exact always_raise hS _

theorem always_setKind (hk : ∀ (s : State) k, R s { s with ses.kind := k }) (k : CardKind) :
    Always R (setKind k) := always_upd fun s => hk s k

theorem always_receiveR7 (h : EngineKeeps R)
    (hr : ∀ (s : State) (i : Fin 4) v, R s { s with wrk.r7 := s.wrk.r7.set i v }) (i : Fin 4) :
    Always R (receiveR7 i) :=
  always_bind h.toSteady (always_xchg h.afterXchg _) fun b => always_upd fun s => hr s i b

theorem always_classifyPayload (h : EngineKeeps R)
    (hr : ∀ (s : State) (i : Fin 4) v, R s { s with wrk.r7 := s.wrk.r7.set i v })
    (hk : ∀ (s : State) k, R s { s with ses.kind := k }) : Always R classifyPayload := by
  have hS := h.toSteady
  refine always_bind hS (always_receiveR7 h hr 0) fun _ => always_bind hS (always_receiveR7 h hr 1) fun _ =>
    always_bind hS (always_receiveR7 h hr 2) fun _ => always_bind hS (always_receiveR7 h hr 3) fun _ =>
      always_bind hS (always_rd hS) fun s => ?_
  split
  · exact always_setKind hk _
  · exact always_raise hS _

theorem always_interfaceCondition (h : EngineKeeps R)
    (hr : ∀ (s : State) (i : Fin 4) v, R s { s with wrk.r7 := s.wrk.r7.set i v })
    (hk : ∀ (s : State) k, R s { s with ses.kind := k }) (arg : BitVec 32) :
    Always R (interfaceCondition arg) := by
  have hS := h.toSteady
  refine always_bind hS (always_issueCommand h _ _) fun r => ?_
  split
  · exact always_raise hS _
  · split
    · exact always_bind hS (always_setKind hk _) fun _ => always_raise hS _
    · exact always_classifyPayload h hr hk

theorem always_readOcr (h : EngineKeeps R) (ho : ∀ (s : State) b, R s { s with wrk.ocr0 := b })
    (hk : ∀ (s : State) k, R s { s with ses.kind := k }) (arg : BitVec 32) : Always R (readOcr arg) := by
  have hS := h.toSteady
  refine always_bind hS (always_ensureZeroStatus h _ _) fun _ =>
    always_bind hS (always_xchg h.afterXchg _) fun b =>
      always_bind hS (always_upd fun s => ho s b) fun _ =>
        always_bind hS ?_ fun _ => always_discard hS h.afterXchg 3
  unfold reclassify
  split
  · exact always_setKind hk _
  · exact always_pure hS _

theorem always_opCondLoop (h : EngineKeeps R) (arg : BitVec 32) : ∀ n, Always R (opCondLoop arg n)
  | 0 => always_stop h.toSteady _
  | n + 1 => by
    have hS := h.toSteady
    refine always_bind hS (always_issueAppCommand h _ _) fun r => ?_
    split
    · exact always_pure hS _
    all_goals
      refine always_bind hS (always_expiredDl0 h) fun e => ?_
      split
      · exact always_raise hS _
      · exact always_opCondLoop h arg n

theorem always_goIdleLoop (h : EngineKeeps R) : ∀ n, Always R (goIdleLoop n)
  | 0 => always_stop h.toSteady _
  | n + 1 => by
    have hS := h.toSteady
    refine always_bind hS (always_issueCommand h _ _) fun r => ?_
    split
    · exact always_pure hS _
    all_goals
      refine always_bind hS (always_expiredDl0 h) fun e => ?_
      split
      · exact always_raise hS _
      · exact always_goIdleLoop h n

/-! ### Whole operations -/

/-- Relations kept by what the sequencer does around the steps of an operation: the step register, the
start and the exit actions. -/
structure OperationKeeps (R : State → State → Prop) : Prop extends EngineKeeps R where
  start : ∀ (s : State) o x, R s { s with seq.op := o, seq.fsm := x }
  fsm : ∀ (s : State) x, R s { s with seq.fsm := x }
  exit : ∀ (s : State) r, R s (exitActions r s)

theorem always_goFsm (h : OperationKeeps R) (x : Fsm) : Always R (goFsm x) := always_upd fun s => h.fsm s x

theorem always_finish (h : OperationKeeps R) : Always R finish := always_upd fun s => h.exit s none

/-- Everything a procedure that ends in a next state has changed. -/
theorem settle_always (h : OperationKeeps R) {p : Proc Unit} (hp : Always R p) {s t : State}
    (hs : settle p s = .next t) : R s t := by
  unfold settle at hs
  cases hx : p s with
  | ok a u => rw [hx] at hs; cases hs; exact hp.ok hx
  | error q u =>
    rw [hx] at hs
    cases q with
    | raise e => cases hs; exact h.trans (hp.error hx) (h.exit u _)
    | fault f => cases hs
    | refuse r => cases hs

/-- A host operation that ends in a next state was requested of the idle engine, and has changed no more. -/
theorem hostCall_always (h : OperationKeeps R) {p : Proc Unit} (hp : Always R p) {s t : State}
    (hs : hostCall p s = .next t) : s.seq.op = .idle ∧ R s t := by
  unfold hostCall at hs
  split at hs
  · exact ⟨‹_›, settle_always h hp hs⟩
  · cases hs

section Read

variable (h : OperationKeeps R)
  (hb : ∀ (s : State) i v, i < Config.blockLen → R s { s with req.buf := s.req.buf.set i v })
  (hc : ∀ (s : State) a b, R s { s with ses.lastCrc16 := a, ses.calcCrc16 := b })

include h hc in
theorem always_fromRCrc (c : BitVec 16) : Always R (fromRCrc c) :=
  always_bind h.toSteady (always_recordCrc h.toEngineKeeps hc c) fun _ => always_finish h

include h hb hc in
theorem always_fromRData : Always R fromRData :=
  always_bind h.toSteady (always_receiveBlock h.toEngineKeeps hb _ _ _) fun c =>
    always_bind h.toSteady (always_goFsm h _) fun _ => always_fromRCrc h hc c

include h hb hc in
theorem always_fromRToken : Always R fromRToken :=
  always_bind h.toSteady (always_waitStartToken h.toEngineKeeps) fun _ =>
    always_bind h.toSteady (always_goFsm h _) fun _ => always_fromRData h hb hc

include h hb hc in
theorem always_fromRCmd : Always R fromRCmd := by
  refine always_bind h.toSteady (always_rd h.toSteady) fun s => ?_
  split
  · exact always_raise h.toSteady _
  · exact always_bind h.toSteady (always_ensureZeroStatus h.toEngineKeeps _ _) fun _ =>
      always_bind h.toSteady (always_goFsm h _) fun _ => always_fromRToken h hb hc

include h hb hc in
theorem always_fromRCheck : Always R fromRCheck := by
  refine always_bind h.toSteady (always_rd h.toSteady) fun s => ?_
  split
  · exact always_raise h.toSteady _
  · exact always_bind h.toSteady (always_goFsm h _) fun _ => always_fromRCmd h hb hc

end Read

section Write

variable (h : OperationKeeps R) (hd : ∀ (s : State) t, R s { s with wrk.dresp := t })

include h in
theorem always_fromWBusy : Always R fromWBusy :=
  always_bind h.toSteady (always_writeBusy h.toEngineKeeps) fun _ => always_finish h

include h hd in
theorem always_fromWResp : Always R fromWResp :=
  always_bind h.toSteady (always_writeResponse h.toEngineKeeps hd) fun _ =>
    always_bind h.toSteady (always_goFsm h _) fun _ => always_fromWBusy h

include h hd in
theorem always_fromWCrc : Always R fromWCrc :=
  always_bind h.toSteady (always_sendAll h.toSteady h.afterXchg _) fun _ =>
    always_bind h.toSteady (always_goFsm h _) fun _ => always_fromWResp h hd

include h hd in
theorem always_fromWData : Always R fromWData :=
  always_bind h.toSteady (always_sendBlock h.toEngineKeeps _ _) fun _ =>
    always_bind h.toSteady (always_goFsm h _) fun _ => always_fromWCrc h hd

include h hd in
theorem always_fromWToken : Always R fromWToken :=
  always_bind h.toSteady (always_sendAll h.toSteady h.afterXchg _) fun _ =>
    always_bind h.toSteady (always_goFsm h _) fun _ => always_fromWData h hd

include h hd in
theorem always_fromWCmd : Always R fromWCmd := by
  refine always_bind h.toSteady (always_rd h.toSteady) fun s => ?_
  split
  · exact always_raise h.toSteady _
  · exact always_bind h.toSteady (always_ensureZeroStatus h.toEngineKeeps _ _) fun _ =>
      always_bind h.toSteady (always_goFsm h _) fun _ => always_fromWToken h hd

include h hd in
theorem always_fromWCheck : Always R fromWCheck := by
  refine always_bind h.toSteady (always_rd h.toSteady) fun s => ?_
  split
  · exact always_raise h.toSteady _
  · exact always_bind h.toSteady (always_goFsm h _) fun _ => always_fromWCmd h hd

end Write

/-- Relations kept by everything an initialization does beside that (R220 to R237). -/
structure InitKeeps (R : State → State → Prop) : Prop extends OperationKeeps R where
  dl0 : ∀ (s : State) d, R s { s with wrk.dl0 := d }
  kind : ∀ (s : State) k, R s { s with ses.kind := k }
  r7 : ∀ (s : State) (i : Fin 4) v, R s { s with wrk.r7 := s.wrk.r7.set i v }
  ocr0 : ∀ (s : State) b, R s { s with wrk.ocr0 := b }
  scratch : ∀ (s : State) i v, i < Config.regLen → R s { s with wrk.scratch := s.wrk.scratch.set i v }
  cid : ∀ (s : State) x, R s { s with ses.cid := x }
  csd : ∀ (s : State) x, R s { s with ses.csd := x }
  count : ∀ (s : State) n, R s { s with ses.blockCount := n }
  enter : ∀ s : State, R s { s with ses.blockCount := 0#64, ses.kind := .none }

theorem always_fromICommit (h : InitKeeps R) : Always R fromICommit := by
  refine always_bind h.toSteady (always_rd h.toSteady) fun s => ?_
  split
  · exact always_raise h.toSteady _
  · split
    · exact always_raise h.toSteady _
    · split
      · exact always_raise h.toSteady _
      · exact always_bind h.toSteady (always_upd fun s => h.count s _) fun _ =>
          always_bind h.toSteady (always_cs h.withCs _) fun _ => always_finish h.toOperationKeeps

theorem always_fromICsd (h : InitKeeps R) : Always R fromICsd :=
  always_bind h.toSteady (always_readRegister h.toEngineKeeps h.scratch _ _) fun img =>
    always_bind h.toSteady (always_upd fun s => h.csd s img) fun _ =>
      always_bind h.toSteady (always_goFsm h.toOperationKeeps _) fun _ => always_fromICommit h

theorem always_fromICid (h : InitKeeps R) : Always R fromICid :=
  always_bind h.toSteady (always_readRegister h.toEngineKeeps h.scratch _ _) fun img =>
    always_bind h.toSteady (always_upd fun s => h.cid s img) fun _ =>
      always_bind h.toSteady (always_goFsm h.toOperationKeeps _) fun _ => always_fromICsd h

theorem always_fromIBlkLen (h : InitKeeps R) : Always R fromIBlkLen :=
  always_bind h.toSteady (always_ensureZeroStatus h.toEngineKeeps _ _) fun _ =>
    always_bind h.toSteady (always_goFsm h.toOperationKeeps _) fun _ => always_fromICid h

theorem always_fromIOcr (h : InitKeeps R) : Always R fromIOcr := by
  refine always_bind h.toSteady ?_ fun _ =>
    always_bind h.toSteady (always_goFsm h.toOperationKeeps _) fun _ => always_fromIBlkLen h
  refine always_bind h.toSteady (always_rd h.toSteady) fun s => ?_
  split
  · exact always_readOcr h.toEngineKeeps h.ocr0 h.kind _
  · exact always_pure h.toSteady _

theorem always_fromIOpCond (h : InitKeeps R) : Always R fromIOpCond :=
  always_bind h.toSteady (always_rd h.toSteady) fun _ =>
    always_bind h.toSteady (always_loadDl0 h.toEngineKeeps h.dl0 _) fun _ =>
      always_bind h.toSteady (always_rd h.toSteady) fun _ =>
        always_bind h.toSteady (always_opCondLoop h.toEngineKeeps _ _) fun _ =>
          always_bind h.toSteady (always_goFsm h.toOperationKeeps _) fun _ => always_fromIOcr h

theorem always_fromIIfCond (h : InitKeeps R) : Always R fromIIfCond :=
  always_bind h.toSteady (always_interfaceCondition h.toEngineKeeps h.r7 h.kind _) fun _ =>
    always_bind h.toSteady (always_goFsm h.toOperationKeeps _) fun _ => always_fromIOpCond h

theorem always_fromIGoIdle (h : InitKeeps R) : Always R fromIGoIdle :=
  always_bind h.toSteady (always_loadDl0 h.toEngineKeeps h.dl0 _) fun _ =>
    always_bind h.toSteady (always_rd h.toSteady) fun _ =>
      always_bind h.toSteady (always_goIdleLoop h.toEngineKeeps _) fun _ =>
        always_bind h.toSteady (always_goFsm h.toOperationKeeps _) fun _ => always_fromIIfCond h

theorem always_fromIReset (h : InitKeeps R) : Always R fromIReset :=
  always_bind h.toSteady (always_cs h.withCs _) fun _ =>
    always_bind h.toSteady (always_discard h.toSteady h.afterXchg _) fun _ =>
      always_bind h.toSteady (always_goFsm h.toOperationKeeps _) fun _ => always_fromIGoIdle h

/-- Everything the machine can do keeps the relation (R220, R304, R314). -/
structure MachineKeeps (R : State → State → Prop) : Prop extends InitKeeps R where
  buf : ∀ (s : State) i v, i < Config.blockLen → R s { s with req.buf := s.req.buf.set i v }
  crcs : ∀ (s : State) a b, R s { s with ses.lastCrc16 := a, ses.calcCrc16 := b }
  dresp : ∀ (s : State) t, R s { s with wrk.dresp := t }
  ok : ∀ s : State, R s { s with res.kind := 0#4, res.status := 0x00#8, res.tcode := 0 }
  data : ∀ (s : State) v, R s { s with res.data := v }
  port : ∀ s : State, R s { s with cmdPort := none }
  take : ∀ (s : State) r, s.hostPort = some r → R s (s.take r)

theorem always_resume (h : MachineKeeps R) (x : Fsm) : Always R (resume x) := by
  cases x
  case fIdle => exact always_pure h.toSteady _
  case iReset => exact always_fromIReset h.toInitKeeps
  case iGoIdle => exact always_fromIGoIdle h.toInitKeeps
  case iIfCond => exact always_fromIIfCond h.toInitKeeps
  case iOpCond => exact always_fromIOpCond h.toInitKeeps
  case iOcr => exact always_fromIOcr h.toInitKeeps
  case iBlkLen => exact always_fromIBlkLen h.toInitKeeps
  case iCid => exact always_fromICid h.toInitKeeps
  case iCsd => exact always_fromICsd h.toInitKeeps
  case iCommit => exact always_fromICommit h.toInitKeeps
  case rCheck => exact always_fromRCheck h.toOperationKeeps h.buf h.crcs
  case rCmd => exact always_fromRCmd h.toOperationKeeps h.buf h.crcs
  case rToken => exact always_fromRToken h.toOperationKeeps h.buf h.crcs
  case rData => exact always_fromRData h.toOperationKeeps h.buf h.crcs
  case rCrc =>
    exact always_bind h.toSteady (always_rd h.toSteady) fun _ => always_fromRCrc h.toOperationKeeps h.crcs _
  case wCheck => exact always_fromWCheck h.toOperationKeeps h.dresp
  case wCmd => exact always_fromWCmd h.toOperationKeeps h.dresp
  case wToken => exact always_fromWToken h.toOperationKeeps h.dresp
  case wData => exact always_fromWData h.toOperationKeeps h.dresp
  case wCrc => exact always_fromWCrc h.toOperationKeeps h.dresp
  case wResp => exact always_fromWResp h.toOperationKeeps h.dresp
  case wBusy => exact always_fromWBusy h.toOperationKeeps

theorem always_issueOnly (h : EngineKeeps R) (n : BitVec 6) (arg : BitVec 32) : Always R (issueOnly n arg) :=
  always_bind h.toSteady (always_issueCommand h n arg) fun _ => always_pure h.toSteady _

theorem exec_getter (h : MachineKeeps R) {v : State → BitVec 128} {s t : State}
    (hs : hostCall (getter v) s = .next t) : R s t :=
  (hostCall_always h.toOperationKeeps
    (always_bind h.toSteady (always_upd fun s => h.data s (v s)) fun _ => always_upd fun s => h.ok s) hs).2

/-- Every instruction that ends in a next state keeps the relation. -/
theorem exec_keeps (h : MachineKeeps R) (i : Instr) {s t : State} (hs : exec i s = .next t) : R s t := by
  have hO := h.toOperationKeeps
  have hE := h.toEngineKeeps
  have hS := h.toSteady
  have hreg : ∀ n arg, Always R (do let _ ← readRegister n arg : Proc Unit) := fun n arg =>
    always_bind hS (always_readRegister hE h.scratch n arg) fun _ => always_pure hS _
  cases i
  case cmd0 => exact settle_always hO (always_issueOnly hE _ _) hs
  case cmd12 => exact settle_always hO (always_issueOnly hE _ _) hs
  case cmd55 => exact settle_always hO (always_issueOnly hE _ _) hs
  case cmd41 => exact settle_always hO (always_issueOnly hE _ _) hs
  case cmd8 => exact settle_always hO (always_interfaceCondition hE h.r7 h.kind _) hs
  case cmd9 => exact settle_always hO (hreg _ _) hs
  case cmd10 => exact settle_always hO (hreg _ _) hs
  case rdreg => exact settle_always hO (hreg _ _) hs
  case cmd16 => exact settle_always hO (always_ensureZeroStatus hE _ _) hs
  case zcmd => exact settle_always hO (always_ensureZeroStatus hE _ _) hs
  case cmd58 => exact settle_always hO (always_readOcr hE h.ocr0 h.kind _) hs
  case cmd17 =>
    exact settle_always hO (always_bind hS (always_ensureZeroStatus hE _ _) fun _ =>
      always_bind hS (always_waitStartToken hE) fun _ =>
        always_bind hS (always_receiveBlock hE h.buf _ _ _) fun c => always_recordCrc hE h.crcs c) hs
  case cmd24 =>
    exact settle_always hO (always_bind hS (always_ensureZeroStatus hE _ _) fun _ =>
      always_bind hS (always_sendAll hS h.afterXchg _) fun _ =>
        always_bind hS (always_sendBlock hE _ _) fun _ =>
          always_bind hS (always_sendAll hS h.afterXchg _) fun _ =>
            always_bind hS (always_writeResponse hE h.dresp) fun _ => always_writeBusy hE) hs
  case acmd41 =>
    exact settle_always hO (always_bind hS (always_issueAppCommand hE _ _) fun _ => always_pure hS _) hs
  case nop => exact (hostCall_always hO (always_upd fun s => h.ok s) hs).2
  case init =>
    exact (hostCall_always hO (always_bind hS (always_upd fun s => h.start s _ _) fun _ =>
      always_bind hS (always_upd fun s => h.enter s) fun _ => always_fromIReset h.toInitKeeps) hs).2
  case rdblk =>
    exact (hostCall_always hO (always_bind hS (always_upd fun s => h.start s _ _) fun _ =>
      always_fromRCheck hO h.buf h.crcs) hs).2
  case wrblk =>
    exact (hostCall_always hO (always_bind hS (always_upd fun s => h.start s _ _) fun _ =>
      always_fromWCheck hO h.dresp) hs).2
  case blkcnt => exact exec_getter h hs
  case cid => exact exec_getter h hs
  case csd => exact exec_getter h hs
  case lastcrc => exact exec_getter h hs
  case kind => exact exec_getter h hs
  case calccrc => exact exec_getter h hs
  case csdvalid => exact exec_getter h hs
  case reservedB => cases hs
  case reservedC => cases hs
  case reservedD => cases hs
  case reservedE => cases hs
  case reservedF => cases hs

/-- What the fetch can answer: the instruction it runs and the state it runs it in. -/
theorem fetch_run {s t : State} {i : Instr} (h : fetch s = .run i t) :
    (∃ r, s.hostPort = some r ∧ i = hostOf r.op ∧ t = s.take r) ∨
      (∃ c, s.cmdPort = some c ∧ decode c = .ok i ∧ t = { s with cmdPort := none }) := by
  unfold fetch at h
  split at h
  · cases h
  · split at h
    · rename_i r hr
      cases h
      exact .inl ⟨r, hr, rfl, rfl⟩
    · rename_i c hp hc
      unfold fetchCommand at h
      split at h
      · cases h
      · rename_i j hj
        split at h
        · cases h
          exact .inr ⟨c, hc, hj, rfl⟩
        · cases h
    · split at h <;> cases h

/-- Every step that ends in a next state keeps the relation. -/
theorem step_keeps (h : MachineKeeps R) {s t : State} (hs : step s = .next t) : R s t := by
  unfold step at hs
  split at hs
  · rename_i i u hf
    rcases fetch_run hf with ⟨r, hr, -, rfl⟩ | ⟨c, -, -, rfl⟩
    · exact h.trans (h.take s r hr) (exec_keeps h i hs)
    · exact h.trans (h.port s) (exec_keeps h i hs)
  · exact settle_always h.toOperationKeeps (always_resume h _) hs
  · cases hs
    exact h.refl s
  · cases hs

end Sys2Proof.Machine
end

