-- ==== Sys2Proof/Laws/Ends.lean ====
section
/-! SUPPORT. Pre- and postconditions of procedures, and that no wait of the machine outlasts its bound
(R163): every loop ends before its fuel does, because the model's clock is fair (log 2, log 22). -/

namespace Sys2Proof.Machine

/-- From a state with `P`, `p` ends well in `Q` or stops in `E`. -/
structure Ends {α : Type} (P : State → Prop) (p : Proc α) (Q : α → State → Prop) (E : Stop → State → Prop) :
    Prop where
  ok : ∀ {s t : State} {a : α}, P s → p s = .ok a t → Q a t
  err : ∀ {s t : State} {r : Stop}, P s → p s = .error r t → E r t

variable {α β : Type} {P P' : State → Prop} {E : Stop → State → Prop}

theorem ends_bind {p : Proc α} {f : α → Proc β} {Q : α → State → Prop} {Q' : β → State → Prop}
    (hp : Ends P p Q E) (hf : ∀ a, Ends (Q a) (f a) Q' E) : Ends P (p >>= f) Q' E where
  ok hs h := by
    obtain ⟨a, t, h1, h2⟩ := bind_ok_inv h
    exact (hf a).ok (hp.ok hs h1) h2
  err hs h := by
    rcases bind_error_inv h with h1 | ⟨a, t, h1, h2⟩
    · exact hp.err hs h1
    · exact (hf a).err (hp.ok hs h1) h2

theorem ends_pure (a : α) {Q : α → State → Prop} (h : ∀ s, P s → Q a s) : Ends P (pure a : Proc α) Q E where
  ok hs h' := by cases h'; exact h _ hs
  err _ h' := by cases h'

theorem ends_stop (r : Stop) {Q : α → State → Prop} (h : ∀ s, P s → E r s) : Ends P (stop r : Proc α) Q E where
  ok _ h' := by cases h'
  err hs h' := by cases h'; exact h _ hs

theorem ends_raise (e : Err) {Q : α → State → Prop} (h : ∀ s, P s → E (.raise e) s) :
    Ends P (raise e : Proc α) Q E := ends_stop _ h

theorem ends_upd {f : State → State} {Q : Unit → State → Prop} (h : ∀ s, P s → Q () (f s)) :
    Ends P (upd f) Q E where
  ok hs h' := by cases h'; exact h _ hs
  err _ h' := by cases h'

theorem ends_rd : Ends P rd (fun a s => P s ∧ a = s) E where
  ok hs h' := by cases h'; exact ⟨hs, rfl⟩
  err _ h' := by cases h'

theorem ends_xchg {b : Byte} {Q : Byte → State → Prop}
    (h : ∀ s r, P s → s.nextAnswer = .byte r → Q r (s.afterXchg b))
    (hE : ∀ s c, P s → s.nextAnswer = .fail c → E (.raise (.transport c)) (s.afterXchg b)) :
    Ends P (xchg b) Q E where
  ok {s t a} hs h' := by
    rcases xchg_cases s b with ⟨r, hn, hx⟩ | ⟨c, hn, hx⟩ <;> rw [hx] at h' <;> cases h'
    exact h _ _ hs hn
  err {s t r} hs h' := by
    rcases xchg_cases s b with ⟨r, hn, hx⟩ | ⟨c, hn, hx⟩ <;> rw [hx] at h' <;> cases h'
    exact hE _ _ hs hn

theorem ends_weaken {p : Proc α} {Q Q' : α → State → Prop} {E' : Stop → State → Prop} (h : Ends P p Q E)
    (hP : ∀ s, P' s → P s) (hQ : ∀ a s, Q a s → Q' a s) (hE : ∀ r s, E r s → E' r s) : Ends P' p Q' E' :=
  ⟨fun hs h' => hQ _ _ (h.ok (hP _ hs) h'), fun hs h' => hE _ _ (h.err (hP _ hs) h')⟩

/-- A relation every ending keeps, as a postcondition. -/
theorem Always.ends {R : State → State → Prop} {p : Proc α} (h : Always R p) (s : State) :
    Ends (fun u => u = s) p (fun _ t => R s t) (fun _ t => R s t) :=
  ⟨fun hs h' => by subst hs; exact h.ok h', fun hs h' => by subst hs; exact h.error h'⟩

/-! ### No wait outlasts its bound -/

/-- The reasons a procedure can stop for: an error of the spec, or the wrap of the clock (R160). -/
def Stop.open : Stop → Prop
  | .raise _ => True
  | .fault _ => False
  | .refuse r => r = .clockWrap

/-- A procedure that stops for those reasons only. -/
def Ends.Sure {α : Type} (p : Proc α) : Prop := ∀ s t r, p s = .error r t → r.open

theorem sure_bind {p : Proc α} {f : α → Proc β} (hp : Ends.Sure p) (hf : ∀ a, Ends.Sure (f a)) :
    Ends.Sure (p >>= f) := by
  intro s t r h
  rcases bind_error_inv h with h1 | ⟨a, u, -, h2⟩
  · exact hp _ _ _ h1
  · exact hf a _ _ _ h2

theorem sure_pure (a : α) : Ends.Sure (pure a : Proc α) := by intro s t r h; cases h

theorem sure_raise (e : Err) : Ends.Sure (raise e : Proc α) := by intro s t r h; cases h; trivial

theorem sure_upd (f : State → State) : Ends.Sure (upd f) := by intro s t r h; cases h

theorem sure_rd : Ends.Sure rd := by intro s t r h; cases h

theorem sure_now : Ends.Sure now := by intro s t r h; cases h

theorem sure_xchg (b : Byte) : Ends.Sure (xchg b) := by
  intro s t r h
  rcases xchg_cases s b with ⟨x, -, hx⟩ | ⟨c, -, hx⟩ <;> rw [hx] at h <;> cases h
  trivial

theorem sure_sendAll : ∀ bs, Ends.Sure (sendAll bs)
  | [] => sure_pure ()
  | b :: bs => sure_bind (sure_xchg b) fun _ => sure_sendAll bs

theorem sure_deadline (T : Nat) : Ends.Sure (deadline T) := by
  refine sure_bind sure_now fun t => ?_
  split
  · exact sure_pure _
  · intro s u r h
    cases h
    rfl

theorem sure_loadDl0 (T : Nat) : Ends.Sure (loadDl0 T) := sure_bind (sure_deadline T) fun _ => sure_upd _

theorem sure_loadDl1 (T : Nat) : Ends.Sure (loadDl1 T) := sure_bind (sure_deadline T) fun _ => sure_upd _

theorem sure_expiredDl0 : Ends.Sure expiredDl0 :=
  sure_bind sure_now fun _ => sure_bind sure_rd fun _ => sure_pure _

theorem sure_expiredDl1 : Ends.Sure expiredDl1 :=
  sure_bind sure_now fun _ => sure_bind sure_rd fun _ => sure_pure _

/-- The free sample, as a number: least advance and free advance stay within 64 bits. -/
theorem freeSample_toNat (last : Clock) (n hold : Nat) :
    ∃ k : Nat, (freeSample last n hold).toNat = last.toNat + k ∧
      (hold = 0 → last.toNat < 2 ^ 64 - 1 → 0 < k) := by
  have hlt := last.isLt
  obtain ⟨least, hl⟩ : ∃ l : Nat, l = if hold = 0 then min 1 (2 ^ 64 - 1 - last.toNat) else 0 := ⟨_, rfl⟩
  obtain ⟨k, hk⟩ : ∃ k : Nat, k = (Config.freeTick n).toNat % (2 ^ 64 - 1 - last.toNat - least + 1) := ⟨_, rfl⟩
  have hs : freeSample last n hold = BitVec.ofNat 64 (last.toNat + least + k) := by rw [hk, hl]; rfl
  have hle : least ≤ 2 ^ 64 - 1 - last.toNat := by rw [hl]; split <;> omega
  have hmod : k < 2 ^ 64 - 1 - last.toNat - least + 1 := hk ▸ Nat.mod_lt _ (Nat.succ_pos _)
  refine ⟨least + k, ?_, fun h0 hroom => ?_⟩
  · rw [hs, BitVec.toNat_ofNat, Nat.mod_eq_of_lt (by omega), Nat.add_assoc]
  · rw [if_pos h0] at hl
    omega

/-- A sample is no earlier than the last one. -/
theorem nextSample_ge (s : State) : s.env.lastClk.toNat ≤ s.nextSample.toNat := by
  unfold State.nextSample Env.nextSample
  split
  · split <;> omega
  · obtain ⟨k, hk, -⟩ := freeSample_toNat s.env.lastClk s.env.clkCount s.env.hold
    omega

/-- Both cases of the bound at once. -/
theorem freeBound_succ (t n h : Nat) :
    freeBound (t + 1) n h = freeBound t (n + h + 1) (Config.freeHold (n + h)) + h + 1 := by cases h <;> rfl

theorem freeBound_le_succ : ∀ t n h : Nat, freeBound t n h ≤ freeBound (t + 1) n h
  | 0, _, _ => Nat.zero_le _
  | t + 1, n, h => by
    rw [freeBound_succ t, freeBound_succ (t + 1)]
    have := freeBound_le_succ t (n + h + 1) (Config.freeHold (n + h))
    omega

/-- A longer advance takes no fewer samples. -/
theorem freeBound_mono {t u : Nat} (h : t ≤ u) (n k : Nat) : freeBound t n k ≤ freeBound u n k := by
  induction h with
  | refl => exact le_refl _
  | step _ ih => exact le_trans ih (freeBound_le_succ _ _ _)

/-- What is left of a wait whose deadline is `d`: the queued samples, and the free ones up to the deadline. -/
def waitLeft (d : Clock) (e : Env) : Nat :=
  freeBound (d.toNat - e.lastClk.toNat) (e.clkCount + e.clk.length) e.hold + e.clk.length

/-- A sample before the deadline brings it nearer. -/
theorem waitLeft_sample {s : State} {d : Clock} (h : s.nextSample.toNat < d.toNat) :
    waitLeft d s.afterSample.env < waitLeft d s.env := by
  have hge := nextSample_ge s
  show freeBound (d.toNat - s.nextSample.toNat) (s.env.clkCount + 1 + s.env.clk.tail.length) s.env.nextHold +
      s.env.clk.tail.length < waitLeft d s.env
  rw [waitLeft]
  have hmono := freeBound_mono (show d.toNat - s.nextSample.toNat ≤ d.toNat - s.env.lastClk.toNat by omega)
  cases hq : s.env.clk with
  | cons x xs =>
    have hn : s.env.nextHold = s.env.hold := by rw [Env.nextHold, hq]
    rw [hn, List.tail_cons, List.length_cons, show s.env.clkCount + 1 + xs.length = s.env.clkCount + (xs.length + 1) by omega]
    have := hmono (s.env.clkCount + (xs.length + 1)) s.env.hold
    omega
  | nil =>
    obtain ⟨k, hk, hpos⟩ := freeSample_toNat s.env.lastClk s.env.clkCount s.env.hold
    have hs : s.nextSample = freeSample s.env.lastClk s.env.clkCount s.env.hold := by
      rw [State.nextSample, Env.nextSample, hq]
    have hd := d.isLt
    obtain ⟨t, ht⟩ : ∃ t, d.toNat - s.env.lastClk.toNat = t + 1 := ⟨d.toNat - s.env.lastClk.toNat - 1, by omega⟩
    simp only [List.tail_nil, List.length_nil, Nat.add_zero]
    cases hh : s.env.hold with
    | zero =>
      have hn : s.env.nextHold = Config.freeHold s.env.clkCount := by rw [Env.nextHold, hq, hh]
      have hstep := hpos hh (by omega)
      have := freeBound_mono (show d.toNat - s.nextSample.toNat ≤ t by rw [hs, hk]; omega) (s.env.clkCount + 1)
        (Config.freeHold s.env.clkCount)
      rw [hn, ht, freeBound_succ]
      simp only [Nat.add_zero]
      omega
    | succ j =>
      have hn : s.env.nextHold = j := by rw [Env.nextHold, hq, hh]
      have := hmono (s.env.clkCount + 1) j
      rw [ht, freeBound_succ, show s.env.clkCount + 1 + j = s.env.clkCount + (j + 1) by omega] at this
      rw [hn, ht, freeBound_succ]
      omega

/-- No sample lengthens what is left of a wait. -/
theorem waitLeft_le (s : State) (d : Clock) : waitLeft d s.afterSample.env ≤ waitLeft d s.env := by
  by_cases h : s.nextSample.toNat < d.toNat
  · exact (waitLeft_sample h).le
  · show freeBound (d.toNat - s.nextSample.toNat) (s.env.clkCount + 1 + s.env.clk.tail.length) s.env.nextHold +
      s.env.clk.tail.length ≤ waitLeft d s.env
    rw [show d.toNat - s.nextSample.toNat = 0 by omega, waitLeft, freeBound, List.length_tail]
    omega

/-- Just after a deadline `T` ms away is set, less than the wait's bound is left. -/
theorem waitLeft_loaded {e : Env} {T : Nat} {d : Clock} (h : d.toNat = e.lastClk.toNat + T) :
    waitLeft d e < e.waitBound T := by
  rw [waitLeft, h, Nat.add_sub_cancel_left, Env.waitBound]
  exact Nat.lt_succ_self _

end Sys2Proof.Machine
end

