-- ==== Sys2Proof/Laws/Script.lean ====
section
/-! SUPPORT. How the procedures run against a given conversation and given clock samples: one
lemma per shared operation, giving its value and its whole last state. -/

namespace Sys2Proof.Machine

/-! ### The observed history -/

theorem bus_xchg (b : Byte) (a : Answer) (tr : List Event) : bus (.xchg b a :: tr) = bus tr ++ [.xchg b a] := by
  simp [bus, List.filter_append, Event.onBus]

theorem bus_cs (a : Bool) (tr : List Event) : bus (.cs a :: tr) = bus tr ++ [.cs a] := by
  simp [bus, List.filter_append, Event.onBus]

theorem bus_sample (t : Clock) (tr : List Event) : bus (.sample t :: tr) = bus tr := by
  simp [bus, List.filter_append, Event.onBus]

theorem Talk.events_append (k l : Talk) : Talk.events (k ++ l) = k.events ++ l.events := List.map_append ..

theorem Talk.answers_append (k l : Talk) : Talk.answers (k ++ l) = k.answers ++ l.answers := List.map_append ..

theorem polls_append (a b : List Byte) : polls (a ++ b) = polls a ++ polls b := List.map_append ..

/-! ### Moves and levels -/

/-- The level after moves. -/
def levelAfter : Bool → List Event → Bool
  | l, [] => l
  | _, .cs a :: es => levelAfter a es
  | l, .xchg _ _ :: es => levelAfter l es
  | l, .sample _ :: es => levelAfter l es

theorem levels_append (a b : List Event) : ∀ l, levels l (a ++ b) = levels l a ++ levels (levelAfter l a) b := by
  induction a with
  | nil => exact fun l => rfl
  | cons ev a ih =>
    intro l
    cases ev with
    | cs x =>
      simp only [List.cons_append, levels, levelAfter]
      split
      · rename_i h
        subst h
        exact ih l
      · rw [ih x, List.cons_append]
    | xchg x y => simp only [List.cons_append, levels, levelAfter, ih]
    | sample x => simp only [List.cons_append, levels, levelAfter, ih]

theorem levelAfter_append (a b : List Event) : ∀ l, levelAfter l (a ++ b) = levelAfter (levelAfter l a) b := by
  induction a with
  | nil => exact fun l => rfl
  | cons ev a ih => cases ev <;> exact fun l => ih _

/-- Exchanges do not move the level. -/
theorem levels_talk (k : Talk) (l : Bool) : levels l k.events = k.events := by
  induction k with
  | nil => rfl
  | cons p k ih => exact congrArg (_ :: ·) ih

theorem levelAfter_talk (k : Talk) (l : Bool) : levelAfter l k.events = l := by
  induction k with
  | nil => rfl
  | cons p k ih => exact ih

/-- Driving the latch before further moves. -/
theorem levels_cs (s : State) (a : Bool) (es : List Event) :
    levels s.wrk.csActive (.cs a :: es) = s.csEvents a ++ levels a es := by
  unfold State.csEvents
  rw [levels]
  split
  · rename_i h
    rw [h, List.nil_append]
  · rfl

theorem levels_cs_same (a : Bool) (es : List Event) : levels a (.cs a :: es) = levels a es := if_pos rfl

/-- Moves that end with exchanges at a level leave it. -/
theorem levelAfter_last (l b : Bool) (a : List Event) (k : Talk) : levelAfter l (a ++ .cs b :: k.events) = b := by
  rw [levelAfter_append]
  exact levelAfter_talk _ _

/-- Driving the latch to the level it was left at. -/
theorem levels_next {l b : Bool} {a : List Event} (es : List Event) (h : levelAfter l a = b) :
    levels l (a ++ .cs b :: es) = levels l a ++ levels b es := by
  rw [levels_append, h, levels_cs_same]

theorem answersOf_append (a b : List Event) : answersOf (a ++ b) = answersOf a ++ answersOf b :=
  List.filterMap_append ..

theorem answersOf_talk (k : Talk) : answersOf k.events = k.answers := by
  induction k with
  | nil => rfl
  | cons p k ih => exact congrArg (_ :: ·) ih

theorem answersOf_cs (a : Bool) (es : List Event) : answersOf (.cs a :: es) = answersOf es := rfl

/-! ### The coming clock samples -/

theorem after_add (m : Nat) : ∀ (n : Nat) (e : Env), e.after (n + m) = (e.after n).after m
  | 0, e => by rw [Nat.zero_add]; rfl
  | n + 1, e => by rw [Nat.add_right_comm]; exact after_add m n e.afterSample

/-- The clock's side of two inputs is the same. -/
structure SameClock (e e' : Env) : Prop where
  clk : e'.clk = e.clk
  clkCount : e'.clkCount = e.clkCount
  lastClk : e'.lastClk = e.lastClk
  hold : e'.hold = e.hold

theorem SameClock.nextSample {e e' : Env} (h : SameClock e e') : e'.nextSample = e.nextSample := by
  rw [Env.nextSample, h.clk, h.clkCount, h.lastClk, h.hold]
  rfl

theorem SameClock.nextHold {e e' : Env} (h : SameClock e e') : e'.nextHold = e.nextHold := by
  rw [Env.nextHold, h.clk, h.clkCount, h.hold]
  rfl

theorem SameClock.waitBound {e e' : Env} (h : SameClock e e') (T : Nat) : e'.waitBound T = e.waitBound T := by
  rw [Env.waitBound, h.clk, h.clkCount, h.hold]
  rfl

theorem SameClock.after {e e' : Env} (h : SameClock e e') : ∀ n, SameClock (e.after n) (e'.after n) := by
  intro n
  induction n generalizing e e' with
  | zero => exact h
  | succ n ih =>
    exact ih ⟨by rw [env_afterSample_clk, env_afterSample_clk, h.clk], congrArg (· + 1) h.clkCount, h.nextSample,
      h.nextHold⟩

theorem SameClock.trans {e e' e'' : Env} (h : SameClock e e') (h' : SameClock e' e'') : SameClock e e'' :=
  ⟨h'.clk.trans h.clk, h'.clkCount.trans h.clkCount, h'.lastClk.trans h.lastClk,
    h'.hold.trans h.hold⟩

/-- The inputs after a sample more. -/
theorem after_succ (n : Nat) (e : Env) : e.after (n + 1) = (e.after n).afterSample := after_add 1 n e

/-- Samples never run backwards (R160). -/
theorem sampleAt_mono (e : Env) (i : Nat) : ∀ n : Nat, (e.sampleAt i).toNat ≤ (e.sampleAt (i + n)).toNat
  | 0 => le_refl _
  | n + 1 => by
    refine le_trans (sampleAt_mono e i n) ?_
    rw [← Nat.add_assoc, Env.sampleAt, Env.sampleAt, after_succ]
    exact nextSample_ge { State.reset with env := (e.after (i + n)).afterSample }

/-- No more samples lie before a deadline than a wait for it can take. -/
theorem samples_before {d : Clock} : ∀ (n : Nat) (e : Env), (∀ k, k < n → (e.sampleAt k).toNat < d.toNat) →
    n ≤ waitLeft d e
  | 0, _, _ => Nat.zero_le _
  | n + 1, e, h => by
    have h1 : waitLeft d e.afterSample < waitLeft d e :=
      waitLeft_sample (s := { State.reset with env := e }) (h 0 (Nat.succ_pos n))
    have h2 := samples_before n e.afterSample fun k hk => h (k + 1) (Nat.succ_lt_succ hk)
    omega

/-- The samples up to one before a deadline are before it. -/
theorem Env.Before.sample {e : Env} {i n T k : Nat} (h : e.Before i n T) (hk : k ≤ n) :
    (e.sampleAt (i + k)).toNat < (e.sampleAt i).toNat + T := by
  obtain ⟨j, rfl⟩ := Nat.exists_eq_add_of_le hk
  have := sampleAt_mono e (i + k) j
  have := h.early
  rw [← Nat.add_assoc] at this
  omega

theorem Env.Before.mono {e : Env} {i n T k : Nat} (h : e.Before i n T) (hk : k ≤ n) : e.Before i k T :=
  ⟨h.noWrap, h.sample hk⟩

/-- The deadline that is loaded. -/
theorem Env.Before.deadline {e : Env} {i n T : Nat} (h : e.Before i n T) :
    (e.deadlineAt i T).toNat = (e.sampleAt i).toNat + T := by
  rw [Env.deadlineAt, BitVec.toNat_ofNat, Nat.mod_eq_of_lt h.noWrap]

/-- The tests that a wait makes before its deadline are before the deadline it loaded. -/
theorem Env.Before.test {e : Env} {n T k : Nat} (h : e.Before 0 n T) (hk : k < n) :
    (e.sampleAt (1 + k)).toNat < (e.deadlineAt 0 T).toNat := by
  rw [h.deadline]
  have := h.sample (k := 1 + k) (by omega)
  rwa [Nat.zero_add] at this

/-- They are fewer than the wait's bound (R163). -/
theorem Env.Before.bound {e : Env} {n T : Nat} (h : e.Before 0 n T) : n < (e.after 1).waitBound T := by
  refine Nat.lt_of_le_of_lt (samples_before (d := e.deadlineAt 0 T) n (e.after 1) fun k hk => ?_)
    (waitLeft_loaded h.deadline)
  have := h.test hk
  rwa [Env.sampleAt, after_add] at this

/-- What a run from inputs `e₀` and history `tr₀` leaves: the unused answers `rest`, the bus events `evs`, and
the clock after `n` samples. -/
structure Talked (e₀ : Env) (tr₀ : List Event) (n : Nat) (e : Env) (tr : List Event) (rest : List Answer)
    (evs : List Event) : Prop where
  rx : e.rx = rest
  bus : bus tr = bus tr₀ ++ evs
  clock : SameClock (e₀.after n) e

/-- A run after a run. -/
theorem Talked.trans {e₀ : Env} {tr₀ : List Event} {n n' : Nat} {e e' : Env} {tr tr' : List Event}
    {rest rest' : List Answer} {evs evs' : List Event} (h : Talked e₀ tr₀ n e tr rest evs)
    (h' : Talked e tr n' e' tr' rest' evs') : Talked e₀ tr₀ (n + n') e' tr' rest' (evs ++ evs') where
  rx := h'.rx
  bus := by rw [h'.bus, h.bus, List.append_assoc]
  clock := by rw [after_add]; exact (h.clock.after n').trans h'.clock

theorem Talked.cast {e₀ : Env} {tr₀ : List Event} {n n' : Nat} {e : Env} {tr : List Event} {rest : List Answer}
    {evs evs' : List Event} (h : Talked e₀ tr₀ n e tr rest evs) (hn : n = n') (he : evs = evs') :
    Talked e₀ tr₀ n' e tr rest evs' := he ▸ hn ▸ h

theorem Talked.nil (e : Env) (tr : List Event) {rest : List Answer} (h : e.rx = rest) : Talked e tr 0 e tr rest [] :=
  ⟨h, by simp, rfl, rfl, rfl, rfl⟩

/-- The samples left by a run are the later ones of its start. -/
theorem Talked.sampleAt {e₀ : Env} {tr₀ : List Event} {n : Nat} {e : Env} {tr : List Event} {rest : List Answer}
    {evs : List Event} (h : Talked e₀ tr₀ n e tr rest evs) (k : Nat) : e.sampleAt k = e₀.sampleAt (n + k) := by
  rw [Env.sampleAt, (h.clock.after k).nextSample, ← after_add]
  rfl

theorem Talked.deadlineAt {e₀ : Env} {tr₀ : List Event} {n : Nat} {e : Env} {tr : List Event} {rest : List Answer}
    {evs : List Event} (h : Talked e₀ tr₀ n e tr rest evs) (k T : Nat) :
    e.deadlineAt k T = e₀.deadlineAt (n + k) T := by
  rw [Env.deadlineAt, h.sampleAt, Env.deadlineAt]

theorem Talked.before {e₀ : Env} {tr₀ : List Event} {n i m T : Nat} {e : Env} {tr : List Event} {rest : List Answer}
    {evs : List Event} (h : Talked e₀ tr₀ n e tr rest evs) (hb : e₀.Before (n + i) m T) : e.Before i m T :=
  ⟨by rw [h.sampleAt]; exact hb.noWrap, by rw [h.sampleAt, h.sampleAt, ← Nat.add_assoc]; exact hb.early⟩

theorem Talked.reached {e₀ : Env} {tr₀ : List Event} {n i m T : Nat} {e : Env} {tr : List Event} {rest : List Answer}
    {evs : List Event} (h : Talked e₀ tr₀ n e tr rest evs) (hr : e₀.Reached (n + i) m T) : e.Reached i m T := by
  unfold Env.Reached
  rw [h.sampleAt, h.sampleAt, ← Nat.add_assoc]
  exact hr

/-- A busy-wait that is timed from the start of a run is timed from its end. -/
theorem Talked.busyWait {e₀ : Env} {tr₀ : List Event} {n i T : Nat} {e : Env} {tr : List Event} {rest : List Answer}
    {evs : List Event} {busy : List Byte} {last : Byte} (h : Talked e₀ tr₀ n e tr rest evs)
    (hw : e₀.BusyWait (n + i) T busy last) : e.BusyWait i T busy last :=
  ⟨h.before hw.before, fun hl => h.reached (hw.reached hl)⟩

theorem Talked.attempt {e₀ : Env} {tr₀ : List Event} {n i : Nat} {e : Env} {tr : List Event} {rest : List Answer}
    {evs : List Event} {a : Attempt} (h : Talked e₀ tr₀ n e tr rest evs) (ha : a.InTime e₀ (n + i)) : a.InTime e i := by
  cases a with
  | answered r => exact h.busyWait ha
  | silent q => exact h.busyWait ha

theorem Talked.noToken {e₀ : Env} {tr₀ : List Event} {n i : Nat} {e : Env} {tr : List Event} {rest : List Answer}
    {evs : List Event} {q : NoToken} (h : Talked e₀ tr₀ n e tr rest evs) (hq : q.InTime e₀ (n + i)) : q.InTime e i :=
  ⟨h.before hq.before, fun hl => h.reached (hq.reached hl)⟩

/-- The state after a sample has the same registers. -/
theorem afterSample_io (s : State) : s.afterSample = s.io s.afterSample.env s.afterSample.trace := rfl

/-- The state after an exchange has the same registers. -/
theorem afterXchg_io (s : State) (b : Byte) :
    s.afterXchg b = s.io (s.afterXchg b).env (s.afterXchg b).trace := rfl

/-- What one sample does to the inputs and the history. -/
theorem sample_talked {s : State} {rest : List Answer} (hrx : s.env.rx = rest) :
    Talked s.env s.trace 1 s.afterSample.env s.afterSample.trace rest [] :=
  ⟨hrx, by rw [afterSample_trace, bus_sample, List.append_nil], rfl, rfl, rfl, rfl⟩

/-- The load of a deadline. -/
theorem deadline_run {s : State} {T : Nat} (h : (s.env.sampleAt 0).toNat + T < 2 ^ 64) :
    deadline T s = .ok (s.env.deadlineAt 0 T) s.afterSample := by
  unfold deadline
  rw [run_bind_ok (run_now s), if_pos (by exact h), run_pure, Env.deadlineAt]
  rfl

/-- The state with a new inner deadline. -/
def State.withDl1 (s : State) (d : Clock) : State := { s with wrk.dl1 := d }

theorem withDl1_csActive (s : State) (d : Clock) (e : Env) (tr : List Event) :
    ((s.withDl1 d).io e tr).wrk.csActive = s.wrk.csActive := rfl

/-- The state with a new outer deadline. -/
def State.withDl0 (s : State) (d : Clock) : State := { s with wrk.dl0 := d }

theorem loadDl1_run {s : State} {T : Nat} {rest : List Answer} (h : (s.env.sampleAt 0).toNat + T < 2 ^ 64)
    (hrx : s.env.rx = rest) :
    ∃ (e : Env) (tr : List Event), loadDl1 T s = .ok () ((s.withDl1 (s.env.deadlineAt 0 T)).io e tr) ∧
      Talked s.env s.trace 1 e tr rest [] := by
  refine ⟨_, _, ?_, sample_talked hrx⟩
  unfold loadDl1
  rw [run_bind_ok (deadline_run h), run_upd]
  rfl

theorem loadDl0_run {s : State} {T : Nat} {rest : List Answer} (h : (s.env.sampleAt 0).toNat + T < 2 ^ 64)
    (hrx : s.env.rx = rest) :
    ∃ (e : Env) (tr : List Event), loadDl0 T s = .ok () ((s.withDl0 (s.env.deadlineAt 0 T)).io e tr) ∧
      Talked s.env s.trace 1 e tr rest [] := by
  refine ⟨_, _, ?_, sample_talked hrx⟩
  unfold loadDl0
  rw [run_bind_ok (deadline_run h), run_upd]
  rfl

/-- A test of a deadline takes one sample. -/
theorem expiredDl1_run {s : State} {rest : List Answer} (hrx : s.env.rx = rest) :
    ∃ (e : Env) (tr : List Event),
      expiredDl1 s = .ok (decide (s.wrk.dl1.toNat ≤ (s.env.sampleAt 0).toNat)) (s.io e tr) ∧
      Talked s.env s.trace 1 e tr rest [] :=
  ⟨_, _, rfl, sample_talked hrx⟩

theorem expiredDl0_run {s : State} {rest : List Answer} (hrx : s.env.rx = rest) :
    ∃ (e : Env) (tr : List Event),
      expiredDl0 s = .ok (decide (s.wrk.dl0.toNat ≤ (s.env.sampleAt 0).toNat)) (s.io e tr) ∧
      Talked s.env s.trace 1 e tr rest [] :=
  ⟨_, _, rfl, sample_talked hrx⟩

/-- A test of the inner deadline before it. -/
theorem expiredDl1_early {s : State} {rest : List Answer} (hrx : s.env.rx = rest)
    (hd : (s.env.sampleAt 0).toNat < s.wrk.dl1.toNat) :
    ∃ (e : Env) (tr : List Event), expiredDl1 s = .ok false (s.io e tr) ∧ Talked s.env s.trace 1 e tr rest [] :=
  decide_eq_false (Nat.not_le_of_lt hd) ▸ expiredDl1_run hrx

/-- A test of the outer deadline before it. -/
theorem expiredDl0_early {s : State} {rest : List Answer} (hrx : s.env.rx = rest)
    (hd : (s.env.sampleAt 0).toNat < s.wrk.dl0.toNat) :
    ∃ (e : Env) (tr : List Event), expiredDl0 s = .ok false (s.io e tr) ∧ Talked s.env s.trace 1 e tr rest [] :=
  decide_eq_false (Nat.not_le_of_lt hd) ▸ expiredDl0_run hrx

/-- A test of the inner deadline by a clock that has reached it. -/
theorem expiredDl1_late {s : State} {rest : List Answer} (hrx : s.env.rx = rest)
    (hd : s.wrk.dl1.toNat ≤ (s.env.sampleAt 0).toNat) :
    ∃ (e : Env) (tr : List Event), expiredDl1 s = .ok true (s.io e tr) ∧ Talked s.env s.trace 1 e tr rest [] :=
  decide_eq_true hd ▸ expiredDl1_run hrx

/-- A test of the outer deadline by a clock that has reached it. -/
theorem expiredDl0_late {s : State} {rest : List Answer} (hrx : s.env.rx = rest)
    (hd : s.wrk.dl0.toNat ≤ (s.env.sampleAt 0).toNat) :
    ∃ (e : Env) (tr : List Event), expiredDl0 s = .ok true (s.io e tr) ∧ Talked s.env s.trace 1 e tr rest [] :=
  decide_eq_true hd ▸ expiredDl0_run hrx

/-! ### Exchanges -/

/-- One exchange with a queued byte. -/
theorem xchg_run {s : State} {b r : Byte} {rest : List Answer} (hrx : s.env.rx = .byte r :: rest) :
    ∃ (e : Env) (tr : List Event), xchg b s = .ok r (s.io e tr) ∧
      Talked s.env s.trace 0 e tr rest [.xchg b (.byte r)] := by
  have hn := nextAnswer_queued hrx
  refine ⟨(s.afterXchg b).env, (s.afterXchg b).trace, run_xchg_byte hn, by simp [hrx], ?_, rfl, rfl, rfl, rfl⟩
  rw [afterXchg_trace, hn, bus_xchg]

/-- One exchange that the transport fails (R14, R60); the code has `TCODE_W` bits (log 18). -/
theorem xchg_fails {s : State} {b : Byte} {code : Nat} {rest : List Answer}
    (hrx : s.env.rx = .fail code :: rest) :
    ∃ (e : Env) (tr : List Event),
      xchg b s = .error (.raise (.transport (code % 2 ^ s.par.tcodeW))) (s.io e tr) ∧
      Talked s.env s.trace 0 e tr rest [.xchg b (.fail (code % 2 ^ s.par.tcodeW))] := by
  have hn : s.nextAnswer = .fail (code % 2 ^ s.par.tcodeW) := by simp only [State.nextAnswer, hrx, Answer.trim]
  refine ⟨(s.afterXchg b).env, (s.afterXchg b).trace, run_xchg_fail hn, by simp [hrx], ?_, rfl, rfl, rfl, rfl⟩
  rw [afterXchg_trace, hn, bus_xchg]

/-- A list of bytes sent, against as many queued bytes. -/
theorem sendAll_run {rest : List Answer} (k : Talk) :
    ∀ {s : State}, s.env.rx = k.answers ++ rest →
      ∃ (e : Env) (tr : List Event), sendAll (k.map Prod.fst) s = .ok () (s.io e tr) ∧
        Talked s.env s.trace 0 e tr rest k.events := by
  induction k with
  | nil => exact fun {s} hrx => ⟨s.env, s.trace, rfl, Talked.nil _ _ hrx⟩
  | cons p k ih =>
    intro s hrx
    obtain ⟨e, tr, hx, ht⟩ := xchg_run (b := p.1) (r := p.2) (rest := Talk.answers k ++ rest) hrx
    obtain ⟨e', tr', hx', ht'⟩ := ih (s := s.io e tr) ht.rx
    refine ⟨e', tr', ?_, ht.trans ht'⟩
    rw [List.map_cons, sendAll, run_bind_ok hx, hx', io_io]

theorem polls_fst (bs : List Byte) : (polls bs).map Prod.fst = List.replicate bs.length Config.fill := by
  induction bs with
  | nil => rfl
  | cons b bs _ => simp [polls, List.replicate_succ]

/-- Discarded bytes. -/
theorem discard_run {s : State} {bs : List Byte} {rest : List Answer} {n : Nat}
    (hn : bs.length = n) (hrx : s.env.rx = (polls bs).answers ++ rest) :
    ∃ (e : Env) (tr : List Event), discard n s = .ok () (s.io e tr) ∧
      Talked s.env s.trace 0 e tr rest (polls bs).events := by
  obtain ⟨e, tr, hx, ht⟩ := sendAll_run (polls bs) hrx
  refine ⟨e, tr, ?_, ht⟩
  rw [← hx, polls_fst, hn, discard]

/-! ### The waits -/

/-- What a busy-wait that this byte ends returns (R164). -/
def waitResult (last : Byte) : Wait := if last = Config.idleLine then .ready else .expired

/-- The busy-wait loop against busy bytes before the deadline and then the byte that ends it (R164). -/
theorem busyLoop_run {last : Byte} {rest : List Answer} (busy : List Byte) :
    ∀ (n : Nat) (s : State), (∀ b ∈ busy, b ≠ Config.idleLine) → busy.length < n →
      s.env.rx = (polls (busy ++ [last])).answers ++ rest →
      (∀ k, k < busy.length → (s.env.sampleAt k).toNat < s.wrk.dl1.toNat) →
      (last ≠ Config.idleLine → s.wrk.dl1.toNat ≤ (s.env.sampleAt busy.length).toNat) →
      ∃ (e : Env) (tr : List Event), busyLoop n s = .ok (waitResult last) (s.io e tr) ∧
        Talked s.env s.trace (busy.length + if last = Config.idleLine then 0 else 1) e tr rest
          (polls (busy ++ [last])).events := by
  induction busy with
  | nil =>
    intro n s _ hn hrx _ hl
    obtain ⟨n, rfl⟩ : ∃ k, n = k + 1 := ⟨n - 1, by simp at hn; omega⟩
    obtain ⟨e, tr, hx, ht⟩ := xchg_run (b := Config.fill) hrx
    by_cases h : last = Config.idleLine
    · refine ⟨e, tr, ?_, ht.cast (by rw [if_pos h]; rfl) rfl⟩
      rw [busyLoop, run_bind_ok hx, waitResult, if_pos h, h]
      rfl
    · obtain ⟨e1, tr1, hx1, ht1⟩ := expiredDl1_late (s := s.io e tr) ht.rx
        (by rw [io_env, ht.sampleAt]; exact hl h)
      refine ⟨e1, tr1, ?_, (ht.trans ht1).cast (by rw [if_neg h]; rfl) rfl⟩
      rw [busyLoop, run_bind_ok hx, show notBusy last = false by simpa [notBusy] using h]
      simp only [Bool.false_eq_true, if_false]
      rw [run_bind_ok hx1, waitResult, if_neg h]
      rfl
  | cons b bs ih =>
    intro n s hb hn hrx hd hl
    obtain ⟨n, rfl⟩ : ∃ k, n = k + 1 := ⟨n - 1, by simp at hn; omega⟩
    rw [List.length_cons] at hn
    obtain ⟨e, tr, hx, ht⟩ := xchg_run (b := Config.fill) (r := b)
      (rest := (polls (bs ++ [last])).answers ++ rest) hrx
    obtain ⟨e1, tr1, hx1, ht1⟩ := expiredDl1_early (s := s.io e tr) ht.rx
      (by rw [io_env, ht.sampleAt]; exact hd 0 (by simp))
    have ht' := ht.trans ht1
    obtain ⟨e2, tr2, hx2, ht2⟩ := ih n ((s.io e tr).io e1 tr1)
      (fun c hm => hb c (List.mem_cons_of_mem _ hm)) (by omega) ht1.rx
      (fun k hk => by
        rw [io_env, ht'.sampleAt, Nat.zero_add, Nat.add_comm]
        exact hd (k + 1) (by rw [List.length_cons]; omega))
      (fun h => by
        rw [io_env, ht'.sampleAt, Nat.zero_add, Nat.add_comm]
        exact hl h)
    have hnb : notBusy b = false := by simpa [notBusy] using hb b List.mem_cons_self
    refine ⟨e2, tr2, ?_, (ht'.trans ht2).cast (by rw [List.length_cons]; omega) rfl⟩
    rw [busyLoop, run_bind_ok hx, hnb]
    simp only [Bool.false_eq_true, if_false]
    rw [run_bind_ok hx1]
    simp only [Bool.false_eq_true, if_false]
    rw [hx2, io_io, io_io]

/-- The busy-wait, whichever way it ends (R164). -/
theorem waitNotBusy_run {s : State} {busy : List Byte} {last : Byte} {T : Nat} {rest : List Answer}
    (hb : ∀ b ∈ busy, b ≠ Config.idleLine) (hrx : s.env.rx = (polls (busy ++ [last])).answers ++ rest)
    (hc : s.env.BusyWait 0 T busy last) :
    ∃ (e : Env) (tr : List Event),
      waitNotBusy T s = .ok (waitResult last) ((s.withDl1 (s.env.deadlineAt 0 T)).io e tr) ∧
      Talked s.env s.trace (busyTicks busy last) e tr rest (polls (busy ++ [last])).events := by
  obtain ⟨e, tr, hx, ht⟩ := loadDl1_run hc.before.noWrap hrx
  obtain ⟨e1, tr1, hx1, ht1⟩ := busyLoop_run busy
    (((s.withDl1 (s.env.deadlineAt 0 T)).io e tr).env.waitBound T) ((s.withDl1 (s.env.deadlineAt 0 T)).io e tr) hb
    (by rw [io_env, ht.clock.waitBound]; exact hc.before.bound) ht.rx
    (fun k hk => by rw [io_env, ht.sampleAt]; exact hc.before.test hk)
    (fun h => by
      show (s.env.deadlineAt 0 T).toNat ≤ (e.sampleAt busy.length).toNat
      rw [ht.sampleAt, hc.before.deadline, Nat.add_comm 1]
      exact Nat.zero_add (busy.length + 1) ▸ hc.reached h)
  refine ⟨e1, tr1, ?_, (ht.trans ht1).cast (Nat.add_comm _ _) (List.nil_append _)⟩
  rw [waitNotBusy, run_bind_ok hx, run_bind_ok (run_rd _), hx1, io_io]

/-- The token wait loop while idle-line bytes come before the deadline (R305). -/
theorem tokenLoop_skip {rest : List Answer} (gap : Nat) :
    ∀ (n : Nat) (s : State),
      s.env.rx = (polls (List.replicate gap Config.idleLine)).answers ++ rest →
      (∀ k, k < gap → (s.env.sampleAt k).toNat < s.wrk.dl1.toNat) →
      ∃ (e : Env) (tr : List Event), tokenLoop (gap + n) s = tokenLoop n (s.io e tr) ∧
        Talked s.env s.trace gap e tr rest (polls (List.replicate gap Config.idleLine)).events := by
  induction gap with
  | zero => exact fun n s hrx _ => ⟨s.env, s.trace, by rw [Nat.zero_add]; rfl, Talked.nil _ _ hrx⟩
  | succ g ih =>
    intro n s hrx hd
    obtain ⟨e, tr, hx, ht⟩ := xchg_run (b := Config.fill) (r := Config.idleLine)
      (rest := (polls (List.replicate g Config.idleLine)).answers ++ rest) hrx
    obtain ⟨e1, tr1, hx1, ht1⟩ := expiredDl1_early (s := s.io e tr) ht.rx
      (by rw [io_env, ht.sampleAt]; exact hd 0 (Nat.succ_pos g))
    have ht' := ht.trans ht1
    obtain ⟨e2, tr2, hx2, ht2⟩ := ih n ((s.io e tr).io e1 tr1) ht1.rx fun k hk => by
      rw [io_env, ht'.sampleAt, Nat.zero_add, Nat.add_comm]
      exact hd (k + 1) (Nat.succ_lt_succ hk)
    refine ⟨e2, tr2, ?_, (ht'.trans ht2).cast (by omega) rfl⟩
    rw [show g + 1 + n = g + n + 1 by omega, tokenLoop, run_bind_ok hx,
      show tokenClass Config.idleLine = .idleLine by decide]
    simp only
    rw [run_bind_ok hx1]
    simp only [Bool.false_eq_true, if_false]
    rw [hx2, io_io, io_io]

/-- The start of the token wait and its idle-line bytes (R305). -/
theorem waitStartToken_skip {s : State} {gap : Nat} {rest : List Answer}
    (hrx : s.env.rx = (polls (List.replicate gap Config.idleLine)).answers ++ rest) (hc : s.env.Before 0 gap 300) :
    ∃ (n : Nat) (e : Env) (tr : List Event),
      waitStartToken s = tokenLoop (n + 1) ((s.withDl1 (s.env.deadlineAt 0 300)).io e tr) ∧
      Talked s.env s.trace (gap + 1) e tr rest (polls (List.replicate gap Config.idleLine)).events := by
  obtain ⟨e, tr, hx, ht⟩ := loadDl1_run hc.noWrap hrx
  have hfuel : gap < ((s.withDl1 (s.env.deadlineAt 0 300)).io e tr).env.waitBound Config.tToken := by
    rw [io_env, ht.clock.waitBound]
    exact hc.bound
  obtain ⟨k, hk⟩ := Nat.exists_eq_add_of_lt hfuel
  rw [Nat.add_assoc] at hk
  obtain ⟨e1, tr1, hx1, ht1⟩ := tokenLoop_skip gap (k + 1) ((s.withDl1 (s.env.deadlineAt 0 300)).io e tr) ht.rx
    fun k hk => by rw [io_env, ht.sampleAt]; exact hc.test hk
  refine ⟨k, e1, tr1, ?_, (ht.trans ht1).cast (Nat.add_comm _ _) (List.nil_append _)⟩
  rw [waitStartToken, run_bind_ok (show loadDl1 Config.tToken s = _ from hx), run_bind_ok (run_rd _), hk, hx1, io_io]

/-- The token wait against a card that sends the token in time (R305). -/
theorem waitStartToken_run {s : State} {gap : Nat} {rest : List Answer}
    (hrx : s.env.rx = (polls (List.replicate gap Config.idleLine ++ [Config.startToken])).answers ++ rest)
    (hc : s.env.Before 0 gap 300) :
    ∃ (e : Env) (tr : List Event),
      waitStartToken s = .ok () ((s.withDl1 (s.env.deadlineAt 0 300)).io e tr) ∧
      Talked s.env s.trace (gap + 1) e tr rest
        (polls (List.replicate gap Config.idleLine ++ [Config.startToken])).events := by
  rw [polls_append, Talk.answers_append, List.append_assoc] at hrx
  obtain ⟨n, e, tr, hx, ht⟩ := waitStartToken_skip hrx hc
  obtain ⟨e1, tr1, hx1, ht1⟩ := xchg_run
    (s := (s.withDl1 (s.env.deadlineAt 0 300)).io e tr) (b := Config.fill) ht.rx
  refine ⟨e1, tr1, ?_, (ht.trans ht1).cast rfl (by rw [polls_append, Talk.events_append]; rfl)⟩
  rw [hx, tokenLoop, run_bind_ok hx1]
  rfl

/-! ### Commands -/

/-- The response poll against pending bytes and then a response (R186 step 5, R189). -/
theorem pollResponse_run {rest : List Answer} {resp : Byte} (hr : pending resp = false) (pend : List Byte) :
    ∀ (n : Nat) (s : State), (∀ b ∈ pend, pending b = true) → pend.length < n →
      s.env.rx = (polls (pend ++ [resp])).answers ++ rest →
      ∃ (e : Env) (tr : List Event), pollResponse n s = .ok (some resp) (s.io e tr) ∧
        Talked s.env s.trace 0 e tr rest (polls (pend ++ [resp])).events := by
  induction pend with
  | nil =>
    intro n s _ hn hrx
    obtain ⟨n, rfl⟩ : ∃ k, n = k + 1 := ⟨n - 1, by simp at hn; omega⟩
    obtain ⟨e, tr, hx, ht⟩ := xchg_run (b := Config.fill) hrx
    refine ⟨e, tr, ?_, ht⟩
    rw [pollResponse, run_bind_ok hx, hr]
    rfl
  | cons b bs ih =>
    intro n s hb hn hrx
    obtain ⟨n, rfl⟩ : ∃ k, n = k + 1 := ⟨n - 1, by simp at hn; omega⟩
    rw [List.length_cons] at hn
    obtain ⟨e, tr, hx, ht⟩ := xchg_run (b := Config.fill) (r := b)
      (rest := (polls (bs ++ [resp])).answers ++ rest) hrx
    obtain ⟨e1, tr1, hx1, ht1⟩ := ih n (s.io e tr) (fun c hm => hb c (List.mem_cons_of_mem _ hm)) (by omega) ht.rx
    refine ⟨e1, tr1, ?_, ht.trans ht1⟩
    rw [pollResponse, run_bind_ok hx, hb b List.mem_cons_self]
    simp only [if_true]
    rw [hx1, io_io]

/-- The response poll against pending bytes only. -/
theorem pollResponse_none {rest : List Answer} (pend : List Byte) :
    ∀ s : State, (∀ b ∈ pend, pending b = true) → s.env.rx = (polls pend).answers ++ rest →
      ∃ (e : Env) (tr : List Event), pollResponse pend.length s = .ok none (s.io e tr) ∧
        Talked s.env s.trace 0 e tr rest (polls pend).events := by
  induction pend with
  | nil => exact fun s _ hrx => ⟨s.env, s.trace, rfl, Talked.nil _ _ hrx⟩
  | cons b bs ih =>
    intro s hb hrx
    obtain ⟨e, tr, hx, ht⟩ := xchg_run (b := Config.fill) (r := b) (rest := (polls bs).answers ++ rest) hrx
    obtain ⟨e1, tr1, hx1, ht1⟩ := ih (s.io e tr) (fun c hm => hb c (List.mem_cons_of_mem _ hm)) ht.rx
    refine ⟨e1, tr1, ?_, ht.trans ht1⟩
    rw [List.length_cons, pollResponse, run_bind_ok hx, hb b List.mem_cons_self]
    simp only [if_true]
    rw [hx1, io_io]

theorem frameTalk_fst (index : BitVec 6) (arg : BitVec 32) (during : Vector Byte 6) :
    (frameTalk index arg during).map Prod.fst = (frameOf index arg).toList := by
  rw [frameTalk, List.map_fst_zip]
  simp

theorem bus_withCs (s : State) (a : Bool) : bus (s.withCs a).trace = bus s.trace ++ s.csEvents a := by
  rw [withCs_trace]
  unfold State.csEvents
  split
  · simp
  · rw [bus_cs]

/-- Driving the latch, as a run. -/
theorem cs_talked (s : State) (a : Bool) :
    Talked s.env s.trace 0 s.env (s.withCs a).trace s.env.rx (s.csEvents a) :=
  ⟨rfl, bus_withCs s a, rfl, rfl, rfl, rfl⟩

/-- A deselect of the selected card, as a run. -/
theorem deselect_talked (e : Env) (tr : List Event) {rest : List Answer} (h : e.rx = rest) :
    Talked e tr 0 e (.cs false :: tr) rest [.cs false] :=
  ⟨h, bus_cs false tr, rfl, rfl, rfl, rfl⟩

/-- The state inside a command (R186), the card selected. -/
def State.engaged (s : State) (x : Cfsm) (index : BitVec 6) (arg : BitVec 32) (dl1 : Clock) (e : Env)
    (tr : List Event) : State :=
  { s with
    seq.cfsm := x
    wrk.csActive := true
    wrk.frame := frameOf index arg
    wrk.dl1 := dl1
    env := e
    trace := tr }

/-- The state before the frame of a command, the card selected. -/
def State.selected (s : State) (x : Cfsm) (dl1 : Clock) (e : Env) (tr : List Event) : State :=
  { s with seq.cfsm := x, wrk.csActive := true, wrk.dl1 := dl1, env := e, trace := tr }

theorem withCs_selected (s : State) (x : Cfsm) :
    ({ s with seq.cfsm := x } : State).withCs true = s.selected x s.wrk.dl1 s.env (s.withCs true).trace := by
  obtain ⟨ses, seq, ⟨st, rto, dr, d0, d1, act, fr, r7, oc, sc⟩, req, res, par, env, tr, port⟩ := s
  cases act <;> rfl

/-- Step 1 of a command. -/
theorem select_run {α : Type} (s : State) (f : Unit → Proc α) :
    (goCfsm .cSelect >>= fun _ => cs true >>= f) s =
      f () (s.selected .cSelect s.wrk.dl1 s.env (s.withCs true).trace) := by
  rw [run_bind_ok (show goCfsm .cSelect s = .ok () { s with seq.cfsm := .cSelect } from rfl),
    run_bind_ok (run_cs true _)]
  rw [withCs_selected]

/-- The stream-stop command against a card that answers (R186, R188): no clock sample. -/
theorem issueCommand_stop {s : State} {arg : BitVec 32} {during : Vector Byte 6} {stuff : Byte}
    {pend : List Byte} {resp : Byte} {rest : List Answer} (hp : ∀ b ∈ pend, pending b = true)
    (hb : pend.length ≤ s.par.pollExtra) (hr : pending resp = false)
    (hrx : s.env.rx = (frameTalk 12#6 arg during ++ polls [stuff] ++ polls (pend ++ [resp])).answers ++ rest) :
    ∃ (e : Env) (tr : List Event),
      issueCommand 12#6 arg s = .ok ⟨resp, false⟩ (s.answered 12#6 arg resp s.wrk.dl1 e tr) ∧
      Talked s.env s.trace 0 e tr rest
        (s.csEvents true ++ (frameTalk 12#6 arg during ++ polls [stuff] ++ polls (pend ++ [resp])).events) := by
  rw [Talk.answers_append, Talk.answers_append, List.append_assoc, List.append_assoc] at hrx
  obtain ⟨e, tr, hx, ht⟩ := sendAll_run (frameTalk 12#6 arg during)
    (s := s.engaged .cFrame 12#6 arg s.wrk.dl1 s.env (s.withCs true).trace) hrx
  rw [frameTalk_fst] at hx
  obtain ⟨e1, tr1, hx1, ht1⟩ := discard_run (n := 1) (bs := [stuff]) rfl
    (s := s.engaged .cStuff 12#6 arg s.wrk.dl1 e tr) ht.rx
  obtain ⟨e2, tr2, hx2, ht2⟩ := pollResponse_run hr pend (s.par.pollExtra + 1)
    (s.engaged .cPoll 12#6 arg s.wrk.dl1 e1 tr1) hp (Nat.lt_succ_of_le hb) ht1.rx
  have hframe : framePhase 12#6 arg (s.selected .cSelect s.wrk.dl1 s.env (s.withCs true).trace) =
      .ok () (s.engaged .cFrame 12#6 arg s.wrk.dl1 e tr) := by
    rw [framePhase, run_bind_ok (show goCfsm .cFrame _ =
        .ok () (s.selected .cFrame s.wrk.dl1 s.env (s.withCs true).trace) from rfl),
      run_bind_ok (show setFrame (frameOf 12#6 arg) _ =
        .ok () (s.engaged .cFrame 12#6 arg s.wrk.dl1 s.env (s.withCs true).trace) from rfl), hx]
    rfl
  have hstuff : stuffPhase 12#6 (s.engaged .cFrame 12#6 arg s.wrk.dl1 e tr) =
      .ok () (s.engaged .cStuff 12#6 arg s.wrk.dl1 e1 tr1) := by
    rw [stuffPhase, if_pos rfl,
      run_bind_ok (show goCfsm .cStuff _ = .ok () (s.engaged .cStuff 12#6 arg s.wrk.dl1 e tr) from rfl), hx1]
    rfl
  have hsend : sendCommand 12#6 arg s = .ok () (s.engaged .cStuff 12#6 arg s.wrk.dl1 e1 tr1) := by
    rw [sendCommand, select_run, run_bind_ok (show busyPhase 12#6 _ = .ok () _ from rfl), run_bind_ok hframe, hstuff]
  refine ⟨e2, tr2, ?_, ?_⟩
  · rw [issueCommand, run_bind_ok hsend,
      run_bind_ok (show goCfsm .cPoll _ = .ok () (s.engaged .cPoll 12#6 arg s.wrk.dl1 e1 tr1) from rfl),
      run_bind_ok (run_rd _)]
    rw [show (s.engaged .cPoll 12#6 arg s.wrk.dl1 e1 tr1).par = s.par from rfl, run_bind_ok hx2]
    rfl
  · rw [Talk.events_append, Talk.events_append, List.append_assoc]
    exact (cs_talked s true).trans (ht.trans (ht1.trans ht2))

/-- The busy-wait before a frame, whichever way it ends, and the frame (R186 steps 1 to 4, R187). -/
theorem sendCommand_run {s : State} {index : BitVec 6} {arg : BitVec 32} {busy : List Byte} {last : Byte}
    {during : Vector Byte 6} {rest : List Answer} (hi : index ≠ 12#6) (hb : ∀ b ∈ busy, b ≠ Config.idleLine)
    (hrx : s.env.rx = Talk.answers (polls (busy ++ [last]) ++ frameTalk index arg during) ++ rest)
    (hc : s.env.BusyWait 0 300 busy last) :
    ∃ (e : Env) (tr : List Event),
      sendCommand index arg s = .ok () (s.engaged .cFrame index arg (s.env.deadlineAt 0 300) e tr) ∧
      Talked s.env s.trace (busyTicks busy last) e tr rest
        (s.csEvents true ++ Talk.events (polls (busy ++ [last]) ++ frameTalk index arg during)) := by
  rw [Talk.answers_append, List.append_assoc] at hrx
  obtain ⟨e, tr, hw, ht⟩ := waitNotBusy_run
    (s := s.selected .cBusy s.wrk.dl1 s.env (s.withCs true).trace) hb hrx hc
  obtain ⟨e1, tr1, hx1, ht1⟩ := sendAll_run (frameTalk index arg during)
    (s := s.engaged .cFrame index arg (s.env.deadlineAt 0 300) e tr) ht.rx
  rw [frameTalk_fst] at hx1
  have hbusy : busyPhase index (s.selected .cSelect s.wrk.dl1 s.env (s.withCs true).trace) =
      .ok () (s.selected .cBusy (s.env.deadlineAt 0 300) e tr) := by
    rw [busyPhase, if_neg hi, run_bind_ok (show goCfsm .cBusy _ = .ok () (s.selected .cBusy s.wrk.dl1 s.env
      (s.withCs true).trace) from rfl), run_bind_ok (show waitNotBusy Config.tCmdBusy _ = _ from hw)]
    rfl
  have hframe : framePhase index arg (s.selected .cBusy (s.env.deadlineAt 0 300) e tr) =
      .ok () (s.engaged .cFrame index arg (s.env.deadlineAt 0 300) e1 tr1) := by
    rw [framePhase, run_bind_ok (show goCfsm .cFrame _ =
        .ok () (s.selected .cFrame (s.env.deadlineAt 0 300) e tr) from rfl),
      run_bind_ok (show setFrame (frameOf index arg) _ =
        .ok () (s.engaged .cFrame index arg (s.env.deadlineAt 0 300) e tr) from rfl), hx1]
    rfl
  refine ⟨e1, tr1, ?_, ?_⟩
  · rw [sendCommand, select_run, run_bind_ok hbusy, run_bind_ok hframe, stuffPhase, if_neg hi, run_pure]
  · rw [Talk.events_append]
    exact ((cs_talked s true).trans (ht.trans ht1)).cast (by omega) rfl

/-- Step 5 of a command and its end, when a response comes (R186). -/
theorem issueCommand_end {s : State} {index : BitVec 6} {arg : BitVec 32} {pend : List Byte} {resp : Byte}
    {d : Clock} {e : Env} {tr : List Event} {rest : List Answer} (hp : ∀ b ∈ pend, pending b = true)
    (hb : pend.length ≤ s.par.pollExtra) (hr : pending resp = false)
    (hx : sendCommand index arg s = .ok () (s.engaged .cFrame index arg d e tr))
    (hrx : e.rx = (polls (pend ++ [resp])).answers ++ rest) :
    ∃ (e' : Env) (tr' : List Event),
      issueCommand index arg s = .ok ⟨resp, false⟩ (s.answered index arg resp d e' tr') ∧
      Talked e tr 0 e' tr' rest (polls (pend ++ [resp])).events := by
  obtain ⟨e1, tr1, hx1, ht1⟩ := pollResponse_run hr pend (s.par.pollExtra + 1)
    (s.engaged .cPoll index arg d e tr) hp (Nat.lt_succ_of_le hb) hrx
  refine ⟨e1, tr1, ?_, ht1⟩
  rw [issueCommand, run_bind_ok hx,
    run_bind_ok (show goCfsm .cPoll _ = .ok () (s.engaged .cPoll index arg d e tr) from rfl),
    run_bind_ok (run_rd _)]
  rw [show (s.engaged .cPoll index arg d e tr).par = s.par from rfl, run_bind_ok hx1]
  rfl

/-- `issue_command` against a card that answers (R186). -/
theorem issueCommand_run {s : State} {index : BitVec 6} {arg : BitVec 32} {r : CardReply}
    {rest : List Answer} (hi : index ≠ 12#6) (hr : r.Ok s.par)
    (hrx : s.env.rx = (r.talk index arg).answers ++ rest) (hc : r.InTime s.env 0) :
    ∃ (e : Env) (tr : List Event),
      issueCommand index arg s =
        .ok ⟨r.resp, false⟩ (s.answered index arg r.resp (s.env.deadlineAt 0 300) e tr) ∧
      Talked s.env s.trace r.ticks e tr rest (s.csEvents true ++ (r.talk index arg).events) := by
  rw [CardReply.talk, Talk.answers_append, List.append_assoc] at hrx
  obtain ⟨e, tr, hx, ht⟩ := sendCommand_run hi hr.busy hrx hc
  obtain ⟨e1, tr1, hx1, ht1⟩ := issueCommand_end hr.pend hr.bound hr.resp hx ht.rx
  refine ⟨e1, tr1, hx1, ?_⟩
  rw [CardReply.talk, Talk.events_append, ← List.append_assoc]
  exact ht.trans ht1

/-- `issue_command` against a card that does not answer (R186, C_TIMEOUT). -/
theorem issueCommand_silent {s : State} {index : BitVec 6} {arg : BitVec 32} {q : Silence}
    {rest : List Answer} (hi : index ≠ 12#6) (hq : q.Ok s.par)
    (hrx : s.env.rx = (q.talk index arg ++ polls [q.last]).answers ++ rest)
    (hc : q.InTime s.env 0) :
    ∃ (e : Env) (tr : List Event),
      issueCommand index arg s = .ok ⟨0xFF#8, true⟩ (s.unanswered index arg (s.env.deadlineAt 0 300) e tr) ∧
      Talked s.env s.trace q.ticks e tr rest
        (s.csEvents true ++ (q.talk index arg).events ++ [.cs false] ++ (polls [q.last]).events) := by
  rw [Silence.talk, Talk.answers_append, Talk.answers_append, List.append_assoc, List.append_assoc] at hrx
  obtain ⟨e, tr, hx, ht⟩ := sendCommand_run hi hq.busy hrx hc
  obtain ⟨e1, tr1, hx1, ht1⟩ := pollResponse_none q.pend
    (s.engaged .cPoll index arg (s.env.deadlineAt 0 300) e tr) hq.pend ht.rx
  rw [hq.bound] at hx1
  obtain ⟨e2, tr2, hx2, ht2⟩ := discard_run (n := 1) (bs := [q.last]) rfl
    (s := { s.engaged .cTimeout index arg (s.env.deadlineAt 0 300) e1 (.cs false :: tr1) with
      wrk.csActive := false }) ht1.rx
  refine ⟨e2, tr2, ?_, ?_⟩
  · rw [issueCommand, run_bind_ok hx, run_bind_ok (show goCfsm .cPoll _ =
        .ok () (s.engaged .cPoll index arg (s.env.deadlineAt 0 300) e tr) from rfl), run_bind_ok (run_rd _)]
    rw [show (s.engaged .cPoll index arg (s.env.deadlineAt 0 300) e tr).par = s.par from rfl, run_bind_ok hx1]
    rw [finishCommand, timeOut,
      run_bind_ok (show goCfsm .cTimeout _ =
        .ok () (s.engaged .cTimeout index arg (s.env.deadlineAt 0 300) e1 tr1) from rfl),
      run_bind_ok (show cs false _ = .ok ()
        { s.engaged .cTimeout index arg (s.env.deadlineAt 0 300) e1 (.cs false :: tr1) with
          wrk.csActive := false } from rfl),
      run_bind_ok hx2]
    rfl
  · have := ht.trans (ht1.trans ((deselect_talked e1 tr1 rfl).trans ht2))
    rw [Silence.talk, Talk.events_append]
    refine this.cast rfl ?_
    simp only [List.append_assoc]

/-- `issue_command`, whatever the attempt (R186). -/
theorem issueCommand_attempt {s : State} {index : BitVec 6} {arg : BitVec 32} {a : Attempt}
    {rest : List Answer} (hi : index ≠ 12#6) (ha : a.Ok s.par)
    (hrx : s.env.rx = answersOf (a.moves index arg) ++ rest) (hc : a.InTime s.env 0) :
    ∃ (e : Env) (tr : List Event),
      issueCommand index arg s = .ok a.reply (s.attempted index arg a (s.env.deadlineAt 0 300) e tr) ∧
      Talked s.env s.trace a.ticks e tr rest (levels s.wrk.csActive (a.moves index arg)) := by
  cases a with
  | answered r =>
    rw [Attempt.moves, answersOf_cs, answersOf_talk] at hrx
    obtain ⟨e, tr, hx, ht⟩ := issueCommand_run hi ha hrx hc
    exact ⟨e, tr, hx, ht.cast rfl (by rw [Attempt.moves, levels_cs, levels_talk])⟩
  | silent q =>
    rw [Attempt.moves, List.cons_append, answersOf_cs, answersOf_append, answersOf_cs, answersOf_talk,
      answersOf_talk, ← Talk.answers_append] at hrx
    obtain ⟨e, tr, hx, ht⟩ := issueCommand_silent hi ha hrx hc
    refine ⟨e, tr, hx, ht.cast rfl ?_⟩
    rw [Attempt.moves, List.cons_append, levels_cs, levels_append, levels_talk, levelAfter_talk, levels]
    simp [levels_talk]

end Sys2Proof.Machine
end

