-- ==== Sys2Proof/Laws/Runs.lean ====
section
/-! SUPPORT. How the procedures built on the command engine run against a given conversation: the
pseudo-operations, the short replies, the data phases, the register read. -/

namespace Sys2Proof.Machine

/-! ### Written bytes -/

theorem Memory.write_wf : ∀ (bs : List Byte) (m : Memory) (a : Nat), a + bs.length ≤ Config.blockLen →
    m.wf = true → (m.write a bs).wf = true
  | [], _, _, _, hm => hm
  | b :: bs, m, a, ha, hm => by
    rw [List.length_cons] at ha
    exact Memory.write_wf bs (m.set a b) (a + 1) (by omega) (Memory.set_wf b (by omega) hm)

/-- Written bytes are read back, and every other offset reads as before. -/
theorem Memory.get_write : ∀ (bs : List Byte) (m : Memory) (a x : Nat), a + bs.length ≤ Config.blockLen →
    m.wf = true →
    (m.write a bs).get x = if a ≤ x ∧ x < a + bs.length then bs.getD (x - a) 0x00#8 else m.get x
  | [], m, a, x, _, _ => by
    rw [if_neg (by simp)]
    rfl
  | b :: bs, m, a, x, ha, hm => by
    rw [List.length_cons] at ha
    rw [Memory.write, Memory.get_write bs (m.set a b) (a + 1) x (by omega) (Memory.set_wf b (by omega) hm)]
    by_cases h1 : a + 1 ≤ x ∧ x < a + 1 + bs.length
    · rw [if_pos h1, if_pos (by rw [List.length_cons]; omega), show x - a = x - (a + 1) + 1 by omega,
        List.getD_cons_succ]
    · rw [if_neg h1]
      by_cases h2 : x = a
      · subst h2
        rw [if_pos (by rw [List.length_cons]; omega), Nat.sub_self, List.getD_cons_zero]
        exact Memory.get_set_same b m hm
      · rw [if_neg (by rw [List.length_cons]; omega)]
        exact Memory.get_set_other b h2 m hm

/-- The bytes read back where a list was written. -/
theorem Memory.bytes_write (bs : List Byte) (m : Memory) (a : Nat) (ha : a + bs.length ≤ Config.blockLen)
    (hm : m.wf = true) : (m.write a bs).bytes a bs.length = bs := by
  have key : ∀ (n k : Nat), k + n = bs.length → (m.write a bs).bytes (a + k) n = bs.drop k := by
    intro n
    induction n with
    | zero => intro k hk; rw [List.drop_of_length_le (by omega)]; rfl
    | succ n ih =>
      intro k hk
      rw [Memory.bytes, Memory.get_write bs m a (a + k) ha hm, if_pos (by omega),
        show a + k + 1 = a + (k + 1) by omega, ih (k + 1) (by omega), Nat.add_sub_cancel_left]
      rw [List.drop_eq_getElem_cons (show k < bs.length by omega), List.getD_eq_getElem _ _ (by omega)]
  simpa using key bs.length 0 (by omega)

/-! ### Pseudo-operations -/

theorem csEvents_answered (s : State) (n : BitVec 6) (arg : BitVec 32) (b : Byte) (d : Clock) (e : Env)
    (tr : List Event) : (s.answered n arg b d e tr).csEvents true = [] := rfl

/-- `issue_app_command`, whatever the attempt (R193, D11). -/
theorem issueAppCommand_attempt {s : State} {arg : BitVec 32} {c : AppAttempt} {rest : List Answer}
    (hc : c.Ok s.par) (hrx : s.env.rx = answersOf (c.moves arg) ++ rest) (hq : c.InTime s.env 0) :
    ∃ (e : Env) (tr : List Event),
      issueAppCommand 41#6 arg s = .ok c.reply (s.appAttempted arg c (s.env.deadlineAt c.loadAt 300) e tr) ∧
      Talked s.env s.trace c.ticks e tr rest (levels s.wrk.csActive (c.moves arg)) := by
  cases c with
  | sent p a =>
    rw [AppAttempt.moves, List.cons_append, answersOf_cs, answersOf_append, answersOf_talk, List.append_assoc] at hrx
    obtain ⟨e, tr, hx, ht⟩ := issueCommand_run (by decide) hc.1 hrx hq.1
    obtain ⟨e1, tr1, hx1, ht1⟩ := issueCommand_attempt
      (s := s.answered 55#6 0#32 p.resp (s.env.deadlineAt 0 300) e tr) (by decide) hc.2 ht.rx
      (ht.attempt (i := 0) (Nat.zero_add p.ticks ▸ hq.2))
    have hd : e.deadlineAt 0 300 = s.env.deadlineAt p.ticks 300 := ht.deadlineAt 0 300
    refine ⟨e1, tr1, ?_, (ht.trans ht1).cast rfl ?_⟩
    · rw [issueAppCommand, run_bind_ok hx]
      simp only [Bool.false_eq_true, if_false]
      rw [hx1]
      show EStateM.Result.ok _ (State.attempted _ 41#6 arg a (e.deadlineAt 0 300) e1 tr1) = _
      rw [hd]
      cases a <;> rfl
    · rw [AppAttempt.moves, List.cons_append, levels_cs, levels_append, levels_talk, levelAfter_talk, List.append_assoc]
      rfl
  | prefixSilent q =>
    obtain ⟨e, tr, hx, ht⟩ := issueCommand_attempt (a := .silent q) (by decide) hc hrx hq
    refine ⟨e, tr, ?_, ht⟩
    rw [issueAppCommand, run_bind_ok hx]
    rfl

theorem classify_clear : classify 0x00#8 false = .clear := rfl

/-- `ensure_zero_status` against a card that answers 0x00 (R194). -/
theorem ensureZeroStatus_run {s : State} {index : BitVec 6} {arg : BitVec 32} {r : CardReply}
    {rest : List Answer} (hi : index ≠ 12#6) (hr : r.Ok s.par) (h0 : r.resp = 0x00#8)
    (hrx : s.env.rx = (r.talk index arg).answers ++ rest) (hc : r.InTime s.env 0) :
    ∃ (e : Env) (tr : List Event),
      ensureZeroStatus index arg s = .ok () (s.answered index arg 0x00#8 (s.env.deadlineAt 0 300) e tr) ∧
      Talked s.env s.trace r.ticks e tr rest (s.csEvents true ++ (r.talk index arg).events) := by
  obtain ⟨e, tr, hx, ht⟩ := issueCommand_run hi hr hrx hc
  refine ⟨e, tr, ?_, ht⟩
  rw [h0] at hx
  rw [ensureZeroStatus, run_bind_ok hx]
  rfl

/-- `ensure_zero_status` against any other result raises E_PROTOCOL with the status, or E_RESP_TIMEOUT (R194). -/
theorem ensureZeroStatus_failed {s : State} {index : BitVec 6} {arg : BitVec 32} {a : Attempt} {rest : List Answer}
    (hi : index ≠ 12#6) (ha : a.Ok s.par) (hn : a.NotClear)
    (hrx : s.env.rx = answersOf (a.moves index arg) ++ rest) (hc : a.InTime s.env 0) :
    ∃ (e : Env) (tr : List Event),
      ensureZeroStatus index arg s =
        .error (.raise a.reply.error) (s.attempted index arg a (s.env.deadlineAt 0 300) e tr) ∧
      Talked s.env s.trace a.ticks e tr rest (levels s.wrk.csActive (a.moves index arg)) := by
  obtain ⟨e, tr, hx, ht⟩ := issueCommand_attempt hi ha hrx hc
  refine ⟨e, tr, ?_, ht⟩
  rw [ensureZeroStatus, run_bind_ok hx]
  cases a with
  | silent q => rfl
  | answered r =>
    have h0 : r.resp ≠ 0x00#8 := fun h => hn (by rw [Attempt.reply, h])
    by_cases h1 : r.resp = 0x01#8
    · simp [Attempt.reply, Reply.error, classify, h1]
    · simp [Attempt.reply, Reply.error, classify, h0, h1]

/-! ### Data phases -/

/-- The state with the host buffer `m`. -/
def State.withBuf (s : State) (m : Memory) : State := { s with req.buf := m }

/-- The state with the scratch buffer `m`. -/
def State.withScratch (s : State) (m : Memory) : State := { s with wrk.scratch := m }

/-- Received bytes go to the host buffer and through the CRC register (R307). -/
theorem receiveBlock_run {rest : List Answer} (data : List Byte) :
    ∀ (s : State) (i : Nat) (c : BitVec 16), i + data.length ≤ Config.blockLen →
      s.env.rx = (polls data).answers ++ rest →
      ∃ (e : Env) (tr : List Event), receiveBlock data.length i c s =
          .ok (data.foldl crc16Update c) ((s.withBuf (s.req.buf.write i data)).io e tr) ∧
        Talked s.env s.trace 0 e tr rest (polls data).events := by
  induction data with
  | nil => exact fun s i c _ hrx => ⟨s.env, s.trace, rfl, Talked.nil _ _ hrx⟩
  | cons b bs ih =>
    intro s i c hi hrx
    rw [List.length_cons] at hi
    obtain ⟨e, tr, hx, ht⟩ := xchg_run (b := Config.fill) (r := b) (rest := (polls bs).answers ++ rest) hrx
    have hw : bufWrite i b (s.io e tr) = .ok () ((s.io e tr).withBuf (s.req.buf.set i b)) := by
      rw [bufWrite, if_pos (by omega)]
      rfl
    obtain ⟨e1, tr1, hx1, ht1⟩ := ih ((s.io e tr).withBuf (s.req.buf.set i b)) (i + 1) (crc16Update c b)
      (by omega) ht.rx
    refine ⟨e1, tr1, ?_, ht.trans ht1⟩
    rw [List.length_cons, receiveBlock, run_bind_ok hx, run_bind_ok hw, hx1]
    rfl

/-- A failure after `data` has overwritten as many bytes of the host buffer (R307, R77). -/
theorem receiveBlock_fails {rest : List Answer} {code k : Nat} (data : List Byte) :
    ∀ (s : State) (i : Nat) (c : BitVec 16), i + data.length ≤ Config.blockLen →
      s.env.rx = (polls data).answers ++ .fail code :: rest →
      ∃ (e : Env) (tr : List Event), receiveBlock (data.length + (k + 1)) i c s =
          .error (.raise (.transport (code % 2 ^ s.par.tcodeW))) ((s.withBuf (s.req.buf.write i data)).io e tr) ∧
        Talked s.env s.trace 0 e tr rest
          ((polls data).events ++ [.xchg Config.fill (.fail (code % 2 ^ s.par.tcodeW))]) := by
  induction data with
  | nil =>
    intro s i c _ hrx
    obtain ⟨e, tr, hx, ht⟩ := xchg_fails (b := Config.fill) hrx
    refine ⟨e, tr, ?_, ht⟩
    rw [List.length_nil, Nat.zero_add, receiveBlock, run_bind_error hx]
    rfl
  | cons b bs ih =>
    intro s i c hi hrx
    rw [List.length_cons] at hi
    obtain ⟨e, tr, hx, ht⟩ := xchg_run (b := Config.fill) (r := b)
      (rest := (polls bs).answers ++ .fail code :: rest) hrx
    have hw : bufWrite i b (s.io e tr) = .ok () ((s.io e tr).withBuf (s.req.buf.set i b)) := by
      rw [bufWrite, if_pos (by omega)]
      rfl
    obtain ⟨e1, tr1, hx1, ht1⟩ := ih ((s.io e tr).withBuf (s.req.buf.set i b)) (i + 1) (crc16Update c b)
      (by omega) ht.rx
    refine ⟨e1, tr1, ?_, ht.trans ht1⟩
    rw [List.length_cons, Nat.add_right_comm, receiveBlock, run_bind_ok hx, run_bind_ok hw, hx1]
    rfl

/-- Received bytes go to the scratch buffer (R320). -/
theorem receiveScratch_run {rest : List Answer} (data : List Byte) :
    ∀ (s : State) (i : Nat), i + data.length ≤ Config.blockLen → s.env.rx = (polls data).answers ++ rest →
      ∃ (e : Env) (tr : List Event), receiveScratch data.length i s =
          .ok () ((s.withScratch (s.wrk.scratch.write i data)).io e tr) ∧
        Talked s.env s.trace 0 e tr rest (polls data).events := by
  induction data with
  | nil => exact fun s i _ hrx => ⟨s.env, s.trace, rfl, Talked.nil _ _ hrx⟩
  | cons b bs ih =>
    intro s i hi hrx
    rw [List.length_cons] at hi
    obtain ⟨e, tr, hx, ht⟩ := xchg_run (b := Config.fill) (r := b) (rest := (polls bs).answers ++ rest) hrx
    have hw : scratchWrite i b (s.io e tr) = .ok () ((s.io e tr).withScratch (s.wrk.scratch.set i b)) := by
      rw [scratchWrite, if_pos (by omega)]
      rfl
    obtain ⟨e1, tr1, hx1, ht1⟩ := ih ((s.io e tr).withScratch (s.wrk.scratch.set i b)) (i + 1) (by omega) ht.rx
    refine ⟨e1, tr1, ?_, ht.trans ht1⟩
    rw [List.length_cons, receiveScratch, run_bind_ok hx, run_bind_ok hw, hx1]
    rfl

/-- The bytes of the host buffer are sent in order (R315). -/
theorem sendBlock_run {rest : List Answer} (during : List Byte) :
    ∀ (s : State) (i : Nat), i + during.length ≤ Config.blockLen →
      s.env.rx = during.map Answer.byte ++ rest →
      ∃ (e : Env) (tr : List Event), sendBlock during.length i s = .ok () (s.io e tr) ∧
        Talked s.env s.trace 0 e tr rest (Talk.events ((s.req.buf.bytes i during.length).zip during)) := by
  induction during with
  | nil => exact fun s i _ hrx => ⟨s.env, s.trace, rfl, Talked.nil _ _ hrx⟩
  | cons r rs ih =>
    intro s i hi hrx
    rw [List.length_cons] at hi
    have hr : bufRead i s = .ok (s.req.buf.get i) s := by rw [bufRead, if_pos (by omega)]
    obtain ⟨e, tr, hx, ht⟩ := xchg_run (b := s.req.buf.get i) (r := r) (rest := rs.map Answer.byte ++ rest) hrx
    obtain ⟨e1, tr1, hx1, ht1⟩ := ih (s.io e tr) (i + 1) (by omega) ht.rx
    refine ⟨e1, tr1, ?_, ht.trans ht1⟩
    rw [List.length_cons, sendBlock, run_bind_ok hr, run_bind_ok hx, hx1]
    rfl

/-- The state with the two CRC registers of a read (R309, R310). -/
def State.withCrcs (s : State) (observed computed : BitVec 16) : State :=
  { s with ses.lastCrc16 := observed, ses.calcCrc16 := computed }

/-- The state with the data-response token `t` (R31). -/
def State.withDresp (s : State) (t : Byte) : State := { s with wrk.dresp := t }

/-- A deselect after a selected state. -/
theorem deselect_run {s : State} (hs : s.wrk.csActive = true) :
    cs false s = .ok () { s with wrk.csActive := false, trace := .cs false :: s.trace } := by
  rw [run_cs, State.withCs, if_neg (by rw [hs]; decide)]

/-- A wait without a token ends with the wrong byte, or with the test that has reached the deadline (R305, R322). -/
theorem waitStartToken_none {s : State} {q : NoToken} {rest : List Answer} (hs : s.wrk.csActive = true)
    (h1 : q.last ≠ Config.startToken) (hrx : s.env.rx = q.talk.answers ++ rest) (hc : q.InTime s.env 0) :
    ∃ (e : Env) (tr : List Event), waitStartToken s = .error (.raise .startToken)
        { s with wrk.dl1 := s.env.deadlineAt 0 300, wrk.csActive := false, env := e, trace := tr } ∧
      Talked s.env s.trace q.ticks e tr rest (q.talk.events ++ [.cs false]) := by
  rw [NoToken.talk, polls_append, Talk.answers_append, List.append_assoc] at hrx
  obtain ⟨n, e, tr, hx, ht⟩ := waitStartToken_skip hrx hc.before
  obtain ⟨e1, tr1, hx1, ht1⟩ := xchg_run
    (s := (s.withDl1 (s.env.deadlineAt 0 300)).io e tr) (b := Config.fill) ht.rx
  have ht' := ht.trans ht1
  by_cases h2 : q.last = Config.idleLine
  · obtain ⟨e2, tr2, hx2, ht2⟩ := expiredDl1_late
      (s := ((s.withDl1 (s.env.deadlineAt 0 300)).io e tr).io e1 tr1) ht1.rx (by
        show (s.env.deadlineAt 0 300).toNat ≤ (e1.sampleAt 0).toNat
        rw [ht'.sampleAt, hc.before.deadline]
        exact Nat.zero_add (q.gap + 1) ▸ hc.reached h2)
    refine ⟨e2, .cs false :: tr2, ?_, (ht'.trans (ht2.trans (deselect_talked e2 tr2 ht2.rx))).cast ?_ ?_⟩
    · rw [hx, tokenLoop, run_bind_ok hx1, show tokenClass q.last = .idleLine by rw [h2]; decide]
      simp only []
      rw [run_bind_ok hx2]
      simp only [if_true]
      rw [run_bind_ok (deselect_run
        (s := (((s.withDl1 (s.env.deadlineAt 0 300)).io e tr).io e1 tr1).io e2 tr2) hs), run_raise]
      rfl
    · rw [NoToken.ticks, if_pos h2]
    · rw [NoToken.talk, polls_append, Talk.events_append]
      rfl
  · refine ⟨e1, .cs false :: tr1, ?_, (ht'.trans (deselect_talked e1 tr1 ht1.rx)).cast ?_ ?_⟩
    · rw [hx, tokenLoop, run_bind_ok hx1, show tokenClass q.last = .invalid by rw [tokenClass, if_neg h1, if_neg h2]]
      simp only []
      rw [run_bind_ok (deselect_run (s := ((s.withDl1 (s.env.deadlineAt 0 300)).io e tr).io e1 tr1) hs), run_raise]
      rfl
    · rw [NoToken.ticks, if_neg h2]
    · rw [NoToken.talk, polls_append, Talk.events_append]
      rfl

/-- The trailing bytes of a read (R308, R309, R310), the card selected. -/
theorem recordCrc_run {s : State} {c : BitVec 16} {h l : Byte} {rest : List Answer}
    (hs : s.wrk.csActive = true) (hrx : s.env.rx = (polls [h, l]).answers ++ rest) :
    ∃ (e : Env) (tr : List Event), recordCrc c s = .ok () { s with
        ses.lastCrc16 := h ++ l, ses.calcCrc16 := c, wrk.csActive := false, env := e, trace := tr } ∧
      Talked s.env s.trace 0 e tr rest ((polls [h, l]).events ++ [.cs false]) := by
  obtain ⟨e, tr, hx, ht⟩ := xchg_run (b := Config.fill) (r := h) (rest := (polls [l]).answers ++ rest) hrx
  obtain ⟨e1, tr1, hx1, ht1⟩ := xchg_run (s := s.io e tr) (b := Config.fill) (r := l) (rest := rest) ht.rx
  refine ⟨e1, .cs false :: tr1, ?_, (ht.trans ht1).trans (deselect_talked e1 tr1 ht1.rx)⟩
  rw [recordCrc, run_bind_ok hx, run_bind_ok hx1,
    run_bind_ok (show setCrcs (h ++ l) c _ = .ok () (((s.io e tr).io e1 tr1).withCrcs (h ++ l) c) from rfl)]
  exact deselect_run (s := (((s.io e tr).io e1 tr1).withCrcs (h ++ l) c)) hs

/-- An accepted data-response token (R317). -/
theorem writeResponse_run {s : State} {t : Byte} {rest : List Answer}
    (hok : writeAccepted t = true) (hrx : s.env.rx = .byte t :: rest) :
    ∃ (e : Env) (tr : List Event), writeResponse s = .ok () { s with wrk.dresp := t, env := e, trace := tr } ∧
      Talked s.env s.trace 0 e tr rest [.xchg Config.fill (.byte t)] := by
  obtain ⟨e, tr, hx, ht⟩ := xchg_run (b := Config.fill) hrx
  refine ⟨e, tr, ?_, ht⟩
  rw [writeResponse, run_bind_ok hx, run_bind_ok (show setDresp t _ = .ok () ((s.io e tr).withDresp t) from rfl), if_pos hok]
  rfl

/-- A rejected data-response token (R317). -/
theorem writeResponse_rejected {s : State} {t : Byte} {rest : List Answer}
    (hs : s.wrk.csActive = true) (hno : writeAccepted t = false) (hrx : s.env.rx = .byte t :: rest) :
    ∃ (e : Env) (tr : List Event), writeResponse s = .error (.raise .writeReject)
        { s with wrk.dresp := t, wrk.csActive := false, env := e, trace := tr } ∧
      Talked s.env s.trace 0 e tr rest [.xchg Config.fill (.byte t), .cs false] := by
  obtain ⟨e, tr, hx, ht⟩ := xchg_run (b := Config.fill) hrx
  refine ⟨e, .cs false :: tr, ?_, ht.trans (deselect_talked e tr ht.rx)⟩
  rw [writeResponse, run_bind_ok hx,
    run_bind_ok (show setDresp t _ = .ok () ((s.io e tr).withDresp t) from rfl), if_neg (by rw [hno]; decide),
    run_bind_ok (deselect_run (s := (s.io e tr).withDresp t) hs)]
  rfl

/-- The busy-wait after a write, whichever way it ends (R318). -/
theorem writeWait_run {s : State} {busy : List Byte} {last : Byte} {rest : List Answer}
    (hs : s.wrk.csActive = true) (hb : ∀ b ∈ busy, b ≠ Config.idleLine)
    (hrx : s.env.rx = (polls (busy ++ [last])).answers ++ rest) (hc : s.env.BusyWait 0 600 busy last) :
    ∃ (e : Env) (tr : List Event), writeBusy s =
        (match waitResult last with | .ready => pure () | .expired => raise .writeTimeout : Proc Unit)
          { s with wrk.dl1 := s.env.deadlineAt 0 600, wrk.csActive := false, env := e, trace := tr } ∧
      Talked s.env s.trace (busyTicks busy last) e tr rest ((polls (busy ++ [last])).events ++ [.cs false]) := by
  obtain ⟨e, tr, hx, ht⟩ := waitNotBusy_run hb hrx hc
  refine ⟨e, .cs false :: tr, ?_, ht.trans (deselect_talked e tr ht.rx)⟩
  rw [writeBusy, run_bind_ok (show waitNotBusy Config.tWriteBusy s = _ from hx),
    run_bind_ok (deselect_run ((withDl1_csActive s (s.env.deadlineAt 0 600) e tr).trans hs))]
  rfl

/-- The busy-wait after a write against a card that becomes not-busy in time (R318). -/
theorem writeBusy_run {s : State} {busy : List Byte} {rest : List Answer}
    (hs : s.wrk.csActive = true) (hb : ∀ b ∈ busy, b ≠ Config.idleLine)
    (hrx : s.env.rx = (polls (busy ++ [Config.idleLine])).answers ++ rest) (hc : s.env.Before 0 busy.length 600) :
    ∃ (e : Env) (tr : List Event), writeBusy s =
        .ok () { s with wrk.dl1 := s.env.deadlineAt 0 600, wrk.csActive := false, env := e, trace := tr } ∧
      Talked s.env s.trace (busy.length + 1) e tr rest
        ((polls (busy ++ [Config.idleLine])).events ++ [.cs false]) :=
  writeWait_run hs hb hrx ⟨hc, fun h => absurd rfl h⟩

/-- The busy-wait after a write against a card that stays busy until the deadline (R318). -/
theorem writeBusy_late {s : State} {busy : List Byte} {b : Byte} {rest : List Answer}
    (hs : s.wrk.csActive = true) (hb : ∀ c ∈ busy ++ [b], c ≠ Config.idleLine)
    (hrx : s.env.rx = (polls (busy ++ [b])).answers ++ rest) (hc : s.env.BusyWait 0 600 busy b) :
    ∃ (e : Env) (tr : List Event), writeBusy s = .error (.raise .writeTimeout)
        { s with wrk.dl1 := s.env.deadlineAt 0 600, wrk.csActive := false, env := e, trace := tr } ∧
      Talked s.env s.trace (busyTicks busy b) e tr rest ((polls (busy ++ [b])).events ++ [.cs false]) := by
  obtain ⟨e, tr, hx, ht⟩ := writeWait_run hs (fun c hm => hb c (by simp [hm])) hrx hc
  refine ⟨e, tr, ?_, ht⟩
  rw [hx, waitResult, if_neg (hb b (by simp))]
  rfl

/-! ### The register read -/

/-- `read_register` against a card that delivers (R320). -/
theorem readRegister_run {s : State} {n : BitVec 6} {arg : BitVec 32} {r : CardReply} {d : DataReply 16}
    {rest : List Answer} (hi : n ≠ 12#6) (hr : r.Ok s.par) (h0 : r.resp = 0x00#8)
    (hwf : s.wrk.scratch.wf = true)
    (hrx : s.env.rx = (r.talk n arg ++ d.talk).answers ++ rest)
    (hc : r.InTime s.env 0) (hc' : d.InTime s.env r.ticks) :
    ∃ (e : Env) (tr : List Event),
      readRegister n arg s = .ok d.data { (s.answered n arg 0x00#8 (s.env.deadlineAt r.ticks 300) e tr) with
        wrk.csActive := false, wrk.scratch := s.wrk.scratch.write 0 d.data.toList } ∧
      Talked s.env s.trace (r.ticks + d.ticks) e tr rest
        (s.csEvents true ++ (r.talk n arg ++ d.talk).events ++ [.cs false]) := by
  rw [Talk.answers_append, DataReply.talk, polls_append, polls_append, Talk.answers_append, Talk.answers_append,
    List.append_assoc, List.append_assoc, List.append_assoc] at hrx
  have hlen : d.data.toList.length = 16 := by simp
  obtain ⟨e0, tr0, hx0, ht0⟩ := ensureZeroStatus_run hi hr h0 hrx hc
  obtain ⟨e1, tr1, hx1, ht1⟩ := waitStartToken_run
    (s := s.answered n arg 0x00#8 (s.env.deadlineAt 0 300) e0 tr0) ht0.rx (ht0.before (i := 0) hc')
  have hd : e0.deadlineAt 0 300 = s.env.deadlineAt r.ticks 300 := ht0.deadlineAt 0 300
  rw [show (s.answered n arg 0x00#8 (s.env.deadlineAt 0 300) e0 tr0).env = e0 from rfl, hd] at hx1
  obtain ⟨e2, tr2, hx2, ht2⟩ := receiveScratch_run d.data.toList
    (((s.answered n arg 0x00#8 (s.env.deadlineAt 0 300) e0 tr0).withDl1 (s.env.deadlineAt r.ticks 300)).io e1 tr1) 0
    (by rw [hlen]; decide) ht1.rx
  obtain ⟨e3, tr3, hx3, ht3⟩ := discard_run (n := 2) (bs := [d.crcHigh, d.crcLow]) rfl
    (s := ((((s.answered n arg 0x00#8 (s.env.deadlineAt 0 300) e0 tr0).withDl1
      (s.env.deadlineAt r.ticks 300)).io e1 tr1).withScratch (s.wrk.scratch.write 0 d.data.toList)).io e2 tr2) ht2.rx
  rw [hlen] at hx2
  refine ⟨e3, .cs false :: tr3, ?_,
    (ht0.trans (ht1.trans (ht2.trans (ht3.trans (deselect_talked e3 tr3 ht3.rx))))).cast rfl ?_⟩
  · rw [readRegister, run_bind_ok hx0, run_bind_ok hx1, show Config.regLen = 16 from rfl, run_bind_ok hx2,
      show (((s.answered n arg 0x00#8 (s.env.deadlineAt 0 300) e0 tr0).withDl1
        (s.env.deadlineAt r.ticks 300)).io e1 tr1).wrk.scratch = s.wrk.scratch from rfl,
      run_bind_ok hx3, run_bind_ok (deselect_run rfl), run_bind_ok (run_rd _), run_pure]
    congr 1
    show imageOf ((s.wrk.scratch.write 0 d.data.toList).bytes 0 16) = d.data
    have hb := Memory.bytes_write d.data.toList s.wrk.scratch 0 (by rw [hlen]; decide) hwf
    rw [hlen] at hb
    rw [hb]
    ext i hi'
    simp [imageOf]
  · rw [DataReply.talk]
    simp only [Talk.events_append, polls_append, List.append_assoc]

end Sys2Proof.Machine
end

