-- ==== Sys2Proof/Laws/Operations.lean ====
section
/-! SUPPORT. How the steps of the host operations run against a given conversation: the outcome of a
procedure, the request checks, the short replies, the loops of the initialization, the data phases. -/

namespace Sys2Proof.Machine

/-! ### Outcomes -/

theorem settle_ok {p : Proc Unit} {s t : State} (h : p s = .ok () t) : settle p s = .next t := by
  simp only [settle, h]

theorem settle_raise {p : Proc Unit} {s t : State} {e : Err} (h : p s = .error (.raise e) t) :
    settle p s = .next (exitActions (some e) t) := by
  simp only [settle, h]

/-- Runs that end alike have one outcome. -/
theorem settle_congr {p q : Proc Unit} {s t : State} (h : p s = q t) : settle p s = settle q t := by
  unfold settle
  rw [h]

theorem hostCall_idle {p : Proc Unit} {s : State} (h : s.seq.op = .idle) : hostCall p s = settle p s := by
  rw [hostCall, if_pos h]

theorem withCs_same {s : State} {a : Bool} (h : s.wrk.csActive = a) : s.withCs a = s := by
  rw [State.withCs, if_pos h]

/-- The success exit of a deselected engine only goes idle and writes `RES` (R372). -/
theorem finish_run {s : State} (h : s.wrk.csActive = false) : finish s = .ok () s.done := by
  rw [finish, run_upd, exitActions, withCs_same h]
  rfl

theorem issueOnly_ok {n : BitVec 6} {arg : BitVec 32} {s t : State} {r : Reply}
    (h : issueCommand n arg s = .ok r t) : issueOnly n arg s = .ok () t := by
  rw [issueOnly, run_bind_ok h]
  rfl

/-- The state at another step of the sequence. -/
def State.withFsm (s : State) (x : Fsm) : State := { s with seq.fsm := x }

theorem goFsm_run (x : Fsm) (s : State) : goFsm x s = .ok () (s.withFsm x) := rfl

/-- The state inside an operation. -/
def State.inOp (s : State) (o : Op) (x : Fsm) : State := { s with seq.op := o, seq.fsm := x }

@[simp] theorem inOp_ses (s : State) (o : Op) (x : Fsm) : (s.inOp o x).ses = s.ses := rfl
@[simp] theorem inOp_wrk (s : State) (o : Op) (x : Fsm) : (s.inOp o x).wrk = s.wrk := rfl
@[simp] theorem inOp_req (s : State) (o : Op) (x : Fsm) : (s.inOp o x).req = s.req := rfl
@[simp] theorem inOp_par (s : State) (o : Op) (x : Fsm) : (s.inOp o x).par = s.par := rfl
@[simp] theorem inOp_env (s : State) (o : Op) (x : Fsm) : (s.inOp o x).env = s.env := rfl
@[simp] theorem inOp_trace (s : State) (o : Op) (x : Fsm) : (s.inOp o x).trace = s.trace := rfl

theorem start_run (o : Op) (x : Fsm) (s : State) : start o x s = .ok () (s.inOp o x) := rfl

/-! ### The request checks -/

theorem checkRequest_ok {ses : Session} {req : Request} {addr : BitVec 32} (h1 : req.len = 512#32)
    (h2 : req.index.toNat < ses.blockCount.toNat) (h3 : translate ses.kind req.index = some addr) :
    checkRequest ses req = .ok addr := by
  rw [checkRequest, if_neg (by rw [h1]; simp), if_neg (by omega), h3]

/-- An accepted RDBLK runs from its command on (R303, R304). -/
theorem fromRCheck_run {s : State} {addr : BitVec 32} (h1 : s.req.len = 512#32)
    (h2 : s.req.index.toNat < s.ses.blockCount.toNat) (h3 : translate s.ses.kind s.req.index = some addr) :
    (do start .rdblk .rCheck; fromRCheck : Proc Unit) s = (do
      ensureZeroStatus 17#6 addr
      goFsm .rToken
      fromRToken : Proc Unit) (s.inOp .rdblk .rCmd) := by
  rw [run_bind_ok (start_run _ _ _), fromRCheck, run_bind_ok (run_rd _),
    show checkRequest (s.inOp .rdblk .rCheck).ses (s.inOp .rdblk .rCheck).req = .ok addr from checkRequest_ok h1 h2 h3]
  simp only []
  rw [run_bind_ok (goFsm_run _ _), fromRCmd, run_bind_ok (run_rd _),
    show translate ((s.inOp .rdblk .rCheck).withFsm .rCmd).ses.kind
      ((s.inOp .rdblk .rCheck).withFsm .rCmd).req.index = some addr from h3]
  rfl

/-- An accepted WRBLK runs from its command on (R303, R314). -/
theorem fromWCheck_run {s : State} {addr : BitVec 32} (h1 : s.req.len = 512#32)
    (h2 : s.req.index.toNat < s.ses.blockCount.toNat) (h3 : translate s.ses.kind s.req.index = some addr) :
    (do start .wrblk .wCheck; fromWCheck : Proc Unit) s = (do
      ensureZeroStatus 24#6 addr
      goFsm .wToken
      fromWToken : Proc Unit) (s.inOp .wrblk .wCmd) := by
  rw [run_bind_ok (start_run _ _ _), fromWCheck, run_bind_ok (run_rd _),
    show checkRequest (s.inOp .wrblk .wCheck).ses (s.inOp .wrblk .wCheck).req = .ok addr from checkRequest_ok h1 h2 h3]
  simp only []
  rw [run_bind_ok (goFsm_run _ _), fromWCmd, run_bind_ok (run_rd _),
    show translate ((s.inOp .wrblk .wCheck).withFsm .wCmd).ses.kind
      ((s.inOp .wrblk .wCheck).withFsm .wCmd).req.index = some addr from h3]
  rfl

theorem exec_rdblk_ok {s t : State} (hi : s.seq.op = .idle)
    (hp : (do start .rdblk .rCheck; fromRCheck : Proc Unit) s = .ok () t) : exec .rdblk s = .next t :=
  (hostCall_idle hi).trans (settle_ok hp)

theorem exec_wrblk_ok {s t : State} (hi : s.seq.op = .idle)
    (hp : (do start .wrblk .wCheck; fromWCheck : Proc Unit) s = .ok () t) : exec .wrblk s = .next t :=
  (hostCall_idle hi).trans (settle_ok hp)

/-- The exit actions forget where in which operation they are taken (R372). -/
theorem exitActions_inOp (r : Option Err) (s : State) (o : Op) (x : Fsm) :
    exitActions r (s.inOp o x) = exitActions r s := by
  unfold exitActions State.withCs State.inOp
  simp only
  split <;> rfl

/-- An accepted RDBLK whose command or data phase raises ends through the exit actions. -/
theorem exec_rdblk_raise {s u : State} {addr : BitVec 32} {e : Err} {o : Op} {x : Fsm} (h : s.RequestOk addr)
    (hx : (do
      ensureZeroStatus 17#6 addr
      goFsm .rToken
      fromRToken : Proc Unit) (s.inOp .rdblk .rCmd) = .error (.raise e) (u.inOp o x)) :
    exec .rdblk s = .next (exitActions (some e) u) := by
  have hp : (do start .rdblk .rCheck; fromRCheck : Proc Unit) s = .error (.raise e) (u.inOp o x) :=
    (fromRCheck_run h.len h.range h.address).trans hx
  exact (hostCall_idle h.idle).trans ((settle_raise hp).trans (by rw [exitActions_inOp]))

/-- An accepted WRBLK whose command or data phase raises ends through the exit actions. -/
theorem exec_wrblk_raise {s u : State} {addr : BitVec 32} {e : Err} {o : Op} {x : Fsm} (h : s.RequestOk addr)
    (hx : (do
      ensureZeroStatus 24#6 addr
      goFsm .wToken
      fromWToken : Proc Unit) (s.inOp .wrblk .wCmd) = .error (.raise e) (u.inOp o x)) :
    exec .wrblk s = .next (exitActions (some e) u) := by
  have hp : (do start .wrblk .wCheck; fromWCheck : Proc Unit) s = .error (.raise e) (u.inOp o x) :=
    (fromWCheck_run h.len h.range h.address).trans hx
  exact (hostCall_idle h.idle).trans ((settle_raise hp).trans (by rw [exitActions_inOp]))

/-! ### Four-byte replies -/

/-- The state with the R7 payload `p` (R37). -/
def State.withR7 (s : State) (p : Vector Byte 4) : State := { s with wrk.r7 := p }

theorem receiveR7_run {s : State} {i : Fin 4} {b : Byte} {rest : List Answer} (hrx : s.env.rx = .byte b :: rest) :
    ∃ (e : Env) (tr : List Event), receiveR7 i s = .ok () ((s.withR7 (s.wrk.r7.set i b)).io e tr) ∧
      Talked s.env s.trace 0 e tr rest [.xchg Config.fill (.byte b)] := by
  obtain ⟨e, tr, hx, ht⟩ := xchg_run (b := Config.fill) hrx
  refine ⟨e, tr, ?_, ht⟩
  rw [receiveR7, run_bind_ok hx]
  rfl

theorem vector4_set (v p : Vector Byte 4) : (((v.set 0 p[0]).set 1 p[1]).set 2 p[2]).set 3 p[3] = p := by
  ext i hi
  interval_cases i <;> simp

theorem vector4_toList (p : Vector Byte 4) : p.toList = [p[0], p[1], p[2], p[3]] := by
  apply List.ext_getElem
  · simp
  · intro i h1 h2
    simp at h1
    interval_cases i <;> simp

/-- The four payload bytes of CMD8 (R225). -/
theorem receivePayload_run {α : Type} {s : State} {p : Vector Byte 4} {rest : List Answer}
    (k : Proc α) (hrx : s.env.rx = (polls p.toList).answers ++ rest) :
    ∃ (e : Env) (tr : List Event),
      (do receiveR7 0; receiveR7 1; receiveR7 2; receiveR7 3; k : Proc α) s = k ((s.withR7 p).io e tr) ∧
      Talked s.env s.trace 0 e tr rest (polls p.toList).events := by
  rw [vector4_toList] at hrx ⊢
  obtain ⟨e, tr, hx, ht⟩ := receiveR7_run (i := 0) (rest := (polls [p[1], p[2], p[3]]).answers ++ rest) hrx
  obtain ⟨e1, tr1, hx1, ht1⟩ := receiveR7_run (s := (s.withR7 (s.wrk.r7.set 0 p[0])).io e tr) (i := 1)
    (rest := (polls [p[2], p[3]]).answers ++ rest) ht.rx
  obtain ⟨e2, tr2, hx2, ht2⟩ := receiveR7_run
    (s := (s.withR7 ((s.wrk.r7.set 0 p[0]).set 1 p[1])).io e1 tr1) (i := 2)
    (rest := (polls [p[3]]).answers ++ rest) ht1.rx
  obtain ⟨e3, tr3, hx3, ht3⟩ := receiveR7_run
    (s := (s.withR7 (((s.wrk.r7.set 0 p[0]).set 1 p[1]).set 2 p[2])).io e2 tr2) (i := 3) ht2.rx
  refine ⟨e3, tr3, ?_, ht.trans (ht1.trans (ht2.trans ht3))⟩
  rw [run_bind_ok hx]
  erw [run_bind_ok hx1]
  erw [run_bind_ok hx2]
  erw [run_bind_ok hx3]
  show k ((s.withR7 ((((s.wrk.r7.set 0 p[0]).set 1 p[1]).set 2 p[2]).set 3 p[3])).io e3 tr3) = _
  rw [vector4_set]

theorem ocrHighCapacity_le : ∀ b : Byte, ocrHighCapacity b = decide (0xC0#8 ≤ b) := by decide

/-- The OCR read against a card that answers 0x00 (R230, R231). -/
theorem readOcr_run {s : State} {arg : BitVec 32} {r : CardReply} {p : Vector Byte 4} {rest : List Answer}
    (hr : r.Ok s.par) (h0 : r.resp = 0x00#8)
    (hrx : s.env.rx = (r.talk 58#6 arg ++ polls p.toList).answers ++ rest) (hc : r.InTime s.env 0) :
    ∃ (e : Env) (tr : List Event),
      readOcr arg s = .ok () { s.answered 58#6 arg 0x00#8 (s.env.deadlineAt 0 300) e tr with
        wrk.ocr0 := p[0]
        ses.kind := if 0xC0#8 ≤ p[0] then .sdhc else s.ses.kind } ∧
      Talked s.env s.trace r.ticks e tr rest (s.csEvents true ++ (r.talk 58#6 arg ++ polls p.toList).events) := by
  rw [Talk.answers_append, List.append_assoc] at hrx
  obtain ⟨e, tr, hx, ht⟩ := ensureZeroStatus_run (by decide) hr h0 hrx hc
  have hrx1 := ht.rx
  rw [vector4_toList] at hrx1 ⊢
  generalize s.env.deadlineAt 0 300 = d at hx ⊢
  obtain ⟨e1, tr1, hx1, ht1⟩ := xchg_run (s := s.answered 58#6 arg 0x00#8 d e tr) (b := Config.fill) (r := p[0])
    (rest := (polls [p[1], p[2], p[3]]).answers ++ rest) hrx1
  let u : State := { (s.answered 58#6 arg 0x00#8 d e tr).io e1 tr1 with
    wrk.ocr0 := p[0], ses.kind := if 0xC0#8 ≤ p[0] then .sdhc else s.ses.kind }
  obtain ⟨e2, tr2, hx2, ht2⟩ := discard_run (s := u) (n := 3) (bs := [p[1], p[2], p[3]]) rfl ht1.rx
  refine ⟨e2, tr2, ?_, (ht.trans (ht1.trans ht2)).cast rfl ?_⟩
  · rw [readOcr, run_bind_ok hx, run_bind_ok hx1,
      run_bind_ok (show setOcr0 p[0] _ =
        .ok () { (s.answered 58#6 arg 0x00#8 d e tr).io e1 tr1 with wrk.ocr0 := p[0] } from rfl),
      run_bind_ok (show reclassify p[0] _ = .ok () u by
        unfold reclassify
        rw [ocrHighCapacity_le]
        by_cases h : 0xC0#8 ≤ p[0]
        · rw [if_pos (by simpa using h)]
          simp only [u, if_pos h]
          rfl
        · rw [if_neg (by simpa using h)]
          simp only [u, if_neg h]
          rfl), hx2]
    rfl
  · rw [Talk.events_append]
    simp only [List.append_assoc]
    rfl

/-! ### The loops of the initialization -/

/-- The second state differs from the first only in what every command overwrites. -/
def CommandOnly (s u : State) : Prop :=
  u = { s with
    seq.cfsm := u.seq.cfsm
    wrk.status := u.wrk.status
    wrk.rto := u.wrk.rto
    wrk.csActive := u.wrk.csActive
    wrk.frame := u.wrk.frame
    wrk.dl1 := u.wrk.dl1
    env := u.env
    trace := u.trace }

theorem CommandOnly.answered {s u : State} (h : CommandOnly s u) (n : BitVec 6) (arg : BitVec 32) (b : Byte)
    (d : Clock) (e : Env) (tr : List Event) : u.answered n arg b d e tr = s.answered n arg b d e tr := by
  rw [h]
  rfl

theorem CommandOnly.unanswered {s u : State} (h : CommandOnly s u) (n : BitVec 6) (arg : BitVec 32)
    (d : Clock) (e : Env) (tr : List Event) : u.unanswered n arg d e tr = s.unanswered n arg d e tr := by
  rw [h]
  rfl

theorem CommandOnly.attempted {s u : State} (h : CommandOnly s u) (n : BitVec 6) (arg : BitVec 32) (a : Attempt)
    (d : Clock) (e : Env) (tr : List Event) : u.attempted n arg a d e tr = s.attempted n arg a d e tr := by
  cases a with
  | answered r => exact h.answered _ _ _ _ _ _
  | silent q => exact h.unanswered _ _ _ _ _

theorem CommandOnly.appAttempted {s u : State} (h : CommandOnly s u) (arg : BitVec 32) (c : AppAttempt)
    (d : Clock) (e : Env) (tr : List Event) : u.appAttempted arg c d e tr = s.appAttempted arg c d e tr := by
  cases c with
  | sent r a => exact h.attempted _ _ _ _ _ _
  | prefixSilent q => exact h.unanswered _ _ _ _ _

theorem CommandOnly.par {s u : State} (h : CommandOnly s u) : u.par = s.par := by
  rw [h]

theorem CommandOnly.dl0 {s u : State} (h : CommandOnly s u) : u.wrk.dl0 = s.wrk.dl0 := by
  rw [h]

theorem CommandOnly.trans {s u v : State} (h : CommandOnly s u) (h' : CommandOnly u v) : CommandOnly s v := by
  unfold CommandOnly at h' ⊢
  rw [h] at h'
  exact h'

theorem commandOnly_attempted (s : State) (n : BitVec 6) (arg : BitVec 32) (a : Attempt) (d : Clock) (e : Env)
    (tr : List Event) : CommandOnly s (s.attempted n arg a d e tr) := by
  cases a <;> rfl

theorem commandOnly_appAttempted (s : State) (arg : BitVec 32) (c : AppAttempt) (d : Clock) (e : Env)
    (tr : List Event) : CommandOnly s (s.appAttempted arg c d e tr) := by
  cases c with
  | sent r a => exact commandOnly_attempted _ _ _ _ _ _ _
  | prefixSilent q => rfl

theorem commandOnly_io (s : State) (e : Env) (tr : List Event) : CommandOnly s (s.io e tr) := rfl

/-- The level an attempt leaves chip-select at. -/
theorem attempted_csActive (s : State) (n : BitVec 6) (arg : BitVec 32) (a : Attempt) (d : Clock) (e : Env)
    (tr : List Event) : (s.attempted n arg a d e tr).wrk.csActive = levelAfter s.wrk.csActive (a.moves n arg) := by
  cases a with
  | answered r => exact (levelAfter_talk _ _).symm
  | silent q =>
    rw [Attempt.moves, List.cons_append, levelAfter, levelAfter_append, levelAfter_talk, levelAfter]
    exact (levelAfter_talk _ _).symm

theorem appAttempted_csActive (s : State) (arg : BitVec 32) (c : AppAttempt) (d : Clock) (e : Env)
    (tr : List Event) :
    (s.appAttempted arg c d e tr).wrk.csActive = levelAfter s.wrk.csActive (c.moves arg) := by
  cases c with
  | sent r a =>
    rw [AppAttempt.moves, List.cons_append, levelAfter, levelAfter_append, levelAfter_talk]
    cases a with
    | answered r => exact attempted_csActive s 41#6 arg (.answered r) d e tr
    | silent q => exact attempted_csActive s 41#6 arg (.silent q) d e tr
  | prefixSilent q => exact attempted_csActive s 55#6 0#32 (.silent q) d e tr

theorem Talked.appAttempt {e₀ : Env} {tr₀ : List Event} {n i : Nat} {e : Env} {tr : List Event} {rest : List Answer}
    {evs : List Event} {c : AppAttempt} (h : Talked e₀ tr₀ n e tr rest evs) (hc : c.InTime e₀ (n + i)) :
    c.InTime e i := by
  cases c with
  | sent r a => exact ⟨h.busyWait hc.1, h.attempt (Nat.add_assoc n i r.ticks ▸ hc.2)⟩
  | prefixSilent q => exact h.busyWait hc

theorem Talked.idle {e₀ : Env} {tr₀ : List Event} {n : Nat} {e : Env} {tr : List Event} {rest : List Answer}
    {evs : List Event} (h : Talked e₀ tr₀ n e tr rest evs) : ∀ (as : List Attempt) (i : Nat),
    IdleInTime e₀ (n + i) as → IdleInTime e i as
  | [], _, _ => trivial
  | a :: as, i, ha => ⟨h.attempt ha.1, h.idle as (i + (a.ticks + 1)) (by rw [← Nat.add_assoc]; exact ha.2)⟩

theorem Talked.cond {e₀ : Env} {tr₀ : List Event} {n : Nat} {e : Env} {tr : List Event} {rest : List Answer}
    {evs : List Event} (h : Talked e₀ tr₀ n e tr rest evs) : ∀ (cs : List AppAttempt) (i : Nat),
    CondInTime e₀ (n + i) cs → CondInTime e i cs
  | [], _, _ => trivial
  | c :: cs, i, hc => ⟨h.appAttempt hc.1, h.cond cs (i + (c.ticks + 1)) (by rw [← Nat.add_assoc]; exact hc.2)⟩

/-- A go-idle attempt that fails is followed by the test of the deadline (R223). -/
theorem goIdleLoop_failed {s t : State} {a : Attempt} (n : Nat) (ha : a.NotIdle)
    (hx : issueCommand 0#6 0#32 s = .ok a.reply t) :
    goIdleLoop (n + 1) s = (do let e ← expiredDl0; if e then raise .noCard else goIdleLoop n : Proc Unit) t := by
  rw [goIdleLoop, run_bind_ok hx]
  cases a with
  | silent q => rfl
  | answered r =>
    have h1 : r.resp ≠ 0x01#8 := fun h => ha (by rw [Attempt.reply, h])
    by_cases h0 : r.resp = 0x00#8
    · simp only [Attempt.reply, h0]
      rfl
    · simp [Attempt.reply, classify, h1, h0]

/-- The go-idle loop over any number of attempts that fail (R223). -/
theorem goIdleLoop_skip {rest : List Answer} (tries : List Attempt) :
    ∀ (n : Nat) (s : State), (∀ a ∈ tries, a.Ok s.par ∧ a.NotIdle) →
      s.env.rx = answersOf (tries.flatMap (Attempt.moves 0#6 0#32)) ++ rest →
      IdleInTime s.env 0 tries → (∀ k, k < idleTicks tries → (s.env.sampleAt k).toNat < s.wrk.dl0.toNat) →
      ∃ u : State, goIdleLoop (tries.length + n) s = goIdleLoop n u ∧ CommandOnly s u ∧
        u.wrk.csActive = levelAfter s.wrk.csActive (tries.flatMap (Attempt.moves 0#6 0#32)) ∧
        Talked s.env s.trace (idleTicks tries) u.env u.trace rest
          (levels s.wrk.csActive (tries.flatMap (Attempt.moves 0#6 0#32))) := by
  induction tries with
  | nil => exact fun n s _ hrx _ _ => ⟨s, by rw [List.length_nil, Nat.zero_add], rfl, rfl, Talked.nil _ _ hrx⟩
  | cons a as ih =>
    intro n s htries hrx hc hd
    have ha := htries a (by simp)
    have hticks : idleTicks (a :: as) = a.ticks + 1 + idleTicks as := rfl
    rw [List.flatMap_cons, answersOf_append, List.append_assoc] at hrx
    obtain ⟨e, tr, hx, ht⟩ := issueCommand_attempt (by decide) ha.1 hrx hc.1
    generalize s.env.deadlineAt 0 300 = d at hx
    have ho := commandOnly_attempted s 0#6 0#32 a d e tr
    have hl := attempted_csActive s 0#6 0#32 a d e tr
    have he : (s.attempted 0#6 0#32 a d e tr).env = e := by cases a <;> rfl
    have htr : (s.attempted 0#6 0#32 a d e tr).trace = tr := by cases a <;> rfl
    have hloop := goIdleLoop_failed (as.length + n) ha.2 hx
    generalize s.attempted 0#6 0#32 a d e tr = u at ho hl he htr hloop
    subst he htr
    obtain ⟨e1, tr1, hx1, ht1⟩ := expiredDl0_early (s := u) ht.rx
      (by rw [ho.dl0, ht.sampleAt]; exact hd a.ticks (by omega))
    obtain ⟨v, hv, hov, hlv, htv⟩ := ih n (u.io e1 tr1)
      (fun b hb => by rw [io_par, ho.par]; exact htries b (by simp [hb])) ht1.rx
      ((ht.trans ht1).idle as 0 (by rw [Nat.add_zero]; exact Nat.zero_add (a.ticks + 1) ▸ hc.2))
      (fun k hk => by
        rw [io_wrk, io_env, ho.dl0, (ht.trans ht1).sampleAt]
        exact hd (a.ticks + 1 + k) (by omega))
    refine ⟨v, ?_, (ho.trans (commandOnly_io u e1 tr1)).trans hov, ?_, (ht.trans (ht1.trans htv)).cast ?_ ?_⟩
    · rw [List.length_cons, Nat.add_right_comm, hloop, run_bind_ok hx1]
      exact hv
    · rw [hlv, List.flatMap_cons, levelAfter_append, io_wrk, hl]
    · rw [hticks]
      omega
    · rw [List.flatMap_cons, levels_append, io_wrk, hl]
      rfl

/-- The go-idle loop with any number of attempts that fail and one that does not (R223). -/
theorem goIdleLoop_run {rest : List Answer} {last : CardReply} {tries : List Attempt} {n : Nat}
    {s : State} (hl : last.resp = 0x01#8) (hn : tries.length < n)
    (htries : ∀ a ∈ tries, a.Ok s.par ∧ a.NotIdle) (hok : last.Ok s.par)
    (hrx : s.env.rx = answersOf (tries.flatMap (Attempt.moves 0#6 0#32)) ++ ((last.talk 0#6 0#32).answers ++ rest))
    (hc : IdleInTime s.env 0 tries) (hc' : last.InTime s.env (idleTicks tries))
    (hd : ∀ k, k < idleTicks tries → (s.env.sampleAt k).toNat < s.wrk.dl0.toNat) :
    ∃ (d : Clock) (e : Env) (tr : List Event), goIdleLoop n s = .ok () (s.answered 0#6 0#32 0x01#8 d e tr) ∧
      Talked s.env s.trace (idleTicks tries + last.ticks) e tr rest (levels s.wrk.csActive
        (tries.flatMap (Attempt.moves 0#6 0#32) ++ .cs true :: (last.talk 0#6 0#32).events)) := by
  obtain ⟨k, rfl⟩ := Nat.exists_eq_add_of_lt hn
  obtain ⟨u, hu, ho, hlv, ht⟩ := goIdleLoop_skip tries (k + 1) s htries hrx hc hd
  obtain ⟨e, tr, hx, ht1⟩ := issueCommand_run (s := u) (by decide) (by rw [ho.par]; exact hok) ht.rx
    (ht.busyWait (i := 0) hc')
  refine ⟨u.env.deadlineAt 0 300, e, tr, ?_, (ht.trans ht1).cast rfl ?_⟩
  · rw [Nat.add_assoc, hu, goIdleLoop, run_bind_ok hx, hl, ← ho.answered]
    rfl
  · rw [levels_append, ← hlv, levels_cs, levels_talk]

/-- The go-idle loop whose deadline has passed after an attempt that fails (R223). -/
theorem goIdleLoop_late {rest : List Answer} {last : Attempt} {tries : List Attempt} {n : Nat}
    {s : State} (hl : last.NotIdle) (hn : tries.length < n)
    (htries : ∀ a ∈ tries, a.Ok s.par ∧ a.NotIdle) (hok : last.Ok s.par)
    (hrx : s.env.rx = answersOf (tries.flatMap (Attempt.moves 0#6 0#32) ++ last.moves 0#6 0#32) ++ rest)
    (hc : IdleInTime s.env 0 tries) (hc' : last.InTime s.env (idleTicks tries))
    (hd : ∀ k, k < idleTicks tries → (s.env.sampleAt k).toNat < s.wrk.dl0.toNat)
    (hlate : s.wrk.dl0.toNat ≤ (s.env.sampleAt (idleTicks tries + last.ticks)).toNat) :
    ∃ (e : Env) (tr : List Event), goIdleLoop n s = .error (.raise .noCard)
        (s.attempted 0#6 0#32 last (s.env.deadlineAt (idleTicks tries) 300) e tr) ∧
      Talked s.env s.trace (idleTicks tries + last.ticks + 1) e tr rest (levels s.wrk.csActive
        (tries.flatMap (Attempt.moves 0#6 0#32) ++ last.moves 0#6 0#32)) := by
  obtain ⟨k, rfl⟩ := Nat.exists_eq_add_of_lt hn
  rw [answersOf_append, List.append_assoc] at hrx
  obtain ⟨u, hu, ho, hlv, ht⟩ := goIdleLoop_skip tries (k + 1) s htries hrx hc hd
  obtain ⟨e, tr, hx, ht1⟩ := issueCommand_attempt (s := u) (by decide) (by rw [ho.par]; exact hok) ht.rx
    (ht.attempt (i := 0) hc')
  have hdl : u.env.deadlineAt 0 300 = s.env.deadlineAt (idleTicks tries) 300 := ht.deadlineAt 0 300
  rw [hdl, ho.attempted] at hx
  generalize s.env.deadlineAt (idleTicks tries) 300 = d at hx ⊢
  have ho' := commandOnly_attempted s 0#6 0#32 last d e tr
  have he : (s.attempted 0#6 0#32 last d e tr).env = e := by cases last <;> rfl
  obtain ⟨e1, tr1, hx1, ht2⟩ := expiredDl0_late (rest := rest)
    (s := s.attempted 0#6 0#32 last d e tr) (by rw [he]; exact ht1.rx)
    (by rw [he, ho'.dl0, (ht.trans ht1).sampleAt]; exact hlate)
  have htr : (s.attempted 0#6 0#32 last d e tr).trace = tr := by cases last <;> rfl
  rw [he, htr] at ht2
  refine ⟨e1, tr1, ?_, ((ht.trans ht1).trans ht2).cast rfl ?_⟩
  · rw [Nat.add_assoc, hu, goIdleLoop_failed k hl hx, run_bind_ok hx1]
    cases last <;> rfl
  · rw [levels_append, ← hlv, List.append_nil]

/-- An operating-condition attempt that fails is followed by the test of the deadline (R227, R228). -/
theorem opCondLoop_failed {s t : State} {arg : BitVec 32} {c : AppAttempt} (n : Nat) (hc : c.NotReady)
    (hx : issueAppCommand 41#6 arg s = .ok c.reply t) :
    opCondLoop arg (n + 1) s =
      (do let e ← expiredDl0; if e then raise c.reply.error else opCondLoop arg n : Proc Unit) t := by
  rw [opCondLoop, run_bind_ok hx, Reply.error]
  cases hr : c.reply with
  | mk st rto =>
    cases rto with
    | true => rfl
    | false =>
      have h0 : st ≠ 0x00#8 := fun h => hc (by rw [hr, h])
      by_cases h1 : st = 0x01#8
      · simp only [h1]
        rfl
      · simp [classify, h1, h0]

/-- The operating-condition loop over any number of attempts that fail (R227). -/
theorem opCondLoop_skip {rest : List Answer} {arg : BitVec 32} (tries : List AppAttempt) :
    ∀ (n : Nat) (s : State), (∀ c ∈ tries, c.Ok s.par ∧ c.NotReady) →
      s.env.rx = answersOf (tries.flatMap (AppAttempt.moves arg)) ++ rest →
      CondInTime s.env 0 tries → (∀ k, k < condTicks tries → (s.env.sampleAt k).toNat < s.wrk.dl0.toNat) →
      ∃ u : State, opCondLoop arg (tries.length + n) s = opCondLoop arg n u ∧ CommandOnly s u ∧
        u.wrk.csActive = levelAfter s.wrk.csActive (tries.flatMap (AppAttempt.moves arg)) ∧
        Talked s.env s.trace (condTicks tries) u.env u.trace rest
          (levels s.wrk.csActive (tries.flatMap (AppAttempt.moves arg))) := by
  induction tries with
  | nil => exact fun n s _ hrx _ _ => ⟨s, by rw [List.length_nil, Nat.zero_add], rfl, rfl, Talked.nil _ _ hrx⟩
  | cons c cs ih =>
    intro n s htries hrx hc hd
    have hcc := htries c (by simp)
    have hticks : condTicks (c :: cs) = c.ticks + 1 + condTicks cs := rfl
    rw [List.flatMap_cons, answersOf_append, List.append_assoc] at hrx
    obtain ⟨e, tr, hx, ht⟩ := issueAppCommand_attempt hcc.1 hrx hc.1
    generalize s.env.deadlineAt c.loadAt 300 = d at hx
    have ho := commandOnly_appAttempted s arg c d e tr
    have hl := appAttempted_csActive s arg c d e tr
    have he : (s.appAttempted arg c d e tr).env = e := by
      rcases c with ⟨r, a | a⟩ | q <;> rfl
    have htr : (s.appAttempted arg c d e tr).trace = tr := by
      rcases c with ⟨r, a | a⟩ | q <;> rfl
    have hloop := opCondLoop_failed (cs.length + n) hcc.2 hx
    generalize s.appAttempted arg c d e tr = u at ho hl he htr hloop
    subst he htr
    obtain ⟨e1, tr1, hx1, ht1⟩ := expiredDl0_early (s := u) ht.rx
      (by rw [ho.dl0, ht.sampleAt]; exact hd c.ticks (by omega))
    obtain ⟨v, hv, hov, hlv, htv⟩ := ih n (u.io e1 tr1)
      (fun b hb => by rw [io_par, ho.par]; exact htries b (by simp [hb])) ht1.rx
      ((ht.trans ht1).cond cs 0 (by rw [Nat.add_zero]; exact Nat.zero_add (c.ticks + 1) ▸ hc.2))
      (fun k hk => by
        rw [io_wrk, io_env, ho.dl0, (ht.trans ht1).sampleAt]
        exact hd (c.ticks + 1 + k) (by omega))
    refine ⟨v, ?_, (ho.trans (commandOnly_io u e1 tr1)).trans hov, ?_, (ht.trans (ht1.trans htv)).cast ?_ ?_⟩
    · rw [List.length_cons, Nat.add_right_comm, hloop, run_bind_ok hx1]
      exact hv
    · rw [hlv, List.flatMap_cons, levelAfter_append, io_wrk, hl]
    · rw [hticks]
      omega
    · rw [List.flatMap_cons, levels_append, io_wrk, hl]
      rfl

/-- The operating-condition loop with any number of attempts that fail and one that does not (R227). -/
theorem opCondLoop_run {rest : List Answer} {arg : BitVec 32} {p last : CardReply}
    {tries : List AppAttempt} {n : Nat} {s : State} (hl : last.resp = 0x00#8) (hn : tries.length < n)
    (htries : ∀ c ∈ tries, c.Ok s.par ∧ c.NotReady) (hok : p.Ok s.par ∧ last.Ok s.par)
    (hrx : s.env.rx = answersOf (tries.flatMap (AppAttempt.moves arg)) ++
      (answersOf ((AppAttempt.sent p (.answered last)).moves arg) ++ rest))
    (hc : CondInTime s.env 0 tries) (hc' : (AppAttempt.sent p (.answered last)).InTime s.env (condTicks tries))
    (hd : ∀ k, k < condTicks tries → (s.env.sampleAt k).toNat < s.wrk.dl0.toNat) :
    ∃ (d : Clock) (e : Env) (tr : List Event),
      opCondLoop arg n s = .ok () (s.answered 41#6 arg 0x00#8 d e tr) ∧
      Talked s.env s.trace (condTicks tries + (p.ticks + last.ticks)) e tr rest (levels s.wrk.csActive
        (tries.flatMap (AppAttempt.moves arg) ++ (AppAttempt.sent p (.answered last)).moves arg)) := by
  obtain ⟨k, rfl⟩ := Nat.exists_eq_add_of_lt hn
  obtain ⟨u, hu, ho, hlv, ht⟩ := opCondLoop_skip tries (k + 1) s htries hrx hc hd
  obtain ⟨e, tr, hx, ht1⟩ := issueAppCommand_attempt (s := u) (c := .sent p (.answered last))
    (by rw [ho.par]; exact hok) ht.rx (ht.appAttempt (i := 0) hc')
  refine ⟨u.env.deadlineAt p.ticks 300, e, tr, ?_, (ht.trans ht1).cast rfl ?_⟩
  · rw [Nat.add_assoc, hu, opCondLoop, run_bind_ok hx, ← ho.answered]
    simp only [AppAttempt.reply, Attempt.reply, State.appAttempted, State.attempted, AppAttempt.loadAt, hl]
    rfl
  · rw [levels_append, ← hlv]

/-- The operating-condition loop whose deadline has passed after an attempt that fails (R228). -/
theorem opCondLoop_late {rest : List Answer} {arg : BitVec 32} {last : AppAttempt}
    {tries : List AppAttempt} {n : Nat} {s : State} (hl : last.NotReady) (hn : tries.length < n)
    (htries : ∀ c ∈ tries, c.Ok s.par ∧ c.NotReady) (hok : last.Ok s.par)
    (hrx : s.env.rx = answersOf (tries.flatMap (AppAttempt.moves arg) ++ last.moves arg) ++ rest)
    (hc : CondInTime s.env 0 tries) (hc' : last.InTime s.env (condTicks tries))
    (hd : ∀ k, k < condTicks tries → (s.env.sampleAt k).toNat < s.wrk.dl0.toNat)
    (hlate : s.wrk.dl0.toNat ≤ (s.env.sampleAt (condTicks tries + last.ticks)).toNat) :
    ∃ (e : Env) (tr : List Event), opCondLoop arg n s = .error (.raise last.reply.error)
        (s.appAttempted arg last (s.env.deadlineAt (condTicks tries + last.loadAt) 300) e tr) ∧
      Talked s.env s.trace (condTicks tries + last.ticks + 1) e tr rest (levels s.wrk.csActive
        (tries.flatMap (AppAttempt.moves arg) ++ last.moves arg)) := by
  obtain ⟨k, rfl⟩ := Nat.exists_eq_add_of_lt hn
  rw [answersOf_append, List.append_assoc] at hrx
  obtain ⟨u, hu, ho, hlv, ht⟩ := opCondLoop_skip tries (k + 1) s htries hrx hc hd
  obtain ⟨e, tr, hx, ht1⟩ := issueAppCommand_attempt (s := u) (by rw [ho.par]; exact hok) ht.rx
    (ht.appAttempt (i := 0) hc')
  rw [ht.deadlineAt, ho.appAttempted] at hx
  generalize s.env.deadlineAt (condTicks tries + last.loadAt) 300 = d at hx ⊢
  have ho' := commandOnly_appAttempted s arg last d e tr
  have he : (s.appAttempted arg last d e tr).env = e := by
    rcases last with ⟨r, a | a⟩ | q <;> rfl
  have htr : (s.appAttempted arg last d e tr).trace = tr := by
    rcases last with ⟨r, a | a⟩ | q <;> rfl
  obtain ⟨e1, tr1, hx1, ht2⟩ := expiredDl0_late (rest := rest)
    (s := s.appAttempted arg last d e tr) (by rw [he]; exact ht1.rx)
    (by rw [he, ho'.dl0, (ht.trans ht1).sampleAt]; exact hlate)
  rw [he, htr] at ht2
  refine ⟨e1, tr1, ?_, ((ht.trans ht1).trans ht2).cast rfl ?_⟩
  · rw [Nat.add_assoc, hu, opCondLoop_failed k hl hx, run_bind_ok hx1]
    rcases last with ⟨r, a | a⟩ | q <;> rfl
  · rw [levels_append, ← hlv, List.append_nil]

/-- The commit of a block count (R235, R236, R237). -/
theorem fromICommit_run {s : State} {c : BitVec 64} (h1 : csdBlockCount s.ses.csd = some c) (h2 : c ≠ 0#64)
    (h3 : c.toNat < 2 ^ 32) (hs : s.wrk.csActive = false) :
    fromICommit s = .ok () { s.done with ses.blockCount := c } := by
  rw [fromICommit, run_bind_ok (run_rd _), h1]
  simp only []
  rw [if_neg (by unfold Config.countMax; omega), if_neg h2,
    run_bind_ok (show setBlockCount c s = .ok () { s with ses.blockCount := c } from rfl),
    run_bind_ok (run_cs _ _), withCs_same (by exact hs)]
  exact finish_run hs

/-! ### Data phases -/

/-- What the buffer reads after `n` bytes were written from offset 0 on. -/
theorem Memory.get_write_zero {n : Nat} (d : Vector Byte n) (m : Memory) (hm : m.wf = true)
    (hn : n ≤ Config.blockLen) (a : Nat) :
    (m.write 0 d.toList).get a = if h : a < n then d[a] else m.get a := by
  rw [Memory.get_write _ _ _ _ (by simpa using hn) hm]
  by_cases h : a < n
  · rw [if_pos (by simpa using h), dif_pos h, Nat.sub_zero, List.getD_eq_getElem _ _ (by simpa using h)]
    simp
  · rw [if_neg (by simpa using h), dif_neg h]

/-- RDBLK from R_TOKEN on, against a card that delivers (R304, R305, R307 to R310). -/
theorem fromRToken_run {s : State} {d : DataReply 512} {rest : List Answer}
    (hs : s.wrk.csActive = true) (hrx : s.env.rx = d.talk.answers ++ rest) (hc : d.InTime s.env 0) :
    ∃ (e : Env) (tr : List Event),
      fromRToken s = .ok () { s.done with
        wrk.dl1 := s.env.deadlineAt 0 300, wrk.csActive := false, req.buf := s.req.buf.write 0 d.data.toList
        ses.lastCrc16 := d.crcHigh ++ d.crcLow, ses.calcCrc16 := crc16 d.data.toList, env := e, trace := tr } ∧
      Talked s.env s.trace d.ticks e tr rest (d.talk.events ++ [.cs false]) := by
  rw [DataReply.talk, polls_append, polls_append, Talk.answers_append, Talk.answers_append, List.append_assoc,
    List.append_assoc] at hrx
  have hlen : d.data.toList.length = 512 := by simp
  obtain ⟨e1, tr1, hx1, ht1⟩ := waitStartToken_run hrx hc
  generalize s.env.deadlineAt 0 300 = d1 at hx1 ⊢
  obtain ⟨e2, tr2, hx2, ht2⟩ := receiveBlock_run d.data.toList (((s.withDl1 d1).io e1 tr1).withFsm .rData) 0 0#16
    (by rw [hlen]; decide) ht1.rx
  rw [hlen] at hx2
  obtain ⟨e3, tr3, hx3, ht3⟩ := recordCrc_run (c := crc16 d.data.toList)
    (s := (((((s.withDl1 d1).io e1 tr1).withFsm .rData).withBuf (s.req.buf.write 0 d.data.toList)).io e2 tr2).withFsm .rCrc)
    hs ht2.rx
  refine ⟨e3, tr3, ?_, (ht1.trans (ht2.trans ht3)).cast rfl ?_⟩
  · rw [fromRToken, run_bind_ok hx1, run_bind_ok (goFsm_run _ _), fromRData, show Config.blockLen = 512 from rfl,
      run_bind_ok hx2, run_bind_ok (goFsm_run _ _), fromRCrc]
    erw [run_bind_ok hx3]
    rw [finish_run rfl]
    rfl
  · rw [DataReply.talk]
    simp only [List.append_assoc, polls_append, Talk.events_append]

theorem zip_answers (m : Memory) (w : WriteReply) :
    Talk.answers ((m.bytes 0 512).zip w.during.toList) = w.during.toList.map Answer.byte := by
  unfold Talk.answers
  rw [show (fun p : Byte × Byte => Answer.byte p.2) = Answer.byte ∘ Prod.snd from rfl, ← List.map_map, List.map_snd_zip]
  simp

/-- WRBLK from W_TOKEN to its data-response token (R314, R315). -/
theorem fromWToken_packet {s : State} {w : WriteReply} {rest : List Answer}
    (hrx : s.env.rx = (w.packet (s.req.buf.bytes 0 512)).answers ++ rest) :
    ∃ (e : Env) (tr : List Event),
      fromWToken s = fromWResp ((s.withFsm .wResp).io e tr) ∧
      e.rx = .byte w.token :: rest ∧
      ∀ (n : Nat) (e' : Env) (tr' : List Event) (evs : List Event) (rest' : List Answer),
        Talked e tr n e' tr' rest' (.xchg Config.fill (.byte w.token) :: evs) →
        Talked s.env s.trace n e' tr' rest' ((w.packet (s.req.buf.bytes 0 512)).events ++ evs) := by
  rw [WriteReply.packet] at hrx
  simp only [Talk.answers_append, List.append_assoc, zip_answers] at hrx
  have hlen : w.during.toList.length = 512 := by simp
  obtain ⟨e1, tr1, hx1, ht1⟩ := sendAll_run [(Config.startToken, w.atToken)] hrx
  obtain ⟨e2, tr2, hx2, ht2⟩ := sendBlock_run w.during.toList ((s.io e1 tr1).withFsm .wData) 0
    (by rw [hlen]; decide) ht1.rx
  rw [hlen] at hx2
  obtain ⟨e3, tr3, hx3, ht3⟩ := sendAll_run [(0xFF#8, w.atCrc1), (0xFF#8, w.atCrc2)]
    (s := (((s.io e1 tr1).withFsm .wData).io e2 tr2).withFsm .wCrc) (rest := .byte w.token :: rest) ht2.rx
  refine ⟨e3, tr3, ?_, ht3.rx, fun n e' tr' evs rest' ht => ?_⟩
  · rw [fromWToken, run_bind_ok (show sendToken _ = _ from hx1), run_bind_ok (goFsm_run _ _), fromWData,
      show Config.blockLen = 512 from rfl, run_bind_ok hx2, run_bind_ok (goFsm_run _ _), fromWCrc,
      run_bind_ok (show sendDummyCrc _ = _ from hx3), run_bind_ok (goFsm_run _ _)]
    rfl
  · refine (ht1.trans (ht2.trans (ht3.trans ht))).cast (by omega) ?_
    rw [WriteReply.packet, hlen]
    simp only [List.append_assoc, Talk.events_append]
    rfl

/-- The same packet in CMD24, which is no step of an operation (R203). -/
theorem packet_run {s : State} {w : WriteReply} {rest : List Answer}
    (hrx : s.env.rx = (w.packet (s.req.buf.bytes 0 512)).answers ++ rest) :
    ∃ (e : Env) (tr : List Event),
      (∀ k : Unit → Proc Unit,
        (do sendToken; sendBlock Config.blockLen 0; sendDummyCrc >>= k : Proc Unit) s = k () (s.io e tr)) ∧
      e.rx = .byte w.token :: rest ∧
      ∀ (n : Nat) (e' : Env) (tr' : List Event) (evs : List Event) (rest' : List Answer),
        Talked e tr n e' tr' rest' (.xchg Config.fill (.byte w.token) :: evs) →
        Talked s.env s.trace n e' tr' rest' ((w.packet (s.req.buf.bytes 0 512)).events ++ evs) := by
  rw [WriteReply.packet] at hrx
  simp only [Talk.answers_append, List.append_assoc, zip_answers] at hrx
  have hlen : w.during.toList.length = 512 := by simp
  obtain ⟨e1, tr1, hx1, ht1⟩ := sendAll_run [(Config.startToken, w.atToken)] hrx
  obtain ⟨e2, tr2, hx2, ht2⟩ := sendBlock_run w.during.toList (s.io e1 tr1) 0 (by rw [hlen]; decide) ht1.rx
  rw [hlen] at hx2 ht2
  obtain ⟨e3, tr3, hx3, ht3⟩ := sendAll_run [(0xFF#8, w.atCrc1), (0xFF#8, w.atCrc2)]
    (s := (s.io e1 tr1).io e2 tr2) (rest := .byte w.token :: rest) ht2.rx
  refine ⟨e3, tr3, fun k => ?_, ht3.rx, fun n e' tr' evs rest' ht => ?_⟩
  · rw [run_bind_ok (show sendToken s = _ from hx1), show Config.blockLen = 512 from rfl, run_bind_ok hx2,
      run_bind_ok (show sendDummyCrc _ = _ from hx3)]
    rfl
  · refine (ht1.trans (ht2.trans (ht3.trans ht))).cast (by omega) ?_
    rw [WriteReply.packet]
    simp only [Talk.events_append, List.append_assoc]
    rfl

/-- WRBLK from W_TOKEN on, against a card that accepts (R314, R315, R317, R318). -/
theorem fromWToken_run {s : State} {w : WriteReply} {rest : List Answer}
    (hs : s.wrk.csActive = true) (hok : writeAccepted w.token = true) (hb : ∀ b ∈ w.busy, b ≠ Config.idleLine)
    (hrx : s.env.rx = (w.talk (s.req.buf.bytes 0 512)).answers ++ rest) (hc : w.InTime s.env 0) :
    ∃ (e : Env) (tr : List Event),
      fromWToken s = .ok () { s.done with
        wrk.dl1 := s.env.deadlineAt 0 600, wrk.csActive := false, wrk.dresp := w.token, env := e, trace := tr } ∧
      Talked s.env s.trace w.ticks e tr rest ((w.talk (s.req.buf.bytes 0 512)).events ++ [.cs false]) := by
  rw [WriteReply.talk, Talk.answers_append, List.append_assoc] at hrx
  obtain ⟨e1, tr1, hx1, hrx1, hall⟩ := fromWToken_packet hrx
  obtain ⟨e4, tr4, hx4, ht4⟩ := writeResponse_run (s := (s.withFsm .wResp).io e1 tr1) hok hrx1
  have ht := hall 0 _ _ [] _ ht4
  obtain ⟨e5, tr5, hx5, ht5⟩ := writeBusy_run
    (s := { s.withFsm .wBusy with wrk.dresp := w.token, env := e4, trace := tr4 }) hs hb ht4.rx
    (ht.before (i := 0) hc)
  have hd : e4.deadlineAt 0 600 = s.env.deadlineAt 0 600 := ht.deadlineAt 0 600
  simp only [hd] at hx5
  generalize s.env.deadlineAt 0 600 = d at hx5 ⊢
  refine ⟨e5, tr5, ?_, (ht.trans ht5).cast (Nat.zero_add _) ?_⟩
  · rw [hx1, fromWResp, run_bind_ok hx4, run_bind_ok (goFsm_run _ _), fromWBusy]
    erw [run_bind_ok hx5]
    rw [finish_run rfl]
    rfl
  · rw [WriteReply.talk]
    simp only [List.append_assoc, Talk.events_append, List.append_nil]

end Sys2Proof.Machine
end

