-- ==== Sys2Proof/Laws/Initialization.lean ====
section
/-! SUPPORT. How `INIT` runs against a card's script, state by state (R220 to R237): a run that reaches a state
and the step from there to the next, up to `I_COMMIT`; and how it ends on its own waits and checks. -/

namespace Sys2Proof.Machine

/-! ### The states of the sequence -/

/-- The step of the sequencer in a state of `INIT` (R25). -/
def InitStep.fsm : InitStep → Fsm
  | .reset => .iReset
  | .goIdle => .iGoIdle
  | .ifCond => .iIfCond
  | .opCond => .iOpCond
  | .ocr => .iOcr
  | .blkLen => .iBlkLen
  | .cid => .iCid
  | .csd => .iCsd
  | .commit => .iCommit

/-- `INIT` from a state on. -/
def InitStep.run : InitStep → Proc Unit
  | .reset => fromIReset
  | .goIdle => fromIGoIdle
  | .ifCond => fromIIfCond
  | .opCond => fromIOpCond
  | .ocr => fromIOcr
  | .blkLen => fromIBlkLen
  | .cid => fromICid
  | .csd => fromICsd
  | .commit => fromICommit

/-- The scratch buffer when `INIT` enters a state. -/
def InitScript.memory (x : InitScript) (m : Memory) : InitStep → Memory
  | .csd => m.write 0 x.cid.data.toList
  | .commit => (m.write 0 x.cid.data.toList).write 0 x.csd.data.toList
  | .reset => m
  | .goIdle => m
  | .ifCond => m
  | .opCond => m
  | .ocr => m
  | .blkLen => m
  | .cid => m

theorem memory_scratch (x : InitScript) (m : Memory) (g : InitStep) (hm : m.wf = true) :
    x.Scratch g m (x.memory m g) := by
  have h1 := Memory.get_write_zero x.cid.data m hm (by decide)
  have h2 := Memory.get_write_zero x.csd.data (m.write 0 x.cid.data.toList)
    (Memory.write_wf _ _ _ (by simp; decide) hm) (by decide)
  intro a
  cases g with
  | csd => exact h1 a
  | commit =>
    show ((m.write 0 x.cid.data.toList).write 0 x.csd.data.toList).get a = _
    rw [h2 a, h1 a]
    by_cases h : a < 16
    · rw [dif_pos h, dif_pos h]
      rfl
    · rw [dif_neg h, dif_neg h, dif_neg h]
  | reset => exact (dite_eq_ite.trans (ite_id _)).symm
  | goIdle => exact (dite_eq_ite.trans (ite_id _)).symm
  | ifCond => exact (dite_eq_ite.trans (ite_id _)).symm
  | opCond => exact (dite_eq_ite.trans (ite_id _)).symm
  | ocr => exact (dite_eq_ite.trans (ite_id _)).symm
  | blkLen => exact (dite_eq_ite.trans (ite_id _)).symm
  | cid => exact (dite_eq_ite.trans (ite_id _)).symm

/-- `INIT`, begun in `s`, stands in `u` at the state `g` of a card's script, with the answers `rest` left. -/
structure Reached (s : State) (x : InitScript) (g : InitStep) (rest : List Answer) (u : State) : Prop where
  only : CommandOnly ((s.initAt x g (x.memory s.wrk.scratch g)).inOp .init g.fsm) u
  level : u.wrk.csActive = levelAfter s.wrk.csActive (x.moves g)
  talked : Talked s.env s.trace (x.ticks g) u.env u.trace rest (levels s.wrk.csActive (x.moves g))

/-- Every script that is right up to the state `g` leads `INIT` there. -/
def Leads (s : State) (x : InitScript) (g : InitStep) : Prop :=
  ∀ rest : List Answer, x.Ok s.par g → x.InTime s.env g → s.env.rx = answersOf (x.moves g) ++ rest →
    ∃ u : State, exec .init s = settle g.run u ∧ Reached s x g rest u

section Next

variable {s u v : State} {x : InitScript} {g g' : InitStep} {rest : List Answer}

theorem moves_next (h : g'.before = g.before ++ [g]) : x.moves g' = x.moves g ++ x.movesIn g := by
  rw [InitScript.moves, h, List.flatMap_append, List.flatMap_singleton, InitScript.moves]

theorem ticks_next (h : g'.before = g.before ++ [g]) : x.ticks g' = x.ticks g + x.ticksIn g := by
  rw [InitScript.ticks, h, List.map_append, List.sum_append, InitScript.ticks]
  simp

/-- A run that reached a state and went through it has reached the next. -/
theorem Reached.next (h : Reached s x g (answersOf (x.movesIn g) ++ rest) u) (hg : g'.before = g.before ++ [g])
    (ho : CommandOnly ((s.initAt x g' (x.memory s.wrk.scratch g')).inOp .init g'.fsm) v)
    (hl : v.wrk.csActive = levelAfter u.wrk.csActive (x.movesIn g))
    (ht : Talked u.env u.trace (x.ticksIn g) v.env v.trace rest (levels u.wrk.csActive (x.movesIn g))) :
    Reached s x g' rest v where
  only := ho
  level := by rw [hl, h.level, moves_next hg, levelAfter_append]
  talked := by
    rw [h.level] at ht
    rw [moves_next hg, ticks_next hg, levels_append]
    exact h.talked.trans ht

/-- If a state is reached and the step from it goes on to the next, the next is reached. -/
theorem Leads.next (h : Leads s x g) (hg : g'.before = g.before ++ [g])
    (hstep : ∀ (rest : List Answer) (u : State), x.OkIn s.par g → x.InTimeIn s.env (x.ticks g) g →
      Reached s x g (answersOf (x.movesIn g) ++ rest) u → ∃ v : State, g.run u = g'.run v ∧ Reached s x g' rest v) :
    Leads s x g' := by
  intro rest hok hin hrx
  rw [moves_next hg, answersOf_append, List.append_assoc] at hrx
  have hmem : ∀ k, k ∈ g.before → k ∈ g'.before := fun k hk => by rw [hg]; exact List.mem_append_left _ hk
  have hlast : g ∈ g'.before := by rw [hg]; simp
  obtain ⟨u, hu, hr⟩ := h _ (fun k hk => hok k (hmem k hk)) (fun k hk => hin k (hmem k hk)) hrx
  obtain ⟨v, hv, hr'⟩ := hstep rest u (hok g hlast) (hin g hlast) hr
  exact ⟨v, hu.trans (settle_congr hv), hr'⟩

theorem Reached.par (h : Reached s x g rest u) : u.par = s.par := h.only.par

theorem Reached.scratch (h : Reached s x g rest u) : u.wrk.scratch = x.memory s.wrk.scratch g := by
  rw [h.only]
  rfl

/-- What a command leaves in a state that was reached. -/
theorem Reached.answered (h : Reached s x g rest u) (n : BitVec 6) (arg : BitVec 32) (b : Byte) (d : Clock) (e : Env)
    (tr : List Event) : u.answered n arg b d e tr =
      ((s.initAt x g (x.memory s.wrk.scratch g)).answered n arg b d e tr).inOp .init g.fsm := by
  rw [h.only.answered]
  rfl

theorem Reached.attempted (h : Reached s x g rest u) (n : BitVec 6) (arg : BitVec 32) (a : Attempt) (d : Clock)
    (e : Env) (tr : List Event) : u.attempted n arg a d e tr =
      ((s.initAt x g (x.memory s.wrk.scratch g)).attempted n arg a d e tr).inOp .init g.fsm := by
  rw [h.only.attempted]
  cases a <;> rfl

end Next

/-! ### Up to the go-idle loop -/

/-- A state with the card deselected, whatever it was. -/
theorem withCs_false (s : State) :
    s.withCs false = { s with wrk.csActive := false, trace := (s.withCs false).trace } := by
  obtain ⟨ses, seq, ⟨st, rto, dr, d0, d1, act, fr, r7, oc, sc⟩, req, res, par, env, tr, hport, port⟩ := s
  cases act <;> rfl

/-- `INIT` up to its go-idle loop (R220, R221, R222). -/
theorem leads_goIdle {s : State} (x : InitScript) (hi : s.seq.op = .idle) : Leads s x .goIdle := by
  intro rest _ _ hrx
  have hmoves : x.moves .goIdle = fillerMoves x.filler := List.append_nil _
  rw [hmoves] at hrx
  have h0 := cs_talked ({ s with
    seq.op := .init, seq.fsm := .iReset, ses.kind := .none, ses.blockCount := 0#64 } : State) false
  rw [fillerMoves, answersOf_cs, answersOf_talk] at hrx
  generalize hs1 : ({ s with
    seq.op := .init, seq.fsm := .iReset, ses.kind := .none, ses.blockCount := 0#64 } : State) = s1 at h0
  have he : s1.env = s.env := by rw [← hs1]
  have htr : s1.trace = s.trace := by rw [← hs1]
  have hcs : s1.csEvents false = s.csEvents false := by rw [← hs1]; rfl
  obtain ⟨e, tr, hx, ht⟩ := discard_run (s := s1.withCs false) (n := 10) (bs := x.filler.toList) (by simp)
    (by rw [withCs_env, he]; exact hrx)
  rw [withCs_env] at ht
  refine ⟨((s1.withCs false).io e tr).withFsm .iGoIdle, ?_, ?_, ?_, ?_⟩
  · refine (hostCall_idle hi).trans (settle_congr ?_)
    rw [run_bind_ok (start_run _ _ _), run_bind_ok (show enterInit _ = .ok () s1 by rw [← hs1]; rfl), fromIReset,
      run_bind_ok (run_cs _ _), show Config.nInitFiller = 10 from rfl, run_bind_ok hx, run_bind_ok (goFsm_run _ _)]
    rfl
  · rw [withCs_false, ← hs1]
    rfl
  · rw [hmoves, fillerMoves, levelAfter, levelAfter_talk, withCs_false]
    rfl
  · rw [he, htr, hcs] at h0
    rw [he] at ht
    rw [hmoves, fillerMoves, levels_cs, levels_talk]
    exact h0.trans ht

/-! ### The go-idle loop -/

theorem length_le_idleTicks (tries : List Attempt) : tries.length ≤ idleTicks tries := by
  induction tries with
  | nil => exact le_refl _
  | cons a as ih =>
    rw [show idleTicks (a :: as) = a.ticks + 1 + idleTicks as from rfl, List.length_cons]
    omega

theorem length_le_condTicks (tries : List AppAttempt) : tries.length ≤ condTicks tries := by
  induction tries with
  | nil => exact le_refl _
  | cons a as ih =>
    rw [show condTicks (a :: as) = a.ticks + 1 + condTicks as from rfl, List.length_cons]
    omega

theorem idleTicks_last (tries : List Attempt) (last : Attempt) :
    idleTicks (tries ++ [last]) = idleTicks tries + (last.ticks + 1) := by
  simp [idleTicks]

theorem condTicks_last (tries : List AppAttempt) (last : AppAttempt) :
    condTicks (tries ++ [last]) = condTicks tries + (last.ticks + 1) := by
  simp [condTicks]

theorem idleInTime_last {e : Env} {last : Attempt} : ∀ (tries : List Attempt) (i : Nat),
    IdleInTime e i (tries ++ [last]) → IdleInTime e i tries ∧ last.InTime e (i + idleTicks tries)
  | [], _, h => ⟨trivial, h.1⟩
  | a :: as, i, h => by
    obtain ⟨h1, h2⟩ := idleInTime_last as _ h.2
    refine ⟨⟨h.1, h1⟩, ?_⟩
    rwa [Nat.add_assoc] at h2

theorem condInTime_last {e : Env} {last : AppAttempt} : ∀ (tries : List AppAttempt) (i : Nat),
    CondInTime e i (tries ++ [last]) → CondInTime e i tries ∧ last.InTime e (i + condTicks tries)
  | [], _, h => ⟨trivial, h.1⟩
  | c :: cs, i, h => by
    obtain ⟨h1, h2⟩ := condInTime_last cs _ h.2
    refine ⟨⟨h.1, h1⟩, ?_⟩
    rwa [Nat.add_assoc] at h2

/-- `I_GOIDLE` against a card that goes idle in time (R223). -/
theorem goIdle_step {s u : State} {x : InitScript} {rest : List Answer} (hok : x.OkIn s.par .goIdle)
    (hin : x.InTimeIn s.env (x.ticks .goIdle) .goIdle)
    (h : Reached s x .goIdle (answersOf (x.movesIn .goIdle) ++ rest) u) :
    ∃ v : State, fromIGoIdle u = fromIIfCond v ∧ Reached s x .ifCond rest v := by
  have hrx := h.talked.rx
  rw [InitScript.movesIn, answersOf_append, answersOf_cs, answersOf_talk, List.append_assoc] at hrx
  have hb : u.env.Before 0 (idleTicks x.idleTries) 2000 := h.talked.before hin.1
  obtain ⟨e, tr, hx, ht⟩ := loadDl0_run hb.noWrap hrx
  have ht' := h.talked.trans ht
  obtain ⟨d1, e1, tr1, hx1, ht1⟩ := goIdleLoop_run (s := (u.withDl0 (u.env.deadlineAt 0 2000)).io e tr)
    (n := ((u.withDl0 (u.env.deadlineAt 0 2000)).io e tr).env.waitBound Config.tIdle) (tries := x.idleTries) hok.2.2
    (by
      have := hb.bound
      have := length_le_idleTicks x.idleTries
      rw [io_env, ht.clock.waitBound]
      show x.idleTries.length < (u.env.after 1).waitBound 2000
      omega)
    (by rw [io_par]; exact h.par ▸ hok.1) (by rw [io_par]; exact h.par ▸ hok.2.1) ht.rx
    (ht'.idle x.idleTries 0 hin.2.1) (ht'.busyWait hin.2.2)
    (fun k hk => by rw [io_env, ht.sampleAt]; exact hb.test hk)
  refine ⟨(((u.withDl0 (u.env.deadlineAt 0 2000)).io e tr).answered 0#6 0#32 0x01#8 d1 e1 tr1).withFsm .iIfCond, ?_,
    h.next rfl ?_ ?_ ?_⟩
  · rw [fromIGoIdle, run_bind_ok (show loadDl0 Config.tIdle u = _ from hx), run_bind_ok (run_rd _), run_bind_ok hx1,
      run_bind_ok (goFsm_run _ _)]
  · rw [h.talked.deadlineAt, Nat.add_zero, h.only]
    rfl
  · exact (levelAfter_last _ _ _ _).symm
  · exact ht.trans ht1

/-- `I_GOIDLE` against attempts that fail until the deadline has passed (R223). -/
theorem goIdle_late {s u : State} {x : InitScript} {last : Attempt} {rest : List Answer}
    (htries : ∀ a ∈ x.idleTries ++ [last], a.Ok s.par ∧ a.NotIdle)
    (hb : s.env.Before 0 (idleTicks x.idleTries) 2000) (hin : IdleInTime s.env 1 (x.idleTries ++ [last]))
    (hl : s.env.Reached 0 (idleTicks (x.idleTries ++ [last])) 2000)
    (h : Reached s x .goIdle
      (answersOf (x.idleTries.flatMap (Attempt.moves 0#6 0#32) ++ last.moves 0#6 0#32) ++ rest) u) :
    ∃ (e : Env) (tr : List Event), fromIGoIdle u = .error (.raise .noCard)
        ((({ s.initAt x .goIdle s.wrk.scratch with wrk.dl0 := s.env.deadlineAt 0 2000 } : State).attempted 0#6 0#32
          last (s.env.deadlineAt (1 + idleTicks x.idleTries) 300) e tr).inOp .init .iGoIdle) ∧
      Talked s.env s.trace (1 + idleTicks (x.idleTries ++ [last])) e tr rest (levels s.wrk.csActive
        (x.moves .goIdle ++ (x.idleTries.flatMap (Attempt.moves 0#6 0#32) ++ last.moves 0#6 0#32))) := by
  have hin' := idleInTime_last _ _ hin
  have hb' : u.env.Before 0 (idleTicks x.idleTries) 2000 := h.talked.before hb
  have hd : u.env.deadlineAt 0 2000 = s.env.deadlineAt 0 2000 := h.talked.deadlineAt 0 2000
  obtain ⟨e, tr, hx, ht⟩ := loadDl0_run hb'.noWrap h.talked.rx
  have ht' := h.talked.trans ht
  obtain ⟨e1, tr1, hx1, ht1⟩ := goIdleLoop_late (s := (u.withDl0 (u.env.deadlineAt 0 2000)).io e tr)
    (n := ((u.withDl0 (u.env.deadlineAt 0 2000)).io e tr).env.waitBound Config.tIdle) (tries := x.idleTries)
    (htries last (by simp)).2
    (by
      have := hb'.bound
      have := length_le_idleTicks x.idleTries
      rw [io_env, ht.clock.waitBound]
      show x.idleTries.length < (u.env.after 1).waitBound 2000
      omega)
    (by rw [io_par]; exact h.par ▸ fun a ha => htries a (List.mem_append_left _ ha))
    (by rw [io_par]; exact h.par ▸ (htries last (by simp)).1) ht.rx
    (ht'.idle x.idleTries 0 hin'.1) (ht'.attempt hin'.2)
    (fun k hk => by rw [io_env, ht.sampleAt]; exact hb'.test hk)
    (by
      show (u.env.deadlineAt 0 2000).toNat ≤ (e.sampleAt _).toNat
      rw [hd, hb.deadline, ht'.sampleAt]
      have hl' := hl
      rw [Env.Reached, idleTicks_last, Nat.zero_add] at hl'
      rwa [show x.ticks .goIdle = 0 from rfl, Nat.zero_add, Nat.add_comm 1, Nat.add_assoc] )
  rw [io_env, ht'.deadlineAt] at hx1
  rw [hd] at hx hx1
  refine ⟨e1, tr1, ?_, ?_⟩
  · rw [fromIGoIdle, run_bind_ok (show loadDl0 Config.tIdle u = _ from hx), run_bind_ok (run_rd _), io_env, run_bind_error hx1,
      h.only]
    cases last <;> rfl
  · refine (ht'.trans ht1).cast ?_ ?_
    · rw [idleTicks_last]
      show 0 + 1 + _ = _
      omega
    · rw [levels_append (x.moves _), ← h.level, List.append_nil]
      rfl

/-! ### The interface condition -/

/-- `I_IFCOND` against a card that passes (R225). -/
theorem ifCond_step {s u : State} {x : InitScript} {rest : List Answer} (hok : x.OkIn s.par .ifCond)
    (hin : x.InTimeIn s.env (x.ticks .ifCond) .ifCond)
    (h : Reached s x .ifCond (answersOf (x.movesIn .ifCond) ++ rest) u) :
    ∃ v : State, fromIIfCond u = fromIOpCond v ∧ Reached s x .opCond rest v := by
  have hrx := h.talked.rx
  rw [InitScript.movesIn, answersOf_cs, answersOf_talk, Talk.answers_append, List.append_assoc] at hrx
  obtain ⟨e2, tr2, hx2, ht2⟩ := issueCommand_run (by decide) (h.par ▸ hok.1) hrx (h.talked.busyWait (i := 0) hin)
  generalize u.env.deadlineAt 0 300 = d2 at hx2
  obtain ⟨e3, tr3, hx3, ht3⟩ := receivePayload_run (p := x.payload) (rest := rest)
    (s := u.answered 8#6 Config.cmd8Arg x.probe.resp d2 e2 tr2)
    (do let s ← rd; if r7Ok s.wrk.r7 then setKind .sd2 else raise .ifcondMismatch : Proc Unit) ht2.rx
  refine ⟨{ (u.answered 8#6 Config.cmd8Arg x.probe.resp d2 e3 tr3).withR7 x.payload with
    ses.kind := .sd2, seq.fsm := .iOpCond }, ?_, h.next rfl ?_ ?_ ?_⟩
  · have hic : interfaceCondition Config.cmd8Arg u =
        .ok () { (u.answered 8#6 Config.cmd8Arg x.probe.resp d2 e3 tr3).withR7 x.payload with
          ses.kind := .sd2 } := by
      rw [interfaceCondition, run_bind_ok hx2]
      simp only [Bool.false_eq_true, if_false, hok.2.1]
      rw [classifyPayload, hx3, run_bind_ok (run_rd _)]
      rw [if_pos (by show r7Ok x.payload = true; exact hok.2.2)]
      rfl
    rw [fromIIfCond, run_bind_ok hic, run_bind_ok (goFsm_run _ _)]
    rfl
  · rw [h.only]
    rfl
  · exact (levelAfter_talk _ _).symm
  · refine (ht2.trans ht3).cast rfl ?_
    rw [InitScript.movesIn, levels_cs, levels_talk, Talk.events_append, List.append_assoc]

/-! ### The operating condition -/

/-- `I_OPCOND` against a card that gets ready in time (R227). -/
theorem opCond_step {s u : State} {x : InitScript} {rest : List Answer} (hok : x.OkIn s.par .opCond)
    (hin : x.InTimeIn s.env (x.ticks .opCond) .opCond)
    (h : Reached s x .opCond (answersOf (x.movesIn .opCond) ++ rest) u) :
    ∃ v : State, fromIOpCond u = fromIOcr v ∧ Reached s x .ocr rest v := by
  have hrx := h.talked.rx
  rw [InitScript.movesIn, answersOf_append, List.append_assoc] at hrx
  have hk : u.ses.kind = .sd2 := by rw [h.only]; rfl
  have hb : u.env.Before 0 (condTicks x.condTries) 2000 := h.talked.before hin.1
  obtain ⟨e, tr, hx, ht⟩ := loadDl0_run hb.noWrap hrx
  have ht' := h.talked.trans ht
  obtain ⟨d1, e1, tr1, hx1, ht1⟩ := opCondLoop_run (s := (u.withDl0 (u.env.deadlineAt 0 2000)).io e tr)
    (n := ((u.withDl0 (u.env.deadlineAt 0 2000)).io e tr).env.waitBound Config.tOpCond) (tries := x.condTries) hok.2.2.2
    (by
      have := hb.bound
      have := length_le_condTicks x.condTries
      rw [io_env, ht.clock.waitBound]
      show x.condTries.length < (u.env.after 1).waitBound 2000
      omega)
    (by rw [io_par]; exact h.par ▸ hok.1) (by rw [io_par]; exact h.par ▸ ⟨hok.2.1, hok.2.2.1⟩) ht.rx
    (ht'.cond x.condTries 0 hin.2.1) (ht'.appAttempt hin.2.2)
    (fun k hk => by rw [io_env, ht.sampleAt]; exact hb.test hk)
  refine ⟨(((u.withDl0 (u.env.deadlineAt 0 2000)).io e tr).answered 41#6 Config.hcsArg 0x00#8 d1 e1 tr1).withFsm .iOcr,
    ?_, h.next rfl ?_ ?_ ?_⟩
  · rw [fromIOpCond, run_bind_ok (run_rd _), run_bind_ok (show loadDl0 Config.tOpCond u = _ from hx),
      run_bind_ok (run_rd _), opCondArg, if_pos hk, run_bind_ok hx1, run_bind_ok (goFsm_run _ _)]
  · rw [h.talked.deadlineAt, Nat.add_zero, h.only]
    rfl
  · rw [InitScript.movesIn, AppAttempt.moves, Attempt.moves, levelAfter_append]
    exact (levelAfter_last _ _ (_ :: _) _).symm
  · exact ht.trans ht1

/-- `I_OPCOND` against attempts that fail until the deadline has passed (R227, R228). -/
theorem opCond_late {s u : State} {x : InitScript} {last : AppAttempt} {rest : List Answer}
    (htries : ∀ c ∈ x.condTries ++ [last], c.Ok s.par ∧ c.NotReady)
    (hb : s.env.Before (x.ticks .opCond) (condTicks x.condTries) 2000)
    (hin : CondInTime s.env (x.ticks .opCond + 1) (x.condTries ++ [last]))
    (hl : s.env.Reached (x.ticks .opCond) (condTicks (x.condTries ++ [last])) 2000)
    (h : Reached s x .opCond
      (answersOf (x.condTries.flatMap (AppAttempt.moves Config.hcsArg) ++ last.moves Config.hcsArg) ++ rest) u) :
    ∃ (e : Env) (tr : List Event), fromIOpCond u = .error (.raise last.reply.error)
        ((({ s.initAt x .opCond s.wrk.scratch with
            wrk.dl0 := s.env.deadlineAt (x.ticks .opCond) 2000 } : State).appAttempted Config.hcsArg
          last (s.env.deadlineAt (x.ticks .opCond + 1 + condTicks x.condTries + last.loadAt) 300) e tr).inOp
            .init .iOpCond) ∧
      Talked s.env s.trace (x.ticks .opCond + 1 + condTicks (x.condTries ++ [last])) e tr rest (levels s.wrk.csActive
        (x.moves .opCond ++
          (x.condTries.flatMap (AppAttempt.moves Config.hcsArg) ++ last.moves Config.hcsArg))) := by
  have hin' := condInTime_last _ _ hin
  have hk : u.ses.kind = .sd2 := by rw [h.only]; rfl
  have hb' : u.env.Before 0 (condTicks x.condTries) 2000 := h.talked.before hb
  have hd : u.env.deadlineAt 0 2000 = s.env.deadlineAt (x.ticks .opCond) 2000 := h.talked.deadlineAt 0 2000
  obtain ⟨e, tr, hx, ht⟩ := loadDl0_run hb'.noWrap h.talked.rx
  have ht' := h.talked.trans ht
  obtain ⟨e1, tr1, hx1, ht1⟩ := opCondLoop_late (s := (u.withDl0 (u.env.deadlineAt 0 2000)).io e tr)
    (n := ((u.withDl0 (u.env.deadlineAt 0 2000)).io e tr).env.waitBound Config.tOpCond) (tries := x.condTries)
    (htries last (by simp)).2
    (by
      have := hb'.bound
      have := length_le_condTicks x.condTries
      rw [io_env, ht.clock.waitBound]
      show x.condTries.length < (u.env.after 1).waitBound 2000
      omega)
    (by rw [io_par]; exact h.par ▸ fun a ha => htries a (List.mem_append_left _ ha))
    (by rw [io_par]; exact h.par ▸ (htries last (by simp)).1) ht.rx
    (ht'.cond x.condTries 0 hin'.1) (ht'.appAttempt hin'.2)
    (fun k hk => by rw [io_env, ht.sampleAt]; exact hb'.test hk)
    (by
      show (u.env.deadlineAt 0 2000).toNat ≤ (e.sampleAt _).toNat
      rw [hd, hb.deadline, ht'.sampleAt]
      have hl' := hl
      rw [Env.Reached, condTicks_last] at hl'
      rwa [Nat.add_assoc, Nat.add_comm 1, Nat.add_assoc])
  rw [io_env, ht'.deadlineAt, ← Nat.add_assoc] at hx1
  rw [hd] at hx hx1
  refine ⟨e1, tr1, ?_, ?_⟩
  · rw [fromIOpCond, run_bind_ok (run_rd _), run_bind_ok (show loadDl0 Config.tOpCond u = _ from hx),
      run_bind_ok (run_rd _), opCondArg, if_pos hk, io_env, run_bind_error hx1, h.only]
    rcases last with ⟨r, a | a⟩ | q <;> rfl
  · refine (ht'.trans ht1).cast ?_ ?_
    · rw [condTicks_last]
      omega
    · rw [levels_append (x.moves _), ← h.level, List.append_nil]
      rfl

/-! ### On to the commit -/

/-- `I_OCR` against a card that answers 0x00 (R230, R231). -/
theorem ocr_step {s u : State} {x : InitScript} {rest : List Answer} (hok : x.OkIn s.par .ocr)
    (hin : x.InTimeIn s.env (x.ticks .ocr) .ocr) (h : Reached s x .ocr (answersOf (x.movesIn .ocr) ++ rest) u) :
    ∃ v : State, fromIOcr u = fromIBlkLen v ∧ Reached s x .blkLen rest v := by
  have hrx := h.talked.rx
  rw [InitScript.movesIn, answersOf_cs, answersOf_talk] at hrx
  have hk : u.ses.kind = .sd2 := by rw [h.only]; rfl
  obtain ⟨e, tr, hx, ht⟩ := readOcr_run (h.par ▸ hok.1) hok.2 hrx (h.talked.busyWait (i := 0) hin)
  rw [hk] at hx
  generalize u.env.deadlineAt 0 300 = d at hx
  refine ⟨{ u.answered 58#6 0#32 0x00#8 d e tr with
    wrk.ocr0 := x.ocr[0], ses.kind := if 0xC0#8 ≤ x.ocr[0] then .sdhc else .sd2, seq.fsm := .iBlkLen }, ?_,
    h.next rfl ?_ ?_ ?_⟩
  · rw [fromIOcr, run_bind_ok (show ocrStep u = .ok () _ by
        rw [ocrStep, run_bind_ok (run_rd _), if_pos hk]
        exact hx), run_bind_ok (goFsm_run _ _)]
    rfl
  · rw [h.only]
    rfl
  · exact (levelAfter_talk _ _).symm
  · refine ht.cast rfl ?_
    rw [InitScript.movesIn, levels_cs, levels_talk]

/-- `I_BLKLEN` against a card that answers 0x00 (R232). -/
theorem blkLen_step {s u : State} {x : InitScript} {rest : List Answer} (hok : x.OkIn s.par .blkLen)
    (hin : x.InTimeIn s.env (x.ticks .blkLen) .blkLen)
    (h : Reached s x .blkLen (answersOf (x.movesIn .blkLen) ++ rest) u) :
    ∃ v : State, fromIBlkLen u = fromICid v ∧ Reached s x .cid rest v := by
  have hrx := h.talked.rx
  rw [InitScript.movesIn, answersOf_cs, answersOf_talk] at hrx
  obtain ⟨e, tr, hx, ht⟩ := ensureZeroStatus_run (by decide) (h.par ▸ hok.1) hok.2 hrx
    (h.talked.busyWait (i := 0) hin)
  generalize u.env.deadlineAt 0 300 = d at hx
  refine ⟨(u.answered 16#6 Config.cmd16Arg 0x00#8 d e tr).withFsm .iCid, ?_, h.next rfl ?_ ?_ ?_⟩
  · rw [fromIBlkLen, run_bind_ok hx, run_bind_ok (goFsm_run _ _)]
  · rw [h.only]
    rfl
  · exact (levelAfter_talk _ _).symm
  · refine ht.cast rfl ?_
    rw [InitScript.movesIn, levels_cs, levels_talk]

theorem readMoves_answers (n : BitVec 6) (r : CardReply) (d : DataReply 16) :
    answersOf (readMoves n r d) = (r.talk n 0#32 ++ d.talk).answers := by
  rw [readMoves, List.cons_append, answersOf_cs, answersOf_append, answersOf_talk]
  exact List.append_nil _

theorem readMoves_levels (s : State) (n : BitVec 6) (r : CardReply) (d : DataReply 16) :
    levels s.wrk.csActive (readMoves n r d) =
      s.csEvents true ++ (r.talk n 0#32 ++ d.talk).events ++ [.cs false] := by
  rw [readMoves, List.cons_append, levels_cs, levels_append, levels_talk, levelAfter_talk, List.append_assoc]
  rfl

theorem readMoves_level (l : Bool) (n : BitVec 6) (r : CardReply) (d : DataReply 16) :
    levelAfter l (readMoves n r d) = false := by
  rw [readMoves, List.cons_append, levelAfter, levelAfter_append, levelAfter_talk]
  rfl

/-- `I_CID` against a card that delivers (R233). -/
theorem cid_step {s u : State} {x : InitScript} {rest : List Answer} (hwf : s.wrk.scratch.wf = true)
    (hok : x.OkIn s.par .cid) (hin : x.InTimeIn s.env (x.ticks .cid) .cid)
    (h : Reached s x .cid (answersOf (x.movesIn .cid) ++ rest) u) :
    ∃ v : State, fromICid u = fromICsd v ∧ Reached s x .csd rest v := by
  have hrx := h.talked.rx
  rw [InitScript.movesIn, readMoves_answers] at hrx
  obtain ⟨e, tr, hx, ht⟩ := readRegister_run (by decide) (h.par ▸ hok.1) hok.2 (by rw [h.scratch]; exact hwf) hrx
    (h.talked.busyWait (i := 0) hin.1) (h.talked.before hin.2)
  generalize u.env.deadlineAt x.cidReply.ticks 300 = d at hx
  refine ⟨{ u.answered 10#6 0#32 0x00#8 d e tr with
    seq.fsm := .iCsd, ses.cid := x.cid.data, wrk.csActive := false
    wrk.scratch := u.wrk.scratch.write 0 x.cid.data.toList }, ?_, h.next rfl ?_ ?_ ?_⟩
  · rw [fromICid, run_bind_ok hx, run_bind_ok (show setCid x.cid.data _ = .ok () { u.answered 10#6 0#32 0x00#8 d e tr with
        ses.cid := x.cid.data, wrk.csActive := false
        wrk.scratch := u.wrk.scratch.write 0 x.cid.data.toList } from rfl),
      run_bind_ok (goFsm_run _ _)]
    rfl
  · rw [h.only]
    rfl
  · rw [InitScript.movesIn, readMoves_level]
  · refine ht.cast rfl ?_
    rw [InitScript.movesIn, readMoves_levels]

/-- `I_CSD` against a card that delivers (R234). -/
theorem csd_step {s u : State} {x : InitScript} {rest : List Answer} (hwf : s.wrk.scratch.wf = true)
    (hok : x.OkIn s.par .csd) (hin : x.InTimeIn s.env (x.ticks .csd) .csd)
    (h : Reached s x .csd (answersOf (x.movesIn .csd) ++ rest) u) :
    ∃ (e : Env) (tr : List Event), fromICsd u = fromICommit
        ((s.initRead x (x.memory s.wrk.scratch .commit) e tr).inOp .init .iCommit) ∧
      Talked s.env s.trace (x.ticks .commit) e tr rest (levels s.wrk.csActive (x.moves .commit)) := by
  have hrx := h.talked.rx
  rw [InitScript.movesIn, readMoves_answers] at hrx
  obtain ⟨e, tr, hx, ht⟩ := readRegister_run (by decide) (h.par ▸ hok.1) hok.2
    (by rw [h.scratch]; exact Memory.write_wf _ _ _ (by simp; decide) hwf) hrx
    (h.talked.busyWait (i := 0) hin.1) (h.talked.before hin.2)
  rw [h.talked.deadlineAt] at hx
  refine ⟨e, tr, ?_, ?_⟩
  · rw [fromICsd, run_bind_ok hx, run_bind_ok (show setCsd x.csd.data _ = .ok ()
        { u.answered 9#6 0#32 0x00#8 (s.env.deadlineAt (x.ticks .csd + x.csdReply.ticks) 300) e tr with
          ses.csd := x.csd.data, wrk.csActive := false
          wrk.scratch := u.wrk.scratch.write 0 x.csd.data.toList } from rfl),
      run_bind_ok (goFsm_run _ _), h.only]
    rfl
  · rw [moves_next (g := .csd) rfl, ticks_next (g := .csd) rfl, levels_append, ← h.level, InitScript.movesIn,
      readMoves_levels]
    exact h.talked.trans ht

/-! ### The whole initialization up to a state -/

theorem leads_ifCond {s : State} (x : InitScript) (hi : s.seq.op = .idle) : Leads s x .ifCond :=
  (leads_goIdle x hi).next rfl fun _ _ => goIdle_step

theorem leads_opCond {s : State} (x : InitScript) (hi : s.seq.op = .idle) : Leads s x .opCond :=
  (leads_ifCond x hi).next rfl fun _ _ => ifCond_step

theorem leads_ocr {s : State} (x : InitScript) (hi : s.seq.op = .idle) : Leads s x .ocr :=
  (leads_opCond x hi).next rfl fun _ _ => opCond_step

theorem leads_blkLen {s : State} (x : InitScript) (hi : s.seq.op = .idle) : Leads s x .blkLen :=
  (leads_ocr x hi).next rfl fun _ _ => ocr_step

theorem leads_cid {s : State} (x : InitScript) (hi : s.seq.op = .idle) : Leads s x .cid :=
  (leads_blkLen x hi).next rfl fun _ _ => blkLen_step

theorem leads_csd {s : State} (x : InitScript) (hi : s.seq.op = .idle) (hwf : s.wrk.scratch.wf = true) :
    Leads s x .csd :=
  (leads_cid x hi).next rfl fun _ _ => cid_step hwf

@[simp] theorem initRead_csd (s : State) (x : InitScript) (m : Memory) (e : Env) (tr : List Event) :
    (s.initRead x m e tr).ses.csd = x.csd.data := by
  unfold State.initRead
  rfl

@[simp] theorem initRead_csActive (s : State) (x : InitScript) (m : Memory) (e : Env) (tr : List Event) :
    (s.initRead x m e tr).wrk.csActive = false := by
  unfold State.initRead
  rfl

/-- The success exit forgets where in which operation it is taken. -/
theorem done_inOp (s : State) (o : Op) (x : Fsm) : (s.inOp o x).done = s.done := rfl

/-- `INIT` from an idle engine to `I_COMMIT` against a card's script (R220 to R234). -/
theorem exec_init_read {s : State} {x : InitScript} {rest : List Answer} (hi : s.seq.op = .idle)
    (hwf : s.wrk.scratch.wf = true) (hok : x.Ok s.par .commit) (hin : x.InTime s.env .commit)
    (hrx : s.env.rx = answersOf (x.moves .commit) ++ rest) :
    ∃ (e : Env) (tr : List Event),
      exec .init s = settle fromICommit ((s.initRead x (x.memory s.wrk.scratch .commit) e tr).inOp .init .iCommit) ∧
      e.rx = rest ∧ bus tr = bus s.trace ++ levels s.wrk.csActive (x.moves .commit) := by
  rw [moves_next (g := .csd) rfl, answersOf_append, List.append_assoc] at hrx
  obtain ⟨u, hu, hr⟩ := leads_csd x hi hwf _ (fun k hk => hok k (List.mem_append_left [InitStep.csd] hk))
    (fun k hk => hin k (List.mem_append_left [InitStep.csd] hk)) hrx
  obtain ⟨e, tr, hx, ht⟩ := csd_step hwf (hok .csd (by decide)) (hin .csd (by decide)) hr
  exact ⟨e, tr, hu.trans (settle_congr hx), ht.rx, ht.bus⟩

/-- The checks of `I_COMMIT` that fail (R235). -/
theorem fromICommit_error {s : State} {err : Err} (h : csdBlockCount s.ses.csd = none ∧ err = .notSupported ∨
    (∃ n : BitVec 64, csdBlockCount s.ses.csd = some n ∧ 2 ^ 32 ≤ n.toNat ∧ err = .notSupported) ∨
    csdBlockCount s.ses.csd = some 0#64 ∧ err = .noBlocks) : fromICommit s = .error (.raise err) s := by
  rw [fromICommit, run_bind_ok (run_rd _)]
  rcases h with ⟨h, rfl⟩ | ⟨n, h, hn, rfl⟩ | ⟨h, rfl⟩
  · rw [h]
    rfl
  · rw [h]
    simp only []
    rw [if_pos (by unfold Config.countMax; omega)]
    rfl
  · rw [h]
    simp only []
    rw [if_neg (by unfold Config.countMax; decide), if_pos trivial]
    rfl

end Sys2Proof.Machine
end

