-- ==== Sys2Proof/Laws/PerInstr.lean ====
section
/-! SUPPORT. A law of every instruction as syntax: the number of bytes its encoding takes (R90, R130, R131). -/

namespace Sys2Proof.Laws.EncodeSize

/-- How many bytes a format takes (R90: `FRAME_LEN`; R130: one nibble; R131). -/
def size : Format → Nat
  | .hostop4 => 1
  | .cmdframe48 => 6
  | .pseudoAcmd41 => 12
  | .pseudoZcmd => 6
  | .pseudoRdreg => 6

/-- An instruction's encoding has the length of its format. -/
def Statement (i : Instr) : Prop := (encode i).bytes.length = size (encode i).fmt

theorem cmd0 (arg : BitVec 32) : Statement (.cmd0 arg) := rfl
theorem cmd8 (arg : BitVec 32) : Statement (.cmd8 arg) := rfl
theorem cmd9 (arg : BitVec 32) : Statement (.cmd9 arg) := rfl
theorem cmd10 (arg : BitVec 32) : Statement (.cmd10 arg) := rfl
theorem cmd12 (arg : BitVec 32) : Statement (.cmd12 arg) := rfl
theorem cmd16 (arg : BitVec 32) : Statement (.cmd16 arg) := rfl
theorem cmd17 (arg : BitVec 32) : Statement (.cmd17 arg) := rfl
theorem cmd24 (arg : BitVec 32) : Statement (.cmd24 arg) := rfl
theorem cmd55 (arg : BitVec 32) : Statement (.cmd55 arg) := rfl
theorem cmd41 (arg : BitVec 32) : Statement (.cmd41 arg) := rfl
theorem cmd58 (arg : BitVec 32) : Statement (.cmd58 arg) := rfl
theorem nop : Statement .nop := rfl
theorem init : Statement .init := rfl
theorem rdblk : Statement .rdblk := rfl
theorem wrblk : Statement .wrblk := rfl
theorem blkcnt : Statement .blkcnt := rfl
theorem cid : Statement .cid := rfl
theorem csd : Statement .csd := rfl
theorem lastcrc : Statement .lastcrc := rfl
theorem kind : Statement .kind := rfl
theorem calccrc : Statement .calccrc := rfl
theorem csdvalid : Statement .csdvalid := rfl
theorem reservedB : Statement .reservedB := rfl
theorem reservedC : Statement .reservedC := rfl
theorem reservedD : Statement .reservedD := rfl
theorem reservedE : Statement .reservedE := rfl
theorem reservedF : Statement .reservedF := rfl
theorem acmd41 (arg : BitVec 32) : Statement (.acmd41 arg) := rfl
theorem zcmd (n : BitVec 6) (arg : BitVec 32) : Statement (.zcmd n arg) := rfl
theorem rdreg (n : BitVec 6) : Statement (.rdreg n) := rfl

end Sys2Proof.Laws.EncodeSize
end

