-- ==== Sys2Proof/Tests/Slice0.lean ====
section
/-! SUPPORT. Tests. Expected values are the spec's: the frames and vectors of 95_test_vectors.md (named in
the comments), the tables of 30_encoding.md and 46_host_operations.md. The last part shows, for each
statement with hypotheses, a concrete state that meets them. -/

namespace Sys2Proof.Tests

open Sys2Proof.Machine

-- One test after the other: each evaluation waits for the kernel with a thread of its own otherwise.
set_option Elab.async false

/-! ### Well-formedness: each check refuses an ill-formed term -/

theorem test_wf_cmd0 : (Instr.cmd0 1#32).wellFormed = false := by decide
theorem test_wf_cmd8 : (Instr.cmd8 0x000001AB#32).wellFormed = false := by decide
theorem test_wf_cmd9 : (Instr.cmd9 1#32).wellFormed = false := by decide
theorem test_wf_cmd10 : (Instr.cmd10 1#32).wellFormed = false := by decide
theorem test_wf_cmd12 : (Instr.cmd12 1#32).wellFormed = false := by decide
theorem test_wf_cmd16 : (Instr.cmd16 0x00000400#32).wellFormed = false := by decide
theorem test_wf_cmd55 : (Instr.cmd55 1#32).wellFormed = false := by decide
theorem test_wf_cmd41 : (Instr.cmd41 0x80000000#32).wellFormed = false := by decide
theorem test_wf_cmd58 : (Instr.cmd58 1#32).wellFormed = false := by decide
theorem test_wf_acmd41 : (Instr.acmd41 1#32).wellFormed = false := by decide
theorem test_wf_zcmd_index : (Instr.zcmd 0#6 0#32).wellFormed = false := by decide
theorem test_wf_zcmd_arg : (Instr.zcmd 16#6 0#32).wellFormed = false := by decide
theorem test_wf_rdreg : (Instr.rdreg 17#6).wellFormed = false := by decide
theorem test_wf_accepts : (Instr.cmd17 0xFFFFFE00#32).wellFormed = true ∧ (Instr.zcmd 24#6 3#32).wellFormed = true :=
  by decide

/-! ### Decoding: words of 95 §2.3 (V-F1 to V-F19), 30_encoding.md R130 and R131 -/

theorem test_decode_cmd0 : decodeTableWord 48 0x400000000095 = some (.cmd0 0#32) := by decide +kernel
theorem test_decode_cmd8 : decodeTableWord 48 0x48000001AA87 = some (.cmd8 0x000001AA#32) := by decide +kernel
theorem test_decode_cmd9 : decodeTableWord 48 0x4900000000AF = some (.cmd9 0#32) := by decide +kernel
theorem test_decode_cmd10 : decodeTableWord 48 0x4A000000001B = some (.cmd10 0#32) := by decide +kernel
theorem test_decode_cmd12 : decodeTableWord 48 0x4C0000000061 = some (.cmd12 0#32) := by decide +kernel
theorem test_decode_cmd16 : decodeTableWord 48 0x500000020015 = some (.cmd16 0x00000200#32) := by decide +kernel
theorem test_decode_cmd17 : decodeTableWord 48 0x510000000147 = some (.cmd17 1#32) := by decide +kernel
theorem test_decode_cmd17_low : decodeTableWord 48 0x51FFFFFFFE6D = some (.cmd17 0xFFFFFFFE#32) := by decide +kernel
theorem test_decode_cmd24 : decodeTableWord 48 0x58000006001B = some (.cmd24 0x00000600#32) := by decide +kernel
theorem test_decode_cmd55 : decodeTableWord 48 0x770000000065 = some (.cmd55 0#32) := by decide +kernel
theorem test_decode_cmd41 : decodeTableWord 48 0x6900000000E5 = some (.cmd41 0#32) := by decide +kernel
theorem test_decode_cmd58 : decodeTableWord 48 0x7A00000000FD = some (.cmd58 0#32) := by decide +kernel
/-- The table's own match word of CMD0, CMD17: the CRC field left at 0 (log 12). -/
theorem test_decode_table_word : decodeTableWord 48 0x400000000001 = some (.cmd0 0#32) ∧
    decodeTableWord 48 0x510000000001 = some (.cmd17 0#32) := by decide +kernel
/-- The frames of V-F20, alone and as ZCMD63 (R92, R113), and of a wrong trailing byte are no command. -/
theorem test_decode_rejects :
    decode ⟨.pseudoZcmd, [0x7F#8, 0xFF#8, 0xFF#8, 0xFF#8, 0xFF#8, 0x19#8]⟩ = .error .commandIndex ∧ decodeTableWord 48 0x7FFFFFFFFF19 = none ∧
    decodeTableWord 48 0x400000000097 = none ∧ decodeTableWord 48 0x400000000094 = none ∧
    decodeTableWord 48 0x000000000095 = none := by decide +kernel
theorem test_decode_host_low : decodeTableWord 4 0x0 = some .nop ∧ decodeTableWord 4 0x1 = some .init ∧
    decodeTableWord 4 0x2 = some .rdblk ∧ decodeTableWord 4 0x3 = some .wrblk ∧
    decodeTableWord 4 0x4 = some .blkcnt ∧ decodeTableWord 4 0x5 = some .cid ∧
    decodeTableWord 4 0x6 = some .csd ∧ decodeTableWord 4 0x7 = some .lastcrc := by decide +kernel
theorem test_decode_host_high : decodeTableWord 4 0x8 = some .kind ∧ decodeTableWord 4 0x9 = some .calccrc ∧
    decodeTableWord 4 0xA = some .csdvalid ∧ decodeTableWord 4 0xB = some .reservedB ∧
    decodeTableWord 4 0xC = some .reservedC ∧ decodeTableWord 4 0xD = some .reservedD ∧
    decodeTableWord 4 0xE = some .reservedE ∧ decodeTableWord 4 0xF = some .reservedF := by decide +kernel
theorem test_decode_acmd41 :
    decodeTableWord 96 0x770000000065694000000077 = some (.acmd41 0x40000000#32) := by decide +kernel
theorem test_decode_zcmd : decode ⟨.pseudoZcmd, [0x50#8, 0x00#8, 0x00#8, 0x02#8, 0x00#8, 0x15#8]⟩ =
    .ok (.zcmd 16#6 0x00000200#32) := by decide +kernel
theorem test_decode_rdreg : decode ⟨.pseudoRdreg, [0x4A#8, 0x00#8, 0x00#8, 0x00#8, 0x00#8, 0x1B#8]⟩ =
    .ok (.rdreg 10#6) := by decide +kernel

/-! ### Checksums and register images (95 §2.1, §2.2, §3) -/

/-- V-C7-6, V-C7-8. -/
theorem test_crc7 :
    crc7 [0x31#8, 0x32#8, 0x33#8, 0x34#8, 0x35#8, 0x36#8, 0x37#8, 0x38#8, 0x39#8] = 0x75#7 ∧
    crc7ByTable [0x48#8, 0x00#8, 0x00#8, 0x01#8, 0xAA#8] = 0x43#7 := by decide +kernel
/-- V-C16-5, V-C16-6, V-C16-12. -/
theorem test_crc16 : crc16 [0xFF#8] = 0x1EF0#16 ∧
    crc16 [0x31#8, 0x32#8, 0x33#8, 0x34#8, 0x35#8, 0x36#8, 0x37#8, 0x38#8, 0x39#8] = 0x31C3#16 ∧
    crc16 [0x40#8, 0x00#8, 0x00#8, 0x00#8, 0x00#8] = 0x1168#16 := by decide +kernel

/-- CSD-A of 95 §3.1. -/
def csdA : Image := #v[0x00#8, 0x26#8, 0x00#8, 0x32#8, 0x5F#8, 0x5A#8, 0x83#8, 0xC3#8, 0xED#8, 0xDB#8, 0xFF#8,
  0x9F#8, 0x92#8, 0x80#8, 0x00#8, 0x07#8]
/-- CSD-B of 95 §3.1. -/
def csdB : Image := #v[0x00#8, 0x0E#8, 0x01#8, 0x5A#8, 0x1B#8, 0x59#8, 0xF0#8, 0x00#8, 0x2D#8, 0xD8#8, 0x00#8,
  0x00#8, 0x02#8, 0x60#8, 0xFC#8, 0x63#8]
/-- CSD-E of 95 §3.1. -/
def csdE : Image := #v[0x40#8, 0x0E#8, 0x00#8, 0x32#8, 0x5B#8, 0x59#8, 0x00#8, 0x00#8, 0x3B#8, 0x37#8, 0x7F#8,
  0x80#8, 0x0A#8, 0x40#8, 0x00#8, 0x67#8]
/-- CSD-G of 95 §3.1. -/
def csdG : Image := #v[0x40#8, 0x0E#8, 0x00#8, 0x32#8, 0x5B#8, 0x59#8, 0x00#8, 0x00#8, 0x00#8, 0x00#8, 0x7F#8,
  0x80#8, 0x0A#8, 0x40#8, 0x00#8, 0x23#8]
/-- CSD-H of 95 §3.1. -/
def csdH : Image := #v[0x40#8, 0x0E#8, 0x00#8, 0x32#8, 0x5B#8, 0x50#8, 0x00#8, 0x00#8, 0x3B#8, 0x37#8, 0x7F#8,
  0x80#8, 0x0A#8, 0x40#8, 0x00#8, 0x0F#8]
/-- CSD-J of 95 §3.1. -/
def csdJ : Image := #v[0x80#8, 0x0E#8, 0x00#8, 0x32#8, 0x5B#8, 0x59#8, 0x00#8, 0x00#8, 0x3B#8, 0x37#8, 0x7F#8,
  0x80#8, 0x0A#8, 0x40#8, 0x00#8, 0xAB#8]
/-- CID-A of 95 §3.2. -/
def cidA : Image := #v[0x03#8, 0x53#8, 0x44#8, 0x53#8, 0x55#8, 0x30#8, 0x38#8, 0x47#8, 0x80#8, 0x12#8, 0x34#8,
  0x56#8, 0x78#8, 0x00#8, 0xBC#8, 0x13#8]

theorem test_csd_capacity : csdDeviceSize csdA = some 2021654528#64 ∧ csdBlockCount csdA = some 1974272#64 ∧
    csdDeviceSize csdE = some 7761408000#64 ∧ csdBlockCount csdE = some 15159000#64 ∧
    csdBlockCount csdJ = none := by decide +kernel
theorem test_csd_fields : csdCcc csdB = 0x1B5#12 ∧ csdNsac csdB = 0x01#8 ∧ csdSectorSize csdB = 1#8 ∧
    csdWpGrpSize csdA = 32#8 ∧ csdWriteBlExp csdA = 10#4 ∧ csdFileFormat csdB = .unknown ∧
    csdRateKbps csdA = some 10000 ∧ csdTaacUnit csdA = some 1000000 ∧ csdDsrImp csdB = true := by decide +kernel
theorem test_csd_valid : csdIsValid csdA = true ∧ csdIsValid csdJ = true ∧
    csdIsValid (csdA.set 7 0xD3#8) = false ∧ csdIsValid (csdA.set 15 0x06#8) = false := by decide +kernel
theorem test_cid_fields : cidManufacturerId cidA = 0x03#8 ∧ cidOemId cidA = 0x5344#16 ∧
    cidProductName cidA = [0x53#8, 0x55#8, 0x30#8, 0x38#8, 0x47#8] ∧ cidRevisionMajor cidA = 8#4 ∧
    cidSerial cidA = 0x12345678#32 ∧ cidYearCode cidA = 0x0B#8 ∧ cidMonth cidA = 12#4 := by decide +kernel

/-! ### Steps on small states -/

/-- The reset state with `N_RESP_POLL` = 2, `TCODE_W` = 8, and these inputs. -/
def demo (rx : List Answer) (clk : List Clock) : State :=
  { State.reset with
    par := { pollExtra := 1, tcodeW := 8 }
    env := { rx := rx, clk := clk, rxCount := 0, clkCount := 0, lastClk := 0#64, hold := Config.firstHold } }

/-- The state inside an operation that issues commands. -/
def within (s : State) (op : Op) (fsm : Fsm) : State := { s with seq := { op := op, fsm := fsm, cfsm := .cOff } }

/-- The state of a ready session: kind and block count (95 programs P6b and P7). -/
def withSession (s : State) (k : CardKind) (n : BitVec 64) : State :=
  { s with ses.kind := k, ses.blockCount := n }

/-- Received bytes. -/
def heard (bytes : List Byte) : List Answer := bytes.map Answer.byte

/-- The outcome is a next state with a property. -/
def nextAnd (o : Host.Outcome State Fault Refusal) (f : State → Bool) : Bool :=
  match o with
  | .next t => f t
  | .fault _ => false
  | .refused _ => false

theorem nextAnd_exists {o : Host.Outcome State Fault Refusal} {f : State → Bool} (h : nextAnd o f = true) :
    ∃ t : State, o = .next t ∧ f t = true := by
  cases o with
  | next t => exact ⟨t, rfl, h⟩
  | fault f => cases h
  | refused r => cases h

/-- Six bytes received while a frame is sent; the engine discards them (R183). -/
def six : List Byte := List.replicate 6 0xFF#8

/-- V-E1: CMD0 answered 0x01. -/
theorem test_cmd0 : nextAnd (exec (.cmd0 0#32) (demo (heard ([0xFF#8] ++ six ++ [0x01#8])) [0#64])) (fun t =>
    t.wrk.status == 0x01#8 && !t.wrk.rto && t.wrk.csActive && t.env.rx.isEmpty &&
      t.wrk.frame.toList == [0x40#8, 0x00#8, 0x00#8, 0x00#8, 0x00#8, 0x95#8]) = true := by decide +kernel
/-- V-E3: CMD0 unanswered; deselected after 10 exchanges. -/
theorem test_cmd0_silent : nextAnd (exec (.cmd0 0#32)
    (demo (heard ([0xFF#8] ++ six ++ [0xFF#8, 0xFF#8, 0x00#8])) [0#64])) (fun t =>
    t.wrk.status == 0xFF#8 && t.wrk.rto && !t.wrk.csActive && t.env.rxCount == 10) = true := by decide +kernel
/-- V-I7: CMD8 answered 0x04 classifies SD1 and reads no payload; the code is E_NOT_SUPPORTED. -/
theorem test_cmd8_legacy : nextAnd (exec (.cmd8 0x000001AA#32)
    (demo (heard ([0xFF#8] ++ six ++ [0x04#8, 0x00#8])) [0#64])) (fun t =>
    t.ses.kind == .sd1 && t.res.kind == 3#4 && t.env.rxCount == 8) = true := by decide +kernel
/-- V-I9: the last payload byte is not 0xAA. -/
theorem test_cmd8_mismatch : nextAnd (exec (.cmd8 0x000001AA#32)
    (demo (heard ([0xFF#8] ++ six ++ [0x01#8, 0x00#8, 0x00#8, 0x01#8, 0xAB#8])) [0#64])) (fun t =>
    t.ses.kind == .none && t.res.kind == 5#4) = true := by decide +kernel
/-- V-I14: OCR first byte 0xE0 reclassifies; V-I15: 0xBF does not. -/
theorem test_cmd58 :
    nextAnd (exec (.cmd58 0#32) (demo (heard ([0xFF#8] ++ six ++ [0x00#8, 0xE0#8, 0x01#8, 0x02#8, 0x03#8])) [0#64]))
      (fun t => t.ses.kind == .sdhc && t.env.rx.isEmpty) = true ∧
    nextAnd (exec (.cmd58 0#32) (demo (heard ([0xFF#8] ++ six ++ [0x00#8, 0xBF#8, 0x01#8, 0x02#8, 0x03#8])) [0#64]))
      (fun t => t.ses.kind == .none && t.res.kind == 0#4) = true := by decide +kernel
/-- V-E6: CMD12: no busy-wait and no sample, one stuff byte. -/
theorem test_cmd12 : nextAnd (exec (.cmd12 0#32) (demo (heard (six ++ [0x7F#8, 0x00#8])) [])) (fun t =>
    t.wrk.status == 0x00#8 && t.env.rxCount == 8 && t.env.clkCount == 0) = true := by decide +kernel
/-- V-E14: CMD16 answered 0x01 is an error that carries it. -/
theorem test_cmd16 : nextAnd (exec (.cmd16 0x00000200#32) (demo (heard ([0xFF#8] ++ six ++ [0x01#8])) [0#64])) (fun t =>
    t.res.kind == 4#4 && t.res.status == 0x01#8 && !t.wrk.csActive) = true := by decide +kernel
/-- V-E15: unanswered. -/
theorem test_zcmd : nextAnd (exec (.zcmd 16#6 0x00000200#32)
    (demo (heard ([0xFF#8] ++ six ++ [0xFF#8, 0xFF#8, 0xFF#8])) [0#64])) (fun t =>
    t.res.kind == 12#4 && t.res.status == 0x00#8 && t.wrk.status == 0xFF#8) = true := by decide +kernel
/-- V-E11: the prefix's status 0x05 is not examined. -/
theorem test_acmd41 : nextAnd (exec (.acmd41 0x40000000#32)
    (demo (heard ([0xFF#8] ++ six ++ [0x05#8] ++ [0xFF#8] ++ six ++ [0x01#8])) [0#64, 0#64])) (fun t =>
    t.wrk.status == 0x01#8 && !t.wrk.rto && t.env.rx.isEmpty && t.wrk.frame[0] == 0x69#8) = true := by
  decide +kernel
/-- V-E10: the prefix unanswered: no CMD41 frame. -/
theorem test_acmd41_silent : nextAnd (exec (.acmd41 0x40000000#32)
    (demo (heard ([0xFF#8] ++ six ++ [0xFF#8, 0xFF#8, 0xFF#8])) [0#64, 0#64])) (fun t =>
    t.wrk.rto && t.env.rxCount == 10 && t.wrk.frame[0] == 0x77#8) = true := by decide +kernel
/-- V-E7: busy for 300 ms: the frame is sent after the expiry. -/
theorem test_cmd17_busy : nextAnd (exec (.cmd17 1#32)
    (demo (heard ([0x00#8, 0x00#8] ++ six ++ [0x04#8])) [0#64, 100#64, 300#64])) (fun t =>
    t.wrk.status == 0x04#8 && t.env.rxCount == 9 && t.env.clkCount == 3 &&
      t.wrk.frame.toList == [0x51#8, 0x00#8, 0x00#8, 0x00#8, 0x01#8, 0x47#8]) = true := by decide +kernel
/-- V-I17: CMD10 answered, then 0x3C in the token wait. -/
theorem test_cmd10_token : nextAnd (exec (.cmd10 0#32)
    (demo (heard ([0xFF#8] ++ six ++ [0x00#8, 0x3C#8])) [0#64, 0#64])) (fun t =>
    t.res.kind == 9#4 && !t.wrk.csActive && t.ses.cid == Vector.replicate 16 0x00#8) = true := by decide +kernel
/-- V-K6: the token wait expires at 300 after two bytes. -/
theorem test_cmd9_expiry : nextAnd (exec (.cmd9 0#32)
    (demo (heard ([0xFF#8] ++ six ++ [0x00#8, 0xFF#8, 0xFF#8])) [0#64, 0#64, 299#64, 300#64])) (fun t =>
    t.res.kind == 9#4 && t.env.rxCount == 10 && t.env.clkCount == 4) = true := by decide +kernel
/-- The register read of P1: the 16 bytes of CID-A in the scratch buffer. -/
theorem test_rdreg : nextAnd (exec (.rdreg 10#6)
    (demo (heard ([0xFF#8] ++ six ++ [0x00#8, 0xFF#8, 0xFE#8] ++ cidA.toList ++ [0x12#8, 0x34#8]))
      [0#64, 0#64, 0#64])) (fun t =>
    t.wrk.scratch.bytes 0 16 == cidA.toList && t.ses.cid == Vector.replicate 16 0x00#8 && !t.wrk.csActive) = true :=
  by decide +kernel
/-- 95 §4.5: the getters after reset; NOP leaves `RES.data`. -/
theorem test_getters : nextAnd (exec .blkcnt (demo [] [])) (fun t => t.res == ⟨0#4, 0x00#8, 0, 0#128⟩) = true ∧
    nextAnd (exec .csdvalid (demo [] [])) (fun t => t.res.data == 0#128) = true ∧
    nextAnd (exec .cid { demo [] [] with ses.cid := cidA })
      (fun t => t.res.data == 0x0353445355303847801234567800BC13#128) = true ∧
    nextAnd (exec .kind (withSession (demo [] []) .sdhc 15159000#64)) (fun t => t.res.data == 3#128) = true ∧
    nextAnd (exec .nop { demo [] [] with res := ⟨7#4, 0x00#8, 0, 5#128⟩ })
      (fun t => t.res == ⟨0#4, 0x00#8, 0, 5#128⟩ && t.trace.isEmpty) = true := by decide +kernel
theorem test_getter_crcs :
    nextAnd (exec .lastcrc { demo [] [] with ses.lastCrc16 := 0x40DA#16 }) (fun t => t.res.data == 0x40DA#128) = true ∧
    nextAnd (exec .calccrc { demo [] [] with ses.calcCrc16 := 0x40DA#16 }) (fun t => t.res.data == 0x40DA#128) = true ∧
    nextAnd (exec .csd { demo [] [] with ses.csd := csdE })
      (fun t => t.res.data == 0x400E00325B5900003B377F800A400067#128) = true := by decide +kernel
theorem test_reserved : exec .reservedC (demo [] []) = .refused .reservedOperation := rfl
/-- P7 cases a, c: refused without a transport event. -/
theorem test_rdblk_range : nextAnd (exec .rdblk { demo [] [] with req.len := 512#32 })
    (fun t => t.res.kind == 8#4 && t.trace.isEmpty) = true := by decide +kernel
theorem test_wrblk_length :
    nextAnd (exec .wrblk { withSession (demo [] []) .sdhc 15159000#64 with
      req.index := 15158999#64, req.len := 511#32 }) (fun t => t.res.kind == 7#4 && t.trace.isEmpty) = true := by
  decide +kernel

/-- P7 case f: the fourth data byte fails. -/
def p7f : State :=
  { withSession (demo (heard ([0xFF#8] ++ six ++ [0x00#8, 0xFE#8, 0xAA#8, 0xBB#8, 0xCC#8]) ++ [.fail 7])
      [0#64, 0#64]) .sdhc 100#64 with
    ses.lastCrc16 := 0x1111#16, ses.calcCrc16 := 0x2222#16, req.index := 1#64, req.len := 512#32
    req.buf := [(0, 0x11#8), (1, 0x11#8), (2, 0x11#8), (3, 0x11#8), (4, 0x11#8)] }

theorem test_rdblk_transport : nextAnd (exec .rdblk p7f) (fun t =>
    t.res.kind == 1#4 && t.res.tcode == 7 && t.ses == p7f.ses &&
      t.req.buf == [(0, 0xAA#8), (1, 0xBB#8), (2, 0xCC#8), (3, 0x11#8), (4, 0x11#8)] && !t.wrk.csActive) = true := by
  decide +kernel

/-- P5: the start token never comes. -/
def tokenNever : State :=
  { withSession (demo (heard ([0xFF#8] ++ six ++ [0x00#8, 0xFF#8, 0xFF#8])) [0#64, 0#64, 150#64, 300#64])
      .sdhc 15159000#64 with
    ses.lastCrc16 := 0x40DA#16, ses.calcCrc16 := 0x40DA#16, req.len := 512#32, req.buf := [(0, 0x11#8)] }

theorem test_rdblk_token : nextAnd (exec .rdblk tokenNever) (fun t =>
    t.res.kind == 9#4 && t.ses == tokenNever.ses && t.req.buf == [(0, 0x11#8)] && t.env.rxCount == 10 &&
      t.env.clkCount == 4 && !t.wrk.csActive) = true := by decide +kernel

/-- WRBLK 3 on a standard-capacity card (P3): the byte address 0x600; the transport fails at the second
payload byte (R14). -/
def writeFails : State :=
  { withSession (demo (heard ([0xFF#8] ++ six ++ [0x00#8, 0xFF#8, 0xFF#8]) ++ [.fail 9]) [0#64]) .sd2 1974272#64 with
    req.index := 3#64, req.len := 512#32, req.buf := [(0, 0xA5#8), (1, 0x5A#8)] }

theorem test_wrblk_transport : nextAnd (exec .wrblk writeFails) (fun t =>
    t.res.kind == 1#4 && t.res.tcode == 9 && t.env.rxCount == 11 && t.req == writeFails.req &&
      t.wrk.frame.toList == [0x58#8, 0x00#8, 0x00#8, 0x06#8, 0x00#8, 0x1B#8] &&
      bus t.trace.tail == bus t.trace.tail.tail ++ [.xchg 0x5A#8 (.fail 9)]) = true := by decide +kernel

/-- CMD24 (V-F15's frame) answered 0x20: nothing is sent after the response. -/
theorem test_cmd24 : nextAnd (exec (.cmd24 0x63#32) (demo (heard ([0xFF#8] ++ six ++ [0x20#8])) [0#64])) (fun t =>
    t.res.kind == 4#4 && t.res.status == 0x20#8 && t.env.rxCount == 8 &&
      t.wrk.frame.toList == [0x58#8, 0x00#8, 0x00#8, 0x00#8, 0x63#8, 0xF5#8]) = true := by decide +kernel

/-- The host's bytes of a WRBLK request (R33, R340): 0xA5, 0x5A, then zeros. -/
def source : Vector Byte 512 := (((Vector.replicate 512 0x00#8).set 0 0xA5#8).set 1 0x5A#8)

/-- The same write as a request of the host: operands and source come from the request. -/
theorem test_request : nextAnd
    (step ({ writeFails with req := State.reset.req }.request 0x3#4 3#64 512#32 source)) (fun t =>
    t.res.kind == 1#4 && t.hostPort == none && t.req == { writeFails.req with op := 0x3#4 } &&
      bus t.trace.tail == bus t.trace.tail.tail ++ [.xchg 0x5A#8 (.fail 9)]) = true := by decide +kernel

/-- V-I25: the third filler byte fails: three exchanges, no chip-select event. -/
def fillerFails : State := demo (heard [0xFF#8, 0xFF#8] ++ [.fail 0x1FF]) []

theorem test_init_transport : nextAnd (exec .init fillerFails) (fun t =>
    t.res.kind == 1#4 && t.res.tcode == 0xFF && t.env.rxCount == 3 && t.ses.kind == .none && t.trace.length == 3) = true := by
  decide +kernel

/-- P6: a legacy card. -/
def legacyCard : State :=
  demo (heard (List.replicate 10 0xFF#8 ++ [0xFF#8] ++ six ++ [0x01#8] ++ [0xFF#8] ++ six ++ [0x05#8]))
    (List.replicate 3 0#64)

theorem test_init_legacy : nextAnd (exec .init legacyCard) (fun t =>
    t.res.kind == 3#4 && t.ses.kind == .sd1 && t.ses.blockCount == 0#64 && t.wrk.status == 0x05#8 &&
      t.env.rxCount == 26) = true := by decide +kernel

/-- A card that answers CMD41 with 0x00 and CMD58 with 0x01 (V-I13). -/
def ocrRefused : State :=
  demo (heard (List.replicate 10 0xFF#8 ++ [0xFF#8] ++ six ++ [0x01#8] ++ [0xFF#8] ++ six ++
    [0x01#8, 0x00#8, 0x00#8, 0x01#8, 0xAA#8] ++ [0xFF#8] ++ six ++ [0x01#8] ++ [0xFF#8] ++ six ++ [0x00#8] ++
    [0xFF#8] ++ six ++ [0x01#8])) (List.replicate 8 0#64)

theorem test_init_ocr : nextAnd (exec .init ocrRefused) (fun t =>
    t.res.kind == 4#4 && t.res.status == 0x01#8 && t.ses.kind == .sd2 && t.ses.blockCount == 0#64) = true := by
  decide +kernel

/-- P1: a high-capacity card, with its CSD. -/
def cardWith (img : Image) : State :=
  demo (heard (List.replicate 10 0xFF#8 ++ [0xFF#8] ++ six ++ [0x01#8] ++
    [0xFF#8] ++ six ++ [0x01#8, 0x00#8, 0x00#8, 0x01#8, 0xAA#8] ++
    [0xFF#8] ++ six ++ [0x01#8] ++ [0xFF#8] ++ six ++ [0x00#8] ++
    [0xFF#8] ++ six ++ [0x00#8, 0xC0#8, 0xFF#8, 0x80#8, 0x00#8] ++ [0xFF#8] ++ six ++ [0x00#8] ++
    [0xFF#8] ++ six ++ [0x00#8, 0xFF#8, 0xFE#8] ++ cidA.toList ++ [0x12#8, 0x34#8] ++
    [0xFF#8] ++ six ++ [0x00#8, 0xFE#8] ++ img.toList ++ [0x56#8, 0x78#8])) (List.replicate 13 1000#64)

/-- P1. -/
def highCapacity : State := cardWith csdE

/-- A card with CSD-J: structure version 2 (V-I21). -/
def structureTwo : State := cardWith csdJ

theorem test_init_structure : nextAnd (exec .init structureTwo) (fun t =>
    t.res.kind == 3#4 && t.ses.kind == .sdhc && t.ses.csd == csdJ) = true := by decide +kernel

theorem test_init : nextAnd (exec .init highCapacity) (fun t =>
    t.res.kind == 0#4 && t.ses.kind == .sdhc && t.ses.blockCount == 15159000#64 && t.ses.cid == cidA &&
      t.ses.csd == csdE && t.env.rxCount == 121 && t.env.clkCount == 13) = true := by decide +kernel

/-! ### Witnesses of the statements' hypotheses

One theorem for each statement of Certificates/Slice0/Obligations.lean that has hypotheses, named after it. -/

/-- A reply after one busy byte and one pending byte. -/
def reply (resp : Byte) : CardReply := ⟨[0x00#8], 0xFF#8, Vector.replicate 6 0x55#8, [0xFF#8], resp⟩

/-- The same, with the second busy byte at the deadline (V-E7). -/
def lateReply (resp : Byte) : CardReply := { reply resp with busyEnd := 0xFE#8 }

/-- A reply at once, as in the programs of 95 §6. -/
def calm (resp : Byte) : CardReply := ⟨[], 0xFF#8, Vector.replicate 6 0xFF#8, [], resp⟩

/-- No reply: two pending bytes. -/
def silence : Silence := ⟨[0x00#8], 0xFF#8, Vector.replicate 6 0x55#8, [0xFF#8, 0x80#8], 0x00#8⟩

/-- No card: every received byte is 0xFF (P4). -/
def absent : Silence := ⟨[], 0xFF#8, Vector.replicate 6 0xFF#8, [0xFF#8, 0xFF#8], 0xFF#8⟩

/-- A register image after one idle-line byte. -/
def imageReply (img : Image) : DataReply 16 := ⟨1, img, 0x12#8, 0x34#8⟩

/-- A block of 0xFE bytes after one idle-line byte. -/
def blockReply : DataReply 512 := ⟨1, Vector.replicate 512 0xFE#8, 0xDE#8, 0xAD#8⟩

/-- A write accepted with token 0xE5 after two busy bytes, or with another token. -/
def writeReply (token : Byte) : WriteReply :=
  ⟨0xFF#8, Vector.replicate 512 0xFF#8, 0xFF#8, 0xFF#8, token, [0x00#8, 0xFE#8]⟩

theorem reply_ok {resp : Byte} (h : pending resp = false) : (reply resp).Ok { pollExtra := 1, tcodeW := 8 } :=
  ⟨show ∀ b ∈ [0x00#8], b ≠ Config.idleLine by decide, show ∀ b ∈ [0xFF#8], pending b = true by decide,
    show 1 ≤ 1 by decide, h⟩

theorem lateReply_ok {resp : Byte} (h : pending resp = false) : (lateReply resp).Ok { pollExtra := 1, tcodeW := 8 } :=
  ⟨(reply_ok h).busy, (reply_ok h).pend, (reply_ok h).bound, h⟩

theorem calm_ok {resp : Byte} (h : pending resp = false) : (calm resp).Ok { pollExtra := 1, tcodeW := 8 } :=
  ⟨show ∀ b ∈ [], b ≠ Config.idleLine by simp, show ∀ b ∈ [], pending b = true by simp, Nat.zero_le _, h⟩

theorem silence_ok : silence.Ok { pollExtra := 1, tcodeW := 8 } := ⟨by decide, by decide, show 2 = 1 + 1 by decide⟩

theorem absent_ok : absent.Ok { pollExtra := 1, tcodeW := 8 } := ⟨by decide, by decide, show 2 = 1 + 1 by decide⟩

/-- A state whose inputs are answers and clock samples. -/
def timed (rx : List Answer) (clk : List Nat) : State := demo rx (clk.map (BitVec.ofNat 64))

/-- A clock that moves 100 ms with each sample: three samples overrun a wait of 300 ms. -/
def ramp : List Nat := (List.range 60).map (100 * ·)

/-- A state whose inputs are a conversation and that clock. -/
def talking (k : Talk) : State := timed k.answers ramp

/-- The same for moves. -/
def moving (m : List Event) : State := timed (answersOf m) ramp

theorem answers_self (k : Talk) : (talking k).env.rx = k.answers ++ [] := (List.append_nil _).symm

theorem moves_self (m : List Event) : (moving m).env.rx = answersOf m ++ [] := (List.append_nil _).symm

theorem ramp_sample (rx : List Answer) {k : Nat} (h : k < 60) : ((timed rx ramp).env.sampleAt k).toNat = 100 * k := by
  have hs : SameClock (timed [] ramp).env (timed rx ramp).env := ⟨rfl, rfl, rfl, rfl⟩
  rw [Env.sampleAt, (hs.after k).nextSample]
  have h0 : ∀ k < 60, ((timed [] ramp).env.sampleAt k).toNat = 100 * k := by decide +kernel
  exact h0 k h

/-- On that clock the `n`-th test of a wait is in time if `n` hundredths are. -/
theorem ramp_before (rx : List Answer) {i n T : Nat} (h : i + n < 60) (hn : 100 * n < T) (hT : T ≤ 2000) :
    (timed rx ramp).env.Before i n T := by
  have h1 := ramp_sample rx (k := i) (by omega)
  have h2 := ramp_sample rx h
  exact ⟨by omega, by omega⟩

theorem reply_time (rx : List Answer) (resp : Byte) {i : Nat} (h : i + 1 < 60) :
    (reply resp).InTime (timed rx ramp).env i :=
  ⟨ramp_before rx (n := 1) h (by decide) (by decide), fun h => absurd rfl h⟩

theorem silence_time (rx : List Answer) {i : Nat} (h : i + 1 < 60) : silence.InTime (timed rx ramp).env i :=
  ⟨ramp_before rx h (by decide) (by decide), fun h => absurd rfl h⟩

theorem image_time (rx : List Answer) (img : Image) {i : Nat} (h : i + 1 < 60) :
    (imageReply img).InTime (timed rx ramp).env i := ramp_before rx (n := 1) h (by decide) (by decide)

theorem block_time (rx : List Answer) {i : Nat} (h : i + 1 < 60) : blockReply.InTime (timed rx ramp).env i :=
  ramp_before rx h (by decide) (by decide)

theorem write_time (rx : List Answer) (token : Byte) {i : Nat} (h : i + 2 < 60) :
    (writeReply token).InTime (timed rx ramp).env i := ramp_before rx (n := 2) h (by decide) (by decide)

/-- A busy-wait that sees a not-busy byte at once needs no test. -/
theorem calm_time (s : State) (resp : Byte) {i : Nat} (h : (s.env.sampleAt i).toNat + 300 < 2 ^ 64) :
    (calm resp).InTime s.env i :=
  ⟨⟨h, Nat.lt_add_of_pos_right (by decide)⟩, fun h => absurd rfl h⟩

theorem absent_time (s : State) {i : Nat} (h : (s.env.sampleAt i).toNat + 300 < 2 ^ 64) : absent.InTime s.env i :=
  ⟨⟨h, Nat.lt_add_of_pos_right (by decide)⟩, fun h => absurd rfl h⟩

theorem test_hyps_Crc7Corners : ∃ k : Nat, k < 8 := ⟨7, by decide⟩

theorem test_hyps_DecodeEncode : (Instr.zcmd 24#6 0xFFFFFE00#32).wellFormed = true ∧
    (Instr.acmd41 0x40000000#32).wellFormed = true ∧ Instr.rdblk.wellFormed = true := by decide

theorem test_hyps_EncodeDecode : ∃ (c : Code) (i : Instr), decode c = .ok i :=
  ⟨⟨.cmdframe48, [0x51#8, 0xFF#8, 0xFF#8, 0xFE#8, 0x00#8, 0x9B#8]⟩, .cmd17 0xFFFFFE00#32, by decide +kernel⟩

/-- Both endings of a command: V-E1 and V-E3. -/
theorem test_hyps_TimeoutIsNotAStatus :
    (∃ (s t : State) (r : Reply), issueCommand 0#6 0#32 s = .ok r t ∧ r.rto = false) ∧
    ∃ (s t : State) (r : Reply), issueCommand 0#6 0#32 s = .ok r t ∧ r.rto = true := by
  constructor
  · obtain ⟨e, tr, hx, -⟩ := issueCommand_run (by decide) (reply_ok (by decide))
      (answers_self ((reply 0x01#8).talk 0#6 0#32)) (reply_time _ _ (by decide))
    exact ⟨_, _, _, hx, rfl⟩
  · obtain ⟨e, tr, hx, -⟩ := issueCommand_silent (by decide) silence_ok
      (answers_self (silence.talk 0#6 0#32 ++ polls [silence.last])) (silence_time _ (by decide))
    exact ⟨_, _, _, hx, rfl⟩

theorem test_hyps_ResetValues : Instr.rdblk ∈ [Instr.rdblk, .wrblk] ∧ Instr.wrblk ∈ [Instr.rdblk, .wrblk] := by
  decide

/-- A state inside INIT with CMD9's frame in the port. -/
def portState : State :=
  { within (demo [] []) .init .iCsd with
    cmdPort := some ⟨.cmdframe48, [0x49#8, 0x00#8, 0x00#8, 0x00#8, 0x00#8, 0xAF#8]⟩ }

/-- Each clause: a request; a frame in the port inside its operation; a running operation; an idle engine. -/
theorem test_hyps_StepRunsDecoded :
    (∃ (s : State) (r : Request), s.seq.legal = true ∧ s.hostPort = some r ∧ decode (hostCode r.op) = .ok .wrblk) ∧
    (portState.seq.legal = true ∧ portState.hostPort = none ∧
      portState.cmdPort = some ⟨.cmdframe48, [0x49#8, 0x00#8, 0x00#8, 0x00#8, 0x00#8, 0xAF#8]⟩ ∧
      decode ⟨.cmdframe48, [0x49#8, 0x00#8, 0x00#8, 0x00#8, 0x00#8, 0xAF#8]⟩ = .ok (.cmd9 0#32) ∧
      portState.seq.op = (placeOf (.cmd9 0#32)).1) ∧
    ((within (demo [] []) .wrblk .wData).seq.legal = true ∧ (within (demo [] []) .wrblk .wData).hostPort = none ∧
      (within (demo [] []) .wrblk .wData).cmdPort = none ∧ (within (demo [] []) .wrblk .wData).seq.op ≠ .idle) ∧
    ((demo [] []).seq.legal = true ∧ (demo [] []).hostPort = none ∧ (demo [] []).cmdPort = none ∧
      (demo [] []).seq.op = .idle) :=
  ⟨⟨(demo [] []).request 0x3#4 3#64 512#32 source, _, rfl, rfl, by decide⟩, by decide +kernel, by decide, by decide⟩

/-- A host code and a frame, placed in a state whose sequencer is legal and in one whose is not. -/
theorem test_hyps_FetchWordRuns : decodeTableWord 4 0x2 = some .rdblk ∧
    decodeTableWord 48 0x510000000001 = some (.cmd17 0#32) ∧ State.reset.seq.legal = true ∧
    (within (demo [] []) .idle .wData).seq.legal = false := by decide +kernel

theorem test_hyps_NopEffect_GetterValues : State.reset.seq.op = .idle := rfl

/-- Both clauses: the operation itself, and the largest code that is not reserved. -/
theorem test_hyps_BusyRequestRefused :
    ((within (demo [] []) .rdblk .rData).seq.op ≠ .idle ∧
      Instr.nop ∈ [Instr.nop, .init, .rdblk, .wrblk, .blkcnt, .cid, .csd, .lastcrc, .kind, .calccrc, .csdvalid]) ∧
    ((within (demo [] []) .rdblk .rData).seq.legal = true ∧ (within (demo [] []) .rdblk .rData).seq.op ≠ .idle ∧
      (0xA#4 : BitVec 4).toNat ≤ 10) := by
  decide

theorem test_hyps_ReservedRefused :
    Instr.reservedB ∈ [Instr.reservedB, .reservedC, .reservedD, .reservedE, .reservedF] := by decide

theorem test_hyps_ExitActions :
    (raise .noCard : Proc Unit) (demo [] []) = .error (.raise .noCard) (demo [] []) ∧
    (pure () : Proc Unit) (demo [] []) = .ok () (demo [] []) ∧ Err.noCard.code ≠ 4#4 ∧ Err.noCard.code ≠ 1#4 :=
  ⟨rfl, rfl, by decide, by decide⟩

/-- The invariant holds of an idle engine after a successful operation, with empty buffers. -/
theorem idle_inv {s : State} (h1 : s.req.buf = []) (h2 : s.wrk.scratch = [])
    (h3 : s.seq = { op := .idle, fsm := .fIdle, cfsm := .cOff }) (h4 : s.wrk.csActive = false)
    (h5 : s.ses.blockCount ≠ 0#64 → s.ses.kind = .sd2 ∨ s.ses.kind = .sdhc)
    (h6 : s.ses.blockCount.toNat ≤ Config.countMax) (h7 : s.wrk.rto = false) (h8 : s.res.kind = 0#4)
    (h9 : s.res.status = 0x00#8) (h10 : s.res.tcode = 0)
    (h11 : ∀ r : Request, s.hostPort = some r → r.buf.wf = true) : s.Inv where
  bufWf := by rw [h1]; rfl
  portBufWf := h11
  scratchWf := by rw [h2]; rfl
  legal := by rw [h3]; rfl
  idleDeselected := fun _ => h4
  readyKind := h5
  classified := by rw [h3]; intro h; cases h
  countBound := h6
  initNotReady := by rw [h3]; intro h; cases h
  timeoutStatus := by rw [h7]; intro h; cases h
  resultKind := by rw [h8]; decide
  resultStatus := fun _ => h9
  resultTcode := fun _ => h10
  tcodeWidth := by rw [h10]; exact Nat.two_pow_pos _

theorem demo_inv (rx : List Answer) (clk : List Clock) : (demo rx clk).Inv :=
  idle_inv rfl rfl rfl rfl (fun h => absurd rfl h) (Nat.zero_le _) rfl rfl rfl rfl (by rintro _ ⟨⟩)

/-- One operation for each clause. -/
theorem test_hyps_OperationsEndIdle :
    (∃ t : State, (demo [] []).Inv ∧ exec .nop (demo [] []) = .next t) ∧
    (∃ t : State, legacyCard.Inv ∧ exec .init legacyCard = .next t) ∧
    (∃ s t : State, s.Inv ∧ exec .rdblk s = .next t) ∧ ∃ s t : State, s.Inv ∧ exec .wrblk s = .next t := by
  refine ⟨⟨_, demo_inv [] [], rfl⟩, ?_, ?_, ?_⟩
  · obtain ⟨t, h, -⟩ := nextAnd_exists test_init_legacy
    exact ⟨t, demo_inv _ _, h⟩
  · obtain ⟨t, h, -⟩ := nextAnd_exists test_rdblk_range
    exact ⟨_, t, idle_inv rfl rfl rfl rfl (fun h => absurd rfl h) (by decide) rfl rfl rfl rfl (by rintro _ ⟨⟩), h⟩
  · obtain ⟨t, h, -⟩ := nextAnd_exists test_wrblk_length
    exact ⟨_, t, idle_inv rfl rfl rfl rfl (fun _ => .inr rfl) (by decide) rfl rfl rfl rfl (by rintro _ ⟨⟩), h⟩

/-- Answered, unanswered, and answered after a busy-wait that expires at equality (V-E7). -/
theorem test_hyps_PlainCommand :
    ((Instr.cmd55 0#32, 55#6) ∈ [(Instr.cmd0 0#32, 0#6), (.cmd41 0#32, 41#6), (.cmd55 0#32, 55#6)]) ∧
    ∀ a ∈ [Attempt.answered (reply 0x01#8), .silent silence, .answered (lateReply 0x04#8)],
      ∃ s : State, a.Ok s.par ∧ a.InTime s.env 0 ∧ s.env.rx = answersOf (a.moves 55#6 0#32) ++ [] := by
  refine ⟨by decide, fun a ha => ?_⟩
  simp only [List.mem_cons, List.not_mem_nil, or_false] at ha
  rcases ha with rfl | rfl | rfl
  · exact ⟨moving _, reply_ok (by decide), reply_time _ _ (by decide), moves_self _⟩
  · exact ⟨moving _, silence_ok, silence_time _ (by decide), moves_self _⟩
  · exact ⟨timed (answersOf ((Attempt.answered (lateReply 0x04#8)).moves 55#6 0#32)) [0, 100, 300],
      lateReply_ok (by decide),
      ⟨⟨by decide +kernel, by decide +kernel⟩, fun _ => show 0 + 300 ≤ 300 by decide⟩,
      (List.append_nil _).symm⟩

/-- V-E7: the sample that ends the wait is the deadline. -/
theorem test_hyps_BusyExpiryIgnored : ∃ s : State,
    (Instr.cmd0 0#32, 0#6) ∈ [(Instr.cmd0 0#32, 0#6), (.cmd41 0#32, 41#6), (.cmd55 0#32, 55#6)] ∧
    (∀ c ∈ [0x00#8] ++ [0xFE#8], c ≠ 0xFF#8) ∧ (∀ c ∈ [0xFF#8], pending c = true) ∧
    [0xFF#8].length ≤ s.par.pollExtra ∧ pending 0x01#8 = false ∧
    s.env.rx = (polls ([0x00#8] ++ [0xFE#8]) ++ frameTalk 0#6 0#32 (Vector.replicate 6 0x55#8) ++
      polls ([0xFF#8] ++ [0x01#8])).answers ++ [] ∧
    s.env.Before 0 [0x00#8].length 300 ∧ s.env.Reached 0 ([0x00#8].length + 1) 300 :=
  ⟨timed (polls ([0x00#8] ++ [0xFE#8]) ++ frameTalk 0#6 0#32 (Vector.replicate 6 0x55#8) ++
      polls ([0xFF#8] ++ [0x01#8])).answers [0, 100, 300], by decide, by decide, by decide, show 1 ≤ 1 by decide,
    by decide, (List.append_nil _).symm, ⟨by decide +kernel, by decide +kernel⟩, show 0 + 300 ≤ 300 by decide⟩

theorem test_hyps_StreamStop : ∃ s : State, (∀ b ∈ [0xFF#8], pending b = true) ∧ [0xFF#8].length ≤ s.par.pollExtra ∧
    pending 0x00#8 = false ∧ s.env.rx = (frameTalk 12#6 0#32 (Vector.replicate 6 0x55#8) ++ polls [0x00#8] ++
      polls ([0xFF#8] ++ [0x00#8])).answers ++ [] :=
  ⟨talking _, by decide, show 1 ≤ 1 by decide, by decide, answers_self _⟩

/-- Both frames answered; the target unanswered; the prefix unanswered. -/
theorem test_hyps_AppCommand : ∀ c ∈ [AppAttempt.sent (reply 0x05#8) (.answered (reply 0x01#8)),
      .sent (reply 0x05#8) (.silent silence), .prefixSilent silence],
    ∃ s : State, c.Ok s.par ∧ c.InTime s.env 0 ∧ s.env.rx = answersOf (c.moves 0x40000000#32) ++ [] := by
  intro c hc
  refine ⟨moving (c.moves 0x40000000#32), ?_, ?_, moves_self _⟩
  all_goals
    simp only [List.mem_cons, List.not_mem_nil, or_false] at hc
    rcases hc with rfl | rfl | rfl
  · exact ⟨reply_ok (by decide), reply_ok (by decide)⟩
  · exact ⟨reply_ok (by decide), silence_ok⟩
  · exact silence_ok
  · exact ⟨reply_time _ _ (by decide), reply_time _ _ (by decide)⟩
  · exact ⟨reply_time _ _ (by decide), silence_time _ (by decide)⟩
  · exact silence_time _ (by decide)

theorem test_hyps_ZeroStatusAccepted :
    (∃ s : State, (Instr.cmd16 0x00000200#32 = .cmd16 0x00000200#32 ∧ (16#6 : BitVec 6) = 16#6) ∧
      (reply 0x00#8).Ok s.par ∧ (reply 0x00#8).resp = 0x00#8 ∧
      s.env.rx = ((reply 0x00#8).talk 16#6 0x00000200#32).answers ++ [] ∧ (reply 0x00#8).InTime s.env 0) ∧
    ∃ s : State, (Instr.zcmd 24#6 3#32 = .zcmd 24#6 3#32 ∧ (24#6 : BitVec 6) ≠ 12#6) ∧
      (reply 0x00#8).Ok s.par ∧ (reply 0x00#8).resp = 0x00#8 ∧
      s.env.rx = ((reply 0x00#8).talk 24#6 3#32).answers ++ [] ∧ (reply 0x00#8).InTime s.env 0 :=
  ⟨⟨talking _, ⟨rfl, rfl⟩, reply_ok (by decide), rfl, answers_self _, reply_time _ _ (by decide)⟩,
    ⟨talking _, ⟨rfl, by decide⟩, reply_ok (by decide), rfl, answers_self _, reply_time _ _ (by decide)⟩⟩

/-- A ready high-capacity session that requests block 2 (P2). -/
def asking (s : State) : State := { withSession s .sdhc 100#64 with req.index := 2#64, req.len := 512#32 }

theorem asking_ok {s : State} (h : s.seq.op = .idle) : (asking s).RequestOk 2#32 :=
  ⟨h, rfl, show 2 < 100 by decide, show translate .sdhc 2#64 = some 2#32 by decide⟩

/-- A status, for a command, and none, for RDBLK. -/
theorem test_hyps_ZeroStatusErrors :
    (∃ s : State, Issues s (.cmd58 0#32) 58#6 0#32 ∧ (58#6 : BitVec 6) ≠ 12#6 ∧
      (Attempt.answered (reply 0x04#8)).Ok s.par ∧ (Attempt.answered (reply 0x04#8)).NotClear ∧
      (Attempt.answered (reply 0x04#8)).InTime s.env 0 ∧
      s.env.rx = answersOf ((Attempt.answered (reply 0x04#8)).moves 58#6 0#32) ++ []) ∧
    ∃ s : State, Issues s .rdblk 17#6 2#32 ∧ (17#6 : BitVec 6) ≠ 12#6 ∧ (Attempt.silent silence).Ok s.par ∧
      (Attempt.silent silence).NotClear ∧ (Attempt.silent silence).InTime s.env 0 ∧
      s.env.rx = answersOf ((Attempt.silent silence).moves 17#6 2#32) ++ [] :=
  ⟨⟨moving _, .inl (by decide), by decide, reply_ok (by decide), by simp [Attempt.NotClear, Attempt.reply, reply],
      reply_time _ _ (by decide), moves_self _⟩,
    ⟨asking (moving ((Attempt.silent silence).moves 17#6 2#32)), .inr (.inr (.inl ⟨rfl, rfl, asking_ok rfl⟩)),
      by decide, silence_ok, by simp [Attempt.NotClear, Attempt.reply], silence_time _ (by decide), moves_self _⟩⟩

theorem test_hyps_InterfaceCondition :
    (∃ s : State, (reply 0x01#8).Ok s.par ∧ illegalCommand (reply 0x01#8).resp = false ∧
      r7Ok #v[0xFF#8, 0xFF#8, 0xF1#8, 0xAA#8] = true ∧
      s.env.rx = ((reply 0x01#8).talk 8#6 0x1AA#32 ++ polls (#v[0xFF#8, 0xFF#8, 0xF1#8, 0xAA#8]).toList).answers ++ [] ∧
      (reply 0x01#8).InTime s.env 0) ∧
    (∃ s : State, (reply 0x01#8).Ok s.par ∧ illegalCommand (reply 0x01#8).resp = false ∧
      r7Ok #v[0x00#8, 0x00#8, 0x02#8, 0xAA#8] = false ∧
      s.env.rx = ((reply 0x01#8).talk 8#6 0x1AA#32 ++ polls (#v[0x00#8, 0x00#8, 0x02#8, 0xAA#8]).toList).answers ++ [] ∧
      (reply 0x01#8).InTime s.env 0) ∧
    (∃ s : State, (reply 0x04#8).Ok s.par ∧ illegalCommand (reply 0x04#8).resp = true ∧
      s.env.rx = ((reply 0x04#8).talk 8#6 0x1AA#32).answers ++ [] ∧ (reply 0x04#8).InTime s.env 0) ∧
    ∃ s : State, silence.Ok s.par ∧
      s.env.rx = (silence.talk 8#6 0x1AA#32 ++ polls [silence.last]).answers ++ [] ∧ silence.InTime s.env 0 :=
  ⟨⟨talking _, reply_ok (by decide), by decide, by decide, answers_self _, reply_time _ _ (by decide)⟩,
    ⟨talking _, reply_ok (by decide), by decide, by decide, answers_self _, reply_time _ _ (by decide)⟩,
    ⟨talking _, reply_ok (by decide), by decide, answers_self _, reply_time _ _ (by decide)⟩,
    ⟨talking _, silence_ok, answers_self _, silence_time _ (by decide)⟩⟩

theorem test_hyps_OcrRead : ∃ s : State, (reply 0x00#8).Ok s.par ∧ (reply 0x00#8).resp = 0x00#8 ∧
    s.env.rx = ((reply 0x00#8).talk 58#6 0#32 ++ polls (#v[0xC0#8, 0xFF#8, 0x80#8, 0x00#8]).toList).answers ++ [] ∧
    (reply 0x00#8).InTime s.env 0 :=
  ⟨talking _, reply_ok (by decide), rfl, answers_self _, reply_time _ _ (by decide)⟩

theorem test_hyps_RegisterRead : ∃ s : State,
    (Instr.rdreg 10#6 = .rdreg 10#6 ∧ 0#32 = 0#32 ∧ (10#6 : BitVec 6) ≠ 12#6) ∧ s.wrk.scratch.wf = true ∧
    (reply 0x00#8).Ok s.par ∧ (reply 0x00#8).resp = 0x00#8 ∧
    s.env.rx = ((reply 0x00#8).talk 10#6 0#32 ++ (imageReply cidA).talk).answers ++ [] ∧
    (reply 0x00#8).InTime s.env 0 ∧ (imageReply cidA).InTime s.env (reply 0x00#8).ticks :=
  ⟨talking _, ⟨rfl, rfl, by decide⟩, rfl, reply_ok (by decide), rfl, answers_self _, reply_time _ _ (by decide),
    image_time _ _ (by decide)⟩

/-- A wrong byte in a register read, and in RDBLK P5's token wait: 0, 150, 300. -/
theorem test_hyps_TokenError :
    (∃ s : State, Issues s (.cmd9 0#32) 9#6 0#32 ∧ WaitsForToken (.cmd9 0#32) 9#6 0#32 ∧
      (9#6 : BitVec 6) ≠ 12#6 ∧ (reply 0x00#8).Ok s.par ∧ (reply 0x00#8).resp = 0x00#8 ∧
      (⟨1, 0xFD#8⟩ : NoToken).last ≠ 0xFE#8 ∧ (reply 0x00#8).InTime s.env 0 ∧
      (⟨1, 0xFD#8⟩ : NoToken).InTime s.env (reply 0x00#8).ticks ∧
      s.env.rx = ((reply 0x00#8).talk 9#6 0#32 ++ (⟨1, 0xFD#8⟩ : NoToken).talk).answers ++ []) ∧
    ∃ s : State, Issues s .rdblk 17#6 2#32 ∧ WaitsForToken .rdblk 17#6 2#32 ∧
      (17#6 : BitVec 6) ≠ 12#6 ∧ (calm 0x00#8).Ok s.par ∧ (calm 0x00#8).resp = 0x00#8 ∧
      (⟨1, 0xFF#8⟩ : NoToken).last ≠ 0xFE#8 ∧ (calm 0x00#8).InTime s.env 0 ∧
      (⟨1, 0xFF#8⟩ : NoToken).InTime s.env (calm 0x00#8).ticks ∧
      s.env.rx = ((calm 0x00#8).talk 17#6 2#32 ++ (⟨1, 0xFF#8⟩ : NoToken).talk).answers ++ [] :=
  ⟨⟨talking _, .inl (by decide), by simp [WaitsForToken], by decide, reply_ok (by decide), rfl, by decide,
      reply_time _ _ (by decide),
      ⟨ramp_before _ (by decide) (by decide) (by decide), fun h => absurd h (by decide)⟩, answers_self _⟩,
    ⟨asking (timed ((calm 0x00#8).talk 17#6 2#32 ++ (⟨1, 0xFF#8⟩ : NoToken).talk).answers [0, 0, 150, 300]),
      .inr (.inr (.inl ⟨rfl, rfl, asking_ok rfl⟩)), by simp [WaitsForToken], by decide, calm_ok (by decide), rfl,
      by decide, calm_time _ _ (by decide +kernel),
      ⟨⟨by decide +kernel, by decide +kernel⟩, fun _ => show 0 + 300 ≤ 300 by decide⟩, (List.append_nil _).symm⟩⟩

theorem test_hyps_ReadCommand : ∃ s : State, s.req.buf.wf = true ∧ (reply 0x00#8).Ok s.par ∧
    (reply 0x00#8).resp = 0x00#8 ∧
    s.env.rx = ((reply 0x00#8).talk 17#6 2#32 ++ blockReply.talk).answers ++ [] ∧
    (reply 0x00#8).InTime s.env 0 ∧ blockReply.InTime s.env (reply 0x00#8).ticks :=
  ⟨talking _, rfl, reply_ok (by decide), rfl, answers_self _, reply_time _ _ (by decide), block_time _ (by decide)⟩

theorem test_hyps_WriteCommand : ∃ s : State, (reply 0x00#8).Ok s.par ∧ (reply 0x00#8).resp = 0x00#8 ∧
    writeAccepted (writeReply 0xE5#8).token = true ∧ (∀ b ∈ (writeReply 0xE5#8).busy, b ≠ 0xFF#8) ∧
    s.env.rx = ((reply 0x00#8).talk 24#6 3#32 ++ (writeReply 0xE5#8).talk (s.req.buf.bytes 0 512)).answers ++ [] ∧
    (reply 0x00#8).InTime s.env 0 ∧ (writeReply 0xE5#8).InTime s.env (reply 0x00#8).ticks :=
  ⟨talking ((reply 0x00#8).talk 24#6 3#32 ++ (writeReply 0xE5#8).talk (Memory.bytes [] 0 512)),
    reply_ok (by decide), rfl, by decide, by decide, answers_self _, reply_time _ _ (by decide),
    write_time _ _ (by decide)⟩

/-- The payload and token of V-W2 on an empty buffer, up to the busy bytes. -/
def packetTalk (token : Byte) : Talk :=
  (calm 0x00#8).talk 24#6 2#32 ++ (writeReply token).packet (Memory.bytes [] 0 512)

/-- Both clauses: a rejected token in CMD24, and in WRBLK V-W2's busy-wait: 0, 300, 599, 600. -/
theorem test_hyps_WriteErrors :
    (∃ s : State, Instr.cmd24 2#32 ∈ [Instr.cmd24 2#32, .wrblk] ∧ Issues s (.cmd24 2#32) 24#6 2#32 ∧
      (calm 0x00#8).Ok s.par ∧ (calm 0x00#8).resp = 0x00#8 ∧ (writeReply 0x0B#8).token &&& 0x1F#8 ≠ 0x05#8 ∧
      s.env.rx = ((calm 0x00#8).talk 24#6 2#32 ++ (writeReply 0x0B#8).packet (s.req.buf.bytes 0 512)).answers ++ [] ∧
      (calm 0x00#8).InTime s.env 0) ∧
    ∃ s : State, Instr.wrblk ∈ [Instr.cmd24 2#32, .wrblk] ∧ Issues s .wrblk 24#6 2#32 ∧
      (calm 0x00#8).Ok s.par ∧ (calm 0x00#8).resp = 0x00#8 ∧ (writeReply 0x05#8).token &&& 0x1F#8 = 0x05#8 ∧
      (∀ c ∈ (writeReply 0x05#8).busy ++ [0x7F#8], c ≠ 0xFF#8) ∧
      s.env.rx = ((calm 0x00#8).talk 24#6 2#32 ++ (writeReply 0x05#8).packet (s.req.buf.bytes 0 512) ++
        polls ((writeReply 0x05#8).busy ++ [0x7F#8])).answers ++ [] ∧
      (calm 0x00#8).InTime s.env 0 ∧ s.env.BusyWait (calm 0x00#8).ticks 600 (writeReply 0x05#8).busy 0x7F#8 :=
  ⟨⟨timed (packetTalk 0x0B#8).answers [0], by decide, .inl (by decide), calm_ok (by decide), rfl, by decide,
      (List.append_nil _).symm, calm_time _ _ (by decide +kernel)⟩,
    ⟨asking (timed (packetTalk 0x05#8 ++ polls ((writeReply 0x05#8).busy ++ [0x7F#8])).answers [0, 0, 300, 599, 600]),
      by decide, .inr (.inr (.inr ⟨rfl, rfl, asking_ok rfl⟩)), calm_ok (by decide), rfl, by decide, by decide,
      (List.append_nil _).symm, calm_time _ _ (by decide +kernel),
      ⟨⟨by decide +kernel, by decide +kernel⟩, fun _ => show 0 + 600 ≤ 600 by decide⟩⟩⟩

theorem test_hyps_Translation : CardKind.sd2 ≠ .sdhc := by decide

/-- The three refusals: the reset state; a length of 512 and no block; P7 case e. -/
theorem test_hyps_RefusedTransfers :
    (Instr.wrblk ∈ [Instr.rdblk, .wrblk] ∧ (demo [] []).Inv ∧ (demo [] []).seq.op = .idle ∧ (demo [] []).req.len ≠ 512#32) ∧
    (∃ s : State, s.Inv ∧ s.seq.op = .idle ∧ s.req.len = 512#32 ∧ s.ses.blockCount.toNat ≤ s.req.index.toNat) ∧
    ∃ s : State, s.Inv ∧ s.seq.op = .idle ∧ s.req.len = 512#32 ∧ s.req.index.toNat < s.ses.blockCount.toNat ∧
      s.ses.kind ≠ .sdhc ∧ 2 ^ 32 ≤ s.req.index.toNat * 512 := by
  refine ⟨⟨by decide, demo_inv [] [], rfl, by decide⟩,
    ⟨{ demo [] [] with req.len := 512#32 },
      idle_inv rfl rfl rfl rfl (fun h => absurd rfl h) (by decide) rfl rfl rfl rfl (by rintro _ ⟨⟩), rfl, rfl, by decide⟩,
    ⟨{ withSession (demo [] []) .sd2 15159000#64 with req.len := 512#32, req.index := 0x800000#64 },
      idle_inv rfl rfl rfl rfl (fun _ => .inl rfl) (by decide) rfl rfl rfl rfl (by rintro _ ⟨⟩), rfl, rfl, by decide, by decide,
      by decide⟩⟩

theorem test_hyps_RdblkSucceeds : ∃ s : State, s.seq.op = .idle ∧ s.req.buf.wf = true ∧
    s.req.len = 512#32 ∧ s.req.index.toNat < s.ses.blockCount.toNat ∧
    translate s.ses.kind s.req.index = some 2#32 ∧ (reply 0x00#8).Ok s.par ∧ (reply 0x00#8).resp = 0x00#8 ∧
    s.env.rx = ((reply 0x00#8).talk 17#6 2#32 ++ blockReply.talk).answers ++ [] ∧
    (reply 0x00#8).InTime s.env 0 ∧ blockReply.InTime s.env (reply 0x00#8).ticks :=
  ⟨asking (talking ((reply 0x00#8).talk 17#6 2#32 ++ blockReply.talk)), rfl, rfl, rfl, by decide, by decide,
    reply_ok (by decide), rfl, answers_self _, reply_time _ _ (by decide), block_time _ (by decide)⟩

theorem test_hyps_RdblkPartial : ∃ s : State, s.seq.op = .idle ∧ s.req.buf.wf = true ∧
    s.req.len = 512#32 ∧ s.req.index.toNat < s.ses.blockCount.toNat ∧ translate s.ses.kind s.req.index = some 2#32 ∧
    (reply 0x00#8).Ok s.par ∧ (reply 0x00#8).resp = 0x00#8 ∧ [0xAA#8, 0xBB#8, 0xCC#8].length < 512 ∧
    s.env.rx = ((reply 0x00#8).talk 17#6 2#32 ++ polls (List.replicate 1 0xFF#8 ++ [0xFE#8] ++
      [0xAA#8, 0xBB#8, 0xCC#8])).answers ++ .fail 7 :: [] ∧
    (reply 0x00#8).InTime s.env 0 ∧ s.env.Before (reply 0x00#8).ticks 1 300 := by
  let k : Talk := (reply 0x00#8).talk 17#6 2#32 ++
    polls (List.replicate 1 0xFF#8 ++ [0xFE#8] ++ [0xAA#8, 0xBB#8, 0xCC#8])
  exact ⟨asking (timed (k.answers ++ [.fail 7]) ramp), rfl, rfl, rfl, by decide, by decide, reply_ok (by decide),
    rfl, by decide, rfl, reply_time _ _ (by decide), ramp_before _ (by decide) (by decide) (by decide)⟩

/-- A read goes through for the script of `test_hyps_RdblkSucceeds`. -/
theorem read_next {s : State} {addr : BitVec 32} {r : CardReply} {d : DataReply 512}
    (h1 : s.seq.op = .idle) (h2 : s.req.len = 512#32) (h3 : s.req.index.toNat < s.ses.blockCount.toNat)
    (h4 : translate s.ses.kind s.req.index = some addr) (h5 : r.Ok s.par) (h6 : r.resp = 0x00#8)
    (h7 : s.env.rx = (r.talk 17#6 addr ++ d.talk).answers ++ []) (h8 : r.InTime s.env 0)
    (h9 : d.InTime s.env r.ticks) : ∃ t : State, exec .rdblk s = .next t ∧ t.res.kind = 0#4 := by
  rw [Talk.answers_append, List.append_assoc] at h7
  obtain ⟨e0, tr0, hx0, ht0⟩ := ensureZeroStatus_run (s := s.inOp .rdblk .rCmd) (by decide) h5 h6 h7 h8
  obtain ⟨e1, tr1, hx1, -⟩ := fromRToken_run
    (s := ((s.inOp .rdblk .rCmd).answered 17#6 addr 0x00#8 (s.env.deadlineAt 0 300) e0 tr0).withFsm .rToken) rfl
    ht0.rx (ht0.before (i := 0) h9)
  exact ⟨_, exec_rdblk_ok h1 ((fromRCheck_run h2 h3 h4).trans
    ((run_bind_ok hx0).trans ((run_bind_ok (goFsm_run _ _)).trans hx1))), rfl⟩

/-- A write goes through for the script of `test_hyps_WrblkSucceeds`. -/
theorem write_next {s : State} {addr : BitVec 32} {r : CardReply} {w : WriteReply}
    (h1 : s.seq.op = .idle) (h2 : s.req.len = 512#32) (h3 : s.req.index.toNat < s.ses.blockCount.toNat)
    (h4 : translate s.ses.kind s.req.index = some addr) (h5 : r.Ok s.par) (h6 : r.resp = 0x00#8)
    (h7 : writeAccepted w.token = true) (h8 : ∀ b ∈ w.busy, b ≠ 0xFF#8)
    (h9 : s.env.rx = (r.talk 24#6 addr ++ w.talk (s.req.buf.bytes 0 512)).answers ++ [])
    (h10 : r.InTime s.env 0) (h11 : w.InTime s.env r.ticks) :
    ∃ t : State, exec .wrblk s = .next t ∧ t.res.kind = 0#4 := by
  rw [Talk.answers_append, List.append_assoc] at h9
  obtain ⟨e0, tr0, hx0, ht0⟩ := ensureZeroStatus_run (s := s.inOp .wrblk .wCmd) (by decide) h5 h6 h9 h10
  obtain ⟨e1, tr1, hx1, -⟩ := fromWToken_run
    (s := ((s.inOp .wrblk .wCmd).answered 24#6 addr 0x00#8 (s.env.deadlineAt 0 300) e0 tr0).withFsm .wToken) rfl
    h7 h8 ht0.rx (ht0.before (i := 0) h11)
  exact ⟨_, exec_wrblk_ok h1 ((fromWCheck_run h2 h3 h4).trans
    ((run_bind_ok hx0).trans ((run_bind_ok (goFsm_run _ _)).trans hx1))), rfl⟩

/-- Both clauses: a read that succeeds and P7 case f. -/
theorem test_hyps_RdblkDiagnostics :
    (∃ s t : State, s.req.buf.wf = true ∧ exec .rdblk s = .next t ∧ t.res.kind = 0#4) ∧
    ∃ t : State, p7f.req.buf.wf = true ∧ exec .rdblk p7f = .next t ∧ t.res.kind ≠ 0#4 := by
  constructor
  · obtain ⟨s, h1, h2, h3, h4, h5, h6, h7, h8, h9, h10⟩ := test_hyps_RdblkSucceeds
    obtain ⟨t, h⟩ := read_next h1 h3 h4 h5 h6 h7 h8 h9 h10
    exact ⟨s, t, h2, h⟩
  · obtain ⟨t, h1, h2⟩ := nextAnd_exists test_rdblk_transport
    refine ⟨t, by decide, h1, ?_⟩
    simp only [Bool.and_eq_true, beq_iff_eq] at h2
    rw [h2.1.1.1.1]
    decide

theorem test_hyps_WrblkSucceeds : ∃ s : State, s.seq.op = .idle ∧ s.req.len = 512#32 ∧
    s.req.index.toNat < s.ses.blockCount.toNat ∧ translate s.ses.kind s.req.index = some 2#32 ∧
    (reply 0x00#8).Ok s.par ∧ (reply 0x00#8).resp = 0x00#8 ∧ writeAccepted (writeReply 0xE5#8).token = true ∧
    (∀ b ∈ (writeReply 0xE5#8).busy, b ≠ 0xFF#8) ∧
    s.env.rx = ((reply 0x00#8).talk 24#6 2#32 ++ (writeReply 0xE5#8).talk (s.req.buf.bytes 0 512)).answers ++ [] ∧
    (reply 0x00#8).InTime s.env 0 ∧ (writeReply 0xE5#8).InTime s.env (reply 0x00#8).ticks :=
  ⟨asking (talking ((reply 0x00#8).talk 24#6 2#32 ++ (writeReply 0xE5#8).talk (Memory.bytes [] 0 512))), rfl, rfl,
    by decide, by decide, reply_ok (by decide), rfl, by decide, by decide, answers_self _, reply_time _ _ (by decide),
    write_time _ _ (by decide)⟩

theorem test_hyps_WrblkPromise : ∃ s t : State, exec .wrblk s = .next t ∧ t.res.kind = 0#4 := by
  obtain ⟨s, h1, h2, h3, h4, h5, h6, h7, h8, h9, h10, h11⟩ := test_hyps_WrblkSucceeds
  exact ⟨s, write_next h1 h2 h3 h4 h5 h6 h7 h8 h9 h10 h11⟩

/-- A card whose go-idle loop takes three attempts, one of them unanswered, and whose operating-condition loop
takes four, one with its prefix unanswered and one with its target unanswered; its CSD. -/
def scriptWith (img : Image) : InitScript where
  filler := Vector.replicate 10 0xFF#8
  idleTries := [.answered (reply 0x00#8), .silent silence]
  idle := reply 0x01#8
  probe := reply 0x01#8
  payload := #v[0x00#8, 0x00#8, 0x01#8, 0xAA#8]
  condTries := [.sent (reply 0x01#8) (.answered (reply 0x01#8)), .prefixSilent silence,
    .sent (reply 0x05#8) (.silent silence)]
  condPrefix := reply 0x01#8
  cond := reply 0x00#8
  ocrReply := reply 0x00#8
  ocr := #v[0xC0#8, 0xFF#8, 0x80#8, 0x00#8]
  blkLen := reply 0x00#8
  cidReply := reply 0x00#8
  cid := imageReply cidA
  csdReply := reply 0x00#8
  csd := imageReply img

/-- The card with CSD-E. -/
def script : InitScript := scriptWith csdE

/-- The failed attempts of the script are failed attempts. -/
theorem idleTries_ok : ∀ a ∈ script.idleTries, a.Ok { pollExtra := 1, tcodeW := 8 } ∧ a.NotIdle := by
  intro a ha
  simp only [script, scriptWith, List.mem_cons, List.not_mem_nil, or_false] at ha
  rcases ha with rfl | rfl
  · exact ⟨reply_ok (by decide), by simp [Attempt.NotIdle, Attempt.reply, reply]⟩
  · exact ⟨silence_ok, by simp [Attempt.NotIdle, Attempt.reply]⟩

theorem condTries_ok : ∀ c ∈ script.condTries, c.Ok { pollExtra := 1, tcodeW := 8 } ∧ c.NotReady := by
  intro c hc
  simp only [script, scriptWith, List.mem_cons, List.not_mem_nil, or_false] at hc
  rcases hc with rfl | rfl | rfl
  · exact ⟨⟨reply_ok (by decide), reply_ok (by decide)⟩,
      by simp [AppAttempt.NotReady, AppAttempt.reply, Attempt.reply, reply]⟩
  · exact ⟨silence_ok, by simp [AppAttempt.NotReady, AppAttempt.reply]⟩
  · exact ⟨⟨reply_ok (by decide), silence_ok⟩, by simp [AppAttempt.NotReady, AppAttempt.reply, Attempt.reply]⟩

theorem script_ok (img : Image) (g : InitStep) : (scriptWith img).OkIn { pollExtra := 1, tcodeW := 8 } g := by
  cases g
  · trivial
  · exact ⟨idleTries_ok, reply_ok (by decide), rfl⟩
  · exact ⟨reply_ok (by decide), show illegalCommand 0x01#8 = false by decide,
      show r7Ok #v[0x00#8, 0x00#8, 0x01#8, 0xAA#8] = true by decide⟩
  · exact ⟨condTries_ok, reply_ok (by decide), reply_ok (by decide), rfl⟩
  · exact ⟨reply_ok (by decide), rfl⟩
  · exact ⟨reply_ok (by decide), rfl⟩
  · exact ⟨reply_ok (by decide), rfl⟩
  · exact ⟨reply_ok (by decide), rfl⟩
  · trivial

/-- The clock goes 4000 ms while the card plays its part; each of its waits is in time. -/
theorem script_time (img : Image) (rx : List Answer) (g : InitStep) :
    (scriptWith img).InTimeIn (timed rx ramp).env ((scriptWith img).ticks g) g := by
  cases g
  · trivial
  · exact ⟨ramp_before _ (i := 0) (n := 6) (by decide) (by decide) (by decide),
      ⟨reply_time _ _ (i := 1) (by decide), silence_time _ (i := 4) (by decide), trivial⟩,
      reply_time _ _ (i := 7) (by decide)⟩
  · exact reply_time _ _ (i := 9) (by decide)
  · exact ⟨ramp_before _ (i := 11) (n := 13) (by decide) (by decide) (by decide),
      ⟨⟨reply_time _ _ (i := 12) (by decide), reply_time _ _ (i := 14) (by decide)⟩, silence_time _ (i := 17) (by decide),
        ⟨reply_time _ _ (i := 20) (by decide), silence_time _ (i := 22) (by decide)⟩, trivial⟩,
      reply_time _ _ (i := 25) (by decide), reply_time _ _ (i := 27) (by decide)⟩
  · exact reply_time _ _ (i := 29) (by decide)
  · exact reply_time _ _ (i := 31) (by decide)
  · exact ⟨reply_time _ _ (i := 33) (by decide), image_time _ _ (i := 35) (by decide)⟩
  · exact ⟨reply_time _ _ (i := 37) (by decide), image_time _ _ (i := 39) (by decide)⟩
  · trivial

theorem test_hyps_InitSucceeds : ∃ s : State, s.seq.op = .idle ∧ s.wrk.scratch.wf = true ∧
    script.Ok s.par .commit ∧ script.InTime s.env .commit ∧ csdBlockCount script.csd.data = some 15159000#64 ∧
    15159000#64 ≠ 0#64 ∧ (15159000#64).toNat < 2 ^ 32 ∧ s.env.rx = answersOf (script.moves .commit) ++ [] :=
  ⟨moving (script.moves .commit), rfl, rfl, fun g _ => script_ok _ g, fun g _ => script_time _ _ g, by decide +kernel,
    by decide, by decide, moves_self _⟩

/-- P4: no card. -/
def noCard : InitScript := { script with idleTries := [.silent absent] }

/-- P8: the operating-condition attempts are all answered 0x01. -/
def neverReady : InitScript :=
  { script with
    idleTries := [], idle := calm 0x01#8, probe := calm 0x01#8
    condTries := [.sent (calm 0x01#8) (.answered (calm 0x01#8))] }

/-- The failing attempt of P8. -/
def notReady : AppAttempt := .sent (calm 0x01#8) (.answered (calm 0x01#8))

/-- P4 with its samples. -/
def p4 : State := timed (answersOf (noCard.moves .goIdle ++ (noCard.idleTries.flatMap (Attempt.moves 0#6 0#32) ++
  (Attempt.silent absent).moves 0#6 0#32))) [0, 0, 1500, 1500, 2000]

/-- P8 with its samples. -/
def p8 : State := timed (answersOf (neverReady.moves .opCond ++
  (neverReady.condTries.flatMap (AppAttempt.moves 0x40000000#32) ++ notReady.moves 0x40000000#32)))
  [0, 0, 0, 0, 0, 0, 1000, 1000, 1000, 2100]

/-- Each clause: P4; P8; CSD-J has no count, CSD-H one of 2^32 or more, CSD-G the count 0. -/
theorem test_hyps_InitErrors :
    (p4.seq.op = .idle ∧ (∀ a ∈ noCard.idleTries ++ [Attempt.silent absent], a.Ok p4.par ∧ a.NotIdle) ∧
      IdleInTime p4.env 1 (noCard.idleTries ++ [.silent absent]) ∧ p4.env.Before 0 (idleTicks noCard.idleTries) 2000 ∧
      p4.env.Reached 0 (idleTicks (noCard.idleTries ++ [.silent absent])) 2000 ∧
      p4.env.rx = answersOf (noCard.moves .goIdle ++ (noCard.idleTries.flatMap (Attempt.moves 0#6 0#32) ++
        (Attempt.silent absent).moves 0#6 0#32)) ++ []) ∧
    (p8.seq.op = .idle ∧ neverReady.Ok p8.par .opCond ∧ neverReady.InTime p8.env .opCond ∧
      3 = neverReady.ticks .opCond ∧ (∀ c ∈ neverReady.condTries ++ [notReady], c.Ok p8.par ∧ c.NotReady) ∧
      CondInTime p8.env (3 + 1) (neverReady.condTries ++ [notReady]) ∧
      p8.env.Before 3 (condTicks neverReady.condTries) 2000 ∧
      p8.env.Reached 3 (condTicks (neverReady.condTries ++ [notReady])) 2000 ∧
      p8.env.rx = answersOf (neverReady.moves .opCond ++
        (neverReady.condTries.flatMap (AppAttempt.moves 0x40000000#32) ++ notReady.moves 0x40000000#32)) ++ []) ∧
    (∀ img : Image, ∃ s : State, s.seq.op = .idle ∧ s.wrk.scratch.wf = true ∧ (scriptWith img).Ok s.par .commit ∧
      (scriptWith img).InTime s.env .commit ∧ s.env.rx = answersOf ((scriptWith img).moves .commit) ++ []) ∧
    csdBlockCount csdJ = none ∧ (∃ n : BitVec 64, csdBlockCount csdH = some n ∧ 2 ^ 32 ≤ n.toNat) ∧
    csdBlockCount csdG = some 0#64 := by
  refine ⟨⟨rfl, ?_, ⟨absent_time _ (by decide +kernel), absent_time _ (by decide +kernel), trivial⟩,
      ⟨by decide +kernel, by decide +kernel⟩, show 0 + 2000 ≤ 2000 by decide, (List.append_nil _).symm⟩,
    ⟨rfl, ?_, ?_, rfl, ?_,
      ⟨⟨calm_time _ _ (by decide +kernel), calm_time _ _ (by decide +kernel)⟩,
        ⟨calm_time _ _ (by decide +kernel), calm_time _ _ (by decide +kernel)⟩, trivial⟩,
      ⟨by decide +kernel, by decide +kernel⟩, show 0 + 2000 ≤ 2100 by decide, (List.append_nil _).symm⟩,
    fun img => ⟨moving ((scriptWith img).moves .commit), rfl, rfl, fun g _ => script_ok img g,
      fun g _ => script_time img _ g, moves_self _⟩, by decide +kernel, ⟨_, rfl, by decide +kernel⟩, by decide +kernel⟩
  · intro a ha
    simp only [noCard, List.cons_append, List.nil_append, List.mem_cons, List.not_mem_nil, or_false] at ha
    rcases ha with rfl | rfl <;> exact ⟨absent_ok, by simp [Attempt.NotIdle, Attempt.reply]⟩
  · intro g hg
    simp only [InitStep.before, List.mem_cons, List.not_mem_nil, or_false] at hg
    rcases hg with rfl | rfl | rfl
    · trivial
    · exact ⟨by simp [neverReady], calm_ok (by decide), rfl⟩
    · exact ⟨calm_ok (by decide), by decide, by decide⟩
  · intro g hg
    simp only [InitStep.before, List.mem_cons, List.not_mem_nil, or_false] at hg
    rcases hg with rfl | rfl | rfl
    · trivial
    · exact ⟨⟨by decide +kernel, by decide +kernel⟩, trivial, calm_time _ _ (by decide +kernel)⟩
    · exact calm_time _ _ (by decide +kernel)
  · intro c hc
    simp only [neverReady, List.cons_append, List.nil_append, List.mem_cons, List.not_mem_nil, or_false] at hc
    rcases hc with rfl | rfl <;>
      exact ⟨⟨calm_ok (by decide), calm_ok (by decide)⟩, by
        simp [notReady, AppAttempt.NotReady, AppAttempt.reply, Attempt.reply, calm]⟩

/-- `I_IFCOND`: no answer (V-I5), an illegal command (V-I7), a mismatch (V-I8). -/
theorem test_hyps_InitCommandErrors_ifCond :
    (∃ s : State, s.seq.op = .idle ∧ s.wrk.scratch.wf = true ∧ script.Ok s.par .ifCond ∧ script.InTime s.env .ifCond ∧
      silence.Ok s.par ∧ silence.InTime s.env (script.ticks .ifCond) ∧
      s.env.rx = answersOf (script.moves .ifCond ++ (Attempt.silent silence).moves 8#6 0x000001AA#32) ++ []) ∧
    (∃ s : State, script.Ok s.par .ifCond ∧ script.InTime s.env .ifCond ∧ (reply 0x04#8).Ok s.par ∧
      illegalCommand (reply 0x04#8).resp = true ∧ (reply 0x04#8).InTime s.env (script.ticks .ifCond) ∧
      s.env.rx = answersOf (script.moves .ifCond ++ .cs true :: ((reply 0x04#8).talk 8#6 0x000001AA#32).events) ++ []) ∧
    ∃ s : State, script.Ok s.par .ifCond ∧ script.InTime s.env .ifCond ∧ (reply 0x01#8).Ok s.par ∧
      illegalCommand (reply 0x01#8).resp = false ∧ r7Ok #v[0x00#8, 0x00#8, 0x02#8, 0xAA#8] = false ∧
      (reply 0x01#8).InTime s.env (script.ticks .ifCond) ∧
      s.env.rx = answersOf (script.moves .ifCond ++ .cs true :: ((reply 0x01#8).talk 8#6 0x000001AA#32 ++
        polls (#v[0x00#8, 0x00#8, 0x02#8, 0xAA#8]).toList).events) ++ [] :=
  ⟨⟨moving _, rfl, rfl, fun g _ => script_ok _ g, fun g _ => script_time _ _ g, silence_ok,
      silence_time _ (i := 9) (by decide), moves_self _⟩,
    ⟨moving _, fun g _ => script_ok _ g, fun g _ => script_time _ _ g, reply_ok (by decide), by decide,
      reply_time _ _ (i := 9) (by decide), moves_self _⟩,
    ⟨moving _, fun g _ => script_ok _ g, fun g _ => script_time _ _ g, reply_ok (by decide), by decide, by decide,
      reply_time _ _ (i := 9) (by decide), moves_self _⟩⟩

/-- The four later states: a status (V-I13, V-I16) and none. -/
theorem test_hyps_InitCommandErrors_status : ∀ g n arg,
    (g, n, arg) ∈ [(InitStep.ocr, 58#6, 0#32), (.blkLen, 16#6, 0x00000200#32), (.cid, 10#6, 0#32), (.csd, 9#6, 0#32)] →
    ∀ a ∈ [Attempt.answered (reply 0x04#8), .silent silence],
      ∃ s : State, script.Ok s.par g ∧ script.InTime s.env g ∧ a.Ok s.par ∧ a.NotClear ∧
        a.InTime s.env (script.ticks g) ∧ s.env.rx = answersOf (script.moves g ++ a.moves n arg) ++ [] := by
  intro g n arg hg a ha
  have hk : script.ticks g + 1 < 60 := by
    simp only [List.mem_cons, Prod.mk.injEq, List.not_mem_nil, or_false] at hg
    rcases hg with ⟨rfl, -⟩ | ⟨rfl, -⟩ | ⟨rfl, -⟩ | ⟨rfl, -⟩ <;> decide
  simp only [List.mem_cons, List.not_mem_nil, or_false] at ha
  rcases ha with rfl | rfl
  · exact ⟨moving _, fun g _ => script_ok _ g, fun g _ => script_time _ _ g, reply_ok (by decide),
      by simp [Attempt.NotClear, Attempt.reply, reply], reply_time _ _ hk, moves_self _⟩
  · exact ⟨moving _, fun g _ => script_ok _ g, fun g _ => script_time _ _ g, silence_ok,
      by simp [Attempt.NotClear, Attempt.reply], silence_time _ hk, moves_self _⟩

/-- The token wait of both register reads: a wrong byte (V-I17, V-I18). -/
theorem test_hyps_InitCommandErrors_token : ∀ g n, (g, n) ∈ [(InitStep.cid, 10#6), (.csd, 9#6)] →
    ∃ s : State, script.Ok s.par g ∧ script.InTime s.env g ∧ (reply 0x00#8).Ok s.par ∧ (reply 0x00#8).resp = 0x00#8 ∧
      (⟨1, 0x3C#8⟩ : NoToken).last ≠ 0xFE#8 ∧ (reply 0x00#8).InTime s.env (script.ticks g) ∧
      (⟨1, 0x3C#8⟩ : NoToken).InTime s.env (script.ticks g + (reply 0x00#8).ticks) ∧
      s.env.rx = answersOf (script.moves g ++
        .cs true :: ((reply 0x00#8).talk n 0#32 ++ (⟨1, 0x3C#8⟩ : NoToken).talk).events ++ [.cs false]) ++ [] := by
  intro g n hg
  have hk : script.ticks g + 2 + 1 < 60 := by
    simp only [List.mem_cons, Prod.mk.injEq, List.not_mem_nil, or_false] at hg
    rcases hg with ⟨rfl, -⟩ | ⟨rfl, -⟩ <;> decide
  exact ⟨moving _, fun g _ => script_ok _ g, fun g _ => script_time _ _ g, reply_ok (by decide), rfl, by decide,
    reply_time _ _ (by omega),
    ⟨ramp_before _ hk (by decide) (by decide), fun h => absurd h (by decide)⟩, moves_self _⟩

/-- V-I18: the CID read is good, the CSD read ends with a wrong byte. -/
def csdRefused : State :=
  demo (heard (List.replicate 10 0xFF#8 ++ [0xFF#8] ++ six ++ [0x01#8] ++
    [0xFF#8] ++ six ++ [0x01#8, 0x00#8, 0x00#8, 0x01#8, 0xAA#8] ++
    [0xFF#8] ++ six ++ [0x01#8] ++ [0xFF#8] ++ six ++ [0x00#8] ++
    [0xFF#8] ++ six ++ [0x00#8, 0xC0#8, 0xFF#8, 0x80#8, 0x00#8] ++ [0xFF#8] ++ six ++ [0x00#8] ++
    [0xFF#8] ++ six ++ [0x00#8, 0xFF#8, 0xFE#8] ++ cidA.toList ++ [0x12#8, 0x34#8] ++
    [0xFF#8] ++ six ++ [0x00#8, 0x3C#8])) (List.replicate 13 1000#64)

/-- The CID is fresh, the CSD is not; the history holds CMD10's first byte and, 27 events later, a selection. -/
theorem test_init_csd : nextAnd (exec .init csdRefused) (fun t =>
    t.res.kind == 9#4 && t.ses.cid == cidA && t.ses.csd == Vector.replicate 16 0x00#8 &&
      bus t.trace == (bus t.trace).take 68 ++ .xchg 0x4A#8 (.byte 0xFF#8) :: ((bus t.trace).drop 69).take 27 ++
        .cs true :: (bus t.trace).drop 97) = true := by decide +kernel

/-- Success (P1), a legacy card (P6), a transport failure before classification (V-I25), an error after it
(V-I13), and one in `I_CSD` (V-I18). -/
theorem test_hyps_InitOutcome :
    (∃ t : State, highCapacity.wrk.scratch.wf = true ∧ exec .init highCapacity = .next t ∧ t.res.kind = 0#4) ∧
    (∃ t : State, legacyCard.wrk.scratch.wf = true ∧ exec .init legacyCard = .next t ∧ t.res.kind = 3#4 ∧
      t.ses.kind = .sd1) ∧
    (∃ t : State, fillerFails.wrk.scratch.wf = true ∧ exec .init fillerFails = .next t ∧ t.res.kind ≠ 0#4 ∧
      t.ses.kind = .none) ∧
    (∃ t : State, ocrRefused.wrk.scratch.wf = true ∧ exec .init ocrRefused = .next t ∧ t.res.kind ≠ 0#4 ∧
      t.ses.kind = .sd2) ∧
    (∃ s t : State, s.wrk.scratch.wf = true ∧ exec .init s = .next t ∧ t.res.kind = 3#4 ∧ t.ses.kind ≠ .sd1) ∧
    ∃ t : State, csdRefused.wrk.scratch.wf = true ∧ exec .init csdRefused = .next t ∧ t.res.kind ≠ 0#4 ∧
      CsdBegun csdRefused t := by
  refine ⟨?_, ?_, ?_, ?_, ?_, ?_⟩
  · obtain ⟨t, h1, h2⟩ := nextAnd_exists test_init
    simp only [Bool.and_eq_true, beq_iff_eq] at h2
    exact ⟨t, rfl, h1, h2.1.1.1.1.1.1⟩
  · obtain ⟨t, h1, h2⟩ := nextAnd_exists test_init_legacy
    simp only [Bool.and_eq_true, beq_iff_eq] at h2
    exact ⟨t, rfl, h1, h2.1.1.1.1, h2.1.1.1.2⟩
  · obtain ⟨t, h1, h2⟩ := nextAnd_exists test_init_transport
    simp only [Bool.and_eq_true, beq_iff_eq] at h2
    exact ⟨t, rfl, h1, by rw [h2.1.1.1.1]; decide, h2.1.2⟩
  · obtain ⟨t, h1, h2⟩ := nextAnd_exists test_init_ocr
    simp only [Bool.and_eq_true, beq_iff_eq] at h2
    exact ⟨t, rfl, h1, by rw [h2.1.1.1]; decide, h2.1.2⟩
  · obtain ⟨t, h1, h2⟩ := nextAnd_exists test_init_structure
    simp only [Bool.and_eq_true, beq_iff_eq] at h2
    exact ⟨structureTwo, t, rfl, h1, h2.1.1, by rw [h2.1.2]; decide⟩
  · obtain ⟨t, h1, h2⟩ := nextAnd_exists test_init_csd
    simp only [Bool.and_eq_true, beq_iff_eq] at h2
    exact ⟨t, rfl, h1, by rw [h2.1.1.1]; decide, _, _, _, _, h2.2⟩

theorem test_hyps_InitWrites : ∃ t : State, exec .init legacyCard = .next t :=
  let ⟨t, h, _⟩ := nextAnd_exists test_init_legacy
  ⟨t, h⟩

theorem test_hyps_RdblkWrites : ∃ t : State, exec .rdblk p7f = .next t :=
  let ⟨t, h, _⟩ := nextAnd_exists test_rdblk_transport
  ⟨t, h⟩

theorem test_hyps_WrblkWrites : ∃ s t : State, exec .wrblk s = .next t :=
  let ⟨s, t, h, _⟩ := test_hyps_WrblkPromise
  ⟨s, t, h⟩

theorem test_hyps_StatusCommandFrame : ∃ s t : State,
    Instr.cmd0 0#32 ∈ [Instr.cmd0 0#32, .cmd12 0#32, .cmd16 0#32, .cmd41 0#32, .cmd55 0#32, .acmd41 0#32, .zcmd 0#6 0#32] ∧
    exec (.cmd0 0#32) s = .next t :=
  let ⟨t, h, _⟩ := nextAnd_exists test_cmd0
  ⟨_, t, by decide, h⟩

theorem test_hyps_ProbeCommandFrame :
    (∃ s t : State, Instr.cmd8 0x1AA#32 ∈ [Instr.cmd8 0x1AA#32, .cmd58 0x1AA#32] ∧ exec (.cmd8 0x1AA#32) s = .next t) ∧
    ∃ s t : State, Instr.cmd58 0#32 ∈ [Instr.cmd8 0#32, .cmd58 0#32] ∧ exec (.cmd58 0#32) s = .next t := by
  constructor
  · obtain ⟨t, h, -⟩ := nextAnd_exists test_cmd8_mismatch
    exact ⟨_, t, by decide, h⟩
  · obtain ⟨t, h, -⟩ := nextAnd_exists test_cmd58.1
    exact ⟨_, t, by decide, h⟩

/-- One command of each kind: a register read, a block read, a block write. -/
theorem test_hyps_DataCommandFrame :
    (∃ s t : State, s.wrk.scratch.wf = true ∧ exec (.rdreg 10#6) s = .next t) ∧
    (∃ s t : State, s.wrk.scratch.wf = true ∧ exec (.cmd17 1#32) s = .next t) ∧
    (∃ s t : State, s.wrk.scratch.wf = true ∧ exec (.cmd24 0x63#32) s = .next t) ∧
    Instr.rdreg 10#6 ∈ [Instr.cmd9 0#32, .cmd10 0#32, .rdreg 10#6, .cmd17 0#32, .cmd24 0#32] := by
  refine ⟨?_, ?_, ?_, by decide⟩
  · obtain ⟨t, h, -⟩ := nextAnd_exists test_rdreg
    exact ⟨_, t, rfl, h⟩
  · obtain ⟨t, h, -⟩ := nextAnd_exists test_cmd17_busy
    exact ⟨_, t, rfl, h⟩
  · obtain ⟨t, h, -⟩ := nextAnd_exists test_cmd24
    exact ⟨_, t, rfl, h⟩

/-- A step from a state with the invariant that runs a whole operation: INIT on a legacy card. -/
theorem init_step : ∃ t : State, step { legacyCard with hostPort := some ⟨0x1#4, 0#64, 0#32, []⟩ } = .next t := by
  have h : nextAnd (step { legacyCard with hostPort := some ⟨0x1#4, 0#64, 0#32, []⟩ }) (fun _ => true) = true := by
    decide +kernel
  obtain ⟨t, h1, -⟩ := nextAnd_exists h
  exact ⟨t, h1⟩

theorem test_hyps_StepKeepsInv : ∃ s t : State, s.Inv ∧ step s = .next t := by
  obtain ⟨t, h⟩ := init_step
  exact ⟨_, t, idle_inv rfl rfl rfl rfl (fun h => absurd rfl h) (by decide) rfl rfl rfl rfl
    (by rintro _ ⟨⟩; rfl), h⟩

theorem test_hyps_ClockMonotone_HistoryGrows : ∃ s t : State, step s = .next t :=
  let ⟨t, h⟩ := init_step
  ⟨_, t, h⟩

/-- Both clauses: V-I25 fails, P6 does not. -/
theorem test_hyps_TransportFailure :
    (∃ t : State, Instr.init ∈ [Instr.init, .rdblk, .wrblk] ∧ exec .init fillerFails = .next t ∧ t.res.kind = 1#4) ∧
    ∃ t : State, exec .init legacyCard = .next t ∧ t.res.kind ≠ 1#4 := by
  constructor
  · obtain ⟨t, h1, h2⟩ := nextAnd_exists test_init_transport
    simp only [Bool.and_eq_true, beq_iff_eq] at h2
    exact ⟨t, by decide, h1, h2.1.1.1.1⟩
  · obtain ⟨t, h1, h2⟩ := nextAnd_exists test_init_legacy
    simp only [Bool.and_eq_true, beq_iff_eq] at h2
    exact ⟨t, h1, by rw [h2.1.1.1.1]; decide⟩

/-- The file-format clauses: the four codes in bits 3:2 of byte 14; CSD-A with its byte 14, 0x00, and 0xFC (R275). -/
theorem test_hyps_FieldPositions :
    (imageWord csdA).extractLsb' 10 2 = 0#2 ∧ (imageWord (csdA.set 14 0x04#8)).extractLsb' 10 2 = 1#2 ∧
    (imageWord (csdA.set 14 0x08#8)).extractLsb' 10 2 = 2#2 ∧ (imageWord (csdA.set 14 0xFC#8)).extractLsb' 10 2 = 3#2 ∧
    csdFileFormat csdA = .partitionTable ∧ csdFileFormat (csdA.set 14 0xFC#8) = .unknown := by decide +kernel

theorem test_hyps_Capacity : csdVersion csdA = 0#2 ∧ csdVersion csdE = 1#2 ∧ csdReadBlExp csdE = 9#4 ∧
    csdVersion csdJ = 2#2 ∧ csdVersion (Vector.replicate 16 0xFF#8) = 3#2 := by decide

theorem test_hyps_CsdValidity : csdIsValid csdA = true ∧ (7 : Nat) < 8 := ⟨test_csd_valid.1, by decide⟩

end Sys2Proof.Tests
end

