-- ==== Sys2Proof/Proofs/Transport.lean ====
section
/-! PROOFS. A transport failure stops the procedure that meets it, and nothing else stops with `E_TRANSPORT`
(R14, R239): one rule per primitive, one lemma per procedure, then the operations. -/

namespace Sys2Proof.Machine

/-! ### What a run adds to the history -/

/-- The history grew, by no failed exchange. -/
def Unfailed (s t : State) : Prop :=
  ∃ new : List Event, t.trace = new ++ s.trace ∧ ∀ ev ∈ new, ev.failed = false

/-- The history grew, and its last event is the one failed exchange, with this code. -/
def FailedLast (code : Nat) (s t : State) : Prop :=
  ∃ (b : Byte) (older : List Event),
    t.trace = .xchg b (.fail code) :: (older ++ s.trace) ∧ ∀ ev ∈ older, ev.failed = false

theorem Unfailed.of_trace_eq {s t : State} (h : t.trace = s.trace) : Unfailed s t :=
  ⟨[], h, fun _ hev => absurd hev List.not_mem_nil⟩

theorem Unfailed.of_trace_cons {s t : State} {ev : Event} (h : t.trace = ev :: s.trace) (hev : ev.failed = false) :
    Unfailed s t :=
  ⟨[ev], h, by simpa using hev⟩

theorem Unfailed.trans {s t u : State} (h : Unfailed s t) (h' : Unfailed t u) : Unfailed s u := by
  obtain ⟨new, hnew, hq⟩ := h
  obtain ⟨new', hnew', hq'⟩ := h'
  refine ⟨new' ++ new, by rw [hnew', hnew, List.append_assoc], fun ev hev => ?_⟩
  rcases List.mem_append.mp hev with hm | hm
  · exact hq' ev hm
  · exact hq ev hm

theorem Unfailed.failedLast {s t u : State} {code : Nat} (h : Unfailed s t) (h' : FailedLast code t u) :
    FailedLast code s u := by
  obtain ⟨new, hnew, hq⟩ := h
  obtain ⟨b, older, ht, hq'⟩ := h'
  refine ⟨b, older ++ new, by rw [ht, hnew, List.append_assoc], fun ev hev => ?_⟩
  rcases List.mem_append.mp hev with hm | hm
  · exact hq' ev hm
  · exact hq ev hm

theorem unfailed_withCs (s : State) (a : Bool) : Unfailed s (s.withCs a) := by
  by_cases h : s.wrk.csActive = a
  · exact .of_trace_eq (by rw [withCs_trace, if_pos h])
  · exact .of_trace_cons (by rw [withCs_trace, if_neg h]) rfl

/-- The exit actions only deselect (R239, R372). -/
theorem unfailed_exitActions (r : Option Err) (s : State) : Unfailed s (exitActions r s) :=
  unfailed_withCs s false

/-! ### Procedures that report every transport failure -/

/-- The code of the transport failure a procedure stops with, if it stops with one. -/
def Stop.transportCode : Stop → Option Nat
  | .raise (.transport code) => some code
  | _ => none

/-- The history of a run that stopped: with a transport failure, that failure is its last event; without, it has
no failure. -/
def StopReports (s t : State) (r : Stop) : Prop :=
  match r.transportCode with
  | some code => FailedLast code s t
  | none => Unfailed s t

theorem Unfailed.stopReports {s t : State} {r : Stop} (h : Unfailed s t) (hr : r.transportCode = none) :
    StopReports s t r := by
  unfold StopReports
  rw [hr]
  exact h

theorem Unfailed.stopReports_trans {s t u : State} {r : Stop} (h : Unfailed s t) (h' : StopReports t u r) :
    StopReports s u r := by
  unfold StopReports at h' ⊢
  cases hr : r.transportCode with
  | some code => rw [hr] at h'; exact h.failedLast h'
  | none => rw [hr] at h'; exact h.trans h'

/-- A procedure ends well only if no exchange failed, and a failed exchange stops it at once with its code. -/
structure Reports {α : Type} (p : Proc α) : Prop where
  ok : ∀ {s t : State} {a : α}, p s = .ok a t → Unfailed s t
  err : ∀ {s t : State} {r : Stop}, p s = .error r t → StopReports s t r

variable {α β : Type}

theorem reports_pure (a : α) : Reports (pure a : Proc α) where
  ok h := by cases h; exact .of_trace_eq rfl
  err h := by cases h

theorem reports_rd : Reports rd where
  ok h := by cases h; exact .of_trace_eq rfl
  err h := by cases h

theorem reports_stop {r : Stop} (hr : r.transportCode = none) : Reports (stop r : Proc α) where
  ok h := by cases h
  err h := by cases h; exact (Unfailed.of_trace_eq rfl).stopReports hr

theorem reports_raise {e : Err} (he : (Stop.raise e).transportCode = none) : Reports (raise e : Proc α) :=
  reports_stop he

/-- Register writes leave the history alone. -/
theorem reports_upd {f : State → State} (hf : ∀ s, (f s).trace = s.trace) : Reports (upd f) where
  ok h := by cases h; exact .of_trace_eq (hf _)
  err h := by cases h

theorem reports_cs (a : Bool) : Reports (cs a) where
  ok h := by cases h; exact unfailed_withCs _ a
  err h := by cases h

theorem reports_now : Reports now where
  ok h := by cases h; exact .of_trace_cons rfl rfl
  err h := by cases h

theorem reports_finish : Reports finish where
  ok h := by cases h; exact unfailed_exitActions none _
  err h := by cases h

/-- The one source of transport failures. -/
theorem reports_xchg (b : Byte) : Reports (xchg b) where
  ok {s t a} h := by
    rcases xchg_cases s b with ⟨r, hn, hx⟩ | ⟨c, hn, hx⟩ <;> rw [hx] at h <;> cases h
    exact .of_trace_cons (by rw [afterXchg_trace, hn]) rfl
  err {s t r} h := by
    rcases xchg_cases s b with ⟨r, hn, hx⟩ | ⟨c, hn, hx⟩ <;> rw [hx] at h <;> cases h
    exact ⟨b, [], by rw [afterXchg_trace, hn, List.nil_append], fun _ hev => absurd hev List.not_mem_nil⟩

/-- After a failure nothing more is run. -/
theorem Reports.bind {p : Proc α} {f : α → Proc β} (hp : Reports p) (hf : ∀ a, Reports (f a)) :
    Reports (p >>= f) where
  ok h := by
    obtain ⟨a, t, h1, h2⟩ := bind_ok_inv h
    exact (hp.ok h1).trans ((hf a).ok h2)
  err h := by
    rcases bind_error_inv h with h1 | ⟨a, t, h1, h2⟩
    · exact hp.err h1
    · exact (hp.ok h1).stopReports_trans ((hf a).err h2)

theorem reports_ite {c : Prop} [Decidable c] {p q : Proc α} (hp : Reports p) (hq : Reports q) :
    Reports (if c then p else q) := by
  split
  · exact hp
  · exact hq

/-- An access to a buffer leaves the history alone, and outside the buffer it is a fault, no error. -/
theorem reports_access {c : Prop} [Decidable c] {v : State → α} {g : State → State} {f : Fault}
    (hg : ∀ s, (g s).trace = s.trace) :
    Reports (fun s => if c then .ok (v s) (g s) else .error (.fault f) s : Proc α) where
  ok {s t a} h := by
    split at h <;> cases h
    exact .of_trace_eq (hg s)
  err {s t r} h := by
    split at h <;> cases h
    exact (Unfailed.of_trace_eq rfl).stopReports rfl

theorem reports_bufRead (i : Nat) : Reports (bufRead i) := reports_access fun _ => rfl

theorem reports_bufWrite (i : Nat) (v : Byte) : Reports (bufWrite i v) := reports_access fun _ => rfl

theorem reports_scratchWrite (i : Nat) (v : Byte) : Reports (scratchWrite i v) := reports_access fun _ => rfl

/-! ### The waits -/

theorem reports_sendAll : ∀ bs, Reports (sendAll bs)
  | [] => reports_pure ()
  | b :: bs => (reports_xchg b).bind fun _ => reports_sendAll bs

theorem reports_discard (n : Nat) : Reports (discard n) := reports_sendAll _

theorem reports_deadline (T : Nat) : Reports (deadline T) :=
  reports_now.bind fun _ => reports_ite (reports_pure _) (reports_stop rfl)

theorem reports_loadDl0 (T : Nat) : Reports (loadDl0 T) :=
  (reports_deadline T).bind fun _ => reports_upd fun _ => rfl

theorem reports_loadDl1 (T : Nat) : Reports (loadDl1 T) :=
  (reports_deadline T).bind fun _ => reports_upd fun _ => rfl

theorem reports_expiredDl0 : Reports expiredDl0 :=
  reports_now.bind fun _ => reports_rd.bind fun _ => reports_pure _

theorem reports_expiredDl1 : Reports expiredDl1 :=
  reports_now.bind fun _ => reports_rd.bind fun _ => reports_pure _

theorem reports_busyLoop : ∀ n, Reports (busyLoop n)
  | 0 => reports_stop rfl
  | n + 1 => (reports_xchg _).bind fun _ => reports_ite (reports_pure _) <|
      reports_expiredDl1.bind fun _ => reports_ite (reports_pure _) (reports_busyLoop n)

theorem reports_waitNotBusy (T : Nat) : Reports (waitNotBusy T) :=
  (reports_loadDl1 T).bind fun _ => reports_rd.bind fun _ => reports_busyLoop _

/-- A check that fails after the card was deselected. -/
theorem reports_deselectRaise {e : Err} (he : (Stop.raise e).transportCode = none) :
    Reports (do cs false; raise e : Proc α) :=
  (reports_cs false).bind fun _ => reports_raise he

theorem reports_tokenLoop : ∀ n, Reports (tokenLoop n)
  | 0 => reports_stop rfl
  | n + 1 => by
    refine (reports_xchg _).bind fun b => ?_
    cases tokenClass b with
    | start => exact reports_pure ()
    | invalid => exact reports_deselectRaise rfl
    | idleLine =>
      exact reports_expiredDl1.bind fun _ => reports_ite (reports_deselectRaise rfl) (reports_tokenLoop n)

theorem reports_waitStartToken : Reports waitStartToken :=
  (reports_loadDl1 _).bind fun _ => reports_rd.bind fun _ => reports_tokenLoop _

/-! ### The command engine -/

theorem reports_goCfsm (x : Cfsm) : Reports (goCfsm x) := reports_upd fun _ => rfl

theorem reports_endCommand (b : Byte) (t : Bool) : Reports (endCommand b t) := reports_upd fun _ => rfl

theorem reports_setKind (k : CardKind) : Reports (setKind k) := reports_upd fun _ => rfl

theorem reports_pollResponse : ∀ n, Reports (pollResponse n)
  | 0 => reports_pure _
  | n + 1 => (reports_xchg _).bind fun _ => reports_ite (reports_pollResponse n) (reports_pure _)

theorem reports_busyPhase (index : BitVec 6) : Reports (busyPhase index) :=
  reports_ite (reports_pure ()) <|
    (reports_goCfsm _).bind fun _ => (reports_waitNotBusy _).bind fun _ => reports_pure ()

theorem reports_framePhase (index : BitVec 6) (arg : BitVec 32) : Reports (framePhase index arg) :=
  (reports_goCfsm _).bind fun _ => (reports_upd fun _ => rfl : Reports (setFrame _)).bind fun _ => reports_sendAll _

theorem reports_stuffPhase (index : BitVec 6) : Reports (stuffPhase index) :=
  reports_ite ((reports_goCfsm _).bind fun _ => reports_discard 1) (reports_pure ())

theorem reports_sendCommand (index : BitVec 6) (arg : BitVec 32) : Reports (sendCommand index arg) :=
  (reports_goCfsm _).bind fun _ => (reports_cs true).bind fun _ => (reports_busyPhase index).bind fun _ =>
    (reports_framePhase index arg).bind fun _ => reports_stuffPhase index

theorem reports_finishCommand : ∀ r, Reports (finishCommand r)
  | some b => (reports_endCommand b false).bind fun _ => reports_pure _
  | none => (reports_goCfsm _).bind fun _ => (reports_cs false).bind fun _ => (reports_discard 1).bind fun _ =>
      (reports_endCommand _ true).bind fun _ => reports_pure _

theorem reports_issueCommand (index : BitVec 6) (arg : BitVec 32) : Reports (issueCommand index arg) :=
  (reports_sendCommand index arg).bind fun _ => (reports_goCfsm _).bind fun _ => reports_rd.bind fun _ =>
    (reports_pollResponse _).bind fun r => reports_finishCommand r

theorem reports_issueAppCommand (index : BitVec 6) (arg : BitVec 32) : Reports (issueAppCommand index arg) :=
  (reports_issueCommand _ _).bind fun _ => reports_ite (reports_pure _) (reports_issueCommand index arg)

theorem reports_ensureZeroStatus (index : BitVec 6) (arg : BitVec 32) : Reports (ensureZeroStatus index arg) := by
  refine (reports_issueCommand index arg).bind fun r => ?_
  cases classify r.status r.rto with
  | timeout => exact reports_raise rfl
  | clear => exact reports_pure ()
  | idleOnly => exact reports_raise rfl
  | flagged => exact reports_raise rfl

theorem reports_receiveR7 (i : Fin 4) : Reports (receiveR7 i) :=
  (reports_xchg _).bind fun _ => reports_upd fun _ => rfl

theorem reports_classifyPayload : Reports classifyPayload :=
  (reports_receiveR7 0).bind fun _ => (reports_receiveR7 1).bind fun _ => (reports_receiveR7 2).bind fun _ =>
    (reports_receiveR7 3).bind fun _ => reports_rd.bind fun _ =>
      reports_ite (reports_setKind _) (reports_raise rfl)

theorem reports_interfaceCondition (arg : BitVec 32) : Reports (interfaceCondition arg) :=
  (reports_issueCommand _ _).bind fun _ => reports_ite (reports_raise rfl) <|
    reports_ite ((reports_setKind _).bind fun _ => reports_raise rfl) reports_classifyPayload

theorem reports_readOcr (arg : BitVec 32) : Reports (readOcr arg) :=
  (reports_ensureZeroStatus _ _).bind fun _ => (reports_xchg _).bind fun b =>
    (reports_upd fun _ => rfl : Reports (setOcr0 b)).bind fun _ =>
      (reports_ite (reports_setKind _) (reports_pure ()) : Reports (reclassify b)).bind fun _ => reports_discard 3

/-! ### The data phases -/

theorem reports_receiveScratch : ∀ k i, Reports (receiveScratch k i)
  | 0, _ => reports_pure ()
  | k + 1, i => (reports_xchg _).bind fun b => (reports_scratchWrite i b).bind fun _ =>
      reports_receiveScratch k (i + 1)

theorem reports_readRegister (n : BitVec 6) (arg : BitVec 32) : Reports (readRegister n arg) :=
  (reports_ensureZeroStatus n arg).bind fun _ => reports_waitStartToken.bind fun _ =>
    (reports_receiveScratch _ _).bind fun _ => (reports_discard 2).bind fun _ => (reports_cs false).bind fun _ =>
      reports_rd.bind fun _ => reports_pure _

theorem reports_receiveBlock : ∀ k i c, Reports (receiveBlock k i c)
  | 0, _, c => reports_pure c
  | k + 1, i, c => (reports_xchg _).bind fun b => (reports_bufWrite i b).bind fun _ =>
      reports_receiveBlock k (i + 1) (crc16Update c b)

theorem reports_recordCrc (c : BitVec 16) : Reports (recordCrc c) :=
  (reports_xchg _).bind fun h => (reports_xchg _).bind fun l =>
    (reports_upd fun _ => rfl : Reports (setCrcs (h ++ l) c)).bind fun _ => reports_cs false

theorem reports_sendBlock : ∀ k i, Reports (sendBlock k i)
  | 0, _ => reports_pure ()
  | k + 1, i => (reports_bufRead i).bind fun v => (reports_xchg v).bind fun _ => reports_sendBlock k (i + 1)

theorem reports_writeResponse : Reports writeResponse :=
  (reports_xchg _).bind fun t => (reports_upd fun _ => rfl : Reports (setDresp t)).bind fun _ =>
    reports_ite (reports_pure ()) (reports_deselectRaise rfl)

theorem reports_writeBusy : Reports writeBusy := by
  refine (reports_waitNotBusy _).bind fun r => (reports_cs false).bind fun _ => ?_
  cases r with
  | ready => exact reports_pure ()
  | expired => exact reports_raise rfl

/-! ### The loops of INIT -/

theorem reports_goIdleLoop : ∀ n, Reports (goIdleLoop n)
  | 0 => reports_stop rfl
  | n + 1 => by
    have hretry : Reports (do let e ← expiredDl0; if e then raise .noCard else goIdleLoop n : Proc Unit) :=
      reports_expiredDl0.bind fun _ => reports_ite (reports_raise rfl) (reports_goIdleLoop n)
    refine (reports_issueCommand _ _).bind fun r => ?_
    cases classify r.status r.rto with
    | idleOnly => exact reports_pure ()
    | timeout => exact hretry
    | clear => exact hretry
    | flagged => exact hretry

theorem reports_opCondLoop (arg : BitVec 32) : ∀ n, Reports (opCondLoop arg n)
  | 0 => reports_stop rfl
  | n + 1 => by
    have hretry : ∀ err : Err, (Stop.raise err).transportCode = none →
        Reports (do let e ← expiredDl0; if e then raise err else opCondLoop arg n : Proc Unit) := fun _ herr =>
      reports_expiredDl0.bind fun _ => reports_ite (reports_raise herr) (reports_opCondLoop arg n)
    refine (reports_issueAppCommand _ _).bind fun r => ?_
    cases classify r.status r.rto with
    | clear => exact reports_pure ()
    | timeout => exact hretry _ rfl
    | idleOnly => exact hretry _ rfl
    | flagged => exact hretry _ rfl

/-! ### Operations -/

/-- A procedure that reports its failures and whose good end is the success exit, `E_OK`. -/
structure Completes (p : Proc Unit) : Prop extends Reports p where
  done : ∀ {s t : State}, p s = .ok () t → t.res.kind = 0#4

theorem completes_finish : Completes finish where
  toReports := reports_finish
  done h := by cases h; rfl

theorem completes_raise {e : Err} (he : (Stop.raise e).transportCode = none) : Completes (raise e) where
  toReports := reports_raise he
  done h := by cases h

/-- A step of an operation, then the rest of it. -/
theorem Reports.step {p : Proc α} {f : α → Proc Unit} (hp : Reports p) (hf : ∀ a, Completes (f a)) :
    Completes (p >>= f) where
  toReports := hp.bind fun a => (hf a).toReports
  done h := by
    obtain ⟨a, t, -, h2⟩ := bind_ok_inv h
    exact (hf a).done h2

theorem completes_ite {c : Prop} [Decidable c] {p q : Proc Unit} (hp : Completes p) (hq : Completes q) :
    Completes (if c then p else q) := by
  split
  · exact hp
  · exact hq

theorem reports_goFsm (x : Fsm) : Reports (goFsm x) := reports_upd fun _ => rfl

/-! ### RDBLK -/

/-- The request checks fail with no transport error (R301, R302, R300). -/
theorem checkRequest_error {ses : Session} {req : Request} {e : Err} (h : checkRequest ses req = .error e) :
    e = .bufLen ∨ e = .range := by
  unfold checkRequest at h
  split at h
  · cases h; exact .inl rfl
  · split at h
    · cases h; exact .inr rfl
    · split at h <;> cases h
      exact .inr rfl

theorem completes_checkRequest {ses : Session} {req : Request} {e : Err} (h : checkRequest ses req = .error e) :
    Completes (raise e) := by
  rcases checkRequest_error h with rfl | rfl <;> exact completes_raise rfl

theorem completes_fromRCrc (c : BitVec 16) : Completes (fromRCrc c) :=
  (reports_recordCrc c).step fun _ => completes_finish

theorem completes_fromRData : Completes fromRData :=
  (reports_receiveBlock _ _ _).step fun c => (reports_goFsm _).step fun _ => completes_fromRCrc c

theorem completes_fromRToken : Completes fromRToken :=
  reports_waitStartToken.step fun _ => (reports_goFsm _).step fun _ => completes_fromRData

theorem completes_fromRCmd : Completes fromRCmd := by
  refine reports_rd.step fun s => ?_
  cases translate s.ses.kind s.req.index with
  | none => exact completes_raise rfl
  | some a =>
    exact (reports_ensureZeroStatus _ a).step fun _ => (reports_goFsm _).step fun _ => completes_fromRToken

theorem completes_fromRCheck : Completes fromRCheck := by
  refine reports_rd.step fun s => ?_
  cases h : checkRequest s.ses s.req with
  | error e => exact completes_checkRequest h
  | ok a => exact (reports_goFsm _).step fun _ => completes_fromRCmd

/-! ### WRBLK -/

theorem completes_fromWBusy : Completes fromWBusy := reports_writeBusy.step fun _ => completes_finish

theorem completes_fromWResp : Completes fromWResp :=
  reports_writeResponse.step fun _ => (reports_goFsm _).step fun _ => completes_fromWBusy

theorem completes_fromWCrc : Completes fromWCrc :=
  (reports_sendAll _).step fun _ => (reports_goFsm _).step fun _ => completes_fromWResp

theorem completes_fromWData : Completes fromWData :=
  (reports_sendBlock _ _).step fun _ => (reports_goFsm _).step fun _ => completes_fromWCrc

theorem completes_fromWToken : Completes fromWToken :=
  (reports_sendAll _).step fun _ => (reports_goFsm _).step fun _ => completes_fromWData

theorem completes_fromWCmd : Completes fromWCmd := by
  refine reports_rd.step fun s => ?_
  cases translate s.ses.kind s.req.index with
  | none => exact completes_raise rfl
  | some a =>
    exact (reports_ensureZeroStatus _ a).step fun _ => (reports_goFsm _).step fun _ => completes_fromWToken

theorem completes_fromWCheck : Completes fromWCheck := by
  refine reports_rd.step fun s => ?_
  cases h : checkRequest s.ses s.req with
  | error e => exact completes_checkRequest h
  | ok a => exact (reports_goFsm _).step fun _ => completes_fromWCmd

/-! ### INIT -/

theorem completes_fromICommit : Completes fromICommit := by
  refine reports_rd.step fun s => ?_
  cases csdBlockCount s.ses.csd with
  | none => exact completes_raise rfl
  | some n =>
    exact completes_ite (completes_raise rfl) <| completes_ite (completes_raise rfl) <|
      (reports_upd fun _ => rfl : Reports (setBlockCount n)).step fun _ =>
        (reports_cs false).step fun _ => completes_finish

theorem completes_fromICsd : Completes fromICsd :=
  (reports_readRegister _ _).step fun img => (reports_upd fun _ => rfl : Reports (setCsd img)).step fun _ =>
    (reports_goFsm _).step fun _ => completes_fromICommit

theorem completes_fromICid : Completes fromICid :=
  (reports_readRegister _ _).step fun img => (reports_upd fun _ => rfl : Reports (setCid img)).step fun _ =>
    (reports_goFsm _).step fun _ => completes_fromICsd

theorem completes_fromIBlkLen : Completes fromIBlkLen :=
  (reports_ensureZeroStatus _ _).step fun _ => (reports_goFsm _).step fun _ => completes_fromICid

theorem reports_ocrStep : Reports ocrStep :=
  reports_rd.bind fun _ => reports_ite (reports_readOcr _) (reports_pure ())

theorem completes_fromIOcr : Completes fromIOcr :=
  reports_ocrStep.step fun _ => (reports_goFsm _).step fun _ => completes_fromIBlkLen

theorem completes_fromIOpCond : Completes fromIOpCond :=
  reports_rd.step fun _ => (reports_loadDl0 _).step fun _ => reports_rd.step fun _ =>
    (reports_opCondLoop _ _).step fun _ => (reports_goFsm _).step fun _ => completes_fromIOcr

theorem completes_fromIIfCond : Completes fromIIfCond :=
  (reports_interfaceCondition _).step fun _ => (reports_goFsm _).step fun _ => completes_fromIOpCond

theorem completes_fromIGoIdle : Completes fromIGoIdle :=
  (reports_loadDl0 _).step fun _ => reports_rd.step fun _ => (reports_goIdleLoop _).step fun _ =>
    (reports_goFsm _).step fun _ => completes_fromIIfCond

theorem completes_fromIReset : Completes fromIReset :=
  (reports_cs false).step fun _ => (reports_discard _).step fun _ => (reports_goFsm _).step fun _ =>
    completes_fromIGoIdle

/-! ### What the completion tells -/

/-- What the history says of a completion: no failed exchange, or, with `E_TRANSPORT`, exactly the last one. -/
def CompletionReports (s t : State) : Prop :=
  ∃ new : List Event, t.trace = new ++ s.trace ∧
    (t.res.kind ≠ 1#4 → ∀ ev ∈ new, ev.failed = false) ∧
    (t.res.kind = 1#4 → ∃ (b : Byte) (older : List Event),
      new.filter Event.isXchg = .xchg b (.fail t.res.tcode) :: older ∧ ∀ ev ∈ older, ev.failed = false)

theorem Unfailed.completionReports {s t : State} (h : Unfailed s t) (hk : t.res.kind ≠ 1#4) :
    CompletionReports s t := by
  obtain ⟨new, hnew, hq⟩ := h
  exact ⟨new, hnew, fun _ => hq, fun h1 => absurd h1 hk⟩

theorem FailedLast.completionReports {s u : State} {code : Nat} (h : FailedLast code s u) :
    CompletionReports s (exitActions (some (.transport code)) u) := by
  obtain ⟨b, older, hu, hq⟩ := h
  obtain ⟨exit, hexit, hsent⟩ : ∃ exit, (exitActions (some (.transport code)) u).trace = exit ++ u.trace ∧
      exit.filter Event.isXchg = [] := by
    rw [exitActions_trace]
    split
    · exact ⟨[], rfl, rfl⟩
    · exact ⟨[.cs false], rfl, rfl⟩
  refine ⟨exit ++ .xchg b (.fail code) :: older, by rw [hexit, hu, List.append_assoc, List.cons_append],
    fun hk => absurd rfl hk, fun _ => ⟨b, older.filter Event.isXchg, ?_, fun ev hev => ?_⟩⟩
  · rw [List.filter_append, hsent]
    rfl
  · exact hq ev (List.mem_of_mem_filter hev)

/-- Only a transport failure has the code 1 (R360). -/
theorem code_ne_transport {e : Err} (he : (Stop.raise e).transportCode = none) : e.code ≠ 1#4 := by
  cases e with
  | transport code => cases he
  | noCard | notSupported | protocol | ifcondMismatch | noBlocks | bufLen | range | startToken | writeReject
  | writeTimeout | respTimeout => simp [Err.code]

/-- A stop by an error, after the exit actions. -/
theorem StopReports.completionReports {s u : State} {e : Err} (h : StopReports s u (.raise e)) :
    CompletionReports s (exitActions (some e) u) := by
  unfold StopReports at h
  cases hr : (Stop.raise e).transportCode with
  | some code =>
    rw [hr] at h
    obtain rfl : e = .transport code := by
      cases e <;> cases hr
      rfl
    exact FailedLast.completionReports h
  | none =>
    rw [hr] at h
    exact (Unfailed.trans h (unfailed_exitActions _ u)).completionReports (code_ne_transport hr)

theorem Completes.hostCall {p : Proc Unit} (hp : Completes p) {s t : State} (h : hostCall p s = .next t) :
    CompletionReports s t := by
  unfold Machine.hostCall settle at h
  split at h
  · cases hx : p s with
    | ok a u =>
      rw [hx] at h
      cases h
      exact (hp.ok hx).completionReports (by rw [hp.done hx]; decide)
    | error r u =>
      rw [hx] at h
      cases r with
      | raise e => cases h; exact (hp.err hx).completionReports
      | fault f => cases h
      | refuse r => cases h
  · cases h

/-- Settles O57: every procedure of the three operations reports its transport failures (`Reports`), and a good end
of theirs is the success exit (`Completes`). -/
theorem transportFailure : Obligations.TransportFailure := by
  unfold Obligations.TransportFailure
  intro s t i hi h
  simp only [List.mem_cons, List.not_mem_nil, or_false] at hi
  rcases hi with rfl | rfl | rfl
  · exact ((reports_upd fun _ => rfl : Reports (start _ _)).step fun _ =>
      (reports_upd fun _ => rfl : Reports enterInit).step fun _ => completes_fromIReset).hostCall h
  · exact ((reports_upd fun _ => rfl : Reports (start _ _)).step fun _ => completes_fromRCheck).hostCall h
  · exact ((reports_upd fun _ => rfl : Reports (start _ _)).step fun _ => completes_fromWCheck).hostCall h

end Sys2Proof.Machine
end

