-- ==== Sys2Proof/Proofs/Invariant.lean ====
section
/-! PROOFS. The invariant of the engine holds at reset and every step keeps it. `State.Sound` is the part of the
invariant that holds at every moment of a procedure; one rule per primitive and one lemma per procedure say that it
stays, what becomes of the session and the sequencer, and which errors can stop the procedure (R364). -/

namespace Sys2Proof.Machine

/-- Settles O52: the reset values one by one. -/
theorem resetInv : Obligations.ResetInv := by
  unfold Obligations.ResetInv
  exact {
    bufWf := rfl
    portBufWf := fun _ h => nomatch h
    scratchWf := rfl
    legal := rfl
    idleDeselected := fun _ => rfl
    readyKind := fun h => absurd rfl h
    classified := fun h => nomatch h
    countBound := Nat.zero_le _
    initNotReady := fun h => nomatch h
    timeoutStatus := fun h => nomatch h
    resultKind := Nat.zero_le _
    resultStatus := fun _ => rfl
    resultTcode := fun _ => rfl
    tcodeWidth := Nat.two_pow_pos _ }

/-! ### The invariant inside a procedure -/

/-- The clauses of the invariant that name neither the sequencer nor chip-select. -/
structure State.Sound (s : State) : Prop where
  bufWf : s.req.buf.wf = true
  portBufWf : ∀ r : Request, s.hostPort = some r → r.buf.wf = true
  scratchWf : s.wrk.scratch.wf = true
  readyKind : s.ses.blockCount ≠ 0#64 → s.ses.kind = .sd2 ∨ s.ses.kind = .sdhc
  countBound : s.ses.blockCount.toNat ≤ Config.countMax
  timeoutStatus : s.wrk.rto = true → s.wrk.status = 0xFF#8
  resultKind : s.res.kind.toNat ≤ 12
  resultStatus : s.res.kind ≠ 4#4 → s.res.status = 0x00#8
  resultTcode : s.res.kind ≠ 1#4 → s.res.tcode = 0
  tcodeWidth : s.res.tcode < 2 ^ s.par.tcodeW

theorem State.Inv.sound {s : State} (h : s.Inv) : s.Sound := { h with }

theorem State.Sound.withCs {s : State} (h : s.Sound) (a : Bool) : (s.withCs a).Sound := by
  unfold State.withCs
  split
  · exact h
  · exact { h with }

/-- Without a block count nothing is asked of the kind of card. -/
theorem State.Sound.unready {s : State} (h : s.Sound) (k : CardKind) :
    State.Sound { s with ses.blockCount := 0#64, ses.kind := k } :=
  { h with readyKind := fun hn => absurd rfl hn, countBound := Nat.zero_le _ }

theorem State.Sound.setKind {s : State} (h : s.Sound) (hn : s.ses.blockCount = 0#64) (k : CardKind) :
    State.Sound { s with ses.kind := k } :=
  { h with readyKind := fun hr => absurd hn hr }

/-- The codes 13 to 15 are no kind (R360). -/
theorem kindCode_le (r : Option Err) : (kindCode r).toNat ≤ 12 := by
  cases r with
  | none => exact Nat.zero_le _
  | some e => cases e <;> simp [kindCode, Err.code]

theorem statusInfo_eq_zero {r : Option Err} (h : kindCode r ≠ 4#4) : statusInfo r = 0x00#8 := by
  unfold statusInfo
  split
  · exact absurd rfl h
  · rfl

theorem tcodeInfo_eq_zero {r : Option Err} (h : kindCode r ≠ 1#4) : tcodeInfo r = 0 := by
  unfold tcodeInfo
  split
  · exact absurd rfl h
  · rfl

/-- The result registers of a completion (R361). -/
theorem State.Sound.result {s : State} (h : s.Sound) (r : Option Err) (d : BitVec 128)
    (hw : tcodeInfo r < 2 ^ s.par.tcodeW) :
    State.Sound { s with res := { kind := kindCode r, status := statusInfo r, tcode := tcodeInfo r, data := d } } :=
  { h with
    resultKind := kindCode_le r
    resultStatus := statusInfo_eq_zero
    resultTcode := tcodeInfo_eq_zero
    tcodeWidth := hw }

/-- The state after a completion: the invariant, the idle engine, `E_OK` or one of these kinds. -/
structure State.Finished (K : List (BitVec 4)) (t : State) : Prop where
  inv : t.Inv
  idle : t.seq = .idle
  kind : t.res.kind ∈ 0#4 :: K

/-- An idle, deselected engine has the invariant as soon as it is sound. -/
theorem State.Sound.inv_of_idle {s : State} (h : s.Sound) (hi : s.seq = .idle) (hcs : s.wrk.csActive = false) :
    s.Inv :=
  { h with
    legal := by rw [hi]; rfl
    idleDeselected := fun _ => hcs
    classified := fun ho => by rw [hi] at ho; cases ho
    initNotReady := fun ho => by rw [hi] at ho; cases ho }

/-- The exit actions (R372). -/
theorem State.Sound.exit {s : State} (h : s.Sound) {K : List (BitVec 4)} {r : Option Err}
    (hk : kindCode r ∈ 0#4 :: K) (hw : tcodeInfo r < 2 ^ s.par.tcodeW) : (exitActions r s).Finished K where
  inv := by
    have hr := (h.withCs false).result r (s.withCs false).res.data (by rwa [withCs_par])
    exact State.Sound.inv_of_idle { hr with } rfl (by rw [exitActions_wrk])
  idle := rfl
  kind := hk

/-! ### Procedures that stay sound -/

/-- What is asked of `S.kind`, `S.block_count` and the sequencer besides. -/
abbrev Context := CardKind → BitVec 64 → Sequencer → Prop

/-- A sound state in a context. -/
def State.Meets (C : Context) (s : State) : Prop := s.Sound ∧ C s.ses.kind s.ses.blockCount s.seq

/-- Between commands: the command engine is off (R26). -/
def AtRest (A : CardKind → BitVec 64 → Op → Fsm → Prop) : Context :=
  fun k n q => A k n q.op q.fsm ∧ q.cfsm = .cOff

/-- During a command. -/
def InCommand (A : CardKind → BitVec 64 → Op → Fsm → Prop) : Context := fun k n q => A k n q.op q.fsm

/-- A procedure may stop in a sound state with an error of these kinds, and no other way is of interest: a fault
or a refusal has no next state. -/
def Stops (K : List (BitVec 4)) : Stop → State → Prop
  | .raise e, t => t.Sound ∧ e.code ∈ K ∧ tcodeInfo (some e) < 2 ^ t.par.tcodeW
  | .fault _, _ => True
  | .refuse _, _ => True

/-- From context `C` the procedure ends well in `C'`, or stops with a kind of `K`. -/
abbrev Safe {α : Type} (C : Context) (K : List (BitVec 4)) (p : Proc α) (C' : Context) : Prop :=
  Ends (State.Meets C) p (fun _ => State.Meets C') (Stops K)

/-- From context `C` the procedure completes its operation (R372). -/
abbrev Finishes (C : Context) (K : List (BitVec 4)) (p : Proc Unit) : Prop :=
  Ends (State.Meets C) p (fun _ => State.Finished K) (Stops K)

variable {α β : Type} {K : List (BitVec 4)} {C C' : Context}
  {A A' : CardKind → BitVec 64 → Op → Fsm → Prop}

/-- A step of a procedure, then the rest of it: `ends_bind` under a name that chains. -/
theorem Ends.step {P : State → Prop} {E : Stop → State → Prop} {p : Proc α} {f : α → Proc β}
    {Q : α → State → Prop} {Q' : β → State → Prop} (hp : Ends P p Q E) (hf : ∀ a, Ends (Q a) (f a) Q' E) :
    Ends P (p >>= f) Q' E := ends_bind hp hf

theorem ends_ite {P : State → Prop} {E : Stop → State → Prop} {c : Prop} [Decidable c] {p q : Proc α}
    {Q : α → State → Prop} (hp : c → Ends P p Q E) (hq : ¬c → Ends P q Q E) :
    Ends P (if c then p else q) Q E := by
  split
  · exact hp ‹_›
  · exact hq ‹_›

theorem safe_pure (a : α) : Safe C K (pure a) C := ends_pure a fun _ hs => hs

theorem safe_rd : Safe C K rd C := ends_weaken ends_rd (fun _ hs => hs) (fun _ _ hs => hs.1) fun _ _ h => h

theorem safe_refuse (r : Refusal) {Q : α → State → Prop} : Ends (State.Meets C) (stop (.refuse r)) Q (Stops K) :=
  ends_stop _ fun _ _ => trivial

/-- An error that is no transport failure. -/
theorem safe_raise {e : Err} (hk : e.code ∈ K) (ht : tcodeInfo (some e) = 0) {Q : α → State → Prop} :
    Ends (State.Meets C) (raise e) Q (Stops K) :=
  ends_raise e fun _ hs => ⟨hs.1, hk, ht ▸ Nat.two_pow_pos _⟩

theorem safe_cs (a : Bool) : Safe C K (cs a) C :=
  ends_upd fun s hs => ⟨hs.1.withCs a, by rw [withCs_ses, withCs_seq]; exact hs.2⟩

theorem safe_now : Safe C K now C where
  ok hs h := by cases h; exact ⟨{ hs.1 with }, hs.2⟩
  err _ h := by cases h

/-- The success exit. -/
theorem finishes_finish : Finishes C K finish :=
  ends_upd fun _ hs => hs.1.exit (List.mem_cons_self ..) (Nat.two_pow_pos _)

/-- A check that fails after the card was deselected. -/
theorem safe_deselectRaise {e : Err} (hk : e.code ∈ K) (ht : tcodeInfo (some e) = 0) {Q : α → State → Prop} :
    Ends (State.Meets C) (do cs false; raise e) Q (Stops K) :=
  (safe_cs false).step fun _ => safe_raise hk ht

/-- An access to a buffer; outside the buffer it is a fault. -/
theorem safe_access {c : Prop} [Decidable c] {v : State → α} {g : State → State} {f : Fault}
    (hg : c → ∀ s : State, s.Sound → (g s).Sound)
    (hc : ∀ s, (g s).ses = s.ses ∧ (g s).seq = s.seq) :
    Safe C K (fun s => if c then .ok (v s) (g s) else .error (.fault f) s : Proc α) C where
  ok {s t a} hs h := by
    split at h <;> cases h
    obtain ⟨hses, hseq⟩ := hc s
    exact ⟨hg ‹_› s hs.1, by rw [hses, hseq]; exact hs.2⟩
  err {s t r} hs h := by
    split at h <;> cases h
    trivial

theorem safe_bufRead (i : Nat) : Safe C K (bufRead i) C := safe_access (fun _ _ hs => hs) fun _ => ⟨rfl, rfl⟩

theorem safe_bufWrite (i : Nat) (v : Byte) : Safe C K (bufWrite i v) C :=
  safe_access (fun hi _ hs => { hs with bufWf := Memory.set_wf v hi hs.bufWf }) fun _ => ⟨rfl, rfl⟩

theorem safe_scratchWrite (i : Nat) (v : Byte) : Safe C K (scratchWrite i v) C :=
  safe_access (fun hi _ hs => { hs with scratchWf := Memory.set_wf v hi hs.scratchWf }) fun _ => ⟨rfl, rfl⟩

theorem safe_deadline (T : Nat) : Safe C K (deadline T) C :=
  safe_now.step fun _ => ends_ite (fun _ => safe_pure _) fun _ => safe_refuse _

theorem safe_loadDl0 (T : Nat) : Safe C K (loadDl0 T) C :=
  (safe_deadline T).step fun _ => ends_upd fun _ hs => ⟨{ hs.1 with }, hs.2⟩

theorem safe_loadDl1 (T : Nat) : Safe C K (loadDl1 T) C :=
  (safe_deadline T).step fun _ => ends_upd fun _ hs => ⟨{ hs.1 with }, hs.2⟩

theorem safe_expiredDl0 : Safe C K expiredDl0 C := safe_now.step fun _ => safe_rd.step fun _ => safe_pure _

theorem safe_expiredDl1 : Safe C K expiredDl1 C := safe_now.step fun _ => safe_rd.step fun _ => safe_pure _

/-! ### Register writes -/

theorem safe_setFrame (f : Frame) : Safe C K (setFrame f) C :=
  ends_upd fun _ hs => ⟨{ hs.1 with }, hs.2⟩

theorem safe_setOcr0 (b : Byte) : Safe C K (setOcr0 b) C :=
  ends_upd fun _ hs => ⟨{ hs.1 with }, hs.2⟩

theorem safe_setDresp (t : Byte) : Safe C K (setDresp t) C :=
  ends_upd fun _ hs => ⟨{ hs.1 with }, hs.2⟩

theorem safe_setCrcs (observed computed : BitVec 16) : Safe C K (setCrcs observed computed) C :=
  ends_upd fun _ hs => ⟨{ hs.1 with }, hs.2⟩

theorem safe_setCid (img : Image) : Safe C K (setCid img) C :=
  ends_upd fun _ hs => ⟨{ hs.1 with }, hs.2⟩

theorem safe_setCsd (img : Image) : Safe C K (setCsd img) C :=
  ends_upd fun _ hs => ⟨{ hs.1 with }, hs.2⟩

theorem safe_goCfsm (x : Cfsm) : Safe (InCommand A) K (goCfsm x) (InCommand A) :=
  ends_upd fun _ hs => ⟨{ hs.1 with }, hs.2⟩

/-- A command ends with its engine off; a time-out leaves the status all ones (R192). -/
theorem safe_endCommand {b : Byte} {t : Bool} (h : t = true → b = 0xFF#8) :
    Safe (InCommand A) K (endCommand b t) (AtRest A) :=
  ends_upd fun _ hs => ⟨{ hs.1 with timeoutStatus := h }, hs.2, rfl⟩

/-- The kind of card changes only while the session is not ready (R221). -/
theorem safe_setKind {k : CardKind} (hA : ∀ k' n o x, A k' n o x → n = 0#64 ∧ A' k n o x) :
    Safe (AtRest A) K (setKind k) (AtRest A') :=
  ends_upd fun _ ⟨hsound, ha, hoff⟩ =>
    ⟨hsound.setKind (hA _ _ _ _ ha).1 k, (hA _ _ _ _ ha).2, hoff⟩

/-! ### The engine -/

/-- The kinds any command can end an operation with: a transport failure, a wrong status, no response (R364). -/
structure CommandKinds (K : List (BitVec 4)) : Prop where
  transport : 1#4 ∈ K
  protocol : 4#4 ∈ K
  respTimeout : 12#4 ∈ K

section Engine

variable (hK : CommandKinds K)
include hK

theorem safe_xchg (b : Byte) : Safe C K (xchg b) C :=
  ends_xchg (fun _ _ hs _ => ⟨{ hs.1 with }, hs.2⟩) fun s c hs hn =>
    have hc : c < 2 ^ s.par.tcodeW := nextAnswer_fail_lt hn
    ⟨{ hs.1 with }, hK.transport, hc⟩

theorem safe_sendAll : ∀ bs, Safe C K (sendAll bs) C
  | [] => safe_pure ()
  | b :: bs => (safe_xchg hK b).step fun _ => safe_sendAll bs

theorem safe_discard (n : Nat) : Safe C K (discard n) C := safe_sendAll hK _

theorem safe_busyLoop : ∀ n, Safe C K (busyLoop n) C
  | 0 => safe_refuse _
  | n + 1 => (safe_xchg hK _).step fun _ => ends_ite (fun _ => safe_pure _) fun _ =>
      safe_expiredDl1.step fun _ => ends_ite (fun _ => safe_pure _) fun _ => safe_busyLoop n

theorem safe_waitNotBusy (T : Nat) : Safe C K (waitNotBusy T) C :=
  (safe_loadDl1 T).step fun _ => safe_rd.step fun _ => safe_busyLoop hK _

theorem safe_tokenLoop (h9 : 9#4 ∈ K) : ∀ n, Safe C K (tokenLoop n) C
  | 0 => safe_refuse _
  | n + 1 => by
    refine (safe_xchg hK _).step fun b => ?_
    cases tokenClass b with
    | start => exact safe_pure ()
    | invalid => exact safe_deselectRaise h9 rfl
    | idleLine =>
      exact safe_expiredDl1.step fun _ => ends_ite (fun _ => safe_deselectRaise h9 rfl) fun _ =>
        safe_tokenLoop h9 n

theorem safe_waitStartToken (h9 : 9#4 ∈ K) : Safe C K waitStartToken C :=
  (safe_loadDl1 _).step fun _ => safe_rd.step fun _ => safe_tokenLoop hK h9 _

/-! ### One command (R186) -/

theorem safe_pollResponse : ∀ n, Safe C K (pollResponse n) C
  | 0 => safe_pure _
  | n + 1 => (safe_xchg hK _).step fun _ => ends_ite (fun _ => safe_pollResponse n) fun _ => safe_pure _

theorem safe_busyPhase (n : BitVec 6) : Safe (InCommand A) K (busyPhase n) (InCommand A) :=
  ends_ite (fun _ => safe_pure ()) fun _ =>
    (safe_goCfsm _).step fun _ => (safe_waitNotBusy hK _).step fun _ => safe_pure ()

theorem safe_framePhase (n : BitVec 6) (arg : BitVec 32) :
    Safe (InCommand A) K (framePhase n arg) (InCommand A) :=
  (safe_goCfsm _).step fun _ => (safe_setFrame _).step fun _ => safe_sendAll hK _

theorem safe_stuffPhase (n : BitVec 6) : Safe (InCommand A) K (stuffPhase n) (InCommand A) :=
  ends_ite (fun _ => (safe_goCfsm _).step fun _ => safe_discard hK 1) fun _ => safe_pure ()

theorem safe_sendCommand (n : BitVec 6) (arg : BitVec 32) :
    Safe (InCommand A) K (sendCommand n arg) (InCommand A) :=
  (safe_goCfsm _).step fun _ => (safe_cs true).step fun _ => (safe_busyPhase hK n).step fun _ =>
    (safe_framePhase hK n arg).step fun _ => safe_stuffPhase hK n

theorem safe_finishCommand : ∀ r, Safe (InCommand A) K (finishCommand r) (AtRest A)
  | some _ => (safe_endCommand fun h => absurd h Bool.false_ne_true).step fun _ => safe_pure _
  | none => (safe_goCfsm _).step fun _ => (safe_cs false).step fun _ => (safe_discard hK 1).step fun _ =>
      (safe_endCommand fun _ => rfl).step fun _ => safe_pure _

theorem safe_issueCommand (n : BitVec 6) (arg : BitVec 32) : Safe (AtRest A) K (issueCommand n arg) (AtRest A) :=
  ends_weaken ((safe_sendCommand hK n arg).step fun _ => (safe_goCfsm _).step fun _ => safe_rd.step fun _ =>
    (safe_pollResponse hK _).step fun r => safe_finishCommand hK r) (fun _ hs => ⟨hs.1, hs.2.1⟩)
    (fun _ _ h => h) fun _ _ h => h

/-! ### The procedures built on it -/

theorem safe_issueAppCommand (n : BitVec 6) (arg : BitVec 32) :
    Safe (AtRest A) K (issueAppCommand n arg) (AtRest A) :=
  (safe_issueCommand hK _ _).step fun _ => ends_ite (fun _ => safe_pure _) fun _ => safe_issueCommand hK n arg

theorem safe_ensureZeroStatus (n : BitVec 6) (arg : BitVec 32) :
    Safe (AtRest A) K (ensureZeroStatus n arg) (AtRest A) := by
  refine (safe_issueCommand hK n arg).step fun r => ?_
  cases classify r.status r.rto with
  | timeout => exact safe_raise hK.respTimeout rfl
  | clear => exact safe_pure ()
  | idleOnly => exact safe_raise hK.protocol rfl
  | flagged => exact safe_raise hK.protocol rfl

theorem safe_issueOnly (n : BitVec 6) (arg : BitVec 32) : Safe (AtRest A) K (issueOnly n arg) (AtRest A) :=
  (safe_issueCommand hK n arg).step fun _ => safe_pure ()

theorem safe_receiveR7 (i : Fin 4) : Safe C K (receiveR7 i) C :=
  (safe_xchg hK _).step fun _ => ends_upd fun _ hs => ⟨{ hs.1 with }, hs.2⟩

theorem safe_classifyPayload (h5 : 5#4 ∈ K) (hA : ∀ k n o x, A k n o x → n = 0#64 ∧ A' .sd2 n o x) :
    Safe (AtRest A) K classifyPayload (AtRest A') :=
  (safe_receiveR7 hK 0).step fun _ => (safe_receiveR7 hK 1).step fun _ => (safe_receiveR7 hK 2).step fun _ =>
    (safe_receiveR7 hK 3).step fun _ => safe_rd.step fun _ =>
      ends_ite (fun _ => safe_setKind hA) fun _ => safe_raise h5 rfl

/-- A good end classifies the card SD2; the classification SD1 ends the operation (R225). -/
theorem safe_interfaceCondition (h3 : 3#4 ∈ K) (h5 : 5#4 ∈ K)
    (hA : ∀ k n o x, A k n o x → n = 0#64 ∧ A' .sd2 n o x) (arg : BitVec 32) :
    Safe (AtRest A) K (interfaceCondition arg) (AtRest A') :=
  (safe_issueCommand hK _ _).step fun _ => ends_ite (fun _ => safe_raise hK.respTimeout rfl) fun _ =>
    ends_ite
      (fun _ => (safe_setKind (A' := fun _ _ _ _ => True) fun k n o x ha => ⟨(hA k n o x ha).1, trivial⟩).step
        fun _ => safe_raise h3 rfl)
      fun _ => safe_classifyPayload hK h5 hA

theorem safe_readOcr (hA : ∀ k n o x, A k n o x → n = 0#64 ∧ A .sdhc n o x) (arg : BitVec 32) :
    Safe (AtRest A) K (readOcr arg) (AtRest A) :=
  (safe_ensureZeroStatus hK _ _).step fun _ => (safe_xchg hK _).step fun b =>
    (safe_setOcr0 b).step fun _ =>
      (ends_ite (fun _ => safe_setKind hA) fun _ => safe_pure () :
        Safe (AtRest A) K (reclassify b) (AtRest A)).step fun _ => safe_discard hK 3

/-! ### The data phases -/

theorem safe_receiveScratch : ∀ k i, Safe C K (receiveScratch k i) C
  | 0, _ => safe_pure ()
  | k + 1, i => (safe_xchg hK _).step fun b => (safe_scratchWrite i b).step fun _ => safe_receiveScratch k (i + 1)

theorem safe_readRegister (h9 : 9#4 ∈ K) (n : BitVec 6) (arg : BitVec 32) :
    Safe (AtRest A) K (readRegister n arg) (AtRest A) :=
  (safe_ensureZeroStatus hK n arg).step fun _ => (safe_waitStartToken hK h9).step fun _ =>
    (safe_receiveScratch hK _ _).step fun _ => (safe_discard hK 2).step fun _ => (safe_cs false).step fun _ =>
      safe_rd.step fun _ => safe_pure _

theorem safe_receiveBlock : ∀ k i c, Safe C K (receiveBlock k i c) C
  | 0, _, c => safe_pure c
  | k + 1, i, c => (safe_xchg hK _).step fun b => (safe_bufWrite i b).step fun _ =>
      safe_receiveBlock k (i + 1) (crc16Update c b)

theorem safe_recordCrc (c : BitVec 16) : Safe C K (recordCrc c) C :=
  (safe_xchg hK _).step fun h => (safe_xchg hK _).step fun l =>
    (safe_setCrcs (h ++ l) c).step fun _ => safe_cs false

theorem safe_sendBlock : ∀ k i, Safe C K (sendBlock k i) C
  | 0, _ => safe_pure ()
  | k + 1, i => (safe_bufRead i).step fun v => (safe_xchg hK v).step fun _ => safe_sendBlock k (i + 1)

theorem safe_writeResponse (h10 : 10#4 ∈ K) : Safe C K writeResponse C :=
  (safe_xchg hK _).step fun t => (safe_setDresp t).step fun _ =>
    ends_ite (fun _ => safe_pure ()) fun _ => safe_deselectRaise h10 rfl

theorem safe_writeBusy (h11 : 11#4 ∈ K) : Safe C K writeBusy C := by
  refine (safe_waitNotBusy hK _).step fun r => (safe_cs false).step fun _ => ?_
  cases r with
  | ready => exact safe_pure ()
  | expired => exact safe_raise h11 rfl

end Engine

/-! ### The operations: the kinds of R364 -/

/-- Between the steps of an operation, with this much known of `S.kind` and `S.block_count`. -/
abbrev Between (A : CardKind → BitVec 64 → Prop) : Context := AtRest fun k n _ _ => A k n

/-- Nothing is known. -/
def AnySession : CardKind → BitVec 64 → Prop := fun _ _ => True

/-- INIT up to I_IFCOND: the session is not ready (R221). -/
def NotReady : CardKind → BitVec 64 → Prop := fun _ n => n = 0#64

/-- INIT from I_OPCOND on: not ready, the card classified (R225, R231). -/
def NotReadyClassified : CardKind → BitVec 64 → Prop := fun k n => n = 0#64 ∧ (k = .sd2 ∨ k = .sdhc)

/-- The errors of INIT (R364). -/
def initKinds : List (BitVec 4) := [1#4, 2#4, 3#4, 4#4, 5#4, 6#4, 9#4, 12#4]

/-- The errors of RDBLK (R364). -/
def readKinds : List (BitVec 4) := [1#4, 4#4, 7#4, 8#4, 9#4, 12#4]

/-- The errors of WRBLK (R364). -/
def writeKinds : List (BitVec 4) := [1#4, 4#4, 7#4, 8#4, 10#4, 11#4, 12#4]

theorem initKinds_command : CommandKinds initKinds := ⟨by decide, by decide, by decide⟩

theorem readKinds_command : CommandKinds readKinds := ⟨by decide, by decide, by decide⟩

theorem writeKinds_command : CommandKinds writeKinds := ⟨by decide, by decide, by decide⟩

theorem safe_goFsm {A : CardKind → BitVec 64 → Prop} (x : Fsm) : Safe (Between A) K (goFsm x) (Between A) :=
  ends_upd fun _ hs => ⟨{ hs.1 with }, hs.2⟩

theorem safe_start {A : CardKind → BitVec 64 → Prop} (o : Op) (x : Fsm) :
    Safe (Between A) K (start o x) (Between A) :=
  ends_upd fun _ hs => ⟨{ hs.1 with }, hs.2⟩

/-- The request checks (R301, R302, R300). -/
theorem safe_checkRequest {ses : Session} {req : Request} {e : Err} (h : checkRequest ses req = .error e)
    (h7 : 7#4 ∈ K) (h8 : 8#4 ∈ K) : Finishes C K (raise e) := by
  rcases checkRequest_error h with rfl | rfl
  · exact safe_raise h7 rfl
  · exact safe_raise h8 rfl

/-! ### RDBLK -/

theorem finishes_fromRCrc (c : BitVec 16) : Finishes C readKinds (fromRCrc c) :=
  (safe_recordCrc readKinds_command c).step fun _ => finishes_finish

theorem finishes_fromRData : Finishes (Between AnySession) readKinds fromRData :=
  (safe_receiveBlock readKinds_command _ _ _).step fun c => (safe_goFsm _).step fun _ => finishes_fromRCrc c

theorem finishes_fromRToken : Finishes (Between AnySession) readKinds fromRToken :=
  (safe_waitStartToken readKinds_command (by decide)).step fun _ => (safe_goFsm _).step fun _ => finishes_fromRData

theorem finishes_fromRCmd : Finishes (Between AnySession) readKinds fromRCmd := by
  refine safe_rd.step fun s => ?_
  cases translate s.ses.kind s.req.index with
  | none => exact safe_raise (by decide) rfl
  | some a =>
    exact (safe_ensureZeroStatus readKinds_command _ a).step fun _ => (safe_goFsm _).step fun _ =>
      finishes_fromRToken

theorem finishes_fromRCheck : Finishes (Between AnySession) readKinds fromRCheck := by
  refine safe_rd.step fun s => ?_
  cases h : checkRequest s.ses s.req with
  | error e => exact safe_checkRequest h (by decide) (by decide)
  | ok a => exact (safe_goFsm _).step fun _ => finishes_fromRCmd

/-! ### WRBLK -/

theorem finishes_fromWBusy : Finishes C writeKinds fromWBusy :=
  (safe_writeBusy writeKinds_command (by decide)).step fun _ => finishes_finish

theorem finishes_fromWResp : Finishes (Between AnySession) writeKinds fromWResp :=
  (safe_writeResponse writeKinds_command (by decide)).step fun _ => (safe_goFsm _).step fun _ => finishes_fromWBusy

theorem finishes_fromWCrc : Finishes (Between AnySession) writeKinds fromWCrc :=
  (safe_sendAll writeKinds_command _).step fun _ => (safe_goFsm _).step fun _ => finishes_fromWResp

theorem finishes_fromWData : Finishes (Between AnySession) writeKinds fromWData :=
  (safe_sendBlock writeKinds_command _ _).step fun _ => (safe_goFsm _).step fun _ => finishes_fromWCrc

theorem finishes_fromWToken : Finishes (Between AnySession) writeKinds fromWToken :=
  (safe_sendAll writeKinds_command _).step fun _ => (safe_goFsm _).step fun _ => finishes_fromWData

theorem finishes_fromWCmd : Finishes (Between AnySession) writeKinds fromWCmd := by
  refine safe_rd.step fun s => ?_
  cases translate s.ses.kind s.req.index with
  | none => exact safe_raise (by decide) rfl
  | some a =>
    exact (safe_ensureZeroStatus writeKinds_command _ a).step fun _ => (safe_goFsm _).step fun _ =>
      finishes_fromWToken

theorem finishes_fromWCheck : Finishes (Between AnySession) writeKinds fromWCheck := by
  refine safe_rd.step fun s => ?_
  cases h : checkRequest s.ses s.req with
  | error e => exact safe_checkRequest h (by decide) (by decide)
  | ok a => exact (safe_goFsm _).step fun _ => finishes_fromWCmd

/-! ### INIT -/

/-- The commit stores a count within bounds, of a classified card (R235, R236, R241). -/
theorem safe_setBlockCount {n : BitVec 64} (hn : n.toNat ≤ Config.countMax) :
    Safe (Between NotReadyClassified) K (setBlockCount n) (Between AnySession) :=
  ends_upd fun _ ⟨hsound, ⟨_, hkind⟩, hoff⟩ =>
    ⟨{ hsound with readyKind := fun _ => hkind, countBound := hn }, trivial, hoff⟩

theorem finishes_fromICommit : Finishes (Between NotReadyClassified) initKinds fromICommit := by
  refine safe_rd.step fun s => ?_
  cases csdBlockCount s.ses.csd with
  | none => exact safe_raise (by decide) rfl
  | some n =>
    exact ends_ite (fun _ => safe_raise (by decide) rfl) fun hn => ends_ite (fun _ => safe_raise (by decide) rfl)
      fun _ => (safe_setBlockCount (Nat.le_of_not_lt hn)).step fun _ => (safe_cs false).step fun _ =>
        finishes_finish

theorem finishes_fromICsd : Finishes (Between NotReadyClassified) initKinds fromICsd :=
  (safe_readRegister initKinds_command (by decide) _ _).step fun img => (safe_setCsd img).step fun _ =>
    (safe_goFsm _).step fun _ => finishes_fromICommit

theorem finishes_fromICid : Finishes (Between NotReadyClassified) initKinds fromICid :=
  (safe_readRegister initKinds_command (by decide) _ _).step fun img => (safe_setCid img).step fun _ =>
    (safe_goFsm _).step fun _ => finishes_fromICsd

theorem finishes_fromIBlkLen : Finishes (Between NotReadyClassified) initKinds fromIBlkLen :=
  (safe_ensureZeroStatus initKinds_command _ _).step fun _ => (safe_goFsm _).step fun _ => finishes_fromICid

theorem safe_ocrStep : Safe (Between NotReadyClassified) initKinds ocrStep (Between NotReadyClassified) :=
  safe_rd.step fun _ =>
    ends_ite (fun _ => safe_readOcr initKinds_command (fun _ _ _ _ h => ⟨h.1, h.1, .inr rfl⟩) _)
      fun _ => safe_pure ()

theorem finishes_fromIOcr : Finishes (Between NotReadyClassified) initKinds fromIOcr :=
  safe_ocrStep.step fun _ => (safe_goFsm _).step fun _ => finishes_fromIBlkLen

theorem safe_opCondLoop (arg : BitVec 32) : ∀ n, Safe (AtRest A) initKinds (opCondLoop arg n) (AtRest A)
  | 0 => safe_refuse _
  | n + 1 => by
    have hretry : ∀ e : Err, e.code ∈ initKinds → tcodeInfo (some e) = 0 → Safe (AtRest A) initKinds
        (do let late ← expiredDl0; if late then raise e else opCondLoop arg n) (AtRest A) := fun _ hk ht =>
      safe_expiredDl0.step fun _ => ends_ite (fun _ => safe_raise hk ht) fun _ => safe_opCondLoop arg n
    refine (safe_issueAppCommand initKinds_command _ _).step fun r => ?_
    cases classify r.status r.rto with
    | clear => exact safe_pure ()
    | timeout => exact hretry _ initKinds_command.respTimeout rfl
    | idleOnly => exact hretry _ initKinds_command.protocol rfl
    | flagged => exact hretry _ initKinds_command.protocol rfl

theorem finishes_fromIOpCond : Finishes (Between NotReadyClassified) initKinds fromIOpCond :=
  safe_rd.step fun _ => (safe_loadDl0 _).step fun _ => safe_rd.step fun _ => (safe_opCondLoop _ _).step fun _ =>
    (safe_goFsm _).step fun _ => finishes_fromIOcr

theorem finishes_fromIIfCond : Finishes (Between NotReady) initKinds fromIIfCond :=
  (safe_interfaceCondition (A' := fun k n _ _ => NotReadyClassified k n) initKinds_command (by decide) (by decide)
    (fun _ _ _ _ h => ⟨h, h, .inl rfl⟩) _).step fun _ => (safe_goFsm _).step fun _ => finishes_fromIOpCond

theorem safe_goIdleLoop : ∀ n, Safe (AtRest A) initKinds (goIdleLoop n) (AtRest A)
  | 0 => safe_refuse _
  | n + 1 => by
    have hretry : Safe (AtRest A) initKinds
        (do let late ← expiredDl0; if late then raise .noCard else goIdleLoop n) (AtRest A) :=
      safe_expiredDl0.step fun _ => ends_ite (fun _ => safe_raise (by decide) rfl) fun _ => safe_goIdleLoop n
    refine (safe_issueCommand initKinds_command _ _).step fun r => ?_
    cases classify r.status r.rto with
    | idleOnly => exact safe_pure ()
    | timeout => exact hretry
    | clear => exact hretry
    | flagged => exact hretry

theorem finishes_fromIGoIdle : Finishes (Between NotReady) initKinds fromIGoIdle :=
  (safe_loadDl0 _).step fun _ => safe_rd.step fun _ => (safe_goIdleLoop _).step fun _ => (safe_goFsm _).step fun _ =>
    finishes_fromIIfCond

theorem finishes_fromIReset : Finishes (Between NotReady) initKinds fromIReset :=
  (safe_cs false).step fun _ => (safe_discard initKinds_command _).step fun _ => (safe_goFsm _).step fun _ =>
    finishes_fromIGoIdle

/-- I_START (R221). -/
theorem safe_enterInit : Safe (Between AnySession) K enterInit (Between NotReady) :=
  ends_upd fun _ hs => ⟨hs.1.unready .none, rfl, hs.2.2⟩

/-! ### The rest of an operation -/

/-- The errors an operation can end with, beside `E_OK` (R364). -/
def operationKinds : Op → List (BitVec 4)
  | .idle => []
  | .init => initKinds
  | .rdblk => readKinds
  | .wrblk => writeKinds

/-- What the invariant says of the session at a step of R25's table (R221, R225). -/
def SessionAt (x : Fsm) : CardKind → BitVec 64 → Prop := fun k n =>
  (x.op = .init → n = 0#64) ∧
    (x.op = .init → x ≠ .iReset → x ≠ .iGoIdle → x ≠ .iIfCond → k = .sd2 ∨ k = .sdhc)

theorem Finishes.atStep {x : Fsm} {A : CardKind → BitVec 64 → Prop} {p : Proc Unit} (hp : Finishes (Between A) K p)
    (hA : ∀ k n, SessionAt x k n → A k n) : Finishes (Between (SessionAt x)) K p :=
  ends_weaken hp (fun _ hs => ⟨hs.1, hA _ _ hs.2.1, hs.2.2⟩) (fun _ _ h => h) fun _ _ h => h

/-- A step of INIT up to I_IFCOND. -/
theorem Finishes.early {x : Fsm} {p : Proc Unit} (hp : Finishes (Between NotReady) K p) (hx : x.op = .init) :
    Finishes (Between (SessionAt x)) K p := hp.atStep fun _ _ h => h.1 hx

/-- A step of INIT from I_OPCOND on. -/
theorem Finishes.late {x : Fsm} {p : Proc Unit} (hp : Finishes (Between NotReadyClassified) K p)
    (hx : x.op = .init ∧ x ≠ .iReset ∧ x ≠ .iGoIdle ∧ x ≠ .iIfCond) : Finishes (Between (SessionAt x)) K p := by
  obtain ⟨hop, hreset, hidle, hcond⟩ := hx
  exact hp.atStep fun _ _ h => ⟨h.1 hop, h.2 hop hreset hidle hcond⟩

/-- A step of a block transfer. -/
theorem Finishes.transfer {x : Fsm} {p : Proc Unit} (hp : Finishes (Between AnySession) K p) :
    Finishes (Between (SessionAt x)) K p := hp.atStep fun _ _ _ => trivial

theorem finishes_resume {x : Fsm} (hx : x ≠ .fIdle) :
    Finishes (Between (SessionAt x)) (operationKinds x.op) (resume x) := by
  cases x with
  | fIdle => exact absurd rfl hx
  | iReset => exact finishes_fromIReset.early rfl
  | iGoIdle => exact finishes_fromIGoIdle.early rfl
  | iIfCond => exact finishes_fromIIfCond.early rfl
  | iOpCond => exact finishes_fromIOpCond.late (by decide)
  | iOcr => exact finishes_fromIOcr.late (by decide)
  | iBlkLen => exact finishes_fromIBlkLen.late (by decide)
  | iCid => exact finishes_fromICid.late (by decide)
  | iCsd => exact finishes_fromICsd.late (by decide)
  | iCommit => exact finishes_fromICommit.late (by decide)
  | rCheck => exact finishes_fromRCheck.transfer
  | rCmd => exact finishes_fromRCmd.transfer
  | rToken => exact finishes_fromRToken.transfer
  | rData => exact finishes_fromRData.transfer
  | rCrc => exact safe_rd.step fun _ => finishes_fromRCrc _
  | wCheck => exact finishes_fromWCheck.transfer
  | wCmd => exact finishes_fromWCmd.transfer
  | wToken => exact finishes_fromWToken.transfer
  | wData => exact finishes_fromWData.transfer
  | wCrc => exact finishes_fromWCrc.transfer
  | wResp => exact finishes_fromWResp.transfer
  | wBusy => exact finishes_fromWBusy

/-! ### What the invariant says of the sequencer -/

theorem legal_iff {q : Sequencer} : q.legal = true ↔ q.op = q.fsm.op ∧ q.cfsm = .cOff := by
  simp [Sequencer.legal]

theorem fsm_of_op_idle {x : Fsm} (h : x.op = .idle) : x = .fIdle := by
  cases x with
  | fIdle => rfl
  | _ => cases h

theorem legal_idle {q : Sequencer} (hl : q.legal = true) (ho : q.op = .idle) : q = .idle := by
  obtain ⟨hop, hoff⟩ := legal_iff.mp hl
  have hf := fsm_of_op_idle (hop ▸ ho)
  cases q
  cases ho
  cases hf
  cases hoff
  rfl

theorem State.Inv.sessionAt {s : State} (h : s.Inv) : SessionAt s.seq.fsm s.ses.kind s.ses.blockCount := by
  obtain ⟨hop, -⟩ := legal_iff.mp h.legal
  exact ⟨fun hi => h.initNotReady (hop.trans hi), fun hi => h.classified (hop.trans hi)⟩

theorem State.Inv.meets {s : State} (h : s.Inv) : s.Meets (Between (SessionAt s.seq.fsm)) :=
  ⟨h.sound, h.sessionAt, (legal_iff.mp h.legal).2⟩

/-- How a procedure ends a step: well, or by the exit actions. -/
theorem Ends.settle {P : State → Prop} {Q : Unit → State → Prop} {p : Proc Unit} (hp : Ends P p Q (Stops K))
    {s t : State} (hs : P s) (h : settle p s = .next t) : Q () t ∨ t.Finished K := by
  unfold Machine.settle at h
  cases hx : p s with
  | ok a u =>
    rw [hx] at h
    cases h
    exact .inl (hp.ok hs hx)
  | error r u =>
    rw [hx] at h
    cases r with
    | raise e =>
      cases h
      obtain ⟨hsound, hk, hw⟩ := hp.err hs hx
      exact .inr (hsound.exit (List.mem_cons_of_mem _ hk) hw)
    | fault f => cases h
    | refuse r => cases h

/-! ### Host operations -/

/-- The idle engine between steps. -/
def State.Waiting (s : State) : Prop := s.Inv ∧ s.seq = .idle

/-- A host operation, from any state: only the idle engine takes it. -/
theorem Ends.hostCall {p : Proc Unit} (hp : Ends State.Waiting p (fun _ => State.Finished K) (Stops K))
    {s t : State} (hs : s.Inv) (h : hostCall p s = .next t) : t.Finished K := by
  unfold Machine.hostCall at h
  split at h
  · rcases hp.settle ⟨hs, legal_idle hs.legal ‹_›⟩ h with hf | hf <;> exact hf
  · cases h

/-- INIT, RDBLK and WRBLK: the start, then the operation from its first step. -/
theorem Finishes.operation {o : Op} {x : Fsm} {p : Proc Unit} (hp : Finishes (Between AnySession) K p) :
    Ends State.Waiting (do start o x; p) (fun _ => State.Finished K) (Stops K) :=
  ends_weaken ((safe_start (A := AnySession) o x).step fun _ => hp)
    (fun _ hs => ⟨hs.1.sound, trivial, (legal_iff.mp hs.1.legal).2⟩) (fun _ _ h => h) fun _ _ h => h

theorem waiting_completeOk : Ends State.Waiting completeOk (fun _ => State.Finished K) (Stops K) :=
  ends_upd fun s ⟨hinv, hidle⟩ =>
    { inv := State.Sound.inv_of_idle { hinv.sound.result none s.res.data (Nat.two_pow_pos _) with } hidle
        (hinv.idleDeselected (hidle ▸ rfl))
      idle := hidle
      kind := List.mem_cons_self .. }

theorem waiting_getter (v : State → BitVec 128) :
    Ends State.Waiting (getter v) (fun _ => State.Finished K) (Stops K) :=
  Ends.step (ends_upd fun _ hs => ⟨{ hs.1 with }, hs.2⟩) fun _ => waiting_completeOk

/-- The operation a host instruction starts; the getters and NOP start none. -/
def startedBy : Instr → Op
  | .init => .init
  | .rdblk => .rdblk
  | .wrblk => .wrblk
  | _ => .idle

/-- Every command has a running operation to stand in (R92). -/
theorem issuerOf_busy (n : BitVec 6) : (issuerOf n).1 ≠ .idle := by
  unfold issuerOf
  split <;> exact fun h => nomatch h

/-- The host operations end idle, with a kind of their row (R364). -/
theorem exec_hostOperation {i : Instr} (hi : (placeOf i).1 = .idle) {s t : State} (hs : s.Inv)
    (h : exec i s = .next t) : t.Finished (operationKinds (startedBy i)) := by
  cases i with
  | nop => exact waiting_completeOk.hostCall hs h
  | init => exact (Finishes.operation (safe_enterInit.step fun _ => finishes_fromIReset)).hostCall hs h
  | rdblk => exact finishes_fromRCheck.operation.hostCall hs h
  | wrblk => exact finishes_fromWCheck.operation.hostCall hs h
  | blkcnt => exact (waiting_getter _).hostCall hs h
  | cid => exact (waiting_getter _).hostCall hs h
  | csd => exact (waiting_getter _).hostCall hs h
  | lastcrc => exact (waiting_getter _).hostCall hs h
  | kind => exact (waiting_getter _).hostCall hs h
  | calccrc => exact (waiting_getter _).hostCall hs h
  | csdvalid => exact (waiting_getter _).hostCall hs h
  | reservedB | reservedC | reservedD | reservedE | reservedF => cases h
  | cmd0 | cmd8 | cmd9 | cmd10 | cmd12 | cmd16 | cmd17 | cmd24 | cmd55 | cmd41 | cmd58 | acmd41 | zcmd | rdreg =>
    exact absurd hi (issuerOf_busy _)

theorem operationKinds_startedBy {i : Instr} (hinit : i ≠ .init) (hrd : i ≠ .rdblk) (hwr : i ≠ .wrblk) :
    operationKinds (startedBy i) = [] := by
  unfold startedBy
  split
  · exact absurd rfl hinit
  · exact absurd rfl hrd
  · exact absurd rfl hwr
  · rfl

/-- Settles O21: `exec_hostOperation`, whose kinds are those of R364's row. -/
theorem operationsEndIdle : Obligations.OperationsEndIdle := by
  unfold Obligations.OperationsEndIdle
  intro s t i hs hi h
  have hplace : (placeOf i).1 = .idle := by
    simp only [List.mem_cons, List.not_mem_nil, or_false] at hi
    rcases hi with rfl | rfl | rfl | rfl | rfl | rfl | rfl | rfl | rfl | rfl | rfl <;> rfl
  have hf := exec_hostOperation hplace hs h
  refine ⟨hf.idle, hf.inv.idleDeselected (hf.idle ▸ rfl), ?_, ?_, ?_, fun hinit hrd hwr => ?_⟩
  · rintro rfl
    exact hf.kind
  · rintro rfl
    exact hf.kind
  · rintro rfl
    exact hf.kind
  · have hk := hf.kind
    rw [operationKinds_startedBy hinit hrd hwr] at hk
    exact List.mem_singleton.mp hk

/-! ### Commands of the command port -/

/-- The sequencer stands at a step of this operation, the session as the invariant has it there. -/
def Inside (p : Op) : CardKind → BitVec 64 → Op → Fsm → Prop :=
  fun k n o x => o = p ∧ x.op = p ∧ SessionAt x k n

/-- A command inside a running operation keeps the invariant, or ends the operation with an error. -/
theorem Ends.command {p : Op} (hp : p ≠ .idle) {q : Proc Unit}
    (hq : Safe (AtRest (Inside p)) K q (AtRest (Inside p))) {s t : State} (hs : s.Inv) (ho : s.seq.op = p)
    (h : Machine.settle q s = .next t) : t.Inv := by
  obtain ⟨hop, hoff⟩ := legal_iff.mp hs.legal
  rcases hq.settle ⟨hs.sound, ⟨ho, hop.symm.trans ho, hs.sessionAt⟩, hoff⟩ h with hm | hf
  · obtain ⟨hsound, ⟨ho', hx', hn, hk⟩, hoff'⟩ := hm
    exact { hsound with
      legal := legal_iff.mpr ⟨ho'.trans hx'.symm, hoff'⟩
      idleDeselected := fun hi => absurd (ho'.symm.trans hi) hp
      classified := fun hi => hk (hx'.trans (ho'.symm.trans hi))
      initNotReady := fun hi => hn (hx'.trans (ho'.symm.trans hi)) }
  · exact hf.inv

/-- During INIT the session is not ready and the card may be classified. -/
theorem inside_classify {k' : CardKind} (hk : k' = .sd2 ∨ k' = .sdhc) (k : CardKind) (n : BitVec 64) (o : Op)
    (x : Fsm) (h : Inside .init k n o x) : n = 0#64 ∧ Inside .init k' n o x := by
  obtain ⟨ho, hx, hn, -⟩ := h
  exact ⟨hn hx, ho, hx, hn, fun _ _ _ _ => hk⟩

theorem exec_command {i : Instr} (hi : (placeOf i).1 ≠ .idle) {s t : State} (hs : s.Inv)
    (ho : s.seq.op = (placeOf i).1) (h : exec i s = .next t) : t.Inv := by
  have hI := initKinds_command
  have h9 : 9#4 ∈ initKinds := by decide
  cases i with
  | cmd0 | cmd12 | cmd55 | cmd41 => exact (safe_issueOnly hI _ _).command hi hs ho h
  | cmd16 | zcmd => exact (safe_ensureZeroStatus hI _ _).command hi hs ho h
  | cmd9 | cmd10 | rdreg =>
    exact ((safe_readRegister hI h9 _ _).step fun _ => safe_pure ()).command hi hs ho h
  | acmd41 => exact ((safe_issueAppCommand hI _ _).step fun _ => safe_pure ()).command hi hs ho h
  | cmd8 =>
    exact (safe_interfaceCondition hI (by decide) (by decide) (inside_classify (.inl rfl)) _).command hi hs ho h
  | cmd58 => exact (safe_readOcr hI (inside_classify (.inr rfl)) _).command hi hs ho h
  | cmd17 =>
    exact ((safe_ensureZeroStatus readKinds_command _ _).step fun _ =>
      (safe_waitStartToken readKinds_command (by decide)).step fun _ =>
        (safe_receiveBlock readKinds_command _ _ _).step fun c =>
          safe_recordCrc readKinds_command c).command hi hs ho h
  | cmd24 =>
    have hW := writeKinds_command
    exact ((safe_ensureZeroStatus hW _ _).step fun _ => (safe_sendAll hW _).step fun _ =>
      (safe_sendBlock hW _ _).step fun _ => (safe_sendAll hW _).step fun _ =>
        (safe_writeResponse hW (by decide)).step fun _ => safe_writeBusy hW (by decide)).command hi hs ho h
  | nop | init | rdblk | wrblk | blkcnt | cid | csd | lastcrc | kind | calccrc | csdvalid | reservedB | reservedC
  | reservedD | reservedE | reservedF => exact absurd rfl hi

/-! ### The step -/

theorem placeOf_hostOf (code : BitVec 4) : (placeOf (hostOf code)).1 = .idle := by
  unfold hostOf
  split <;> rfl

/-- What the fetch runs is a host operation, or a command inside the operation that issues it (R26, R92). -/
theorem fetch_run_place {s t : State} {i : Instr} (h : fetch s = .run i t) :
    (placeOf i).1 = .idle ∨ t.seq.op = (placeOf i).1 := by
  unfold fetch at h
  split at h
  · cases h
  · split at h
    · cases h
      exact .inl (placeOf_hostOf _)
    · unfold fetchCommand at h
      split at h
      · cases h
      · split at h
        · cases h
          exact .inr ‹_›
        · cases h
    · split at h <;> cases h

/-- Only a running operation is carried on. -/
theorem fetch_carryOn {s : State} (h : fetch s = .carryOn) : s.seq.op ≠ .idle := by
  unfold fetch at h
  split at h
  · cases h
  · split at h
    · cases h
    · unfold fetchCommand at h
      split at h
      · cases h
      · split at h <;> cases h
    · split at h
      · cases h
      · assumption

/-- The fetch empties a port, and the buffer of a request it takes is canonical. -/
theorem State.Inv.fetched {s t : State} {i : Instr} (hs : s.Inv) (h : fetch s = .run i t) : t.Inv := by
  rcases fetch_run h with ⟨r, hr, -, rfl⟩ | ⟨c, -, -, rfl⟩
  · exact { hs with bufWf := hs.portBufWf r hr, portBufWf := fun _ hp => nomatch hp }
  · exact { hs with }

/-- Settles O53: a request runs on the idle engine, a command inside its operation, and an operation that is
carried on ends. -/
theorem stepKeepsInv : Obligations.StepKeepsInv := by
  unfold Obligations.StepKeepsInv
  intro s t hs h
  unfold step at h
  split at h
  · next i u hf =>
    by_cases hi : (placeOf i).1 = .idle
    · exact (exec_hostOperation hi (hs.fetched hf) h).inv
    · exact exec_command hi (hs.fetched hf) ((fetch_run_place hf).resolve_left hi) h
  · next hf =>
    have hx : s.seq.fsm ≠ .fIdle := fun hx =>
      fetch_carryOn hf (by rw [(legal_iff.mp hs.legal).1, hx]; rfl)
    rcases (finishes_resume hx).settle hs.meets h with hd | hd <;> exact hd.inv
  · cases h
    exact hs
  · cases h

end Sys2Proof.Machine
end

