-- ==== Sys2Proof/Proofs/WritePromise.lean ====
section
/-! PROOFS. WRBLK's promise (R81), for every card and every clock. Along a run that ends well the card stays
selected from the command on (R186, R192), so that the exit's deselect is an event right after the last exchange;
the token's test and the busy-wait leave what they let pass (R314). -/

namespace Sys2Proof.Machine

variable {α β : Type} {P : State → Prop} {Q : α → State → Prop} {A : Bool → Byte → Prop}

/-! ### Runs that end well -/

/-- If the procedure ends well from a state with `P`, its end is in `Q`; of a stop nothing is said. -/
abbrev EndsWell {α : Type} (P : State → Prop) (p : Proc α) (Q : α → State → Prop) : Prop :=
  Ends P p Q fun _ _ => True

theorem endsWell_stop (r : Stop) : EndsWell P (stop r) Q := ends_stop r fun _ _ => trivial

theorem endsWell_raise (e : Err) : EndsWell P (raise e) Q := ends_raise e fun _ _ => trivial

/-- Nothing is asked of the end. -/
theorem endsWell_trivial (p : Proc α) : EndsWell P p fun _ _ => True := ⟨fun _ _ => trivial, fun _ _ => trivial⟩

/-- How a procedure settles in a next state: its good end, or the exit actions of an error. -/
theorem settle_next {p : Proc Unit} {s t : State} (h : settle p s = .next t) :
    p s = .ok () t ∨ ∃ e u, p s = .error (.raise e) u ∧ t = exitActions (some e) u := by
  unfold settle at h
  cases hx : p s with
  | ok a u => rw [hx] at h; cases h; exact .inl rfl
  | error r u =>
    rw [hx] at h
    cases r with
    | raise e => cases h; exact .inr ⟨e, u, rfl, rfl⟩
    | fault f => cases h
    | refuse r => cases h

theorem code_ne_ok (e : Err) : e.code ≠ 0#4 := by cases e <;> simp [Err.code]

/-- A host operation whose result is `E_OK` ended well: no error has that code (R360). -/
theorem Ends.hostCall_succeeds {p : Proc Unit} {Q : Unit → State → Prop} (hp : EndsWell (fun _ => True) p Q)
    {s t : State} (h : Machine.hostCall p s = .next t) (hk : t.res.kind = 0#4) : Q () t := by
  unfold Machine.hostCall at h
  split at h
  · rcases settle_next h with hx | ⟨e, u, -, rfl⟩
    · exact hp.ok trivial hx
    · exact absurd hk (code_ne_ok e)
  · cases h

/-! ### The latches a write relies on -/

/-- The chip-select latch and the token register are as `A` says. -/
def State.Latches (A : Bool → Byte → Prop) (s : State) : Prop := A s.wrk.csActive s.wrk.dresp

/-- The procedure ends well with the latches still as `A` says. -/
abbrev Holds {α : Type} (A : Bool → Byte → Prop) (p : Proc α) : Prop :=
  EndsWell (State.Latches A) p fun _ => State.Latches A

theorem holds_pure (a : α) : Holds A (pure a) := ends_pure a fun _ hs => hs

theorem holds_rd : Holds A rd := ends_weaken ends_rd (fun _ hs => hs) (fun _ _ hs => hs.1) fun _ _ h => h

theorem holds_upd {f : State → State} (hcs : ∀ s, (f s).wrk.csActive = s.wrk.csActive)
    (hdresp : ∀ s, (f s).wrk.dresp = s.wrk.dresp) : Holds A (upd f) :=
  ends_upd fun s hs => by rw [State.Latches, hcs, hdresp]; exact hs

theorem holds_now : Holds A now where
  ok hs h := by cases h; exact hs
  err _ _ := trivial

theorem holds_xchg (b : Byte) : Holds A (xchg b) := ends_xchg (fun _ _ hs _ => hs) fun _ _ _ _ => trivial

theorem holds_goFsm (x : Fsm) : Holds A (goFsm x) := holds_upd (fun _ => rfl) fun _ => rfl

theorem holds_goCfsm (x : Cfsm) : Holds A (goCfsm x) := holds_upd (fun _ => rfl) fun _ => rfl

theorem holds_bufRead (i : Nat) : Holds A (bufRead i) where
  ok {s t v} hs h := by
    unfold bufRead at h
    split at h <;> cases h
    exact hs
  err _ _ := trivial

theorem holds_sendAll : ∀ bs, Holds A (sendAll bs)
  | [] => holds_pure ()
  | b :: bs => (holds_xchg b).step fun _ => holds_sendAll bs

theorem holds_sendBlock : ∀ k i, Holds A (sendBlock k i)
  | 0, _ => holds_pure ()
  | k + 1, i => (holds_bufRead i).step fun v => (holds_xchg v).step fun _ => holds_sendBlock k (i + 1)

theorem holds_loadDl1 (T : Nat) : Holds A (loadDl1 T) :=
  (holds_now.step fun _ => ends_ite (fun _ => holds_pure _) fun _ => endsWell_stop _ : Holds A (deadline T)).step
    fun _ => holds_upd (fun _ => rfl) fun _ => rfl

theorem holds_expiredDl1 : Holds A expiredDl1 := holds_now.step fun _ => holds_rd.step fun _ => holds_pure _

/-! ### The busy-wait -/

/-- The last event is an exchange that received a not-busy byte (R103). -/
def State.SawReady (s : State) : Prop :=
  ∃ older : List Event, s.trace = .xchg 0xFF#8 (.byte 0xFF#8) :: older

/-- A busy-wait leaves the latches alone, and reports ready right after a not-busy byte (R164). -/
def WaitedHolding (A : Bool → Byte → Prop) (w : Wait) (s : State) : Prop :=
  s.Latches A ∧ (w = .ready → s.SawReady)

/-- An exchange of the filler that received a not-busy byte is the event the promise asks for. -/
theorem xchg_sawReady : EndsWell (State.Latches A) (xchg Config.fill)
    fun b s => s.Latches A ∧ (notBusy b = true → s.SawReady) := by
  refine ends_xchg (fun s b hs hn => ⟨hs, fun hb => ?_⟩) fun _ _ _ _ => trivial
  obtain rfl : b = 0xFF#8 := eq_of_beq hb
  exact ⟨s.trace, by rw [afterXchg_trace, hn]; rfl⟩

theorem busyLoop_endsWell : ∀ n, EndsWell (State.Latches A) (busyLoop n) (WaitedHolding A)
  | 0 => endsWell_stop _
  | n + 1 => by
    refine xchg_sawReady.step fun b => ends_ite (fun hb => ends_pure _ fun s hs => ⟨hs.1, fun _ => hs.2 hb⟩) fun _ => ?_
    refine ends_weaken (holds_expiredDl1.step fun e => ends_ite (fun _ => ?_) fun _ => busyLoop_endsWell n)
      (fun _ hs => hs.1) (fun _ _ h => h) fun _ _ h => h
    exact ends_pure _ fun s hs => ⟨hs, fun h => nomatch h⟩

theorem waitNotBusy_endsWell (T : Nat) : EndsWell (State.Latches A) (waitNotBusy T) (WaitedHolding A) :=
  (holds_loadDl1 T).step fun _ => holds_rd.step fun _ => busyLoop_endsWell _

theorem holds_waitNotBusy (T : Nat) : Holds A (waitNotBusy T) :=
  ends_weaken (waitNotBusy_endsWell T) (fun _ hs => hs) (fun _ _ hs => hs.1) fun _ _ h => h

/-! ### The command: answered, the card is selected -/

/-- The card is selected. -/
def Selected : Bool → Byte → Prop := fun c _ => c = true

theorem holds_busyPhase (n : BitVec 6) : Holds A (busyPhase n) :=
  ends_ite (fun _ => holds_pure ()) fun _ =>
    (holds_goCfsm _).step fun _ => (holds_waitNotBusy _).step fun _ => holds_pure ()

theorem holds_framePhase (n : BitVec 6) (arg : BitVec 32) : Holds A (framePhase n arg) :=
  (holds_goCfsm _).step fun _ => (holds_upd (fun _ => rfl) fun _ => rfl : Holds A (setFrame _)).step fun _ =>
    holds_sendAll _

theorem holds_stuffPhase (n : BitVec 6) : Holds A (stuffPhase n) :=
  ends_ite (fun _ => (holds_goCfsm _).step fun _ => holds_sendAll _) fun _ => holds_pure ()

theorem holds_pollResponse : ∀ n, Holds A (pollResponse n)
  | 0 => holds_pure none
  | n + 1 => (holds_xchg _).step fun _ => ends_ite (fun _ => holds_pollResponse n) fun _ => holds_pure _

theorem sendCommand_selects (n : BitVec 6) (arg : BitVec 32) :
    EndsWell (fun _ => True) (sendCommand n arg) fun _ => State.Latches Selected := by
  have hcs : EndsWell (fun _ => True) (cs true) fun _ => State.Latches Selected :=
    ends_upd fun s _ => by rw [State.Latches, withCs_wrk]; rfl
  exact (endsWell_trivial _).step fun _ => hcs.step fun _ => (holds_busyPhase n).step fun _ =>
    (holds_framePhase n arg).step fun _ => holds_stuffPhase n

/-- Only the time-out path deselects (R192). -/
theorem finishCommand_selected : ∀ r, EndsWell (State.Latches Selected) (finishCommand r)
    fun reply s => reply.rto = false → s.Latches Selected
  | some b => (holds_upd (fun _ => rfl) fun _ => rfl : Holds Selected (endCommand b false)).step fun _ =>
      ends_pure _ fun _ hs _ => hs
  | none => (endsWell_trivial _).step fun _ => (endsWell_trivial _).step fun _ => (endsWell_trivial _).step fun _ =>
      (endsWell_trivial _).step fun _ => ends_pure _ fun _ _ h => nomatch h

theorem issueCommand_selects (n : BitVec 6) (arg : BitVec 32) : EndsWell (fun _ => True) (issueCommand n arg)
    fun reply s => reply.rto = false → s.Latches Selected :=
  (sendCommand_selects n arg).step fun _ => (holds_goCfsm _).step fun _ => holds_rd.step fun _ =>
    (holds_pollResponse _).step finishCommand_selected

theorem ensureZeroStatus_selects (n : BitVec 6) (arg : BitVec 32) :
    EndsWell (fun _ => True) (ensureZeroStatus n arg) fun _ => State.Latches Selected := by
  refine (issueCommand_selects n arg).step fun r => ?_
  cases hc : classify r.status r.rto with
  | timeout => exact endsWell_raise _
  | idleOnly => exact endsWell_raise _
  | flagged => exact endsWell_raise _
  | clear =>
    have hrto : r.rto = false := by
      cases hr : r.rto with
      | false => rfl
      | true => rw [hr] at hc; cases hc
    exact ends_pure () fun _ hs => hs hrto

/-! ### WRBLK -/

/-- The card is selected and its token said "accepted" (R102). -/
def SelectedAccepted : Bool → Byte → Prop := fun c d => c = true ∧ writeAccepted d = true

/-- What WRBLK promises of its last state (R81). -/
def State.WritePromised (s : State) : Prop :=
  writeAccepted s.wrk.dresp = true ∧
    ∃ older : List Event, s.trace = .cs false :: .xchg 0xFF#8 (.byte 0xFF#8) :: older

/-- Only the accepting token lets the write go on (R317). -/
theorem writeResponse_accepted :
    EndsWell (State.Latches Selected) writeResponse fun _ => State.Latches SelectedAccepted := by
  refine (holds_xchg _).step fun t => ?_
  have hset : EndsWell (State.Latches Selected) (setDresp t) fun _ s => s.wrk.csActive = true ∧ s.wrk.dresp = t :=
    ends_upd fun s hs => ⟨hs, rfl⟩
  refine hset.step fun _ => ends_ite (fun ht => ?_) fun _ => ?_
  · exact ends_pure () fun s ⟨hcs, hd⟩ => ⟨hcs, hd ▸ ht⟩
  · exact (endsWell_trivial _).step fun _ => endsWell_raise _

/-- The deselect after a busy-wait that saw the not-busy byte keeps the promise; the other end is an error
(R318). -/
theorem writeBusy_promised : EndsWell (State.Latches SelectedAccepted) writeBusy
    fun _ s => s.WritePromised ∧ s.wrk.csActive = false := by
  refine (waitNotBusy_endsWell _).step fun w => ?_
  have hcs : EndsWell (WaitedHolding SelectedAccepted w) (cs false)
      fun _ s => w = .ready → s.WritePromised ∧ s.wrk.csActive = false := by
    refine ends_upd fun s ⟨⟨hsel, hacc⟩, hsaw⟩ hw => ?_
    obtain ⟨older, htrace⟩ := hsaw hw
    refine ⟨⟨by rw [withCs_wrk]; exact hacc, older, ?_⟩, by rw [withCs_wrk]⟩
    rw [withCs_trace, hsel, htrace]
    rfl
  refine hcs.step fun _ => ?_
  cases w with
  | ready => exact ends_pure () fun _ hs => hs rfl
  | expired => exact endsWell_raise _

theorem fromWBusy_promised :
    EndsWell (State.Latches SelectedAccepted) fromWBusy fun _ => State.WritePromised := by
  refine writeBusy_promised.step fun _ => ends_upd fun s ⟨⟨hacc, older, htrace⟩, hcs⟩ => ⟨?_, older, ?_⟩
  · rw [exitActions_wrk]
    exact hacc
  · rw [exitActions_trace, if_pos hcs, htrace]

theorem fromWToken_promised : EndsWell (State.Latches Selected) fromWToken fun _ => State.WritePromised :=
  (holds_sendAll _).step fun _ => (holds_goFsm _).step fun _ => (holds_sendBlock _ _).step fun _ =>
    (holds_goFsm _).step fun _ => (holds_sendAll _).step fun _ => (holds_goFsm _).step fun _ =>
      writeResponse_accepted.step fun _ => (holds_goFsm _).step fun _ => fromWBusy_promised

theorem fromWCmd_promised : EndsWell (fun _ => True) fromWCmd fun _ => State.WritePromised := by
  refine (endsWell_trivial rd).step fun s => ?_
  cases translate s.ses.kind s.req.index with
  | none => exact endsWell_raise _
  | some a =>
    exact (ensureZeroStatus_selects _ a).step fun _ => (holds_goFsm _).step fun _ => fromWToken_promised

theorem fromWCheck_promised : EndsWell (fun _ => True) fromWCheck fun _ => State.WritePromised := by
  refine (endsWell_trivial rd).step fun s => ?_
  cases checkRequest s.ses s.req with
  | error e => exact endsWell_raise e
  | ok a => exact (endsWell_trivial _).step fun _ => fromWCmd_promised

/-- Settles O41: a success of WRBLK has passed the test of the token and the busy-wait, the card selected until the
end. -/
theorem wrblkPromise : Obligations.WrblkPromise := by
  unfold Obligations.WrblkPromise
  intro s t h hk
  have hrun : EndsWell (fun _ => True) (do start .wrblk .wCheck; fromWCheck) fun _ => State.WritePromised :=
    (endsWell_trivial _).step fun _ => fromWCheck_promised
  obtain ⟨hacc, hlast⟩ := hrun.hostCall_succeeds h hk
  exact ⟨eq_of_beq hacc, hlast⟩

end Sys2Proof.Machine
end

