-- ==== Sys2Proof/Proofs/History.lean ====
section
/-! PROOFS. What a step draws from its inputs is what it adds to the history: one answer for each exchange, one
sample for each reading of the clock (R60, R63). -/

namespace Sys2Proof.Machine

theorem samples_append (a b : List Event) : samples (a ++ b) = samples a ++ samples b := by
  induction a with
  | nil => rfl
  | cons ev rest ih => cases ev <;> simp [samples, ih]

/-- The history grew, and the queues lost from the front what its new events show: the relation of
`Obligations.HistoryGrows`. -/
def DrawsWhatItShows (s t : State) : Prop :=
  ∃ new : List Event, t.trace = new ++ s.trace ∧
    t.env.rxCount = s.env.rxCount + new.countP Event.isXchg ∧
    t.env.clkCount = s.env.clkCount + (samples new).length ∧
    t.env.rx = s.env.rx.drop (new.countP Event.isXchg) ∧ t.env.clk = s.env.clk.drop (samples new).length

namespace DrawsWhatItShows

/-- Register writes draw nothing and show nothing. -/
theorem of_unobserved {s t : State} (htrace : t.trace = s.trace) (henv : t.env = s.env) : DrawsWhatItShows s t := by
  refine ⟨[], htrace, ?_⟩
  rw [henv]
  exact ⟨rfl, rfl, rfl, rfl⟩

theorem trans {s t u : State} (h : DrawsWhatItShows s t) (h' : DrawsWhatItShows t u) : DrawsWhatItShows s u := by
  obtain ⟨new, htrace, hrxCount, hclkCount, hrx, hclk⟩ := h
  obtain ⟨new', htrace', hrxCount', hclkCount', hrx', hclk'⟩ := h'
  refine ⟨new' ++ new, by rw [htrace', htrace, List.append_assoc], ?_⟩
  rw [samples_append, List.countP_append, List.length_append, Nat.add_comm (new'.countP _),
    Nat.add_comm (samples new').length]
  exact ⟨by rw [hrxCount', hrxCount, Nat.add_assoc], by rw [hclkCount', hclkCount, Nat.add_assoc],
    by rw [hrx', hrx, List.drop_drop], by rw [hclk', hclk, List.drop_drop]⟩

/-- An exchange draws one answer. -/
theorem afterXchg (s : State) (b : Byte) : DrawsWhatItShows s (s.afterXchg b) :=
  ⟨[.xchg b s.nextAnswer], rfl, rfl, rfl, List.drop_one.symm, rfl⟩

/-- A reading of the clock draws one sample. -/
theorem afterSample (s : State) : DrawsWhatItShows s s.afterSample :=
  ⟨[.sample s.nextSample], rfl, rfl, rfl, rfl, List.drop_one.symm⟩

/-- A change of the chip-select level is shown and draws nothing. -/
theorem withCs (s : State) (a : Bool) : DrawsWhatItShows s (s.withCs a) := by
  by_cases h : s.wrk.csActive = a
  · rw [withCs_same h]
    exact of_unobserved rfl rfl
  · refine ⟨[.cs a], by rw [withCs_trace, if_neg h]; rfl, ?_⟩
    rw [withCs_env]
    exact ⟨rfl, rfl, rfl, rfl⟩

/-- The exit actions only deselect (R372). -/
theorem exitActions (s : State) (r : Option Err) : DrawsWhatItShows s (exitActions r s) :=
  (withCs s false).trans (of_unobserved rfl rfl)

/-- Of all the machine does only an exchange, a reading of the clock and a change of chip-select are observed. -/
theorem machineKeeps : MachineKeeps DrawsWhatItShows where
  refl _ := of_unobserved rfl rfl
  trans := trans
  afterXchg := afterXchg
  afterSample := afterSample
  withCs := withCs
  exit := exitActions
  dl1 _ _ := of_unobserved rfl rfl
  cfsm _ _ := of_unobserved rfl rfl
  endCommand _ _ _ := of_unobserved rfl rfl
  frame _ _ := of_unobserved rfl rfl
  start _ _ _ := of_unobserved rfl rfl
  fsm _ _ := of_unobserved rfl rfl
  dl0 _ _ := of_unobserved rfl rfl
  kind _ _ := of_unobserved rfl rfl
  r7 _ _ _ := of_unobserved rfl rfl
  ocr0 _ _ := of_unobserved rfl rfl
  scratch _ _ _ _ := of_unobserved rfl rfl
  cid _ _ := of_unobserved rfl rfl
  csd _ _ := of_unobserved rfl rfl
  count _ _ := of_unobserved rfl rfl
  enter _ := of_unobserved rfl rfl
  buf _ _ _ _ := of_unobserved rfl rfl
  crcs _ _ _ := of_unobserved rfl rfl
  dresp _ _ := of_unobserved rfl rfl
  ok _ := of_unobserved rfl rfl
  data _ _ := of_unobserved rfl rfl
  port _ := of_unobserved rfl rfl
  take _ _ _ := of_unobserved rfl rfl

end DrawsWhatItShows

/-- Settles O56: every update of the machine draws what it shows. -/
theorem historyGrows : Obligations.HistoryGrows := by
  unfold Obligations.HistoryGrows
  intro s t h
  exact step_keeps DrawsWhatItShows.machineKeeps h

end Sys2Proof.Machine
end

