-- ==== Sys2Proof/Proofs/Slices.lean ====
section
/-! PROOFS. Slices of bit vectors put together from parts: what both the frame (R90) and the register image (R12) are
made of. -/

namespace Sys2Proof

/-- A vector is two parts put together exactly when they are its high and its low slice. -/
theorem eq_append_iff {v w : Nat} {x : BitVec (v + w)} {hi : BitVec v} {lo : BitVec w} :
    x = hi ++ lo ↔ x.extractLsb' w v = hi ∧ x.extractLsb' 0 w = lo := by
  constructor
  · rintro rfl
    exact ⟨BitVec.extractLsb'_append_eq_left, BitVec.extractLsb'_append_eq_right⟩
  · rintro ⟨rfl, rfl⟩
    exact BitVec.extractLsb'_append_extractLsb'.symm

/-- A slice above the low part is a slice of the high part. -/
theorem extractLsb'_append_add {v w start len : Nat} {hi : BitVec v} {lo : BitVec w} :
    (hi ++ lo).extractLsb' (start + w) len = hi.extractLsb' start len := by
  rw [BitVec.extractLsb'_append_eq_of_le (Nat.le_add_left w start), Nat.add_sub_cancel]

theorem extractLsb'_extractLsb' {w start len start' len' : Nat} {x : BitVec w} (h : start' + len' ≤ len) :
    (x.extractLsb' start len).extractLsb' start' len' = x.extractLsb' (start + start') len' := by
  ext i hi
  have hlen : start' + i < len := by omega
  simp [hlen, Nat.add_assoc]

end Sys2Proof
end

