-- ==== Sys2Proof/Proofs/Encoding.lean ====
section
/-! PROOFS. The encodings (30_encoding.md). A frame is read back exactly and no bit of it is free (R90, R91); the
decoder of each format, built on it, is inverse to the encoder. -/

namespace Sys2Proof

open Machine

/-! ### Arguments and frames -/

/-- An argument is its four bytes, the most significant first (R68). -/
theorem append_argBytes (arg : BitVec 32) :
    arg.extractLsb' 24 8 ++ arg.extractLsb' 16 8 ++ arg.extractLsb' 8 8 ++ arg.extractLsb' 0 8 = arg := by
  rw [BitVec.extractLsb'_append_extractLsb'_eq_extractLsb' (by rfl),
    BitVec.extractLsb'_append_extractLsb'_eq_extractLsb' (by rfl),
    BitVec.extractLsb'_append_extractLsb'_eq_extractLsb' (by rfl)]
  exact BitVec.extractLsb'_eq_self

theorem argBytes_append (b₁ b₂ b₃ b₄ : Byte) : argBytes (b₁ ++ b₂ ++ b₃ ++ b₄) = [b₁, b₂, b₃, b₄] := by
  have h₁ : (b₁ ++ b₂ ++ b₃ ++ b₄).extractLsb' 24 8 = b₁ :=
    extractLsb'_append_add.trans (extractLsb'_append_add.trans BitVec.extractLsb'_append_eq_left)
  have h₂ : (b₁ ++ b₂ ++ b₃ ++ b₄).extractLsb' 16 8 = b₂ :=
    extractLsb'_append_add.trans (extractLsb'_append_add.trans BitVec.extractLsb'_append_eq_right)
  have h₃ : (b₁ ++ b₂ ++ b₃ ++ b₄).extractLsb' 8 8 = b₃ :=
    extractLsb'_append_add.trans BitVec.extractLsb'_append_eq_right
  have h₄ : (b₁ ++ b₂ ++ b₃ ++ b₄).extractLsb' 0 8 = b₄ := BitVec.extractLsb'_append_eq_right
  simp [argBytes, h₁, h₂, h₃, h₄]

/-- The three tests of a frame, as what its bytes are. -/
theorem decodeFrame_eq_ok_iff {b₀ b₁ b₂ b₃ b₄ b₅ : Byte} {n : BitVec 6} {arg : BitVec 32} :
    decodeFrame [b₀, b₁, b₂, b₃, b₄, b₅] = .ok (n, arg) ↔
      b₀ = 0b01#2 ++ n ∧ b₁ ++ b₂ ++ b₃ ++ b₄ = arg ∧ b₅ = crc7 [b₀, b₁, b₂, b₃, b₄] ++ 1#1 := by
  have h₀ : b₀ = 0b01#2 ++ n ↔ b₀.extractLsb' 6 2 = 0b01#2 ∧ b₀.extractLsb' 0 6 = n := eq_append_iff (v := 2) (w := 6)
  have h₅ : b₅ = crc7 [b₀, b₁, b₂, b₃, b₄] ++ 1#1 ↔
      b₅.extractLsb' 1 7 = crc7 [b₀, b₁, b₂, b₃, b₄] ∧ b₅.extractLsb' 0 1 = 1#1 := eq_append_iff (v := 7) (w := 1)
  rw [h₀, h₅]
  simp only [decodeFrame]
  split_ifs <;> simp_all

@[simp] theorem decodeFrame_encodeFrame (n : BitVec 6) (arg : BitVec 32) :
    decodeFrame (encodeFrame n arg) = .ok (n, arg) :=
  decodeFrame_eq_ok_iff.mpr ⟨rfl, append_argBytes arg, rfl⟩

/-- No bit of an accepted frame is free. -/
theorem eq_encodeFrame_of_decodeFrame {bytes : List Byte} {n : BitVec 6} {arg : BitVec 32}
    (h : decodeFrame bytes = .ok (n, arg)) : bytes = encodeFrame n arg := by
  match bytes with
  | [b₀, b₁, b₂, b₃, b₄, b₅] =>
    obtain ⟨rfl, rfl, rfl⟩ := decodeFrame_eq_ok_iff.mp h
    rw [encodeFrame, argBytes_append]
    rfl

/-! ### Decoding an encoding -/

theorem decode_frame (n : BitVec 6) (arg : BitVec 32) : decode ⟨.cmdframe48, encodeFrame n arg⟩ = commandOf n arg := by
  simp [decode, decodeCommand]

theorem decode_hostCode (code : BitVec 4) : decode (hostCode code) = .ok (hostOf code) := by
  have hhigh : (0#4 ++ code).extractLsb' 4 4 = 0#4 := BitVec.extractLsb'_append_eq_left
  have hlow : (0#4 ++ code).extractLsb' 0 4 = code := BitVec.extractLsb'_append_eq_right
  simp only [hostCode, decode, decodeHost]
  rw [hhigh, hlow]
  rfl

theorem decode_appCommand (arg : BitVec 32) :
    decode ⟨.pseudoAcmd41, encodeFrame 55#6 0#32 ++ encodeFrame 41#6 arg⟩ = .ok (.acmd41 arg) := by
  have htake : (encodeFrame 55#6 0#32 ++ encodeFrame 41#6 arg).take 6 = encodeFrame 55#6 0#32 := rfl
  have hdrop : (encodeFrame 55#6 0#32 ++ encodeFrame 41#6 arg).drop 6 = encodeFrame 41#6 arg := rfl
  simp [decode, decodeAppCommand, htake, hdrop]

/-- The zero-status indices are commands (R194, R92). -/
theorem commandOf_of_zeroStatusIndex {n : BitVec 6} (h : zeroStatusIndex n = true) (arg : BitVec 32) :
    ∃ i, commandOf n arg = .ok i := by
  simp only [zeroStatusIndex, Bool.or_eq_true, beq_iff_eq] at h
  rcases h with ((((rfl | rfl) | rfl) | rfl) | rfl) | rfl <;> exact ⟨_, rfl⟩

theorem decode_zeroCommand {n : BitVec 6} (h : zeroStatusIndex n = true) (arg : BitVec 32) :
    decode ⟨.pseudoZcmd, encodeFrame n arg⟩ = .ok (.zcmd n arg) := by
  obtain ⟨i, hi⟩ := commandOf_of_zeroStatusIndex h arg
  simp [decode, decodeZeroCommand, hi]

theorem decode_registerRead {n : BitVec 6} (h : n = 9#6 ∨ n = 10#6) :
    decode ⟨.pseudoRdreg, encodeFrame n 0#32⟩ = .ok (.rdreg n) := by
  simp [decode, decodeRegisterRead, h]

/-- Settles O5: each format reads back what the encoder writes in it. -/
theorem decodeEncode : Obligations.DecodeEncode := by
  unfold Obligations.DecodeEncode
  intro i hwf
  cases i with
  | cmd0 arg | cmd8 arg | cmd9 arg | cmd10 arg | cmd12 arg | cmd16 arg | cmd17 arg | cmd24 arg | cmd55 arg
  | cmd41 arg | cmd58 arg => exact decode_frame _ arg
  | nop | init | rdblk | wrblk | blkcnt | cid | csd | lastcrc | kind | calccrc | csdvalid | reservedB | reservedC
  | reservedD | reservedE | reservedF => exact decode_hostCode _
  | acmd41 arg => exact decode_appCommand arg
  | zcmd n arg => exact decode_zeroCommand (Bool.and_eq_true_iff.mp hwf).1 arg
  | rdreg n => exact decode_registerRead (by simpa [Instr.wellFormed] using hwf)

/-! ### Encoding a decoding -/

theorem encode_commandOf {n : BitVec 6} {arg : BitVec 32} {i : Instr} (h : commandOf n arg = .ok i) :
    encode i = ⟨.cmdframe48, encodeFrame n arg⟩ := by
  unfold commandOf at h
  split at h <;> cases h
  all_goals
    next hn =>
      refine congrArg (fun m => Code.mk .cmdframe48 (encodeFrame m arg)) ?_
      exact BitVec.eq_of_toNat_eq hn.symm

theorem encode_hostOf : ∀ code : BitVec 4, encode (hostOf code) = hostCode code := by
  decide

theorem encode_of_decodeHost {bytes : List Byte} {i : Instr} (h : decodeHost bytes = .ok i) :
    encode i = ⟨.hostop4, bytes⟩ := by
  match bytes with
  | [b] =>
    simp only [decodeHost] at h
    split_ifs at h with hhigh
    cases h
    have hb : b = 0#4 ++ b.extractLsb' 0 4 := (eq_append_iff (v := 4) (w := 4)).mpr ⟨not_not.mp hhigh, rfl⟩
    rw [encode_hostOf, hostCode, ← hb]

theorem encode_of_decodeCommand {bytes : List Byte} {i : Instr} (h : decodeCommand bytes = .ok i) :
    encode i = ⟨.cmdframe48, bytes⟩ := by
  unfold decodeCommand at h
  split at h
  · cases h
  · next hframe => rw [encode_commandOf h, eq_encodeFrame_of_decodeFrame hframe]

theorem encode_of_decodeAppCommand {bytes : List Byte} {i : Instr} (h : decodeAppCommand bytes = .ok i) :
    encode i = ⟨.pseudoAcmd41, bytes⟩ := by
  unfold decodeAppCommand at h
  split at h
  · cases h
  · cases h
  · next hprefix hcommand =>
    split_ifs at h with hrow
    obtain ⟨rfl, rfl, rfl⟩ := hrow
    cases h
    rw [encode, ← eq_encodeFrame_of_decodeFrame hprefix, ← eq_encodeFrame_of_decodeFrame hcommand,
      List.take_append_drop]

theorem encode_of_decodeZeroCommand {bytes : List Byte} {i : Instr} (h : decodeZeroCommand bytes = .ok i) :
    encode i = ⟨.pseudoZcmd, bytes⟩ := by
  unfold decodeZeroCommand at h
  split at h
  · cases h
  · next hframe =>
    split at h <;> cases h
    rw [encode, eq_encodeFrame_of_decodeFrame hframe]

theorem encode_of_decodeRegisterRead {bytes : List Byte} {i : Instr} (h : decodeRegisterRead bytes = .ok i) :
    encode i = ⟨.pseudoRdreg, bytes⟩ := by
  unfold decodeRegisterRead at h
  split at h
  · cases h
  · next hframe =>
    split_ifs at h with hrow
    obtain ⟨-, rfl⟩ := hrow
    cases h
    rw [encode, eq_encodeFrame_of_decodeFrame hframe]

/-- Settles O6: each format's decoder accepts only what the encoder writes. -/
theorem encodeDecode : Obligations.EncodeDecode := by
  unfold Obligations.EncodeDecode
  rintro ⟨fmt, bytes⟩ i h
  cases fmt with
  | hostop4 => exact encode_of_decodeHost h
  | cmdframe48 => exact encode_of_decodeCommand h
  | pseudoAcmd41 => exact encode_of_decodeAppCommand h
  | pseudoZcmd => exact encode_of_decodeZeroCommand h
  | pseudoRdreg => exact encode_of_decodeRegisterRead h

/-! ### The framer, the host codes and literal words -/

theorem startByte_eq_append : ∀ n : BitVec 6, 0x40#8 ||| n.setWidth 8 = 0b01#2 ++ n := by decide

theorem crcStopByte_eq_append : ∀ c : BitVec 7, crcStopByte c = c ++ 1#1 := by decide

/-- The framer builds the encoder's frame. -/
theorem toList_frameOf (n : BitVec 6) (arg : BitVec 32) : (frameOf n arg).toList = encodeFrame n arg := by
  simp only [frameOf, startByte_eq_append, crcStopByte_eq_append]
  rfl

/-- Settles O4: the framer's bytes by definition, the fields of its first and last byte as parts put together. -/
theorem frameShape : Obligations.FrameShape := by
  unfold Obligations.FrameShape
  intro n arg
  obtain ⟨hstart, hindex⟩ := (eq_append_iff (v := 2) (w := 6)).mp (startByte_eq_append n)
  obtain ⟨hcrc, hstop⟩ := (eq_append_iff (v := 7) (w := 1)).mp
    (crcStopByte_eq_append (crc7 ((frameOf n arg).toList.take 5)))
  exact ⟨rfl, hstart, hindex, rfl, rfl, rfl, rfl, hcrc, hstop, toList_frameOf n arg⟩

/-- Settles O7: `decode_hostCode`, and the table entry by entry. -/
theorem hostCodes : Obligations.HostCodes := by
  unfold Obligations.HostCodes
  exact ⟨decode_hostCode, by decide⟩

theorem decodeTableWord_of_eq_encode {nbits w : Nat} {i : Instr} (h : tableCode nbits w = encode i)
    (hwf : i.wellFormed = true) : decodeTableWord nbits w = some i := by
  rw [decodeTableWord, h, decodeEncode i hwf]

theorem decode_of_eq_encode {c : Code} {i : Instr} (h : c = encode i) (hwf : i.wellFormed = true) :
    decode c = .ok i := h ▸ decodeEncode i hwf

/-- Settles O8: each accepted word is the encoding of its instruction, and the decoder runs on each rejected one. -/
theorem wordsDecode : Obligations.WordsDecode := by
  unfold Obligations.WordsDecode
  refine ⟨?cmd0, ?cmd8, ?cmd17, ?cmd17High, ?cmd24, ?cmd41, ?rdblk, ?csdvalid, ?acmd41, ?zcmd, ?rdreg, ?rejected⟩
  case rejected => decide +kernel
  case zcmd | rdreg => exact decode_of_eq_encode (by decide +kernel) (by decide)
  all_goals exact decodeTableWord_of_eq_encode (by decide +kernel) (by decide)

end Sys2Proof
end

