-- ==== Sys2Proof/Proofs/FieldPositions.lean ====
section
/-! PROOFS. The register fields (R104 to R108): a byte, a slice or a bit of an image is a slice or a bit of its 128-bit
word, and the fields that span bytes are neighbouring slices put together. -/

namespace Sys2Proof.Machine

/-! ### Bytes, slices and bits of an image -/

theorem imageByte_eq (img : Image) (k : Nat) (hk : k < 16 := by decide) :
    img[k] = (imageWord img).extractLsb' (8 * (15 - k)) 8 := by
  symm
  unfold imageWord
  rcases Nat.eq_zero_or_pos k with rfl | hpos
  · iterate 15 refine extractLsb'_append_add.trans ?_
    exact BitVec.extractLsb'_eq_self
  · interval_cases k
    all_goals
      repeat refine extractLsb'_append_add.trans ?_
      exact BitVec.extractLsb'_append_eq_right

theorem imageSlice_eq (img : Image) (k r len : Nat) (hk : k < 16 := by decide) (hlen : r + len ≤ 8 := by decide) :
    img[k].extractLsb' r len = (imageWord img).extractLsb' (8 * (15 - k) + r) len := by
  rw [imageByte_eq img k hk, extractLsb'_extractLsb' hlen]

theorem imageBit_eq (img : Image) (k r : Nat) (hk : k < 16 := by decide) (hr : r < 8 := by decide) :
    img[k].getLsbD r = (imageWord img).getLsbD (8 * (15 - k) + r) := by
  simp [imageByte_eq img k hk, hr]

/-! ### Fields that span bytes -/

theorem cidOemId_eq (img : Image) : cidOemId img = (imageWord img).extractLsb' 104 16 := by
  rw [cidOemId, imageByte_eq img 1, imageByte_eq img 2, BitVec.extractLsb'_append_extractLsb'_eq_extractLsb' (by rfl)]

theorem cidProductName_eq (img : Image) : cidProductName img =
    ([96, 88, 80, 72, 64].map fun p => (imageWord img).extractLsb' p 8).takeWhile (· != 0x00#8) := by
  rw [cidProductName, imageByte_eq img 3, imageByte_eq img 4, imageByte_eq img 5, imageByte_eq img 6,
    imageByte_eq img 7]
  rfl

theorem cidSerial_eq (img : Image) : cidSerial img = (imageWord img).extractLsb' 24 32 := by
  rw [cidSerial, imageByte_eq img 9, imageByte_eq img 10, imageByte_eq img 11, imageByte_eq img 12,
    BitVec.extractLsb'_append_extractLsb'_eq_extractLsb' (by rfl),
    BitVec.extractLsb'_append_extractLsb'_eq_extractLsb' (by rfl),
    BitVec.extractLsb'_append_extractLsb'_eq_extractLsb' (by rfl)]

theorem cidYearCode_eq (img : Image) : cidYearCode img = (imageWord img).extractLsb' 12 8 := by
  rw [cidYearCode, imageSlice_eq img 13 0 4, imageSlice_eq img 14 4 4,
    BitVec.extractLsb'_append_extractLsb'_eq_extractLsb' (by rfl)]

theorem csdCcc_eq (img : Image) : csdCcc img = (imageWord img).extractLsb' 84 12 := by
  rw [csdCcc, imageByte_eq img 4, imageSlice_eq img 5 4 4,
    BitVec.extractLsb'_append_extractLsb'_eq_extractLsb' (by rfl)]

theorem csdWriteBlExp_eq (img : Image) : csdWriteBlExp img = (imageWord img).extractLsb' 22 4 := by
  rw [csdWriteBlExp, imageSlice_eq img 12 0 2, imageSlice_eq img 13 6 2,
    BitVec.extractLsb'_append_extractLsb'_eq_extractLsb' (by rfl)]

theorem csdCSizeV1_eq (img : Image) : csdCSizeV1 img = (imageWord img).extractLsb' 62 12 := by
  rw [csdCSizeV1, imageSlice_eq img 6 0 2, imageByte_eq img 7, imageSlice_eq img 8 6 2,
    BitVec.extractLsb'_append_extractLsb'_eq_extractLsb' (by rfl),
    BitVec.extractLsb'_append_extractLsb'_eq_extractLsb' (by rfl)]

theorem csdCSizeMultV1_eq (img : Image) : csdCSizeMultV1 img = (imageWord img).extractLsb' 47 3 := by
  rw [csdCSizeMultV1, imageSlice_eq img 9 0 2, imageSlice_eq img 10 7 1,
    BitVec.extractLsb'_append_extractLsb'_eq_extractLsb' (by rfl)]

theorem csdCSizeV2_eq (img : Image) : csdCSizeV2 img = (imageWord img).extractLsb' 48 22 := by
  rw [csdCSizeV2, imageSlice_eq img 7 0 6, imageByte_eq img 8, imageByte_eq img 9,
    BitVec.extractLsb'_append_extractLsb'_eq_extractLsb' (by rfl),
    BitVec.extractLsb'_append_extractLsb'_eq_extractLsb' (by rfl)]

/-! ### Computed views -/

/-- A 7-bit code plus 1 fits a byte. -/
theorem toNat_setWidth_add_one (x : BitVec 7) : (x.setWidth 8 + 1#8).toNat = x.toNat + 1 := by
  have hx : x.toNat < 2 ^ 7 := x.isLt
  simp
  omega

theorem csdSectorSize_toNat (img : Image) :
    (csdSectorSize img).toNat = ((imageWord img).extractLsb' 39 7).toNat + 1 := by
  rw [csdSectorSize, imageSlice_eq img 10 0 6, imageSlice_eq img 11 7 1,
    BitVec.extractLsb'_append_extractLsb'_eq_extractLsb' (by rfl)]
  exact toNat_setWidth_add_one _

theorem csdWpGrpSize_toNat (img : Image) :
    (csdWpGrpSize img).toNat = ((imageWord img).extractLsb' 32 7).toNat + 1 := by
  rw [csdWpGrpSize, imageSlice_eq img 11 0 7]
  exact toNat_setWidth_add_one _

/-- Settles O58: the fields inside one byte by where that byte stands, the others by their lemmas above. -/
theorem fieldPositions : Obligations.FieldPositions := by
  unfold Obligations.FieldPositions
  intro img
  have hreadExp : csdReadBlExp img = (imageWord img).extractLsb' 80 4 := imageSlice_eq img 5 0 4
  have hformat : img[14].extractLsb' 2 2 = (imageWord img).extractLsb' 10 2 := imageSlice_eq img 14 2 2
  refine ⟨imageByte_eq img 0, cidOemId_eq img, cidProductName_eq img, imageSlice_eq img 8 4 4, imageSlice_eq img 8 0 4,
    cidSerial_eq img, cidYearCode_eq img, imageSlice_eq img 14 0 4, imageSlice_eq img 0 6 2, imageByte_eq img 1,
    imageByte_eq img 2, imageByte_eq img 3, csdCcc_eq img, hreadExp, imageBit_eq img 6 7, imageBit_eq img 6 6,
    imageBit_eq img 6 5, imageBit_eq img 6 4, csdSectorSize_toNat img, csdWpGrpSize_toNat img, imageBit_eq img 12 7,
    csdWriteBlExp_eq img, imageBit_eq img 13 5, imageBit_eq img 14 7, imageBit_eq img 14 6, imageBit_eq img 14 5,
    imageBit_eq img 14 4, csdCSizeV1_eq img, csdCSizeMultV1_eq img, csdCSizeV2_eq img, ?readLen, ?writeLen,
    ?taacUnit, ?rate, ?partitionTable, ?dosFat, ?universal, ?unknown, ?table⟩
  case readLen => rw [csdReadBlLen, hreadExp]
  case writeLen => rw [csdWriteBlLen, csdWriteBlExp_eq]
  case taacUnit => exact congrArg log10Tab (imageSlice_eq img 1 0 3)
  case rate => exact congrArg (fun sel => (log10Tab sel).map (100 * ·)) (imageSlice_eq img 3 0 3)
  case partitionTable | dosFat | universal | unknown =>
    intro hcode
    simp [csdFileFormat, hformat, hcode]
  case table => decide

end Sys2Proof.Machine
end

