-- ==== Sys2Proof/Proofs/ByteTests.lean ====
section
/-! PROOFS. The tests on received bytes (R98 to R103): a mask and a slice of a byte test the same bits. -/

namespace Sys2Proof.Machine

/-- The low nibble of the third R7 byte, as slice and under its mask (R98). -/
theorem lowNibble_eq_one_iff : ∀ b : Byte, b.extractLsb' 0 4 = 0x1#4 ↔ b &&& 0x0F#8 = 0x01#8 := by decide

theorem r7Ok_iff (p : Vector Byte 4) : r7Ok p = true ↔ p[2] &&& 0x0F#8 = 0x01#8 ∧ p[3] = 0xAA#8 := by
  rw [r7Ok, Bool.and_eq_true, beq_iff_eq, beq_iff_eq, lowNibble_eq_one_iff]

theorem ocrHighCapacity_iff : ∀ b : Byte, ocrHighCapacity b = true ↔ b &&& 0xC0#8 = 0xC0#8 := by decide

theorem tokenClass_eq_start_iff (b : Byte) : tokenClass b = .start ↔ b = 0xFE#8 := by
  unfold tokenClass Config.startToken
  split_ifs <;> simp_all

theorem tokenClass_eq_idleLine_iff (b : Byte) : tokenClass b = .idleLine ↔ b = 0xFF#8 := by
  unfold tokenClass Config.startToken Config.idleLine
  split_ifs <;> simp_all

theorem tokenClass_eq_invalid_iff (b : Byte) : tokenClass b = .invalid ↔ b ≠ 0xFE#8 ∧ b ≠ 0xFF#8 := by
  rw [Ne, Ne, ← tokenClass_eq_start_iff, ← tokenClass_eq_idleLine_iff]
  cases tokenClass b <;> decide

theorem writeAccepted_iff : ∀ t : Byte, writeAccepted t = true ↔ t.extractLsb' 0 5 = 0b00101#5 := by decide

theorem notBusy_iff (b : Byte) : notBusy b = true ↔ b = 0xFF#8 := beq_iff_eq

/-- Settles O9: one equivalence for each test. -/
theorem byteTests : Obligations.ByteTests := by
  unfold Obligations.ByteTests
  exact ⟨r7Ok_iff, ocrHighCapacity_iff, tokenClass_eq_start_iff, tokenClass_eq_idleLine_iff, tokenClass_eq_invalid_iff,
    writeAccepted_iff, notBusy_iff⟩

end Sys2Proof.Machine
end

