-- ==== Sys2Proof/Proofs/Checksum.lean ====
section
/-! PROOFS. The checksums (40_checksum.md). Both registers are one shift register, each with its own generator. A shift
is linear in the register and the bit, and a register that takes its own bits, the most significant first, is shifted
out with no feedback: hence the table form, the augmentation and that a single-bit change shows. -/

namespace Sys2Proof.Machine

/-! ### The shift register of both generators -/

section Register

variable {w : Nat} (g : BitVec w)

/-- One shift of the register with generator `g`, written without its leading term (R141, R148). -/
def crcShift (c : BitVec w) (bit : Bool) : BitVec w :=
  if c.msb ^^ bit then (c <<< 1) ^^^ g else c <<< 1

/-- One byte through the register with generator `g`. -/
def crcByte (c : BitVec w) (b : Byte) : BitVec w := (msbFirst b).foldl (crcShift g) c

theorem crc7Byte_eq_crcByte : crc7Byte = crcByte 0x09#7 := rfl

theorem crc16Update_eq_crcByte : crc16Update = crcByte 0x1021#16 := rfl

/-- The feedback of a shift is added or not. -/
theorem crcShift_eq (c : BitVec w) (bit : Bool) :
    crcShift g c bit = (c <<< 1) ^^^ (if c.msb ^^ bit then g else 0#w) := by
  unfold crcShift
  split_ifs
  · rfl
  · exact BitVec.xor_zero.symm

theorem feedback_xor (p q : Bool) :
    (if p ^^ q then g else 0#w) = (if p then g else 0#w) ^^^ (if q then g else 0#w) := by
  cases p <;> cases q <;> simp

theorem crcShift_xor (c d : BitVec w) (a b : Bool) :
    crcShift g (c ^^^ d) (a ^^ b) = crcShift g c a ^^^ crcShift g d b := by
  have hbit : ((c ^^^ d).msb ^^ (a ^^ b)) = ((c.msb ^^ a) ^^ (d.msb ^^ b)) := by
    rw [BitVec.msb_xor, Bool.xor_assoc, Bool.xor_assoc, Bool.xor_left_comm d.msb]
  rw [crcShift_eq, crcShift_eq, crcShift_eq, hbit, feedback_xor, BitVec.shiftLeft_xor_distrib]
  ac_rfl

theorem crcByte_xor (c d : BitVec w) (a b : Byte) :
    crcByte g (c ^^^ d) (a ^^^ b) = crcByte g c a ^^^ crcByte g d b := by
  simp [crcByte, msbFirst, ← crcShift_xor]

theorem crcByte_zero : crcByte g 0#w 0#8 = 0#w := by
  simpa using crcByte_xor g 0#w 0#w 0#8 0#8

/-- A run of zero bytes leaves the cleared register cleared. -/
theorem foldl_crcByte_replicate_zero (n : Nat) : (List.replicate n 0#8).foldl (crcByte g) 0#w = 0#w := by
  induction n with
  | zero => rfl
  | succ n ih => rw [List.replicate_succ, List.foldl_cons, crcByte_zero, ih]

theorem crcShift_msb (c : BitVec w) : crcShift g c c.msb = c <<< 1 := by
  simp [crcShift]

/-- A register that takes its own top bits is only shifted. -/
theorem foldl_crcShift_getMsbD (c : BitVec w) (n : Nat) :
    ((List.range n).map c.getMsbD).foldl (crcShift g) c = c <<< n := by
  induction n with
  | zero => simp
  | succ n ih =>
    have hmsb : c.getMsbD n = (c <<< n).msb := by rw [BitVec.msb_shiftLeft]
    simp only [List.range_succ, List.map_append, List.foldl_append, ih]
    rw [List.map_singleton, List.foldl_cons, List.foldl_nil, hmsb, crcShift_msb, BitVec.shiftLeft_add]

/-- A register that takes all its own bits is cleared. -/
theorem foldl_crcShift_own (c : BitVec w) {n : Nat} (h : w ≤ n) :
    ((List.range n).map c.getMsbD).foldl (crcShift g) c = 0#w := by
  rw [foldl_crcShift_getMsbD, BitVec.shiftLeft_eq_zero h]

end Register

/-! ### CRC7 by bytes and by table -/

theorem msbFirst_append_zero : ∀ c : BitVec 7, msbFirst (c ++ 0#1) = (List.range 8).map c.getMsbD := by decide

/-- The augmentation byte clears the register (R143). -/
theorem crc7Byte_append_zero (c : BitVec 7) : crc7Byte c (c ++ 0#1) = 0#7 := by
  rw [crc7Byte_eq_crcByte, crcByte, msbFirst_append_zero, foldl_crcShift_own _ _ (by decide)]

/-- The register enters a byte step only through its sum with the byte (R142). -/
theorem crc7Byte_eq_of_zero (c : BitVec 7) (b : Byte) : crc7Byte c b = crc7Byte 0#7 ((c ++ 0#1) ^^^ b) := by
  calc crc7Byte c b
    _ = crc7Byte (c ^^^ 0#7) ((c ++ 0#1) ^^^ ((c ++ 0#1) ^^^ b)) := by
      rw [BitVec.xor_zero, ← BitVec.xor_assoc, BitVec.xor_self, BitVec.zero_xor]
    _ = crc7Byte c (c ++ 0#1) ^^^ crc7Byte 0#7 ((c ++ 0#1) ^^^ b) := crcByte_xor _ _ _ _ _
    _ = crc7Byte 0#7 ((c ++ 0#1) ^^^ b) := by rw [crc7Byte_append_zero, BitVec.zero_xor]

theorem crc7T_eq_crc7Byte : ∀ i : Byte, crc7T i = crc7Byte 0#7 i := by decide +kernel

theorem shiftLeft_one_eq_append : ∀ c : BitVec 7, (c.setWidth 8) <<< 1 = c ++ 0#1 := by decide

theorem crc7TableByte_eq_crc7Byte : crc7TableByte = crc7Byte := by
  funext c b
  rw [crc7TableByte, crc7T_eq_crc7Byte, shiftLeft_one_eq_append, crc7Byte_eq_of_zero c]

/-- Settles O1: the two forms take the same byte steps. -/
theorem crc7TableAgrees : Obligations.Crc7TableAgrees := by
  unfold Obligations.Crc7TableAgrees
  refine ⟨crc7T_eq_crc7Byte, fun bytes => ?_⟩
  rw [crc7ByTable, crc7TableByte_eq_crc7Byte, crc7]

/-! ### CRC7: what a change of the message changes -/

theorem crc7_append (m bytes : List Byte) : crc7 (m ++ bytes) = bytes.foldl crc7Byte (crc7 m) := List.foldl_append

theorem crc7_zeros (n : Nat) : crc7 (List.replicate n 0x00#8) = 0#7 := foldl_crcByte_replicate_zero _ n

theorem crc7_zeros_append (n : Nat) (m : List Byte) : crc7 (List.replicate n 0x00#8 ++ m) = crc7 m := by
  rw [crc7_append, crc7_zeros, crc7]

theorem crc7_append_crc7 (m : List Byte) : crc7 (m ++ [crc7 m ++ 0#1]) = 0#7 := by
  rw [crc7_append, List.foldl_cons, crc7Byte_append_zero, List.foldl_nil]

/-- The generator has a constant term: no register but the cleared one is shifted to zero. -/
theorem eq_zero_of_crc7Byte_zero : ∀ c : BitVec 7, crc7Byte c 0#8 = 0#7 → c = 0#7 := by decide +kernel

theorem crc7Byte_left_injective (b : Byte) : Function.Injective (crc7Byte · b) := by
  intro c d (h : crc7Byte c b = crc7Byte d b)
  have hsum : crc7Byte (c ^^^ d) 0#8 = 0#7 := by
    rw [← BitVec.xor_self (x := b), crc7Byte_eq_crcByte, crcByte_xor, ← crc7Byte_eq_crcByte, h, BitVec.xor_self]
  exact BitVec.xor_eq_zero_iff.mp (eq_zero_of_crc7Byte_zero _ hsum)

/-- Different registers stay different through the same bytes. -/
theorem foldl_crc7Byte_injective (bytes : List Byte) : Function.Injective (bytes.foldl crc7Byte) := by
  induction bytes with
  | nil => exact Function.injective_id
  | cons b bytes ih => exact ih.comp (crc7Byte_left_injective b)

theorem crc7Byte_oneBit_ne_zero : ∀ k < 8, crc7Byte 0#7 (1#8 <<< k) ≠ 0#7 := by decide

/-- A changed bit changes the register after its byte. -/
theorem crc7Byte_flip_ne (c : BitVec 7) (b : Byte) {k : Nat} (hk : k < 8) :
    crc7Byte c (b ^^^ (1#8 <<< k)) ≠ crc7Byte c b := by
  have hsum : crc7Byte c (b ^^^ (1#8 <<< k)) = crc7Byte c b ^^^ crc7Byte 0#7 (1#8 <<< k) := by
    rw [crc7Byte_eq_crcByte, ← crcByte_xor, BitVec.xor_zero]
  intro h
  rw [hsum] at h
  exact crc7Byte_oneBit_ne_zero k hk (by simpa using h)

theorem crc7_flip_ne (before after : List Byte) (b : Byte) {k : Nat} (hk : k < 8) :
    crc7 (before ++ (b ^^^ (1#8 <<< k)) :: after) ≠ crc7 (before ++ b :: after) := by
  rw [crc7_append, crc7_append, List.foldl_cons, List.foldl_cons]
  exact (foldl_crc7Byte_injective after).ne (crc7Byte_flip_ne _ b hk)

/-- Settles O2: the printed values by evaluation, the augmentation because the byte is the register's own bits, the
change of one bit because it changes the register and the bytes after it keep registers apart. -/
theorem crc7Corners : Obligations.Crc7Corners := by
  unfold Obligations.Crc7Corners
  exact ⟨rfl, crc7_zeros, crc7_zeros_append, by decide, by decide, by decide, by decide +kernel, crc7_append_crc7,
    fun before after b _ hk => crc7_flip_ne before after b hk⟩

/-! ### CRC16 -/

theorem crc16_append (m bytes : List Byte) : crc16 (m ++ bytes) = bytes.foldl crc16Update (crc16 m) :=
  List.foldl_append

theorem crc16_zeros (n : Nat) : crc16 (List.replicate n 0x00#8) = 0#16 := foldl_crcByte_replicate_zero _ n

theorem msbFirst_bytes (c : BitVec 16) :
    msbFirst (c.extractLsb' 8 8) ++ msbFirst (c.extractLsb' 0 8) = (List.range 16).map c.getMsbD := by
  simp [msbFirst, List.range_succ, BitVec.getMsbD_eq_getLsbD]

/-- The two bytes of the register, the high one first, clear it (R149). -/
theorem crc16Update_bytes (c : BitVec 16) :
    crc16Update (crc16Update c (c.extractLsb' 8 8)) (c.extractLsb' 0 8) = 0#16 := by
  simp only [crc16Update_eq_crcByte, crcByte]
  rw [← List.foldl_append, msbFirst_bytes, foldl_crcShift_own _ _ le_rfl]

theorem crc16_append_crc16 (m : List Byte) :
    crc16 (m ++ [(crc16 m).extractLsb' 8 8, (crc16 m).extractLsb' 0 8]) = 0#16 := by
  rw [crc16_append, List.foldl_cons, List.foldl_cons, List.foldl_nil, crc16Update_bytes]

/-- A fold that looks at its accumulator before each step: the kernel evaluates it step by step, where it leaves the
accumulator of `List.foldl` unevaluated and nests one step in the other. -/
def foldEager {w : Nat} {β : Type} (f : BitVec w → β → BitVec w) (c : BitVec w) : List β → BitVec w
  | [] => c
  | b :: bs =>
    match (f c b).toNat with
    | 0 => foldEager f 0#w bs
    | n + 1 => foldEager f (BitVec.ofNat w (n + 1)) bs

theorem foldl_eq_foldEager {w : Nat} {β : Type} (f : BitVec w → β → BitVec w) (c : BitVec w) (bs : List β) :
    bs.foldl f c = foldEager f c bs := by
  induction bs generalizing c with
  | nil => rfl
  | cons b bs ih =>
    rw [List.foldl_cons, ih, foldEager]
    split
    · next h => rw [BitVec.eq_of_toNat_eq (y := 0#w) h]
    · next h => rw [← Nat.succ_eq_add_one, ← h, BitVec.ofNat_toNat, BitVec.setWidth_eq]

theorem crc16_ones_block : crc16 (List.replicate 512 0xFF#8) = 0x7FA1#16 := by
  rw [crc16, foldl_eq_foldEager]
  decide +kernel

theorem crc16_counting_block : crc16 ((List.range 512).map fun i => BitVec.ofNat 8 (i % 256)) = 0x40DA#16 := by
  rw [crc16, foldl_eq_foldEager]
  decide +kernel

/-- Settles O3: the printed values by evaluation, the augmentation because the two bytes are the register's own. -/
theorem crc16Corners : Obligations.Crc16Corners := by
  unfold Obligations.Crc16Corners
  exact ⟨rfl, crc16_zeros, by decide, by decide, by decide, by decide +kernel, crc16_ones_block, crc16_counting_block,
    crc16_append_crc16⟩

end Sys2Proof.Machine
end

