-- ==== Sys2Proof/Proofs/ClockMonotone.lean ====
section
/-! PROOFS. The clock never runs backwards (R160): each sample is no earlier than the last one, and of all the machine
does only a reading of the clock shows a sample or moves it. -/

namespace Sys2Proof.Machine

/-- A relation that steps over every change outside the inputs and the history is kept by the machine as soon as an
exchange, a reading of the clock and a change of chip-select keep it. -/
theorem MachineKeeps.of_observed {R : State → State → Prop} (trans : ∀ {s t u}, R s t → R t u → R s u)
    (unobserved : ∀ {s t : State}, t.trace = s.trace → t.env = s.env → R s t)
    (afterXchg : ∀ s b, R s (s.afterXchg b)) (afterSample : ∀ s : State, R s s.afterSample)
    (withCs : ∀ s a, R s (s.withCs a)) : MachineKeeps R where
  refl _ := unobserved rfl rfl
  trans := trans
  afterXchg := afterXchg
  afterSample := afterSample
  withCs := withCs
  exit s _ := trans (withCs s false) (unobserved rfl rfl)
  dl1 _ _ := unobserved rfl rfl
  cfsm _ _ := unobserved rfl rfl
  endCommand _ _ _ := unobserved rfl rfl
  frame _ _ := unobserved rfl rfl
  start _ _ _ := unobserved rfl rfl
  fsm _ _ := unobserved rfl rfl
  dl0 _ _ := unobserved rfl rfl
  kind _ _ := unobserved rfl rfl
  r7 _ _ _ := unobserved rfl rfl
  ocr0 _ _ := unobserved rfl rfl
  scratch _ _ _ _ := unobserved rfl rfl
  cid _ _ := unobserved rfl rfl
  csd _ _ := unobserved rfl rfl
  count _ _ := unobserved rfl rfl
  enter _ := unobserved rfl rfl
  buf _ _ _ _ := unobserved rfl rfl
  crcs _ _ _ := unobserved rfl rfl
  dresp _ _ := unobserved rfl rfl
  ok _ := unobserved rfl rfl
  data _ _ := unobserved rfl rfl
  port _ := unobserved rfl rfl
  take _ _ _ := unobserved rfl rfl

/-- The last sample moved forward only, and the new samples of the history lie in order on its way: the relation of
`Obligations.ClockMonotone`. -/
def ClockAdvances (s t : State) : Prop :=
  s.env.lastClk.toNat ≤ t.env.lastClk.toNat ∧
    ∃ new : List Event, t.trace = new ++ s.trace ∧ (samples new).Pairwise (fun later earlier => earlier ≤ later) ∧
      ∀ x ∈ samples new, s.env.lastClk.toNat ≤ x ∧ x ≤ t.env.lastClk.toNat

namespace ClockAdvances

/-- New events that hold no sample, and a clock that was not read. -/
theorem of_no_sample {s t : State} {new : List Event} (htrace : t.trace = new ++ s.trace) (hnew : samples new = [])
    (henv : t.env.lastClk = s.env.lastClk) : ClockAdvances s t := by
  refine ⟨by rw [henv], new, htrace, ?_⟩
  rw [hnew]
  exact ⟨.nil, fun _ hx => absurd hx List.not_mem_nil⟩

/-- Samples of the second part are no earlier than the clock between the parts, those of the first no later. -/
theorem trans {s t u : State} (h : ClockAdvances s t) (h' : ClockAdvances t u) : ClockAdvances s u := by
  obtain ⟨hle, new, htrace, hordered, hbetween⟩ := h
  obtain ⟨hle', new', htrace', hordered', hbetween'⟩ := h'
  refine ⟨hle.trans hle', new' ++ new, by rw [htrace', htrace, List.append_assoc], ?_⟩
  rw [samples_append]
  refine ⟨List.pairwise_append.mpr ⟨hordered', hordered, fun later hl earlier he =>
    (hbetween earlier he).2.trans (hbetween' later hl).1⟩, fun x hx => ?_⟩
  rcases List.mem_append.mp hx with hm | hm
  · exact ⟨hle.trans (hbetween' x hm).1, (hbetween' x hm).2⟩
  · exact ⟨(hbetween x hm).1, (hbetween x hm).2.trans hle'⟩

theorem withCs (s : State) (a : Bool) : ClockAdvances s (s.withCs a) := by
  have henv : (s.withCs a).env.lastClk = s.env.lastClk := by rw [withCs_env]
  by_cases h : s.wrk.csActive = a
  · exact of_no_sample (new := []) (by rw [withCs_trace, if_pos h]; rfl) rfl henv
  · exact of_no_sample (new := [.cs a]) (by rw [withCs_trace, if_neg h]; rfl) rfl henv

/-- The one place the clock is read: the sample is the new last one (R160). -/
theorem afterSample (s : State) : ClockAdvances s s.afterSample := by
  have hge := nextSample_ge s
  refine ⟨hge, [.sample s.nextSample], rfl, List.pairwise_singleton _ _, fun x hx => ?_⟩
  obtain rfl : x = s.nextSample.toNat := List.mem_singleton.mp hx
  exact ⟨hge, le_rfl⟩

theorem machineKeeps : MachineKeeps ClockAdvances :=
  .of_observed trans (fun htrace henv => of_no_sample (new := []) htrace rfl (by rw [henv]))
    (fun s b => of_no_sample (new := [.xchg b s.nextAnswer]) rfl rfl rfl) afterSample withCs

end ClockAdvances

/-- Settles O55: every update of the machine advances the clock, if it moves it. -/
theorem clockMonotone : Obligations.ClockMonotone := by
  unfold Obligations.ClockMonotone
  intro s t h
  exact step_keeps ClockAdvances.machineKeeps h

end Sys2Proof.Machine
end

