-- ==== Sys2Proof/Proofs/NoHang.lean ====
section
/-! PROOFS. No operation hangs (R163, R112). A wait reads the clock once a round, and its deadline comes nearer with
each reading, so it ends before its bound does (`waitLeft`); an access to a buffer stays inside it. So every procedure
stops for an error of the spec or at the wrap of the clock only (`Ends.Sure`), and a step answers accordingly. -/

namespace Sys2Proof.Machine

variable {α β : Type}

/-! ### Procedures that are sure to end -/

/-- A step of a procedure, then the rest of it: `sure_bind` under a name that chains. -/
theorem Ends.Sure.step {p : Proc α} {f : α → Proc β} (hp : Ends.Sure p) (hf : ∀ a, Ends.Sure (f a)) :
    Ends.Sure (p >>= f) := sure_bind hp hf

theorem sure_ite {c : Prop} [Decidable c] {p q : Proc α} (hp : Ends.Sure p) (hq : Ends.Sure q) :
    Ends.Sure (if c then p else q) := by
  split
  · exact hp
  · exact hq

theorem sure_cs (a : Bool) : Ends.Sure (cs a) := sure_upd _

theorem sure_goFsm (x : Fsm) : Ends.Sure (goFsm x) := sure_upd _

theorem sure_goCfsm (x : Cfsm) : Ends.Sure (goCfsm x) := sure_upd _

theorem sure_endCommand (b : Byte) (t : Bool) : Ends.Sure (endCommand b t) := sure_upd _

theorem sure_setKind (k : CardKind) : Ends.Sure (setKind k) := sure_upd _

theorem sure_finish : Ends.Sure finish := sure_upd _

theorem sure_discard (n : Nat) : Ends.Sure (discard n) := sure_sendAll _

/-- A check that fails after the card was deselected. -/
theorem sure_deselectRaise (e : Err) : Ends.Sure (do cs false; raise e : Proc α) :=
  (sure_cs false).step fun _ => sure_raise e

/-- An access inside a buffer. -/
theorem sure_access {c : Prop} [Decidable c] (hc : c) {v : State → α} {g : State → State} {f : Fault} :
    Ends.Sure (fun s => if c then .ok (v s) (g s) else .error (.fault f) s : Proc α) := by
  intro s t r h
  cases (if_pos hc).symm.trans h

theorem sure_bufRead {i : Nat} (hi : i < Config.blockLen) : Ends.Sure (bufRead i) := sure_access hi

theorem sure_bufWrite {i : Nat} (hi : i < Config.blockLen) (v : Byte) : Ends.Sure (bufWrite i v) := sure_access hi

theorem sure_scratchWrite {i : Nat} (hi : i < Config.blockLen) (v : Byte) : Ends.Sure (scratchWrite i v) :=
  sure_access hi

/-! ### Rounds of a wait -/

/-- The clock can be read fewer than `n` times more before it reaches the deadline in register `dl`. -/
def State.Left (dl : Working → Clock) (n : Nat) (s : State) : Prop := waitLeft (dl s.wrk) s.env < n

/-- A stop for an error of the spec or at the wrap of the clock, in whatever state. -/
abbrev OpenStop : Stop → State → Prop := fun r _ => r.open

/-- From a state with fewer than `n` readings left the procedure is sure to end. -/
abbrev EndsWithin {α : Type} (dl : Working → Clock) (n : Nat) (p : Proc α) : Prop :=
  Ends (State.Left dl n) p (fun _ _ => True) OpenStop

/-- The procedure brings the deadline no further away, and is sure to end. -/
abbrev Leaves {α : Type} (dl : Working → Clock) (n : Nat) (p : Proc α) : Prop :=
  Ends (State.Left dl n) p (fun _ => State.Left dl n) OpenStop

variable {dl : Working → Clock} {n : Nat}

/-- With no reading of the clock left there is no such state: the bound of a wait is never used up. -/
theorem endsWithin_zero (p : Proc α) : EndsWithin dl 0 p where
  ok h := absurd h (Nat.not_lt_zero _)
  err h := absurd h (Nat.not_lt_zero _)

theorem Ends.Sure.ends {P : State → Prop} {p : Proc α} (hp : Ends.Sure p) :
    Ends P p (fun _ _ => True) OpenStop where
  ok _ _ := trivial
  err _ h := hp _ _ _ h

/-- What is left of a wait passes through a procedure that leaves its deadline alone. -/
theorem Ends.Sure.leaves {p : Proc α} (hp : Ends.Sure p) {R : State → State → Prop} (hR : Always R p)
    (hleft : ∀ {s t}, R s t → s.Left dl n → t.Left dl n) : Leaves dl n p where
  ok hs h := hleft (hR.ok h) hs
  err _ h := hp _ _ _ h

/-- An exchange does not touch the clock. -/
theorem leaves_xchg (b : Byte) : Leaves dl n (xchg b) :=
  ends_xchg (fun _ _ hs _ => hs) fun _ _ _ _ => trivial

/-- A loop, then the rest of the operation. -/
theorem EndsWithin.step {p : Proc α} {f : α → Proc β} (hp : EndsWithin dl n p) (hf : ∀ a, Ends.Sure (f a)) :
    EndsWithin dl n (p >>= f) := ends_bind hp fun a => (hf a).ends

/-- A deadline that is loaded is as far away as the wait is long (R161). -/
theorem ends_deadline (T : Nat) :
    Ends (fun _ => True) (deadline T) (fun d t => d.toNat = t.env.lastClk.toNat + T) OpenStop where
  ok {s t d} _ h := by
    rw [deadline, run_bind_ok (run_now s)] at h
    split at h <;> cases h
    exact Nat.mod_eq_of_lt ‹_›
  err _ h := sure_deadline T _ _ _ h

/-- The load of a deadline leaves fewer rounds than the bound of the wait (R163; log 22). -/
abbrev Loads (dl : Working → Clock) (T : Nat) (load : Proc Unit) : Prop :=
  Ends (fun _ => True) load (fun _ s => s.Left dl (s.env.waitBound T)) OpenStop

theorem loads_dl0 (T : Nat) : Loads Working.dl0 T (loadDl0 T) :=
  (ends_deadline T).step fun _ => ends_upd fun _ hd => waitLeft_loaded hd

theorem loads_dl1 (T : Nat) : Loads Working.dl1 T (loadDl1 T) :=
  (ends_deadline T).step fun _ => ends_upd fun _ hd => waitLeft_loaded hd

/-- A wait: the deadline is loaded, then the loop runs on the bound the clock gives it. -/
theorem sure_wait {T : Nat} {load : Proc Unit} (hload : Loads dl T load) {loop : State → Proc α}
    (hloop : ∀ s, EndsWithin dl (s.env.waitBound T) (loop s)) : Ends.Sure (do load; let s ← rd; loop s) := by
  have hwait : Ends (fun _ => True) (do load; let s ← rd; loop s) (fun _ _ => True) OpenStop :=
    hload.step fun _ => ends_rd.step fun s =>
      ends_weaken (hloop s) (fun _ ⟨ht, hs⟩ => hs ▸ ht) (fun _ _ h => h) fun _ _ h => h
  exact fun _ _ _ h => hwait.err trivial h

/-- A test of a deadline that has not passed leaves one round less. -/
abbrev Tests (dl : Working → Clock) (expired : Proc Bool) : Prop :=
  ∀ n, Ends (State.Left dl (n + 1)) expired (fun e t => ¬e → t.Left dl n) OpenStop

/-- The sample of the test was before the deadline, so it brought the deadline nearer. -/
theorem left_afterSample {s : State} (hs : s.Left dl (n + 1)) (h : ¬decide ((dl s.wrk).toNat ≤ s.nextSample.toNat)) :
    s.afterSample.Left dl n := by
  have hearly : s.nextSample.toNat < (dl s.wrk).toNat := Nat.lt_of_not_le fun hle => h (decide_eq_true hle)
  exact lt_of_lt_of_le (waitLeft_sample hearly) (Nat.le_of_lt_succ hs)

theorem tests_dl0 : Tests Working.dl0 expiredDl0 := fun _ =>
  { ok := fun hs h => by cases h; exact left_afterSample hs
    err := fun _ h => sure_expiredDl0 _ _ _ h }

theorem tests_dl1 : Tests Working.dl1 expiredDl1 := fun _ =>
  { ok := fun hs h => by cases h; exact left_afterSample hs
    err := fun _ h => sure_expiredDl1 _ _ _ h }

/-- The end of a round: the deadline is tested, and a round later there is one less (R162, R163). -/
theorem endsWithin_retry {expired : Proc Bool} (hexpired : Tests dl expired) {late again : Proc α}
    (hlate : Ends.Sure late) (hagain : EndsWithin dl n again) :
    EndsWithin dl (n + 1) (do let e ← expired; if e then late else again) :=
  (hexpired n).step fun _ => ends_ite (fun _ => hlate.ends) fun he =>
    ends_weaken hagain (fun _ hs => hs he) (fun _ _ h => h) fun _ _ h => h

/-! ### The waits -/

theorem endsWithin_busyLoop : ∀ n, EndsWithin Working.dl1 n (busyLoop n)
  | 0 => endsWithin_zero _
  | n + 1 => (leaves_xchg _).step fun _ => ends_ite (fun _ => (sure_pure _).ends) fun _ =>
      endsWithin_retry tests_dl1 (sure_pure _) (endsWithin_busyLoop n)

theorem sure_waitNotBusy (T : Nat) : Ends.Sure (waitNotBusy T) :=
  sure_wait (loads_dl1 T) fun _ => endsWithin_busyLoop _

theorem endsWithin_tokenLoop : ∀ n, EndsWithin Working.dl1 n (tokenLoop n)
  | 0 => endsWithin_zero _
  | n + 1 => by
    refine (leaves_xchg _).step fun b => ?_
    cases tokenClass b with
    | start => exact (sure_pure _).ends
    | invalid => exact (sure_deselectRaise _).ends
    | idleLine => exact endsWithin_retry tests_dl1 (sure_deselectRaise _) (endsWithin_tokenLoop n)

theorem sure_waitStartToken : Ends.Sure waitStartToken :=
  sure_wait (loads_dl1 _) fun _ => endsWithin_tokenLoop _

/-! ### The command engine -/

theorem sure_pollResponse : ∀ n, Ends.Sure (pollResponse n)
  | 0 => sure_pure _
  | n + 1 => (sure_xchg _).step fun _ => sure_ite (sure_pollResponse n) (sure_pure _)

theorem sure_busyPhase (index : BitVec 6) : Ends.Sure (busyPhase index) :=
  sure_ite (sure_pure _) <| (sure_goCfsm _).step fun _ => (sure_waitNotBusy _).step fun _ => sure_pure _

theorem sure_framePhase (index : BitVec 6) (arg : BitVec 32) : Ends.Sure (framePhase index arg) :=
  (sure_goCfsm _).step fun _ => (sure_upd _ : Ends.Sure (setFrame _)).step fun _ => sure_sendAll _

theorem sure_stuffPhase (index : BitVec 6) : Ends.Sure (stuffPhase index) :=
  sure_ite ((sure_goCfsm _).step fun _ => sure_discard 1) (sure_pure _)

theorem sure_sendCommand (index : BitVec 6) (arg : BitVec 32) : Ends.Sure (sendCommand index arg) :=
  (sure_goCfsm _).step fun _ => (sure_cs true).step fun _ => (sure_busyPhase index).step fun _ =>
    (sure_framePhase index arg).step fun _ => sure_stuffPhase index

theorem sure_finishCommand : ∀ r, Ends.Sure (finishCommand r)
  | some b => (sure_endCommand b false).step fun _ => sure_pure _
  | none => (sure_goCfsm _).step fun _ => (sure_cs false).step fun _ => (sure_discard 1).step fun _ =>
      (sure_endCommand _ true).step fun _ => sure_pure _

/-- The poll makes a fixed number of exchanges (R186). -/
theorem sure_issueCommand (index : BitVec 6) (arg : BitVec 32) : Ends.Sure (issueCommand index arg) :=
  (sure_sendCommand index arg).step fun _ => (sure_goCfsm _).step fun _ => sure_rd.step fun _ =>
    (sure_pollResponse _).step fun r => sure_finishCommand r

theorem sure_issueAppCommand (index : BitVec 6) (arg : BitVec 32) : Ends.Sure (issueAppCommand index arg) :=
  (sure_issueCommand _ _).step fun _ => sure_ite (sure_pure _) (sure_issueCommand index arg)

theorem sure_ensureZeroStatus (index : BitVec 6) (arg : BitVec 32) : Ends.Sure (ensureZeroStatus index arg) := by
  refine (sure_issueCommand index arg).step fun r => ?_
  cases classify r.status r.rto with
  | timeout => exact sure_raise _
  | clear => exact sure_pure _
  | idleOnly => exact sure_raise _
  | flagged => exact sure_raise _

theorem sure_receiveR7 (i : Fin 4) : Ends.Sure (receiveR7 i) := (sure_xchg _).step fun _ => sure_upd _

theorem sure_classifyPayload : Ends.Sure classifyPayload :=
  (sure_receiveR7 0).step fun _ => (sure_receiveR7 1).step fun _ => (sure_receiveR7 2).step fun _ =>
    (sure_receiveR7 3).step fun _ => sure_rd.step fun _ => sure_ite (sure_setKind _) (sure_raise _)

theorem sure_interfaceCondition (arg : BitVec 32) : Ends.Sure (interfaceCondition arg) :=
  (sure_issueCommand _ _).step fun _ => sure_ite (sure_raise _) <|
    sure_ite ((sure_setKind _).step fun _ => sure_raise _) sure_classifyPayload

theorem sure_readOcr (arg : BitVec 32) : Ends.Sure (readOcr arg) :=
  (sure_ensureZeroStatus _ _).step fun _ => (sure_xchg _).step fun b =>
    (sure_upd _ : Ends.Sure (setOcr0 b)).step fun _ =>
      (sure_ite (sure_setKind _) (sure_pure _) : Ends.Sure (reclassify b)).step fun _ => sure_discard 3

/-! ### The data phases: every access lies inside its buffer (R13, R67) -/

theorem sure_receiveScratch : ∀ k i, i + k ≤ Config.blockLen → Ends.Sure (receiveScratch k i)
  | 0, _, _ => sure_pure _
  | k + 1, i, hi => (sure_xchg _).step fun b => (sure_scratchWrite (by omega) b).step fun _ =>
      sure_receiveScratch k (i + 1) (by omega)

theorem sure_readRegister (n : BitVec 6) (arg : BitVec 32) : Ends.Sure (readRegister n arg) :=
  (sure_ensureZeroStatus n arg).step fun _ => sure_waitStartToken.step fun _ =>
    (sure_receiveScratch _ _ (by decide)).step fun _ => (sure_discard 2).step fun _ => (sure_cs false).step fun _ =>
      sure_rd.step fun _ => sure_pure _

theorem sure_receiveBlock : ∀ k i c, i + k ≤ Config.blockLen → Ends.Sure (receiveBlock k i c)
  | 0, _, _, _ => sure_pure _
  | k + 1, i, c, hi => (sure_xchg _).step fun b => (sure_bufWrite (by omega) b).step fun _ =>
      sure_receiveBlock k (i + 1) (crc16Update c b) (by omega)

theorem sure_recordCrc (c : BitVec 16) : Ends.Sure (recordCrc c) :=
  (sure_xchg _).step fun h => (sure_xchg _).step fun l =>
    (sure_upd _ : Ends.Sure (setCrcs (h ++ l) c)).step fun _ => sure_cs false

theorem sure_sendBlock : ∀ k i, i + k ≤ Config.blockLen → Ends.Sure (sendBlock k i)
  | 0, _, _ => sure_pure _
  | k + 1, i, hi => (sure_bufRead (by omega)).step fun v => (sure_xchg v).step fun _ =>
      sure_sendBlock k (i + 1) (by omega)

theorem sure_writeResponse : Ends.Sure writeResponse :=
  (sure_xchg _).step fun t => (sure_upd _ : Ends.Sure (setDresp t)).step fun _ =>
    sure_ite (sure_pure _) (sure_deselectRaise _)

theorem sure_writeBusy : Ends.Sure writeBusy := by
  refine (sure_waitNotBusy _).step fun r => (sure_cs false).step fun _ => ?_
  cases r with
  | ready => exact sure_pure _
  | expired => exact sure_raise _

/-! ### RDBLK -/

theorem sure_fromRCrc (c : BitVec 16) : Ends.Sure (fromRCrc c) := (sure_recordCrc c).step fun _ => sure_finish

theorem sure_fromRData : Ends.Sure fromRData :=
  (sure_receiveBlock _ _ _ (Nat.zero_add _).le).step fun c => (sure_goFsm _).step fun _ => sure_fromRCrc c

theorem sure_fromRToken : Ends.Sure fromRToken :=
  sure_waitStartToken.step fun _ => (sure_goFsm _).step fun _ => sure_fromRData

theorem sure_fromRCmd : Ends.Sure fromRCmd := by
  refine sure_rd.step fun s => ?_
  cases translate s.ses.kind s.req.index with
  | none => exact sure_raise _
  | some a => exact (sure_ensureZeroStatus _ a).step fun _ => (sure_goFsm _).step fun _ => sure_fromRToken

theorem sure_fromRCheck : Ends.Sure fromRCheck := by
  refine sure_rd.step fun s => ?_
  cases checkRequest s.ses s.req with
  | error e => exact sure_raise _
  | ok a => exact (sure_goFsm _).step fun _ => sure_fromRCmd

/-! ### WRBLK -/

theorem sure_fromWBusy : Ends.Sure fromWBusy := sure_writeBusy.step fun _ => sure_finish

theorem sure_fromWResp : Ends.Sure fromWResp :=
  sure_writeResponse.step fun _ => (sure_goFsm _).step fun _ => sure_fromWBusy

theorem sure_fromWCrc : Ends.Sure fromWCrc :=
  (sure_sendAll _).step fun _ => (sure_goFsm _).step fun _ => sure_fromWResp

theorem sure_fromWData : Ends.Sure fromWData :=
  (sure_sendBlock _ _ (Nat.zero_add _).le).step fun _ => (sure_goFsm _).step fun _ => sure_fromWCrc

theorem sure_fromWToken : Ends.Sure fromWToken :=
  (sure_sendAll _).step fun _ => (sure_goFsm _).step fun _ => sure_fromWData

theorem sure_fromWCmd : Ends.Sure fromWCmd := by
  refine sure_rd.step fun s => ?_
  cases translate s.ses.kind s.req.index with
  | none => exact sure_raise _
  | some a => exact (sure_ensureZeroStatus _ a).step fun _ => (sure_goFsm _).step fun _ => sure_fromWToken

theorem sure_fromWCheck : Ends.Sure fromWCheck := by
  refine sure_rd.step fun s => ?_
  cases checkRequest s.ses s.req with
  | error e => exact sure_raise _
  | ok a => exact (sure_goFsm _).step fun _ => sure_fromWCmd

/-! ### INIT -/

theorem sure_fromICommit : Ends.Sure fromICommit := by
  refine sure_rd.step fun s => ?_
  cases csdBlockCount s.ses.csd with
  | none => exact sure_raise _
  | some n =>
    exact sure_ite (sure_raise _) <| sure_ite (sure_raise _) <|
      (sure_upd _ : Ends.Sure (setBlockCount n)).step fun _ => (sure_cs false).step fun _ => sure_finish

theorem sure_fromICsd : Ends.Sure fromICsd :=
  (sure_readRegister _ _).step fun img => (sure_upd _ : Ends.Sure (setCsd img)).step fun _ =>
    (sure_goFsm _).step fun _ => sure_fromICommit

theorem sure_fromICid : Ends.Sure fromICid :=
  (sure_readRegister _ _).step fun img => (sure_upd _ : Ends.Sure (setCid img)).step fun _ =>
    (sure_goFsm _).step fun _ => sure_fromICsd

theorem sure_fromIBlkLen : Ends.Sure fromIBlkLen :=
  (sure_ensureZeroStatus _ _).step fun _ => (sure_goFsm _).step fun _ => sure_fromICid

theorem sure_ocrStep : Ends.Sure ocrStep := sure_rd.step fun _ => sure_ite (sure_readOcr _) (sure_pure _)

theorem sure_fromIOcr : Ends.Sure fromIOcr :=
  sure_ocrStep.step fun _ => (sure_goFsm _).step fun _ => sure_fromIBlkLen

/-- The outer deadline stays, and what is left of a wait for it grows no longer. -/
def OuterWait (s t : State) : Prop :=
  t.wrk.dl0 = s.wrk.dl0 ∧ ∀ d, waitLeft d t.env ≤ waitLeft d s.env

theorem OuterWait.of_unread {s t : State} (hdl0 : t.wrk.dl0 = s.wrk.dl0)
    (hleft : ∀ d, waitLeft d t.env = waitLeft d s.env) : OuterWait s t := ⟨hdl0, fun d => (hleft d).le⟩

theorem OuterWait.left {s t : State} (h : OuterWait s t) (hs : s.Left Working.dl0 n) : t.Left Working.dl0 n := by
  obtain ⟨hdl0, hle⟩ := h
  unfold State.Left
  rw [hdl0]
  exact (hle _).trans_lt hs

/-- A command loads only the inner deadline (R165), and no reading of the clock puts a deadline off. -/
theorem engineKeeps_outerWait : EngineKeeps OuterWait where
  refl _ := .of_unread rfl fun _ => rfl
  trans := fun ⟨hdl0, hle⟩ ⟨hdl0', hle'⟩ => ⟨hdl0'.trans hdl0, fun d => (hle' d).trans (hle d)⟩
  withCs _ _ := .of_unread (by rw [withCs_wrk]) fun _ => by rw [withCs_env]
  afterXchg _ _ := .of_unread rfl fun _ => rfl
  afterSample s := ⟨rfl, waitLeft_le s⟩
  dl1 _ _ := .of_unread rfl fun _ => rfl
  cfsm _ _ := .of_unread rfl fun _ => rfl
  endCommand _ _ _ := .of_unread rfl fun _ => rfl
  frame _ _ := .of_unread rfl fun _ => rfl

theorem leaves_issueCommand (index : BitVec 6) (arg : BitVec 32) :
    Leaves Working.dl0 n (issueCommand index arg) :=
  (sure_issueCommand index arg).leaves (always_issueCommand engineKeeps_outerWait index arg) OuterWait.left

theorem leaves_issueAppCommand (index : BitVec 6) (arg : BitVec 32) :
    Leaves Working.dl0 n (issueAppCommand index arg) :=
  (sure_issueAppCommand index arg).leaves (always_issueAppCommand engineKeeps_outerWait index arg) OuterWait.left

theorem endsWithin_opCondLoop (arg : BitVec 32) : ∀ n, EndsWithin Working.dl0 n (opCondLoop arg n)
  | 0 => endsWithin_zero _
  | n + 1 => by
    have hretry : ∀ err : Err, EndsWithin Working.dl0 (n + 1)
        (do let e ← expiredDl0; if e then raise err else opCondLoop arg n : Proc Unit) := fun err =>
      endsWithin_retry tests_dl0 (sure_raise err) (endsWithin_opCondLoop arg n)
    refine (leaves_issueAppCommand _ _).step fun r => ?_
    cases classify r.status r.rto with
    | clear => exact (sure_pure _).ends
    | timeout => exact hretry _
    | idleOnly => exact hretry _
    | flagged => exact hretry _

theorem sure_fromIOpCond : Ends.Sure fromIOpCond :=
  sure_rd.step fun _ => sure_wait (loads_dl0 _) fun _ =>
    (endsWithin_opCondLoop _ _).step fun _ => (sure_goFsm _).step fun _ => sure_fromIOcr

theorem sure_fromIIfCond : Ends.Sure fromIIfCond :=
  (sure_interfaceCondition _).step fun _ => (sure_goFsm _).step fun _ => sure_fromIOpCond

theorem endsWithin_goIdleLoop : ∀ n, EndsWithin Working.dl0 n (goIdleLoop n)
  | 0 => endsWithin_zero _
  | n + 1 => by
    have hretry : EndsWithin Working.dl0 (n + 1)
        (do let e ← expiredDl0; if e then raise .noCard else goIdleLoop n : Proc Unit) :=
      endsWithin_retry tests_dl0 (sure_raise _) (endsWithin_goIdleLoop n)
    refine (leaves_issueCommand _ _).step fun r => ?_
    cases classify r.status r.rto with
    | idleOnly => exact (sure_pure _).ends
    | timeout => exact hretry
    | clear => exact hretry
    | flagged => exact hretry

theorem sure_fromIGoIdle : Ends.Sure fromIGoIdle :=
  sure_wait (loads_dl0 _) fun _ =>
    (endsWithin_goIdleLoop _).step fun _ => (sure_goFsm _).step fun _ => sure_fromIIfCond

theorem sure_fromIReset : Ends.Sure fromIReset :=
  (sure_cs false).step fun _ => (sure_discard _).step fun _ => (sure_goFsm _).step fun _ => sure_fromIGoIdle

theorem sure_resume (x : Fsm) : Ends.Sure (resume x) := by
  cases x with
  | fIdle => exact sure_pure _
  | iReset => exact sure_fromIReset
  | iGoIdle => exact sure_fromIGoIdle
  | iIfCond => exact sure_fromIIfCond
  | iOpCond => exact sure_fromIOpCond
  | iOcr => exact sure_fromIOcr
  | iBlkLen => exact sure_fromIBlkLen
  | iCid => exact sure_fromICid
  | iCsd => exact sure_fromICsd
  | iCommit => exact sure_fromICommit
  | rCheck => exact sure_fromRCheck
  | rCmd => exact sure_fromRCmd
  | rToken => exact sure_fromRToken
  | rData => exact sure_fromRData
  | rCrc => exact sure_rd.step fun _ => sure_fromRCrc _
  | wCheck => exact sure_fromWCheck
  | wCmd => exact sure_fromWCmd
  | wToken => exact sure_fromWToken
  | wData => exact sure_fromWData
  | wCrc => exact sure_fromWCrc
  | wResp => exact sure_fromWResp
  | wBusy => exact sure_fromWBusy

/-! ### What a step answers -/

/-- The answers of a step that does not hang: a next state, or one of the five refusals of `Obligations.NoHang`. -/
inductive Answered : Host.Outcome State Fault Refusal → Prop
  | next (t : State) : Answered (.next t)
  | clockWrap : Answered (.refused .clockWrap)
  | requestWhileBusy : Answered (.refused .requestWhileBusy)
  | reservedOperation : Answered (.refused .reservedOperation)
  | sequencerState : Answered (.refused .sequencerState)
  | illegalEncoding (e : DecodeError) : Answered (.refused (.illegalEncoding e))

/-- An error ends the operation in a next state; what is left is the wrap of the clock. -/
theorem Ends.Sure.settle_answered {p : Proc Unit} (hp : Ends.Sure p) (s : State) : Answered (Machine.settle p s) := by
  unfold Machine.settle
  cases hx : p s with
  | ok a t => exact .next t
  | error r t =>
    have hr := hp _ _ _ hx
    cases r with
    | raise e => exact .next _
    | fault f => exact hr.elim
    | refuse r =>
      obtain rfl : r = .clockWrap := hr
      exact .clockWrap

theorem Ends.Sure.hostCall_answered {p : Proc Unit} (hp : Ends.Sure p) (s : State) :
    Answered (Machine.hostCall p s) := by
  unfold Machine.hostCall
  split
  · exact hp.settle_answered s
  · exact .requestWhileBusy

theorem sure_issueOnly (index : BitVec 6) (arg : BitVec 32) : Ends.Sure (issueOnly index arg) :=
  (sure_issueCommand index arg).step fun _ => sure_pure _

theorem sure_getter (v : State → BitVec 128) : Ends.Sure (getter v) := (sure_upd _).step fun _ => sure_upd _

theorem exec_answered (i : Instr) (s : State) : Answered (exec i s) := by
  cases i with
  | cmd0 | cmd12 | cmd55 | cmd41 => exact (sure_issueOnly _ _).settle_answered s
  | cmd16 | zcmd => exact (sure_ensureZeroStatus _ _).settle_answered s
  | cmd8 => exact (sure_interfaceCondition _).settle_answered s
  | cmd58 => exact (sure_readOcr _).settle_answered s
  | acmd41 => exact ((sure_issueAppCommand _ _).step fun _ => sure_pure _).settle_answered s
  | cmd9 | cmd10 | rdreg => exact ((sure_readRegister _ _).step fun _ => sure_pure _).settle_answered s
  | cmd17 =>
    exact ((sure_ensureZeroStatus _ _).step fun _ => sure_waitStartToken.step fun _ =>
      (sure_receiveBlock _ _ _ (Nat.zero_add _).le).step fun c => sure_recordCrc c).settle_answered s
  | cmd24 =>
    exact ((sure_ensureZeroStatus _ _).step fun _ => (sure_sendAll _).step fun _ =>
      (sure_sendBlock _ _ (Nat.zero_add _).le).step fun _ => (sure_sendAll _).step fun _ =>
        sure_writeResponse.step fun _ => sure_writeBusy).settle_answered s
  | nop => exact (sure_upd _).hostCall_answered s
  | init => exact ((sure_upd _).step fun _ => (sure_upd _).step fun _ => sure_fromIReset).hostCall_answered s
  | rdblk => exact ((sure_upd _).step fun _ => sure_fromRCheck).hostCall_answered s
  | wrblk => exact ((sure_upd _).step fun _ => sure_fromWCheck).hostCall_answered s
  | blkcnt | cid | csd | lastcrc | kind | calccrc | csdvalid => exact (sure_getter _).hostCall_answered s
  | reservedB | reservedC | reservedD | reservedE | reservedF => exact .reservedOperation

/-- The fetch refuses bytes that are no instruction, and a sequencer that has no place for what stands there. -/
theorem fetch_refuse {s : State} {r : Refusal} (h : fetch s = .refuse r) :
    r = .sequencerState ∨ ∃ e, r = .illegalEncoding e := by
  unfold fetch at h
  split at h
  · cases h
    exact .inl rfl
  · split at h
    · cases h
    · unfold fetchCommand at h
      split at h
      · cases h
        exact .inr ⟨_, rfl⟩
      · split at h <;> cases h
        exact .inl rfl
    · split at h <;> cases h

theorem step_answered (s : State) : Answered (step s) := by
  unfold step
  split
  · exact exec_answered _ _
  · exact (sure_resume _).settle_answered s
  · exact .next s
  · next r hf =>
    rcases fetch_refuse hf with rfl | ⟨e, rfl⟩
    · exact .sequencerState
    · exact .illegalEncoding e

/-- Settles O54: every procedure is sure to end, so a step answers with a next state or one of the five refusals. -/
theorem noHang : Obligations.NoHang := by
  unfold Obligations.NoHang
  intro s
  have h := step_answered s
  generalize step s = o at h ⊢
  cases h with
  | next t => exact .inl ⟨t, rfl⟩
  | clockWrap => exact .inr (.inl rfl)
  | requestWhileBusy => exact .inr (.inr (.inl rfl))
  | reservedOperation => exact .inr (.inr (.inr (.inl rfl)))
  | sequencerState => exact .inr (.inr (.inr (.inr (.inl rfl))))
  | illegalEncoding e => exact .inr (.inr (.inr (.inr (.inr ⟨e, rfl⟩))))

end Sys2Proof.Machine
end

