-- ==== Sys2Proof/Proofs/ResponseClasses.lean ====
section
/-! PROOFS. The response classifier (R189 to R191): a bit of a byte is the test of its mask, and the classes of a
command's result by the branches of the classifier. -/

namespace Sys2Proof.Machine

/-- Bit `k` of a byte, under its mask. -/
theorem getLsbD_eq_mask : ∀ (k : Fin 8) (b : Byte), b.getLsbD k = (b &&& 1#8 <<< k.val == 1#8 <<< k.val) := by decide

/-- The pending test (R189). -/
theorem pending_iff (b : Byte) : pending b = true ↔ b &&& 0x80#8 = 0x80#8 := by
  rw [show pending b = _ from getLsbD_eq_mask 7 b]
  exact beq_iff_eq

/-- No response that passed the pending test is the status of a time-out (R192). -/
theorem ne_timeoutStatus_of_not_pending {b : Byte} (h : pending b = false) : b ≠ 0xFF#8 := by
  rintro rfl
  cases h

/-- A time-out is told by the flag alone (R192). -/
theorem classify_rto (st : Byte) : classify st true = .timeout := rfl

/-- The status of an answered command by its value (R190). -/
theorem classify_answered (st : Byte) :
    classify st false = if st = 0x00#8 then .clear else if st = 0x01#8 then .idleOnly else .flagged := rfl

theorem classify_eq_timeout_iff (st : Byte) (rto : Bool) : classify st rto = .timeout ↔ rto = true := by
  cases rto with
  | true => simp [classify_rto]
  | false => rw [classify_answered]; split_ifs <;> simp

theorem classify_eq_clear_iff (st : Byte) (rto : Bool) : classify st rto = .clear ↔ rto = false ∧ st = 0x00#8 := by
  cases rto with
  | true => simp [classify_rto]
  | false => rw [classify_answered]; split_ifs <;> simp_all

theorem classify_eq_idleOnly_iff (st : Byte) (rto : Bool) :
    classify st rto = .idleOnly ↔ rto = false ∧ st = 0x01#8 := by
  cases rto with
  | true => simp [classify_rto]
  | false => rw [classify_answered]; split_ifs <;> simp_all

theorem classify_eq_flagged_iff (st : Byte) (rto : Bool) :
    classify st rto = .flagged ↔ rto = false ∧ st ≠ 0x00#8 ∧ st ≠ 0x01#8 := by
  cases rto with
  | true => simp [classify_rto]
  | false => rw [classify_answered]; split_ifs <;> simp_all

/-- Settles O10: the pending test and the flags by the masks of their bits, one equivalence for each class. -/
theorem responseClasses : Obligations.ResponseClasses := by
  unfold Obligations.ResponseClasses
  exact ⟨pending_iff, classify_eq_timeout_iff, classify_eq_clear_iff, classify_eq_idleOnly_iff,
    classify_eq_flagged_iff, fun st => ⟨getLsbD_eq_mask 0 st, getLsbD_eq_mask 1 st, getLsbD_eq_mask 2 st,
      getLsbD_eq_mask 3 st, getLsbD_eq_mask 4 st, getLsbD_eq_mask 5 st, getLsbD_eq_mask 6 st⟩⟩

end Sys2Proof.Machine
end

