-- ==== Sys2Proof/Proofs/CommandEngine.lean ====
section
/-! PROOFS. The command engine (42_command_engine.md). What a command leaves for every card and every clock: its
reply in the registers (R186, R192), and every register it does not write. Then the command rows run against a given
card: each is `issue_command`, `issue_app_command` or `ensure_zero_status`, whose runs Laws/ has, and its outcome. -/

namespace Sys2Proof.Machine

/-! ### The reply of a command that returns -/

/-- The registers hold this reply of a finished command, which is a response of a selected card or the status of the
time-out path (R186, R192). -/
structure State.HoldsReply (t : State) (r : Reply) : Prop where
  status : t.wrk.status = r.status
  rto : t.wrk.rto = r.rto
  off : t.seq.cfsm = .cOff
  timeoutStatus : r.rto = true ↔ r.status = 0xFF#8
  answered : r.rto = false → pending r.status = false ∧ t.wrk.csActive = true
  deselected : r.rto = true → t.wrk.csActive = false

/-- A response that the poll returns passed the pending test, and the card is still selected (R186 step 5, R189). -/
def PolledSelected (o : Option Byte) (s : State) : Prop := s.Latches Selected ∧ ∀ b, o = some b → pending b = false

theorem pollResponse_polled : ∀ n, EndsWell (State.Latches Selected) (pollResponse n) PolledSelected
  | 0 => ends_pure none fun _ hs => ⟨hs, fun _ h => nomatch h⟩
  | n + 1 => (holds_xchg _).step fun b => ends_ite (fun _ => pollResponse_polled n) fun hb =>
      ends_pure _ fun _ hs => ⟨hs, fun c hc => by cases hc; exact eq_false_of_ne_true hb⟩

/-- The ending with a response (R186). -/
theorem respond_holdsReply {b : Byte} (hb : pending b = false) :
    EndsWell (State.Latches Selected) (respond b) fun r t => t.HoldsReply r :=
  ends_bind (Q := fun _ t => t.HoldsReply ⟨b, false⟩)
    (ends_upd fun _ hs =>
      { status := rfl, rto := rfl, off := rfl
        timeoutStatus := ⟨fun h => absurd h Bool.false_ne_true, fun h => absurd h (ne_timeoutStatus_of_not_pending hb)⟩
        answered := fun _ => ⟨hb, hs⟩
        deselected := fun h => nomatch h })
    fun _ => ends_pure _ fun _ h => h

/-- The card is deselected. -/
def Deselected : Bool → Byte → Prop := fun c _ => c = false

theorem cs_deselects : EndsWell (fun _ => True) (cs false) fun _ => State.Latches Deselected :=
  ends_upd fun s _ => by rw [State.Latches, withCs_wrk]; rfl

/-- The ending without a response: after the deselect the filler byte leaves the latch alone (R186, R192). -/
theorem timeOut_holdsReply : EndsWell (fun _ => True) timeOut fun r t => t.HoldsReply r :=
  (endsWell_trivial _).step fun _ => cs_deselects.step fun _ => (holds_sendAll _).step fun _ =>
    ends_bind (Q := fun _ t => t.HoldsReply ⟨0xFF#8, true⟩)
      (ends_upd fun _ hs =>
        { status := rfl, rto := rfl, off := rfl
          timeoutStatus := ⟨fun _ => rfl, fun _ => rfl⟩
          answered := fun h => nomatch h
          deselected := fun _ => hs })
      fun _ => ends_pure _ fun _ h => h

theorem issueCommand_holdsReply (n : BitVec 6) (arg : BitVec 32) :
    EndsWell (fun _ => True) (issueCommand n arg) fun r t => t.HoldsReply r := by
  refine (sendCommand_selects n arg).step fun _ => (holds_goCfsm _).step fun _ => holds_rd.step fun _ =>
    (pollResponse_polled _).step fun o => ?_
  cases o with
  | none => exact ends_weaken timeOut_holdsReply (fun _ _ => trivial) (fun _ _ h => h) fun _ _ h => h
  | some b => exact ⟨fun hs h => (respond_holdsReply (hs.2 b rfl)).ok hs.1 h, fun _ _ => trivial⟩

/-- Settles O11: `issueCommand_holdsReply`, whose parts are those of the statement. -/
theorem timeoutIsNotAStatus : Obligations.TimeoutIsNotAStatus := by
  unfold Obligations.TimeoutIsNotAStatus
  intro n arg s t r h
  have hr := (issueCommand_holdsReply n arg).ok trivial h
  exact ⟨hr.status, hr.rto, hr.off, hr.timeoutStatus, hr.answered, hr.deselected⟩

/-! ### What a command leaves unchanged -/

/-- The state with fixed values in everything a command writes (R186). -/
def State.blanked (s : State) : State := s.answered 0#6 0#32 0x00#8 0#64 State.reset.env []

/-- The states differ at most in what a command writes. -/
def SameUnwritten (s t : State) : Prop := t.blanked = s.blanked

theorem sameUnwritten_engineKeeps : EngineKeeps SameUnwritten where
  refl _ := rfl
  trans h h' := Eq.trans h' h
  withCs s a := by unfold State.withCs; split <;> rfl
  afterXchg _ _ := rfl
  afterSample _ := rfl
  dl1 _ _ := rfl
  cfsm _ _ := rfl
  endCommand _ _ _ := rfl
  frame _ _ := rfl

/-- What no command writes reads the same in both. -/
theorem SameUnwritten.read {α : Type} {s t : State} (h : SameUnwritten s t) (f : State → α)
    (hf : ∀ u : State, f u.blanked = f u) : f t = f s :=
  (hf t).symm.trans ((congrArg f h).trans (hf s))

/-- The registers outside the sequencer and `RES` that no command with a reply of R1 alone writes, error or not: the
frame of `Obligations.StatusCommandFrame`. -/
structure FrameKept (s t : State) : Prop where
  ses : t.ses = s.ses
  req : t.req = s.req
  scratch : t.wrk.scratch = s.wrk.scratch
  dresp : t.wrk.dresp = s.wrk.dresp
  dl0 : t.wrk.dl0 = s.wrk.dl0
  r7 : t.wrk.r7 = s.wrk.r7
  ocr0 : t.wrk.ocr0 = s.wrk.ocr0
  data : t.res.data = s.res.data
  par : t.par = s.par
  hostPort : t.hostPort = s.hostPort
  cmdPort : t.cmdPort = s.cmdPort

theorem SameUnwritten.frameKept {s t : State} (h : SameUnwritten s t) : FrameKept s t where
  ses := h.read State.ses fun _ => rfl
  req := h.read State.req fun _ => rfl
  scratch := h.read (·.wrk.scratch) fun _ => rfl
  dresp := h.read (·.wrk.dresp) fun _ => rfl
  dl0 := h.read (·.wrk.dl0) fun _ => rfl
  r7 := h.read (·.wrk.r7) fun _ => rfl
  ocr0 := h.read (·.wrk.ocr0) fun _ => rfl
  data := h.read (·.res.data) fun _ => rfl
  par := h.read State.par fun _ => rfl
  hostPort := h.read State.hostPort fun _ => rfl
  cmdPort := h.read State.cmdPort fun _ => rfl

/-- The exit actions write `RES`, the sequencers and the chip-select latch (R372). -/
theorem FrameKept.exit {s t : State} (h : FrameKept s t) (r : Option Err) : FrameKept s (exitActions r t) := by
  constructor <;> simp [h.ses, h.req, h.scratch, h.dresp, h.dl0, h.r7, h.ocr0, h.data, h.par, h.hostPort, h.cmdPort]

/-- A procedure of the command engine run as an instruction: the sequencer and `RES` stay unless an error leaves the
engine idle. -/
theorem settle_sameUnwritten {p : Proc Unit} (hp : Always SameUnwritten p) {s t : State} (h : settle p s = .next t) :
    FrameKept s t ∧
      (t.seq.op = s.seq.op ∧ t.seq.fsm = s.seq.fsm ∧ t.res = s.res ∨ t.seq.op = .idle ∧ t.seq.fsm = .fIdle) := by
  rcases settle_next h with hx | ⟨e, u, hx, rfl⟩
  · have hu := hp.ok hx
    exact ⟨hu.frameKept, .inl ⟨hu.read (·.seq.op) fun _ => rfl, hu.read (·.seq.fsm) fun _ => rfl,
      hu.read State.res fun _ => rfl⟩⟩
  · exact ⟨(hp.error hx).frameKept.exit _, .inr ⟨rfl, rfl⟩⟩

/-- The commands whose reply is R1 alone are procedures of the command engine and nothing more. -/
theorem exec_statusCommand {i : Instr} {n : BitVec 6} {arg : BitVec 32}
    (hi : i ∈ [Instr.cmd0 arg, .cmd12 arg, .cmd16 arg, .cmd41 arg, .cmd55 arg, .acmd41 arg, .zcmd n arg]) :
    ∃ p : Proc Unit, Always SameUnwritten p ∧ ∀ s, exec i s = settle p s := by
  have hE := sameUnwritten_engineKeeps
  simp only [List.mem_cons, List.not_mem_nil, or_false] at hi
  rcases hi with rfl | rfl | rfl | rfl | rfl | rfl | rfl
  · exact ⟨_, always_issueOnly hE 0#6 arg, fun _ => rfl⟩
  · exact ⟨_, always_issueOnly hE 12#6 arg, fun _ => rfl⟩
  · exact ⟨_, always_ensureZeroStatus hE 16#6 arg, fun _ => rfl⟩
  · exact ⟨_, always_issueOnly hE 41#6 arg, fun _ => rfl⟩
  · exact ⟨_, always_issueOnly hE 55#6 arg, fun _ => rfl⟩
  · exact ⟨_, always_bind hE.toSteady (always_issueAppCommand hE 41#6 arg) fun _ => always_pure hE.toSteady _,
      fun _ => rfl⟩
  · exact ⟨_, always_ensureZeroStatus hE n arg, fun _ => rfl⟩

/-- Settles O49: `settle_sameUnwritten`, since each of these commands is a procedure of the command engine. -/
theorem statusCommandFrame : Obligations.StatusCommandFrame := by
  unfold Obligations.StatusCommandFrame
  intro s t i n arg hi h
  obtain ⟨p, hp, hexec⟩ := exec_statusCommand hi
  rw [hexec] at h
  obtain ⟨hk, hseq⟩ := settle_sameUnwritten hp h
  exact ⟨hk.ses, hk.req, fun a => by rw [hk.req], fun a => by rw [hk.scratch], hk.dresp, hk.dl0, hk.r7, hk.ocr0,
    hk.data, hk.par, hk.hostPort, hk.cmdPort, hseq⟩

/-! ### The commands whose reply is not examined -/

/-- CMD0, CMD41 and CMD55 are `issue_command`, and none of them is the stream-stop command (R196, R204, R205). -/
theorem exec_plainCommand {i : Instr} {n : BitVec 6} {arg : BitVec 32}
    (hi : (i, n) ∈ [(Instr.cmd0 arg, 0#6), (.cmd41 arg, 41#6), (.cmd55 arg, 55#6)]) :
    n ≠ 12#6 ∧ ∀ {s t : State} {r : Reply}, issueCommand n arg s = .ok r t → exec i s = .next t := by
  simp only [List.mem_cons, List.not_mem_nil, or_false, Prod.mk.injEq] at hi
  rcases hi with ⟨rfl, rfl⟩ | ⟨rfl, rfl⟩ | ⟨rfl, rfl⟩ <;>
    exact ⟨by decide, fun hx => settle_ok (issueOnly_ok hx)⟩

/-- Settles O22: the run of `issue_command` against the attempt. -/
theorem plainCommand : Obligations.PlainCommand := by
  unfold Obligations.PlainCommand
  intro s i n arg a rest hi ha hc hrx
  obtain ⟨hn, hexec⟩ := exec_plainCommand hi
  obtain ⟨e, tr, hx, ht⟩ := issueCommand_attempt hn ha hrx hc
  exact ⟨e, tr, hexec hx, ht.rx, ht.bus⟩

/-- Settles O23: an answered command whose busy-wait ends with a busy byte takes one sample for the load and one for
each busy byte. -/
theorem busyExpiryIgnored : Obligations.BusyExpiryIgnored := by
  unfold Obligations.BusyExpiryIgnored
  intro s i n arg busy b during pend resp rest hi hbusy hpend hbound hresp hrx hbefore hreached
  obtain ⟨hn, hexec⟩ := exec_plainCommand hi
  let r : CardReply := { busy := busy, busyEnd := b, during := during, pend := pend, resp := resp }
  have hr : r.Ok s.par := ⟨fun c hc => hbusy c (List.mem_append_left _ hc), hpend, hbound, hresp⟩
  have hticks : r.ticks = busy.length + 2 := by
    rw [CardReply.ticks, busyTicks, if_neg (show r.busyEnd ≠ Config.idleLine from hbusy b (by simp))]
  obtain ⟨e, tr, hx, ht⟩ := issueCommand_run (r := r) hn hr hrx ⟨hbefore, fun _ => hreached⟩
  refine ⟨e, tr, hexec hx, ht.rx, ?_, ht.bus.trans (List.append_assoc ..).symm⟩
  rw [← hticks]
  exact ht.clock.clk

/-- Settles O24: the run of the stream-stop command, which takes no sample. -/
theorem streamStop : Obligations.StreamStop := by
  unfold Obligations.StreamStop
  intro s arg during stuff pend resp rest hpend hbound hresp hrx
  obtain ⟨e, tr, hx, ht⟩ := issueCommand_stop hpend hbound hresp hrx
  exact ⟨e, tr, settle_ok (issueOnly_ok hx), ht.rx, ht.clock.clk, ht.clock.clkCount,
    ht.bus.trans (List.append_assoc ..).symm⟩

/-- Settles O25: the run of `issue_app_command` against the attempt. -/
theorem appCommand : Obligations.AppCommand := by
  unfold Obligations.AppCommand
  intro s arg c rest hc hq hrx
  obtain ⟨e, tr, hx, ht⟩ := issueAppCommand_attempt hc hrx hq
  exact ⟨e, tr, settle_ok (by rw [run_bind_ok hx, run_pure]), ht.rx, ht.bus⟩

/-! ### The commands that require a zero status -/

/-- Settles O26: the run of `ensure_zero_status` against a card that answers 0x00. -/
theorem zeroStatusAccepted : Obligations.ZeroStatusAccepted := by
  unfold Obligations.ZeroStatusAccepted
  intro s i n arg r rest hi hr h0 hrx hc
  have hn : n ≠ 12#6 := by
    rcases hi with ⟨-, rfl⟩ | ⟨-, hn⟩
    · decide
    · exact hn
  obtain ⟨e, tr, hx, ht⟩ := ensureZeroStatus_run hn hr h0 hrx hc
  refine ⟨e, tr, ?_, ht.rx, ht.bus.trans (List.append_assoc ..).symm⟩
  rcases hi with ⟨rfl, rfl⟩ | ⟨rfl, -⟩ <;> exact settle_ok hx

/-- A command of the command port that requires a zero status is `ensure_zero_status` and a rest `k`. -/
theorem exec_zeroStatusCommand {i : Instr} {n : BitVec 6} {arg : BitVec 32} (s : State)
    (h : (i, n) ∈ [(Instr.cmd9 arg, 9#6), (.cmd10 arg, 10#6), (.cmd16 arg, 16#6), (.cmd17 arg, 17#6),
      (.cmd24 arg, 24#6), (.cmd58 arg, 58#6), (.zcmd n arg, n)] ∨ (i = .rdreg n ∧ arg = 0#32)) :
    ∃ k : Unit → Proc Unit, exec i s = settle (ensureZeroStatus n arg >>= k) s := by
  rcases h with hi | ⟨rfl, rfl⟩
  · simp only [List.mem_cons, List.not_mem_nil, or_false, Prod.mk.injEq] at hi
    rcases hi with ⟨rfl, rfl⟩ | ⟨rfl, rfl⟩ | ⟨rfl, rfl⟩ | ⟨rfl, rfl⟩ | ⟨rfl, rfl⟩ | ⟨rfl, rfl⟩ | ⟨rfl, -⟩
    · exact ⟨_, congrArg (settle · s) (bind_assoc ..)⟩
    · exact ⟨_, congrArg (settle · s) (bind_assoc ..)⟩
    · exact ⟨_, congrArg (settle · s) (bind_pure _).symm⟩
    · exact ⟨_, rfl⟩
    · exact ⟨_, rfl⟩
    · exact ⟨_, rfl⟩
    · exact ⟨_, congrArg (settle · s) (bind_pure _).symm⟩
  · exact ⟨_, congrArg (settle · s) (bind_assoc ..)⟩

/-- An instruction that issues a command (`Issues`) is `ensure_zero_status` and a rest `k`, run at the step where its
operation issues the command; an instruction of the command port stays at its own step. -/
theorem Issues.exec_eq {s : State} {i : Instr} {n : BitVec 6} {arg : BitVec 32} (h : Issues s i n arg) :
    ∃ (o : Op) (x : Fsm) (k : Unit → Proc Unit), exec i s = settle (ensureZeroStatus n arg >>= k) (s.inOp o x) := by
  rcases h with hi | hi | ⟨rfl, rfl, hq⟩ | ⟨rfl, rfl, hq⟩
  · exact ⟨s.seq.op, s.seq.fsm, exec_zeroStatusCommand s (.inl hi)⟩
  · exact ⟨s.seq.op, s.seq.fsm, exec_zeroStatusCommand s (.inr hi)⟩
  · exact ⟨.rdblk, .rCmd, _, (hostCall_idle hq.idle).trans (settle_congr (fromRCheck_run hq.len hq.range hq.address))⟩
  · exact ⟨.wrblk, .wCmd, _, (hostCall_idle hq.idle).trans (settle_congr (fromWCheck_run hq.len hq.range hq.address))⟩

/-- A command leaves the step of the operation it is issued in. -/
theorem attempted_inOp (s : State) (o : Op) (x : Fsm) (n : BitVec 6) (arg : BitVec 32) (a : Attempt) (d : Clock)
    (e : Env) (tr : List Event) : (s.inOp o x).attempted n arg a d e tr = (s.attempted n arg a d e tr).inOp o x := by
  cases a <;> rfl

/-- Settles O27: `ensure_zero_status` raises, the rest of the instruction does not run, and the exit actions forget
where they were taken. -/
theorem zeroStatusErrors : Obligations.ZeroStatusErrors := by
  unfold Obligations.ZeroStatusErrors
  intro s i n arg a rest hi hn ha hnc hc hrx
  obtain ⟨o, x, k, hexec⟩ := hi.exec_eq
  obtain ⟨e, tr, hx, ht⟩ := ensureZeroStatus_failed (s := s.inOp o x) hn ha hnc hrx hc
  refine ⟨e, tr, ?_, ht.rx, ht.bus⟩
  rw [hexec, settle_raise (run_bind_error hx), attempted_inOp, exitActions_inOp]
  rfl

end Sys2Proof.Machine
end

