-- ==== Sys2Proof/Proofs/ProbeCommands.lean ====
section
/-! PROOFS. CMD8 and CMD58 (R197, R206, R225, R230): the courses of the interface condition after its reply, the OCR
read, and what the two leave unchanged for every card and every clock. -/

namespace Sys2Proof.Machine

/-! ### The interface condition against a given card -/

/-- The reply of CMD8 without the illegal-command bit and the payload: what is left is the test of the payload
(R225, R98). -/
theorem interfaceCondition_payload {s : State} {arg : BitVec 32} {r : CardReply} {p : Vector Byte 4}
    {rest : List Answer} (hr : r.Ok s.par) (hlegal : illegalCommand r.resp = false)
    (hrx : s.env.rx = (r.talk 8#6 arg ++ polls p.toList).answers ++ rest) (hc : r.InTime s.env 0) :
    ∃ (e : Env) (tr : List Event),
      interfaceCondition arg s = (if r7Ok p then setKind .sd2 else raise .ifcondMismatch : Proc Unit)
        ((s.answered 8#6 arg r.resp (s.env.deadlineAt 0 300) e tr).withR7 p) ∧
      Talked s.env s.trace r.ticks e tr rest (s.csEvents true ++ (r.talk 8#6 arg ++ polls p.toList).events) := by
  rw [Talk.answers_append, List.append_assoc] at hrx
  obtain ⟨e, tr, hx, ht⟩ := issueCommand_run (by decide) hr hrx hc
  obtain ⟨e1, tr1, hx1, ht1⟩ := receivePayload_run
    (s := s.answered 8#6 arg r.resp (s.env.deadlineAt 0 300) e tr)
    (do let u ← rd; if r7Ok u.wrk.r7 then setKind .sd2 else raise .ifcondMismatch : Proc Unit) ht.rx
  refine ⟨e1, tr1, ?_, (ht.trans ht1).cast rfl (by rw [Talk.events_append, List.append_assoc])⟩
  rw [interfaceCondition, run_bind_ok hx]
  simp only [Bool.false_eq_true, if_false, hlegal]
  rw [classifyPayload, hx1, run_bind_ok (run_rd _)]
  rfl

/-- The reply of CMD8 with the illegal-command bit classifies SD1 and raises before any payload (R225). -/
theorem interfaceCondition_illegal {s : State} {arg : BitVec 32} {r : CardReply} {rest : List Answer}
    (hr : r.Ok s.par) (hillegal : illegalCommand r.resp = true)
    (hrx : s.env.rx = (r.talk 8#6 arg).answers ++ rest) (hc : r.InTime s.env 0) :
    ∃ (e : Env) (tr : List Event),
      interfaceCondition arg s = .error (.raise .notSupported)
        { s.answered 8#6 arg r.resp (s.env.deadlineAt 0 300) e tr with ses.kind := .sd1 } ∧
      Talked s.env s.trace r.ticks e tr rest (s.csEvents true ++ (r.talk 8#6 arg).events) := by
  obtain ⟨e, tr, hx, ht⟩ := issueCommand_run (by decide) hr hrx hc
  refine ⟨e, tr, ?_, ht⟩
  rw [interfaceCondition, run_bind_ok hx]
  simp only [Bool.false_eq_true, if_false, hillegal, if_true]
  rfl

/-- No response to CMD8 (R225, D41). -/
theorem interfaceCondition_silent {s : State} {arg : BitVec 32} {q : Silence} {rest : List Answer}
    (hq : q.Ok s.par) (hrx : s.env.rx = (q.talk 8#6 arg ++ polls [q.last]).answers ++ rest)
    (hc : q.InTime s.env 0) :
    ∃ (e : Env) (tr : List Event),
      interfaceCondition arg s =
        .error (.raise .respTimeout) (s.unanswered 8#6 arg (s.env.deadlineAt 0 300) e tr) ∧
      Talked s.env s.trace q.ticks e tr rest
        (s.csEvents true ++ (q.talk 8#6 arg).events ++ [.cs false] ++ (polls [q.last]).events) := by
  obtain ⟨e, tr, hx, ht⟩ := issueCommand_silent (by decide) hq hrx hc
  refine ⟨e, tr, ?_, ht⟩
  rw [interfaceCondition, run_bind_ok hx]
  rfl

/-- Settles O28: the run of the interface condition on each of its four courses. -/
theorem interfaceConditionCourses : Obligations.InterfaceCondition := by
  unfold Obligations.InterfaceCondition
  refine fun s arg rest => ⟨fun r p hr hlegal hok hrx hc => ?_, fun r p hr hlegal hok hrx hc => ?_,
    fun r hr hillegal hrx hc => ?_, fun q hq hrx hc => ?_⟩
  · obtain ⟨e, tr, hx, ht⟩ := interfaceCondition_payload hr hlegal hrx hc
    rw [if_pos hok] at hx
    exact ⟨e, tr, settle_ok hx, ht.rx, ht.bus.trans (List.append_assoc ..).symm⟩
  · obtain ⟨e, tr, hx, ht⟩ := interfaceCondition_payload hr hlegal hrx hc
    rw [if_neg (ne_true_of_eq_false hok)] at hx
    exact ⟨e, tr, settle_raise hx, ht.rx, ht.bus.trans (List.append_assoc ..).symm⟩
  · obtain ⟨e, tr, hx, ht⟩ := interfaceCondition_illegal hr hillegal hrx hc
    exact ⟨e, tr, settle_raise hx, ht.rx, ht.bus.trans (List.append_assoc ..).symm⟩
  · obtain ⟨e, tr, hx, ht⟩ := interfaceCondition_silent hq hrx hc
    exact ⟨e, tr, settle_raise hx, ht.rx, by simpa only [List.append_assoc] using ht.bus⟩

/-- Settles O29: the run of the OCR read. -/
theorem ocrRead : Obligations.OcrRead := by
  unfold Obligations.OcrRead
  intro s arg r p rest hr h0 hrx hc
  obtain ⟨e, tr, hx, ht⟩ := readOcr_run hr h0 hrx hc
  exact ⟨e, tr, settle_ok hx, ht.rx, ht.bus.trans (List.append_assoc ..).symm⟩

/-! ### What the two commands leave unchanged -/

/-- The state with fixed values in what a command writes and in what the exit actions write (R186, R372). -/
def State.ended (s : State) : State :=
  { s.blanked with seq := .idle, res := { State.reset.res with data := s.res.data } }

/-- A view of the state that looks at nothing of that is the same after a procedure of the command engine and after
the exit actions. -/
theorem OperationKeeps.of_view {α : Type} {f : State → α} (hf : ∀ u : State, f u.ended = f u) :
    OperationKeeps fun s t => f t = f s := by
  have heq {s t : State} (h : t.ended = s.ended) : f t = f s := (hf t).symm.trans ((congrArg f h).trans (hf s))
  have hcs (s : State) (a : Bool) : (s.withCs a).ended = s.ended := by unfold State.withCs; split <;> rfl
  exact {
    refl := fun _ => rfl
    trans := fun h h' => h'.trans h
    withCs := fun s a => heq (hcs s a)
    exit := fun s _ => heq (hcs s false)
    afterXchg := fun _ _ => heq rfl
    afterSample := fun _ => heq rfl
    dl1 := fun _ _ => heq rfl
    cfsm := fun _ _ => heq rfl
    endCommand := fun _ _ _ => heq rfl
    frame := fun _ _ => heq rfl
    start := fun _ _ _ => heq rfl
    fsm := fun _ _ => heq rfl }

/-- What CMD8 leaves: everything but what every command writes, `S.kind` and `S.r7` (R225). -/
def State.besideR7 (s : State) : State := { s.ended with ses.kind := .none, wrk.r7 := State.reset.wrk.r7 }

/-- What CMD58 leaves: everything but what every command writes, `S.kind` and `S.ocr0` (R230). -/
def State.besideOcr0 (s : State) : State := { s.ended with ses.kind := .none, wrk.ocr0 := State.reset.wrk.ocr0 }

theorem exec_cmd8_besideR7 {arg : BitVec 32} {s t : State} (h : exec (.cmd8 arg) s = .next t) :
    t.besideR7 = s.besideR7 :=
  have hO : OperationKeeps fun s t => t.besideR7 = s.besideR7 := .of_view fun _ => rfl
  settle_always hO (always_interfaceCondition hO.toEngineKeeps (fun _ _ _ => rfl) (fun _ _ => rfl) arg) h

theorem exec_cmd58_besideOcr0 {arg : BitVec 32} {s t : State} (h : exec (.cmd58 arg) s = .next t) :
    t.besideOcr0 = s.besideOcr0 :=
  have hO : OperationKeeps fun s t => t.besideOcr0 = s.besideOcr0 := .of_view fun _ => rfl
  settle_always hO (always_readOcr hO.toEngineKeeps (fun _ _ => rfl) (fun _ _ => rfl) arg) h

/-- The state with fixed values in everything that either of the two writes. -/
def State.unprobed (s : State) : State :=
  { s.ended with ses.kind := .none, wrk.r7 := State.reset.wrk.r7, wrk.ocr0 := State.reset.wrk.ocr0 }

/-- Settles O50: what either command leaves unchanged is read off the rest of the state. -/
theorem probeCommandFrame : Obligations.ProbeCommandFrame := by
  unfold Obligations.ProbeCommandFrame
  intro s t i arg hi h
  simp only [List.mem_cons, List.not_mem_nil, or_false] at hi
  have hboth : t.unprobed = s.unprobed ∧ (i = .cmd8 arg → t.wrk.ocr0 = s.wrk.ocr0) ∧
      (i = .cmd58 arg → t.wrk.r7 = s.wrk.r7) := by
    rcases hi with rfl | rfl
    · have h8 := exec_cmd8_besideR7 h
      exact ⟨congrArg (·.unprobed) h8, fun _ => congrArg (·.wrk.ocr0) h8, nofun⟩
    · have h58 := exec_cmd58_besideOcr0 h
      exact ⟨congrArg (·.unprobed) h58, nofun, fun _ => congrArg (·.wrk.r7) h58⟩
  obtain ⟨hrest, hocr0, hr7⟩ := hboth
  have hreq : t.req = s.req := congrArg (·.req) hrest
  have hscratch : t.wrk.scratch = s.wrk.scratch := congrArg (·.wrk.scratch) hrest
  exact ⟨congrArg (·.ses.cid) hrest, congrArg (·.ses.csd) hrest, congrArg (·.ses.blockCount) hrest,
    congrArg (·.ses.lastCrc16) hrest, congrArg (·.ses.calcCrc16) hrest, hreq, fun a => by rw [hreq],
    fun a => by rw [hscratch], congrArg (·.wrk.dresp) hrest, congrArg (·.wrk.dl0) hrest,
    congrArg (·.res.data) hrest, congrArg (·.par) hrest, congrArg (·.hostPort) hrest,
    congrArg (·.cmdPort) hrest, hocr0, hr7⟩

end Sys2Proof.Machine
end

