-- ==== Sys2Proof/Proofs/InitRuns.lean ====
section
/-! PROOFS. INIT against a given card (43_init_fsm.md): the success, the ends on its own waits and checks, and the ends
at its commands. Laws/ leads INIT to a state of the card's script (`Leads`, `Reached`); here it ends there. -/

namespace Sys2Proof.Machine

/-! ### The success -/

/-- Settles O42: the run up to `I_COMMIT`, and the commit of the count. -/
theorem initSucceeds : Obligations.InitSucceeds := by
  unfold Obligations.InitSucceeds
  intro s x count rest hi hwf hok hin hcount hne hlt hrx
  obtain ⟨e, tr, hx, hrest, hbus⟩ := exec_init_read hi hwf hok hin hrx
  have hcommit := fromICommit_run
    (s := (s.initRead x (x.memory s.wrk.scratch .commit) e tr).inOp .init .iCommit)
    (by rw [inOp_ses, initRead_csd]; exact hcount) hne hlt (by rw [inOp_wrk, initRead_csActive])
  refine ⟨e, tr, x.memory s.wrk.scratch .commit, ?_, hrest, memory_scratch x _ .commit hwf, hbus⟩
  rw [hx, settle_ok hcommit, done_inOp]

/-! ### The ends on its own waits and checks -/

section Ends

variable {s : State} {x : InitScript} {rest : List Answer} (hi : s.seq.op = .idle)
include hi

/-- The go-idle attempts fail until the deadline has passed (R223). -/
theorem exec_init_noCard {last : Attempt} (htries : ∀ a ∈ x.idleTries ++ [last], a.Ok s.par ∧ a.NotIdle)
    (hin : IdleInTime s.env 1 (x.idleTries ++ [last])) (hb : s.env.Before 0 (idleTicks x.idleTries) 2000)
    (hl : s.env.Reached 0 (idleTicks (x.idleTries ++ [last])) 2000)
    (hrx : s.env.rx = answersOf (x.moves .goIdle ++
      (x.idleTries.flatMap (Attempt.moves 0#6 0#32) ++ last.moves 0#6 0#32)) ++ rest) :
    ∃ (e : Env) (tr : List Event),
      exec .init s = .next (exitActions (some .noCard)
        { s.attempted 0#6 0#32 last (s.env.deadlineAt (1 + idleTicks x.idleTries) 300) e tr with
          ses.kind := .none, ses.blockCount := 0#64, wrk.dl0 := s.env.deadlineAt 0 2000 }) ∧
      e.rx = rest ∧ bus tr = bus s.trace ++ levels s.wrk.csActive (x.moves .goIdle ++
        (x.idleTries.flatMap (Attempt.moves 0#6 0#32) ++ last.moves 0#6 0#32)) := by
  rw [answersOf_append, List.append_assoc] at hrx
  obtain ⟨u, hu, hr⟩ := leads_goIdle x hi _ (by simp [InitScript.Ok, InitStep.before, InitScript.OkIn])
    (by simp [InitScript.InTime, InitStep.before, InitScript.InTimeIn]) hrx
  obtain ⟨e, tr, hx, ht⟩ := goIdle_late htries hb hin hl hr
  refine ⟨e, tr, ?_, ht.rx, ht.bus⟩
  rw [hu, show InitStep.run .goIdle = fromIGoIdle from rfl, settle_raise hx, exitActions_inOp]
  cases last <;> rfl

/-- The operating-condition attempts fail until the deadline has passed (R227, R228). -/
theorem exec_init_opCondExpired {last : AppAttempt} (hok : x.Ok s.par .opCond) (hin : x.InTime s.env .opCond)
    (htries : ∀ c ∈ x.condTries ++ [last], c.Ok s.par ∧ c.NotReady)
    (hc : CondInTime s.env (x.ticks .opCond + 1) (x.condTries ++ [last]))
    (hb : s.env.Before (x.ticks .opCond) (condTicks x.condTries) 2000)
    (hl : s.env.Reached (x.ticks .opCond) (condTicks (x.condTries ++ [last])) 2000)
    (hrx : s.env.rx = answersOf (x.moves .opCond ++
      (x.condTries.flatMap (AppAttempt.moves Config.hcsArg) ++ last.moves Config.hcsArg)) ++ rest) :
    ∃ (e : Env) (tr : List Event),
      exec .init s = .next (exitActions (some last.reply.error)
        { s.appAttempted Config.hcsArg last
            (s.env.deadlineAt (x.ticks .opCond + 1 + condTicks x.condTries + last.loadAt) 300) e tr with
          ses.kind := .sd2, ses.blockCount := 0#64, wrk.dl0 := s.env.deadlineAt (x.ticks .opCond) 2000
          wrk.r7 := x.payload }) ∧
      e.rx = rest ∧ bus tr = bus s.trace ++ levels s.wrk.csActive (x.moves .opCond ++
        (x.condTries.flatMap (AppAttempt.moves Config.hcsArg) ++ last.moves Config.hcsArg)) := by
  rw [answersOf_append, List.append_assoc] at hrx
  obtain ⟨u, hu, hr⟩ := leads_opCond x hi _ hok hin hrx
  obtain ⟨e, tr, hx, ht⟩ := opCond_late htries hb hc hl hr
  refine ⟨e, tr, ?_, ht.rx, ht.bus⟩
  rw [hu, show InitStep.run .opCond = fromIOpCond from rfl, settle_raise hx, exitActions_inOp]
  rcases last with ⟨r, a | a⟩ | q <;> rfl

/-- A check of `I_COMMIT` fails (R235). -/
theorem exec_init_commitFails {err : Err} (hwf : s.wrk.scratch.wf = true) (hok : x.Ok s.par .commit)
    (hin : x.InTime s.env .commit)
    (hcheck : csdBlockCount x.csd.data = none ∧ err = .notSupported ∨
      (∃ n : BitVec 64, csdBlockCount x.csd.data = some n ∧ 2 ^ 32 ≤ n.toNat ∧ err = .notSupported) ∨
      csdBlockCount x.csd.data = some 0#64 ∧ err = .noBlocks)
    (hrx : s.env.rx = answersOf (x.moves .commit) ++ rest) :
    ∃ (e : Env) (tr : List Event) (m : Memory),
      exec .init s = .next (exitActions (some err) (s.initRead x m e tr)) ∧ e.rx = rest ∧
      x.Scratch .commit s.wrk.scratch m ∧ bus tr = bus s.trace ++ levels s.wrk.csActive (x.moves .commit) := by
  obtain ⟨e, tr, hx, hrest, hbus⟩ := exec_init_read hi hwf hok hin hrx
  refine ⟨e, tr, x.memory s.wrk.scratch .commit, ?_, hrest, memory_scratch x _ .commit hwf, hbus⟩
  rw [hx, settle_raise (fromICommit_error (by rw [inOp_ses, initRead_csd]; exact hcheck)), exitActions_inOp]

end Ends

/-- Settles O43: the two loops to their deadlines, and the checks of the commit. -/
theorem initErrors : Obligations.InitErrors := by
  unfold Obligations.InitErrors
  refine fun s x rest hi => ⟨fun last htries hin hb hl hrx => exec_init_noCard hi htries hin hb hl hrx, ?_,
    fun err hwf hok hin hcheck hrx => exec_init_commitFails hi hwf hok hin hcheck hrx⟩
  rintro last _ hok hin rfl htries hc hb hl hrx
  exact exec_init_opCondExpired hi hok hin htries hc hb hl hrx

/-! ### The ends at its commands -/

/-- INIT ends in the state `g` when that state, reached by the script, raises: the registers `v` it leaves, and its
moves `evs`. -/
theorem Leads.raise {s : State} {x : InitScript} {g : InitStep} {rest : List Answer} {evs : List Event} {err : Err}
    {v : Env → List Event → State} (h : Leads s x g) (hok : x.Ok s.par g) (hin : x.InTime s.env g)
    (hrx : s.env.rx = answersOf (x.moves g ++ evs) ++ rest)
    (hrun : ∀ u, Reached s x g (answersOf evs ++ rest) u → ∃ (e : Env) (tr : List Event) (n : Nat),
      g.run u = .error (.raise err) ((v e tr).inOp .init g.fsm) ∧
      Talked u.env u.trace n e tr rest (levels u.wrk.csActive evs)) :
    ∃ (e : Env) (tr : List Event), exec .init s = .next (exitActions (some err) (v e tr)) ∧ e.rx = rest ∧
      bus tr = bus s.trace ++ levels s.wrk.csActive (x.moves g ++ evs) := by
  rw [answersOf_append, List.append_assoc] at hrx
  obtain ⟨u, hu, hr⟩ := h _ hok hin hrx
  obtain ⟨e, tr, n, hx, ht⟩ := hrun u hr
  refine ⟨e, tr, by rw [hu, settle_raise hx, exitActions_inOp], ht.rx, ?_⟩
  rw [levels_append, ← hr.level]
  exact (hr.talked.trans ht).bus

/-! ### Moves that begin with the selection of the card -/

theorem answersOf_silent (q : Silence) (n : BitVec 6) (arg : BitVec 32) :
    answersOf ((Attempt.silent q).moves n arg) = (q.talk n arg ++ polls [q.last]).answers := by
  rw [Attempt.moves, List.cons_append, answersOf_cs, answersOf_append, answersOf_cs, answersOf_talk, answersOf_talk,
    Talk.answers_append]

theorem levels_silent (s : State) (q : Silence) (n : BitVec 6) (arg : BitVec 32) :
    levels s.wrk.csActive ((Attempt.silent q).moves n arg) =
      s.csEvents true ++ (q.talk n arg).events ++ [.cs false] ++ (polls [q.last]).events := by
  rw [Attempt.moves, List.cons_append, levels_cs, levels_append, levels_talk, levelAfter_talk]
  simp [levels, levels_talk]

theorem answersOf_selectTalk (k : Talk) : answersOf (.cs true :: k.events) = k.answers := answersOf_talk k

theorem levels_selectTalk (s : State) (k : Talk) :
    levels s.wrk.csActive (.cs true :: k.events) = s.csEvents true ++ k.events := by
  rw [levels_cs, levels_talk]

theorem answersOf_selectTalkDeselect (k : Talk) :
    answersOf (.cs true :: k.events ++ [.cs false]) = k.answers := by
  rw [answersOf_append, answersOf_selectTalk]
  exact List.append_nil _

theorem levels_selectTalkDeselect (s : State) (k : Talk) :
    levels s.wrk.csActive (.cs true :: k.events ++ [.cs false]) = s.csEvents true ++ k.events ++ [.cs false] := by
  rw [levels_append, levels_selectTalk, levelAfter, levelAfter_talk]
  rfl

/-! ### `I_IFCOND` -/

/-- The interface condition raises (R225). -/
theorem fromIIfCond_error {u v : State} {r : Stop} (h : interfaceCondition Config.cmd8Arg u = .error r v) :
    fromIIfCond u = .error r v := run_bind_error h

section IfCond

variable {s : State} {x : InitScript} {rest : List Answer} (hi : s.seq.op = .idle) (hok : x.Ok s.par .ifCond)
  (hin : x.InTime s.env .ifCond)
include hi hok hin

theorem exec_init_ifCondSilent {q : Silence} (hq : q.Ok s.par) (hc : q.InTime s.env (x.ticks .ifCond))
    (hrx : s.env.rx = answersOf (x.moves .ifCond ++ (Attempt.silent q).moves 8#6 Config.cmd8Arg) ++ rest) :
    ∃ (e : Env) (tr : List Event), exec .init s = .next (exitActions (some .respTimeout)
        ((s.initAt x .ifCond s.wrk.scratch).unanswered 8#6 Config.cmd8Arg (s.env.deadlineAt (x.ticks .ifCond) 300)
          e tr)) ∧ e.rx = rest ∧
      bus tr = bus s.trace ++ levels s.wrk.csActive
        (x.moves .ifCond ++ (Attempt.silent q).moves 8#6 Config.cmd8Arg) := by
  refine (leads_ifCond x hi).raise hok hin hrx fun u h => ?_
  have hrx := h.talked.rx
  rw [answersOf_silent] at hrx
  obtain ⟨e, tr, hx, ht⟩ := interfaceCondition_silent (h.par ▸ hq) hrx (h.talked.busyWait (i := 0) hc)
  rw [h.talked.deadlineAt, h.only.unanswered] at hx
  exact ⟨e, tr, _, fromIIfCond_error hx, ht.cast rfl (levels_silent ..).symm⟩

theorem exec_init_ifCondIllegal {r : CardReply} (hr : r.Ok s.par) (hillegal : illegalCommand r.resp = true)
    (hc : r.InTime s.env (x.ticks .ifCond))
    (hrx : s.env.rx = answersOf (x.moves .ifCond ++ .cs true :: (r.talk 8#6 Config.cmd8Arg).events) ++ rest) :
    ∃ (e : Env) (tr : List Event), exec .init s = .next (exitActions (some .notSupported)
        { (s.initAt x .ifCond s.wrk.scratch).answered 8#6 Config.cmd8Arg r.resp
            (s.env.deadlineAt (x.ticks .ifCond) 300) e tr with ses.kind := .sd1 }) ∧ e.rx = rest ∧
      bus tr = bus s.trace ++ levels s.wrk.csActive
        (x.moves .ifCond ++ .cs true :: (r.talk 8#6 Config.cmd8Arg).events) := by
  refine (leads_ifCond x hi).raise hok hin hrx fun u h => ?_
  have hrx := h.talked.rx
  rw [answersOf_selectTalk] at hrx
  obtain ⟨e, tr, hx, ht⟩ := interfaceCondition_illegal (h.par ▸ hr) hillegal hrx (h.talked.busyWait (i := 0) hc)
  rw [h.talked.deadlineAt, h.answered] at hx
  exact ⟨e, tr, _, fromIIfCond_error hx, ht.cast rfl (levels_selectTalk ..).symm⟩

theorem exec_init_ifCondMismatch {r : CardReply} {p : Vector Byte 4} (hr : r.Ok s.par)
    (hlegal : illegalCommand r.resp = false) (hp : r7Ok p = false) (hc : r.InTime s.env (x.ticks .ifCond))
    (hrx : s.env.rx = answersOf
      (x.moves .ifCond ++ .cs true :: (r.talk 8#6 Config.cmd8Arg ++ polls p.toList).events) ++ rest) :
    ∃ (e : Env) (tr : List Event), exec .init s = .next (exitActions (some .ifcondMismatch)
        { (s.initAt x .ifCond s.wrk.scratch).answered 8#6 Config.cmd8Arg r.resp
            (s.env.deadlineAt (x.ticks .ifCond) 300) e tr with wrk.r7 := p }) ∧ e.rx = rest ∧
      bus tr = bus s.trace ++ levels s.wrk.csActive
        (x.moves .ifCond ++ .cs true :: (r.talk 8#6 Config.cmd8Arg ++ polls p.toList).events) := by
  refine (leads_ifCond x hi).raise hok hin hrx fun u h => ?_
  have hrx := h.talked.rx
  rw [answersOf_selectTalk] at hrx
  obtain ⟨e, tr, hx, ht⟩ := interfaceCondition_payload (h.par ▸ hr) hlegal hrx (h.talked.busyWait (i := 0) hc)
  rw [h.talked.deadlineAt, h.answered, if_neg (ne_true_of_eq_false hp), run_raise] at hx
  exact ⟨e, tr, _, fromIIfCond_error hx, ht.cast rfl (levels_selectTalk ..).symm⟩

end IfCond

/-! ### The states that begin with a command that requires a zero status -/

/-- Such a state, its command and the argument (R230, R232, R233, R234). -/
inductive Demands : InitStep → BitVec 6 → BitVec 32 → Prop
  | ocr : Demands .ocr 58#6 0#32
  | blkLen : Demands .blkLen 16#6 Config.cmd16Arg
  | cid : Demands .cid 10#6 0#32
  | csd : Demands .csd 9#6 0#32

section Demands

variable {s u : State} {x : InitScript} {g : InitStep} {n : BitVec 6} {arg : BitVec 32} {rest : List Answer}

theorem Demands.leads (hd : Demands g n arg) (hi : s.seq.op = .idle) (hwf : s.wrk.scratch.wf = true) :
    Leads s x g := by
  cases hd with
  | ocr => exact leads_ocr x hi
  | blkLen => exact leads_blkLen x hi
  | cid => exact leads_cid x hi
  | csd => exact leads_csd x hi hwf

/-- None of them is the stream-stop command. -/
theorem Demands.index_ne (hd : Demands g n arg) : n ≠ 12#6 := by
  cases hd <;> decide

/-- The state is `ensure_zero_status` and a rest. -/
theorem Demands.run_eq (hd : Demands g n arg) (h : Reached s x g rest u) :
    ∃ k : Unit → Proc Unit, g.run u = (ensureZeroStatus n arg >>= k) u := by
  cases hd with
  | ocr =>
    have hk : u.ses.kind = .sd2 := by rw [h.only]; rfl
    have hocr : ocrStep u = readOcr 0#32 u := by rw [ocrStep, run_bind_ok (run_rd u), if_pos hk]
    have hrun : fromIOcr u = (readOcr 0#32 >>= fun _ => do goFsm .iBlkLen; fromIBlkLen : Proc Unit) u := by
      cases ho : ocrStep u with
      | ok a v => rw [fromIOcr, run_bind_ok ho, run_bind_ok (hocr.symm.trans ho)]
      | error r v => rw [fromIOcr, run_bind_error ho, run_bind_error (hocr.symm.trans ho)]
    exact ⟨_, hrun.trans (congrFun (bind_assoc ..) u)⟩
  | blkLen => exact ⟨_, rfl⟩
  | cid => exact ⟨_, congrFun (bind_assoc ..) u⟩
  | csd => exact ⟨_, congrFun (bind_assoc ..) u⟩

/-- The states of the register reads go on with the wait for the start token (R320). -/
theorem Demands.read_eq (hd : Demands g n arg) (hg : g = .cid ∨ g = .csd) :
    ∃ k : Unit → Proc Unit, g.run = (ensureZeroStatus n arg >>= fun _ => waitStartToken >>= k) := by
  cases hd with
  | ocr | blkLen => rcases hg with hg | hg <;> cases hg
  | cid => exact ⟨_, (bind_assoc ..).trans (congrArg _ (funext fun _ => bind_assoc ..))⟩
  | csd => exact ⟨_, (bind_assoc ..).trans (congrArg _ (funext fun _ => bind_assoc ..))⟩

variable (hd : Demands g n arg) (hi : s.seq.op = .idle) (hwf : s.wrk.scratch.wf = true) (hok : x.Ok s.par g)
  (hin : x.InTime s.env g)
include hd hi hwf hok hin

/-- The command fails (R194). -/
theorem exec_init_notClear {a : Attempt} (ha : a.Ok s.par) (hn : a.NotClear) (hc : a.InTime s.env (x.ticks g))
    (hrx : s.env.rx = answersOf (x.moves g ++ a.moves n arg) ++ rest) :
    ∃ (e : Env) (tr : List Event), exec .init s = .next (exitActions (some a.reply.error)
        ((s.initAt x g (x.memory s.wrk.scratch g)).attempted n arg a (s.env.deadlineAt (x.ticks g) 300) e tr)) ∧
      e.rx = rest ∧ bus tr = bus s.trace ++ levels s.wrk.csActive (x.moves g ++ a.moves n arg) := by
  refine (hd.leads hi hwf).raise hok hin hrx fun u h => ?_
  obtain ⟨k, hk⟩ := hd.run_eq h
  obtain ⟨e, tr, hx, ht⟩ := ensureZeroStatus_failed hd.index_ne (h.par ▸ ha) hn h.talked.rx
    (h.talked.attempt (i := 0) hc)
  rw [h.talked.deadlineAt, h.attempted] at hx
  exact ⟨e, tr, _, hk.trans (run_bind_error hx), ht⟩

/-- The command of a register read is answered, and no start token comes (R305, R322). -/
theorem exec_init_noToken {r : CardReply} {q : NoToken} (hg : g = .cid ∨ g = .csd) (hr : r.Ok s.par)
    (h0 : r.resp = 0x00#8) (hlast : q.last ≠ Config.startToken) (hc : r.InTime s.env (x.ticks g))
    (hq : q.InTime s.env (x.ticks g + r.ticks))
    (hrx : s.env.rx =
      answersOf (x.moves g ++ (.cs true :: (r.talk n arg ++ q.talk).events ++ [.cs false])) ++ rest) :
    ∃ (e : Env) (tr : List Event), exec .init s = .next (exitActions (some .startToken)
        { (s.initAt x g (x.memory s.wrk.scratch g)).answered n arg 0x00#8
            (s.env.deadlineAt (x.ticks g + r.ticks) 300) e tr with wrk.csActive := false }) ∧
      e.rx = rest ∧ bus tr = bus s.trace ++ levels s.wrk.csActive
        (x.moves g ++ (.cs true :: (r.talk n arg ++ q.talk).events ++ [.cs false])) := by
  refine (hd.leads hi hwf).raise hok hin hrx fun u h => ?_
  obtain ⟨k, hk⟩ := hd.read_eq hg
  have hrx := h.talked.rx
  rw [answersOf_selectTalkDeselect, Talk.answers_append, List.append_assoc] at hrx
  obtain ⟨e, tr, hx, ht⟩ := ensureZeroStatus_run hd.index_ne (h.par ▸ hr) h0 hrx (h.talked.busyWait (i := 0) hc)
  have ht' := h.talked.trans ht
  obtain ⟨e1, tr1, hx1, ht1⟩ := waitStartToken_none (s := u.answered n arg 0x00#8 (u.env.deadlineAt 0 300) e tr) rfl
    hlast ht.rx (ht'.noToken (i := 0) hq)
  have hdl1 : (u.answered n arg 0x00#8 (u.env.deadlineAt 0 300) e tr).env.deadlineAt 0 300 =
      s.env.deadlineAt (x.ticks g + r.ticks) 300 := ht'.deadlineAt 0 300
  refine ⟨e1, tr1, _, ?_, (ht.trans ht1).cast rfl ?_⟩
  · rw [hk, run_bind_ok hx, run_bind_error hx1, hdl1, h.answered]
    rfl
  · rw [levels_selectTalkDeselect, Talk.events_append]
    simp only [List.append_assoc]

end Demands

/-- Settles O44: in each state that the script reaches, the run of what fails there. -/
theorem initCommandErrors : Obligations.InitCommandErrors := by
  unfold Obligations.InitCommandErrors
  refine fun s x rest hi hwf => ⟨fun hok hin => ⟨fun q hq hc hrx => ?_, fun r hr hillegal hc hrx => ?_,
    fun r p hr hlegal hp hc hrx => ?_⟩, fun g n arg hmem hok hin => ?_⟩
  · obtain ⟨e, tr, hx, hrest, hbus⟩ := exec_init_ifCondSilent hi hok hin hq hc hrx
    exact ⟨e, tr, _, hx, hrest, memory_scratch x _ .ifCond hwf, hbus⟩
  · obtain ⟨e, tr, hx, hrest, hbus⟩ := exec_init_ifCondIllegal hi hok hin hr hillegal hc hrx
    exact ⟨e, tr, _, hx, hrest, memory_scratch x _ .ifCond hwf, hbus⟩
  · obtain ⟨e, tr, hx, hrest, hbus⟩ := exec_init_ifCondMismatch hi hok hin hr hlegal hp hc hrx
    exact ⟨e, tr, _, hx, hrest, memory_scratch x _ .ifCond hwf, hbus⟩
  · have hd : Demands g n arg := by
      simp only [List.mem_cons, List.not_mem_nil, or_false, Prod.mk.injEq] at hmem
      rcases hmem with ⟨rfl, rfl, rfl⟩ | ⟨rfl, rfl, rfl⟩ | ⟨rfl, rfl, rfl⟩ | ⟨rfl, rfl, rfl⟩ <;> constructor
    refine ⟨fun a ha hn hc hrx => ?_, fun r q hg hr h0 hlast hc hq hrx => ?_⟩
    · obtain ⟨e, tr, hx, hrest, hbus⟩ := exec_init_notClear hd hi hwf hok hin ha hn hc hrx
      exact ⟨e, tr, _, hx, hrest, memory_scratch x _ g hwf, hbus⟩
    · rw [List.append_assoc] at hrx ⊢
      obtain ⟨e, tr, hx, hrest, hbus⟩ := exec_init_noToken hd hi hwf hok hin hg hr h0 hlast hc hq hrx
      exact ⟨e, tr, _, hx, hrest, memory_scratch x _ g hwf, hbus⟩

end Sys2Proof.Machine
end

