-- ==== Sys2Proof/Proofs/RegisterHistory.lean ====
section
/-! PROOFS. What a register read leaves in the history, for every card and every clock (R320): if it ends well, the
history has grown by the frame of its command, the response 0x00, the start token and the bytes of the image it
returns. One rule per primitive, one lemma per procedure. -/

namespace Sys2Proof.Machine

variable {α : Type} {h : List Event} {m : Memory}

/-! ### The bus history and the scratch buffer -/

/-- The transport has seen `h`, and the scratch buffer is `m`. -/
def State.Heard (h : List Event) (m : Memory) (s : State) : Prop := bus s.trace = h ∧ s.wrk.scratch = m

/-- `EndsWell` from what it says of each run. -/
theorem endsWell_of_ok {P : State → Prop} {p : Proc α} {Q : α → State → Prop}
    (hp : ∀ {s t : State} {a : α}, P s → p s = .ok a t → Q a t) : EndsWell P p Q := ⟨hp, fun _ _ => trivial⟩

/-- A weaker postcondition. -/
theorem EndsWell.mono {P : State → Prop} {p : Proc α} {Q Q' : α → State → Prop} (hp : EndsWell P p Q)
    (hQ : ∀ a s, Q a s → Q' a s) : EndsWell P p Q' := ends_weaken hp (fun _ hs => hs) hQ fun _ _ h => h

theorem heard_pure (a : α) : EndsWell (State.Heard h m) (pure a) fun _ => State.Heard h m := ends_pure a fun _ hs => hs

theorem heard_rd : EndsWell (State.Heard h m) rd fun _ => State.Heard h m :=
  EndsWell.mono ends_rd fun _ _ hs => hs.1

theorem heard_upd {f : State → State} (hf : ∀ s, (f s).trace = s.trace ∧ (f s).wrk.scratch = s.wrk.scratch) :
    EndsWell (State.Heard h m) (upd f) fun _ => State.Heard h m :=
  ends_upd fun s hs => ⟨(congrArg bus (hf s).1).trans hs.1, (hf s).2.trans hs.2⟩

theorem heard_goCfsm (x : Cfsm) : EndsWell (State.Heard h m) (goCfsm x) fun _ => State.Heard h m :=
  heard_upd fun _ => ⟨rfl, rfl⟩

theorem heard_now : EndsWell (State.Heard h m) now fun _ => State.Heard h m :=
  endsWell_of_ok fun hs hp => by cases hp; exact ⟨(bus_sample _ _).trans hs.1, hs.2⟩

/-- An exchange that is not failed is seen with the byte it returns. -/
theorem heard_xchg (b : Byte) :
    EndsWell (State.Heard h m) (xchg b) fun r => State.Heard (h ++ [.xchg b (.byte r)]) m :=
  ends_xchg (fun s r hs hn => ⟨by rw [afterXchg_trace, bus_xchg, hn, hs.1], hs.2⟩) fun _ _ _ _ => trivial

theorem heard_sendAll : ∀ (bs : List Byte) (h : List Event), EndsWell (State.Heard h m) (sendAll bs)
    fun _ s => ∃ got : List Byte, got.length = bs.length ∧ s.Heard (h ++ Talk.events (bs.zip got)) m
  | [], h => ends_pure () fun s hs => ⟨[], rfl, by simpa [Talk.events] using hs⟩
  | b :: bs, h => (heard_xchg b).step fun r => EndsWell.mono (heard_sendAll bs _) fun _ s ⟨got, hlen, hs⟩ =>
      ⟨r :: got, by simp [hlen], by simpa [Talk.events] using hs⟩

theorem polls_eq_zip (bs : List Byte) : polls bs = (List.replicate bs.length Config.fill).zip bs :=
  List.zip_of_prod (polls_fst bs) (by simp [polls, Function.comp_def])

theorem heard_discard (n : Nat) (h : List Event) : EndsWell (State.Heard h m) (discard n)
    fun _ s => ∃ got : List Byte, got.length = n ∧ s.Heard (h ++ (polls got).events) m :=
  EndsWell.mono (heard_sendAll _ h) fun _ s ⟨got, hlen, hs⟩ => by
    rw [List.length_replicate] at hlen
    exact ⟨got, hlen, by rw [polls_eq_zip, hlen]; exact hs⟩

/-! ### The command -/

/-- More was seen since `h`. -/
def State.HeardMore (h : List Event) (m : Memory) (s : State) : Prop := ∃ past : List Event, s.Heard (h ++ past) m

/-- Whatever the command engine does, the history grows and the scratch buffer stays. -/
theorem heardMore_engine {p : Proc α} (hgrow : Always DrawsWhatItShows p) (hkept : Always SameUnwritten p) :
    EndsWell (State.HeardMore h m) p fun _ => State.HeardMore h m :=
  endsWell_of_ok fun ⟨past, hbus, hm⟩ hp => by
    obtain ⟨new, hnew, -⟩ := hgrow.ok hp
    refine ⟨past ++ bus new, ?_, ((hkept.ok hp).read (·.wrk.scratch) fun _ => rfl).trans hm⟩
    rw [hnew, ← List.append_assoc, ← hbus]
    simp [bus]

/-- The bytes received while a frame is sent. -/
theorem heard_framePhase (n : BitVec 6) (arg : BitVec 32) (h : List Event) :
    EndsWell (State.Heard h m) (framePhase n arg)
      fun _ s => ∃ during : Vector Byte 6, s.Heard (h ++ (frameTalk n arg during).events) m :=
  (heard_goCfsm _).step fun _ => (heard_upd fun _ => ⟨rfl, rfl⟩ : EndsWell _ (setFrame _) _).step fun _ =>
    EndsWell.mono (heard_sendAll _ h) fun _ _ ⟨got, hlen, hs⟩ => ⟨⟨got.toArray, by simpa using hlen⟩, hs⟩

/-- The history ends with a frame, sent at some time after `h`. -/
def State.HeardFrame (h : List Event) (m : Memory) (n : BitVec 6) (arg : BitVec 32) (s : State) : Prop :=
  ∃ (past : List Event) (during : Vector Byte 6), s.Heard (h ++ past ++ (frameTalk n arg during).events) m

theorem heardFrame_sendCommand {n : BitVec 6} (hn : n ≠ 12#6) (arg : BitVec 32) :
    EndsWell (State.HeardMore h m) (sendCommand n arg) fun _ => State.HeardFrame h m n arg := by
  have hD := DrawsWhatItShows.machineKeeps.toEngineKeeps
  have hS := sameUnwritten_engineKeeps
  refine (heardMore_engine (always_goCfsm hD _) (always_goCfsm hS _)).step fun _ =>
    (heardMore_engine (always_cs hD.withCs true) (always_cs hS.withCs true)).step fun _ =>
      (heardMore_engine (always_busyPhase hD n) (always_busyPhase hS n)).step fun _ => ?_
  refine Ends.step (Q := fun _ => State.HeardFrame h m n arg)
    (endsWell_of_ok fun ⟨past, hs⟩ hp => ⟨past, (heard_framePhase n arg _).ok hs hp⟩) fun _ => ?_
  unfold stuffPhase
  rw [if_neg hn]
  exact ends_pure () fun _ hs => hs

theorem heard_pollResponse : ∀ (n : Nat) (h : List Event), EndsWell (State.Heard h m) (pollResponse n)
    fun o s => ∀ b, o = some b →
      ∃ pend : List Byte, (∀ c ∈ pend, pending c = true) ∧ s.Heard (h ++ (polls (pend ++ [b])).events) m
  | 0, _ => ends_pure _ fun _ _ _ hb => nomatch hb
  | n + 1, h => (heard_xchg _).step fun r => ends_ite
      (fun hr => EndsWell.mono (heard_pollResponse n _) fun _ s hs b hb =>
        have ⟨pend, hpend, hheard⟩ := hs b hb
        ⟨r :: pend, by simpa [hr] using hpend, by simpa [Talk.events, polls] using hheard⟩)
      fun _ => ends_pure _ fun s hs b hb => by
        cases hb
        exact ⟨[], by simp, hs⟩

/-- The history ends with a frame, sent at some time after `h`, and its response. -/
def State.HeardReply (h : List Event) (m : Memory) (n : BitVec 6) (arg : BitVec 32) (resp : Byte) (s : State) : Prop :=
  ∃ (past : List Event) (during : Vector Byte 6) (pend : List Byte), (∀ b ∈ pend, pending b = true) ∧
    s.Heard (h ++ past ++ (frameTalk n arg during ++ polls (pend ++ [resp])).events) m

theorem heardReply_issueCommand {n : BitVec 6} (hn : n ≠ 12#6) (arg : BitVec 32) :
    EndsWell (State.HeardMore h m) (issueCommand n arg)
      fun r s => r.rto = false → s.HeardReply h m n arg r.status := by
  refine (heardFrame_sendCommand hn arg).step fun _ => ?_
  have hpoll (past : List Event) (during : Vector Byte 6) : EndsWell
      (State.Heard (h ++ past ++ (frameTalk n arg during).events) m)
      (do goCfsm .cPoll; let s ← rd; let r ← pollResponse (s.par.pollExtra + 1); finishCommand r)
      fun r s => r.rto = false → s.HeardReply h m n arg r.status := by
    refine (heard_goCfsm _).step fun _ => heard_rd.step fun _ => (heard_pollResponse _ _).step fun o => ?_
    cases o with
    | none => exact (endsWell_trivial _).step fun _ => (endsWell_trivial _).step fun _ =>
        (endsWell_trivial _).step fun _ => (endsWell_trivial _).step fun _ => ends_pure _ fun _ _ hr => nomatch hr
    | some b =>
      refine endsWell_of_ok fun hs hp _ => ?_
      obtain ⟨pend, hpend, hheard⟩ := hs b rfl
      cases hp
      exact ⟨past, during, pend, hpend, by simpa [Talk.events_append] using hheard.1, hheard.2⟩
  exact endsWell_of_ok fun ⟨past, during, hs⟩ hp => (hpoll past during).ok hs hp

theorem heardReply_ensureZeroStatus {n : BitVec 6} (hn : n ≠ 12#6) (arg : BitVec 32) :
    EndsWell (State.HeardMore h m) (ensureZeroStatus n arg) fun _ => State.HeardReply h m n arg 0x00#8 := by
  refine (heardReply_issueCommand hn arg).step fun r => ?_
  cases hc : classify r.status r.rto with
  | timeout => exact endsWell_raise _
  | idleOnly => exact endsWell_raise _
  | flagged => exact endsWell_raise _
  | clear =>
    obtain ⟨hrto, hstatus⟩ := (classify_eq_clear_iff _ _).mp hc
    exact ends_pure () fun _ hs => hstatus ▸ hs hrto

/-! ### The data phase -/

theorem heard_loadDl1 (T : Nat) : EndsWell (State.Heard h m) (loadDl1 T) fun _ => State.Heard h m :=
  (heard_now.step fun _ => ends_ite (fun _ => heard_pure _) fun _ => endsWell_stop _ :
    EndsWell _ (deadline T) fun _ => State.Heard h m).step fun _ => heard_upd fun _ => ⟨rfl, rfl⟩

theorem heard_expiredDl1 : EndsWell (State.Heard h m) expiredDl1 fun _ => State.Heard h m :=
  heard_now.step fun _ => heard_rd.step fun _ => heard_pure _

theorem heard_tokenLoop : ∀ (n : Nat) (h : List Event), EndsWell (State.Heard h m) (tokenLoop n)
    fun _ s => ∃ gap : Nat,
      s.Heard (h ++ (polls (List.replicate gap Config.idleLine ++ [Config.startToken])).events) m
  | 0, _ => endsWell_stop _
  | n + 1, h => by
    refine (heard_xchg _).step fun b => ?_
    cases hb : tokenClass b with
    | start =>
      obtain rfl : b = Config.startToken := (tokenClass_eq_start_iff b).mp hb
      exact ends_pure () fun s hs => ⟨0, hs⟩
    | invalid => exact (endsWell_trivial _).step fun _ => endsWell_raise _
    | idleLine =>
      obtain rfl : b = Config.idleLine := (tokenClass_eq_idleLine_iff b).mp hb
      refine heard_expiredDl1.step fun _ => ends_ite
        (fun _ => (endsWell_trivial _).step fun _ => endsWell_raise _) fun _ => ?_
      exact EndsWell.mono (heard_tokenLoop n _) fun _ s ⟨gap, hs⟩ =>
        ⟨gap + 1, by simpa [Talk.events, polls, List.replicate_succ] using hs⟩

theorem heard_waitStartToken (h : List Event) : EndsWell (State.Heard h m) waitStartToken
    fun _ s => ∃ gap : Nat,
      s.Heard (h ++ (polls (List.replicate gap Config.idleLine ++ [Config.startToken])).events) m :=
  (heard_loadDl1 _).step fun _ => heard_rd.step fun _ => heard_tokenLoop _ h

theorem heard_scratchWrite (i : Nat) (v : Byte) :
    EndsWell (State.Heard h m) (scratchWrite i v) fun _ => State.Heard h (m.set i v) :=
  endsWell_of_ok fun {s t a} hs hp => by
    unfold scratchWrite at hp
    split at hp <;> cases hp
    exact ⟨hs.1, congrArg (Memory.set · i v) hs.2⟩

theorem heard_receiveScratch : ∀ (k i : Nat) (h : List Event) (m : Memory),
    EndsWell (State.Heard h m) (receiveScratch k i)
      fun _ s => ∃ data : List Byte, data.length = k ∧ s.Heard (h ++ (polls data).events) (m.write i data)
  | 0, _, _, _ => ends_pure () fun s hs => ⟨[], rfl, by simpa [polls, Talk.events, Memory.write] using hs⟩
  | k + 1, i, h, m => (heard_xchg _).step fun b => (heard_scratchWrite i b).step fun _ =>
      EndsWell.mono (heard_receiveScratch k (i + 1) _ _) fun _ s ⟨data, hlen, hs⟩ =>
        ⟨b :: data, by simp [hlen], by simpa [Talk.events, polls, Memory.write] using hs⟩

theorem imageOf_bytes_write {m : Memory} (hm : m.wf = true) {data : List Byte} (hlen : data.length = 16) :
    imageOf ((m.write 0 data).bytes 0 16) = ⟨data.toArray, by simpa using hlen⟩ := by
  have hb := Memory.bytes_write data m 0 (by rw [hlen]; decide) hm
  rw [hlen] at hb
  rw [hb]
  ext i hi
  simp [imageOf, hlen]

/-- The data phase of a register read returns the image it received (R320). -/
theorem heard_readData (hm : m.wf = true) (h : List Event) : EndsWell (State.Heard h m)
    (do
      waitStartToken
      receiveScratch Config.regLen 0
      discard 2
      cs false
      let s ← rd
      pure (imageOf (s.wrk.scratch.bytes 0 Config.regLen)))
    fun img s => ∃ (d : DataReply 16) (after : List Event), d.data = img ∧
      bus s.trace = h ++ d.talk.events ++ after := by
  refine endsWell_of_ok fun {s t img} hs hp => ?_
  obtain ⟨_, s1, h1, hp⟩ := bind_ok_inv hp
  obtain ⟨_, s2, h2, hp⟩ := bind_ok_inv hp
  obtain ⟨_, s3, h3, hp⟩ := bind_ok_inv hp
  obtain ⟨gap, hs1⟩ := (heard_waitStartToken _).ok hs h1
  obtain ⟨data, hlen, hs2⟩ := (heard_receiveScratch _ _ _ _).ok hs1 h2
  replace hlen : data.length = 16 := hlen
  obtain ⟨crc, hcrc, hbus, hscratch⟩ := (heard_discard _ _).ok hs2 h3
  obtain ⟨high, low, rfl⟩ := List.length_eq_two.mp hcrc
  cases hp
  refine ⟨{ gap := gap, data := ⟨data.toArray, by simpa using hlen⟩, crcHigh := high, crcLow := low },
    s3.csEvents false, ?_, ?_⟩
  · rw [withCs_wrk, hscratch]
    exact (imageOf_bytes_write hm hlen).symm
  · rw [bus_withCs, hbus]
    simp only [DataReply.talk, Talk.events_append, polls_append, Vector.toList_mk, List.append_assoc]

/-- A register read that ends well is in the history with the image it returns (R320). -/
theorem readBy_readRegister (s : State) {n : BitVec 6} (hn : n ≠ 12#6) :
    EndsWell (fun u => u.wrk.scratch.wf = true ∧ ∃ past, bus u.trace = bus s.trace ++ past) (readRegister n 0#32)
      fun img t => ReadBy s t n img :=
  endsWell_of_ok fun {u t img} ⟨hm, past, hpast⟩ hp => by
    obtain ⟨_, u1, h1, hp⟩ := bind_ok_inv hp
    obtain ⟨before, during, pend, hpend, hs⟩ :=
      (heardReply_ensureZeroStatus hn 0#32).ok (⟨past, hpast, rfl⟩ : u.HeardMore (bus s.trace) u.wrk.scratch) h1
    obtain ⟨d, after, hd, hbus⟩ := (heard_readData hm _).ok hs hp
    refine ⟨before, after, during, pend, d, hd, hpend, ?_⟩
    rw [hbus]
    simp [Talk.events_append]

end Sys2Proof.Machine
end

