-- ==== Sys2Proof/Proofs/InitOutcome.lean ====
section
/-! PROOFS. What INIT leaves on each outcome (R241), for every card and every clock. What it has done so far shows in
the session, the scratch buffer and the history: a `Claim` about the three is carried through every procedure of the
command engine, and each state of INIT makes the next claim. -/

namespace Sys2Proof.Machine

variable {α β : Type}

/-! ### Claims carried through the command engine -/

/-- A claim about the session, the scratch buffer and the history. -/
abbrev Claim := Session → Memory → List Event → Prop

/-- The claim holds in the state. -/
def State.Has (J : Claim) (s : State) : Prop := J s.ses s.wrk.scratch s.trace

/-- Where a procedure raises an error, the claim of that error holds. -/
def StopsIn (F : Err → Claim) : Stop → State → Prop
  | .raise e, s => s.Has (F e)
  | .fault _, _ => True
  | .refuse _, _ => True

/-- From claim `J` the procedure ends well in `J'`, or raises an error with its claim. -/
abbrev Keeping {α : Type} (J : Claim) (F : Err → Claim) (p : Proc α) (J' : Claim) : Prop :=
  Ends (State.Has J) p (fun _ => State.Has J') (StopsIn F)

/-- The claim stays when the event is added to the history. -/
def Claim.Admits (J : Claim) (ev : Event) : Prop := ∀ ses m tr, J ses m tr → J ses m (ev :: tr)

/-- The claim implies another. -/
def Claim.Implies (J J' : Claim) : Prop := ∀ ses m tr, J ses m tr → J' ses m tr

/-- Neither `E_NOT_SUPPORTED` nor `E_NO_BLOCKS`: the errors of INIT beside its classification SD1 and its commit
(R364). -/
def Err.Plain (e : Err) : Prop := e ≠ .notSupported ∧ e ≠ .noBlocks

/-- The claim stays through whatever the command engine does but selecting the card and sending a frame, and an error
raised there has its claim. -/
structure Carries (J : Claim) (F : Err → Claim) : Prop where
  fill : ∀ a, J.Admits (.xchg Config.fill a)
  deselect : J.Admits (.cs false)
  sample : ∀ t, J.Admits (.sample t)
  scratch : ∀ {ses m tr} i (v : Byte), i < Config.blockLen → J ses m tr → J ses (m.set i v) tr
  raises : ∀ e : Err, e.Plain → J.Implies (F e)

/-- What a command needs: one claim up to its frame, one from the frame on. -/
structure Commands (J J' : Claim) (F : Err → Claim) (n : BitVec 6) (arg : BitVec 32) : Prop where
  before : Carries J F
  select : J.Admits (.cs true)
  goOn : J.Implies J'
  frame : ∀ b ∈ (frameOf n arg).toList, ∀ a, J'.Admits (.xchg b a)
  after : Carries J' F

variable {J J' : Claim} {F : Err → Claim}

theorem keeping_pure (a : α) : Keeping J F (pure a) J := ends_pure a fun _ hs => hs

theorem keeping_rd : Keeping J F rd J := ends_weaken ends_rd (fun _ hs => hs) (fun _ _ hs => hs.1) fun _ _ h => h

theorem keeping_refuse (r : Refusal) {Q : α → State → Prop} : Ends (State.Has J) (stop (.refuse r)) Q (StopsIn F) :=
  ends_stop _ fun _ _ => trivial

theorem keeping_implies {p : Proc α} (h : J.Implies J') {Q : α → State → Prop}
    (hp : Ends (State.Has J') p Q (StopsIn F)) : Ends (State.Has J) p Q (StopsIn F) :=
  ends_weaken hp (fun _ hs => h _ _ _ hs) (fun _ _ h => h) fun _ _ h => h

theorem State.Has.withCs {s : State} {a : Bool} (hs : s.Has J) (ha : J.Admits (.cs a)) : (s.withCs a).Has J := by
  unfold State.Has
  rw [withCs_ses, withCs_wrk, withCs_trace]
  split
  · exact hs
  · exact ha _ _ _ hs

theorem State.Has.exitActions {s : State} {r : Option Err} (hs : s.Has J) (h : J.Admits (.cs false)) :
    (Machine.exitActions r s).Has J := hs.withCs h

theorem keeping_cs {a : Bool} (ha : J.Admits (.cs a)) : Keeping J F (cs a) J := ends_upd fun _ hs => hs.withCs ha

/-- A register write outside the session and the scratch buffer. -/
theorem keeping_upd {f : State → State}
    (hf : ∀ s, (f s).ses = s.ses ∧ (f s).wrk.scratch = s.wrk.scratch ∧ (f s).trace = s.trace) :
    Keeping J F (upd f) J :=
  ends_upd fun s hs => by
    obtain ⟨hses, hscratch, htrace⟩ := hf s
    unfold State.Has
    rw [hses, hscratch, htrace]
    exact hs

theorem keeping_goCfsm (x : Cfsm) : Keeping J F (goCfsm x) J := keeping_upd fun _ => ⟨rfl, rfl, rfl⟩

theorem keeping_goFsm (x : Fsm) : Keeping J F (goFsm x) J := keeping_upd fun _ => ⟨rfl, rfl, rfl⟩

theorem keeping_endCommand (b : Byte) (t : Bool) : Keeping J F (endCommand b t) J :=
  keeping_upd fun _ => ⟨rfl, rfl, rfl⟩

section Carried

variable (h : Carries J F)
include h

theorem keeping_raise (e : Err) (he : e.Plain) {Q : α → State → Prop} :
    Ends (State.Has J) (raise e) Q (StopsIn F) := ends_raise e fun _ hs => h.raises e he _ _ _ hs

theorem keeping_now : Keeping J F now J where
  ok hs hp := by cases hp; exact h.sample _ _ _ _ hs
  err _ hp := by cases hp

theorem keeping_xchg {b : Byte} (hb : ∀ a, J.Admits (.xchg b a)) : Keeping J F (xchg b) J :=
  ends_xchg (fun _ _ hs _ => hb _ _ _ _ hs) fun _ c hs _ => h.raises (.transport c) ⟨nofun, nofun⟩ _ _ _ (hb _ _ _ _ hs)

theorem keeping_fill : Keeping J F (xchg Config.fill) J := keeping_xchg h h.fill

theorem keeping_sendAll : ∀ bs : List Byte, (∀ b ∈ bs, ∀ a, J.Admits (.xchg b a)) → Keeping J F (sendAll bs) J
  | [], _ => keeping_pure ()
  | b :: bs, hbs => (keeping_xchg h (hbs b List.mem_cons_self)).step fun _ =>
      keeping_sendAll bs fun c hc => hbs c (List.mem_cons_of_mem _ hc)

theorem keeping_discard (n : Nat) : Keeping J F (discard n) J :=
  keeping_sendAll h _ fun b hb => by
    obtain rfl := List.eq_of_mem_replicate hb
    exact h.fill

theorem keeping_deadline (T : Nat) : Keeping J F (deadline T) J :=
  (keeping_now h).step fun _ => ends_ite (fun _ => keeping_pure _) fun _ => keeping_refuse _

theorem keeping_loadDl0 (T : Nat) : Keeping J F (loadDl0 T) J :=
  (keeping_deadline h T).step fun _ => keeping_upd fun _ => ⟨rfl, rfl, rfl⟩

theorem keeping_loadDl1 (T : Nat) : Keeping J F (loadDl1 T) J :=
  (keeping_deadline h T).step fun _ => keeping_upd fun _ => ⟨rfl, rfl, rfl⟩

theorem keeping_expiredDl0 : Keeping J F expiredDl0 J :=
  (keeping_now h).step fun _ => keeping_rd.step fun _ => keeping_pure _

theorem keeping_expiredDl1 : Keeping J F expiredDl1 J :=
  (keeping_now h).step fun _ => keeping_rd.step fun _ => keeping_pure _

/-! ### The waits -/

theorem keeping_busyLoop : ∀ n, Keeping J F (busyLoop n) J
  | 0 => keeping_refuse _
  | n + 1 => (keeping_fill h).step fun _ => ends_ite (fun _ => keeping_pure _) fun _ =>
      (keeping_expiredDl1 h).step fun _ => ends_ite (fun _ => keeping_pure _) fun _ => keeping_busyLoop n

theorem keeping_waitNotBusy (T : Nat) : Keeping J F (waitNotBusy T) J :=
  (keeping_loadDl1 h T).step fun _ => keeping_rd.step fun _ => keeping_busyLoop h _

theorem keeping_tokenLoop : ∀ n, Keeping J F (tokenLoop n) J
  | 0 => keeping_refuse _
  | n + 1 => by
    have hlate : Keeping (α := Unit) J F (do cs false; raise .startToken) J :=
      (keeping_cs h.deselect).step fun _ => keeping_raise h .startToken ⟨nofun, nofun⟩
    refine (keeping_fill h).step fun b => ?_
    cases tokenClass b with
    | start => exact keeping_pure ()
    | invalid => exact hlate
    | idleLine =>
      exact (keeping_expiredDl1 h).step fun _ => ends_ite (fun _ => hlate) fun _ => keeping_tokenLoop n

theorem keeping_waitStartToken : Keeping J F waitStartToken J :=
  (keeping_loadDl1 h _).step fun _ => keeping_rd.step fun _ => keeping_tokenLoop h _

/-! ### The parts of a command -/

theorem keeping_busyPhase (n : BitVec 6) : Keeping J F (busyPhase n) J :=
  ends_ite (fun _ => keeping_pure ()) fun _ =>
    (keeping_goCfsm _).step fun _ => (keeping_waitNotBusy h _).step fun _ => keeping_pure ()

theorem keeping_framePhase {n : BitVec 6} {arg : BitVec 32}
    (hframe : ∀ b ∈ (frameOf n arg).toList, ∀ a, J.Admits (.xchg b a)) : Keeping J F (framePhase n arg) J :=
  (keeping_goCfsm _).step fun _ =>
    (keeping_upd fun _ => ⟨rfl, rfl, rfl⟩ : Keeping J F (setFrame _) J).step fun _ => keeping_sendAll h _ hframe

theorem keeping_stuffPhase (n : BitVec 6) : Keeping J F (stuffPhase n) J :=
  ends_ite (fun _ => (keeping_goCfsm _).step fun _ => keeping_discard h 1) fun _ => keeping_pure ()

theorem keeping_pollResponse : ∀ n, Keeping J F (pollResponse n) J
  | 0 => keeping_pure _
  | n + 1 => (keeping_fill h).step fun _ => ends_ite (fun _ => keeping_pollResponse n) fun _ => keeping_pure _

theorem keeping_finishCommand : ∀ o, Keeping J F (finishCommand o) J
  | some b => (keeping_endCommand b false).step fun _ => keeping_pure _
  | none => (keeping_goCfsm _).step fun _ => (keeping_cs h.deselect).step fun _ =>
      (keeping_discard h 1).step fun _ => (keeping_endCommand _ true).step fun _ => keeping_pure _

theorem keeping_receiveScratch : ∀ k i, Keeping J F (receiveScratch k i) J
  | 0, _ => keeping_pure ()
  | k + 1, i => (keeping_fill h).step fun b =>
      (⟨fun hs hp => by
          unfold scratchWrite at hp
          split at hp <;> cases hp
          exact h.scratch _ b ‹_› hs,
        fun _ hp => by
          unfold scratchWrite at hp
          split at hp <;> cases hp
          trivial⟩ : Keeping J F (scratchWrite i b) J).step fun _ => keeping_receiveScratch k (i + 1)

theorem keeping_receiveR7 (i : Fin 4) : Keeping J F (receiveR7 i) J :=
  (keeping_fill h).step fun _ => keeping_upd fun _ => ⟨rfl, rfl, rfl⟩

end Carried

/-! ### The commands -/

section Commanded

variable {n : BitVec 6} {arg : BitVec 32}

/-- A command that sends no byte the claim minds. -/
theorem Carries.commands (h : Carries J F) (hselect : J.Admits (.cs true))
    (hframe : ∀ b ∈ (frameOf n arg).toList, ∀ a, J.Admits (.xchg b a)) : Commands J J F n arg :=
  ⟨h, hselect, fun _ _ _ hs => hs, hframe, h⟩

theorem keeping_sendCommand (h : Commands J J' F n arg) : Keeping J F (sendCommand n arg) J' :=
  (keeping_goCfsm _).step fun _ => (keeping_cs h.select).step fun _ => (keeping_busyPhase h.before n).step fun _ =>
    keeping_implies h.goOn <|
      (keeping_framePhase h.after h.frame).step fun _ => keeping_stuffPhase h.after n

theorem keeping_issueCommand (h : Commands J J' F n arg) : Keeping J F (issueCommand n arg) J' :=
  (keeping_sendCommand h).step fun _ => (keeping_goCfsm _).step fun _ => keeping_rd.step fun _ =>
    (keeping_pollResponse h.after _).step fun o => keeping_finishCommand h.after o

theorem keeping_issueAppCommand (hprefix : Commands J J F 55#6 0#32) (h : Commands J J F n arg) :
    Keeping J F (issueAppCommand n arg) J :=
  (keeping_issueCommand hprefix).step fun _ => ends_ite (fun _ => keeping_pure _) fun _ => keeping_issueCommand h

theorem keeping_ensureZeroStatus (h : Commands J J' F n arg) : Keeping J F (ensureZeroStatus n arg) J' := by
  refine (keeping_issueCommand h).step fun r => ?_
  cases classify r.status r.rto with
  | timeout => exact keeping_raise h.after .respTimeout ⟨nofun, nofun⟩
  | clear => exact keeping_pure ()
  | idleOnly => exact keeping_raise h.after (.protocol r.status) ⟨nofun, nofun⟩
  | flagged => exact keeping_raise h.after (.protocol r.status) ⟨nofun, nofun⟩

theorem keeping_readRegister (h : Commands J J' F n arg) : Keeping J F (readRegister n arg) J' :=
  (keeping_ensureZeroStatus h).step fun _ => (keeping_waitStartToken h.after).step fun _ =>
    (keeping_receiveScratch h.after _ _).step fun _ => (keeping_discard h.after 2).step fun _ =>
      (keeping_cs h.after.deselect).step fun _ => keeping_rd.step fun _ => keeping_pure _

/-- The claim stays when `S.kind` becomes `k`. -/
def Claim.Classifies (J : Claim) (k : CardKind) (J' : Claim) : Prop := ∀ ses m tr,
  J ses m tr → J' { ses with kind := k } m tr

theorem keeping_setKind {k : CardKind} (hk : J.Classifies k J') : Keeping J F (setKind k) J' :=
  ends_upd fun _ hs => hk _ _ _ hs

/-- A good end classifies SD2; the classification SD1 raises its error (R225). -/
theorem keeping_interfaceCondition (h : Commands J J F 8#6 arg) (hsd1 : J.Classifies .sd1 (F .notSupported))
    (hsd2 : J.Classifies .sd2 J') : Keeping J F (interfaceCondition arg) J' :=
  have hc := h.after
  (keeping_issueCommand h).step fun _ =>
    ends_ite (fun _ => keeping_raise hc .respTimeout ⟨nofun, nofun⟩) fun _ => ends_ite
    (fun _ => (keeping_setKind hsd1).step fun _ => ends_raise _ fun _ hs => hs)
    fun _ => (keeping_receiveR7 hc 0).step fun _ => (keeping_receiveR7 hc 1).step fun _ =>
      (keeping_receiveR7 hc 2).step fun _ => (keeping_receiveR7 hc 3).step fun _ => keeping_rd.step fun _ =>
        ends_ite (fun _ => keeping_setKind hsd2) fun _ => keeping_raise hc .ifcondMismatch ⟨nofun, nofun⟩

theorem keeping_readOcr (h : Commands J J F 58#6 arg) (hsdhc : J.Classifies .sdhc J) :
    Keeping J F (readOcr arg) J :=
  (keeping_ensureZeroStatus h).step fun _ => (keeping_fill h.after).step fun b =>
    (keeping_upd fun _ => ⟨rfl, rfl, rfl⟩ : Keeping J F (setOcr0 b) J).step fun _ =>
      (ends_ite (fun _ => keeping_setKind hsdhc) fun _ => keeping_pure () : Keeping J F (reclassify b) J).step
        fun _ => keeping_discard h.after 3

theorem keeping_goIdleLoop (h : Commands J J F 0#6 0#32) : ∀ n, Keeping J F (goIdleLoop n) J
  | 0 => keeping_refuse _
  | n + 1 => by
    have hretry : Keeping J F (do let late ← expiredDl0; if late then raise .noCard else goIdleLoop n) J :=
      (keeping_expiredDl0 h.after).step fun _ =>
        ends_ite (fun _ => keeping_raise h.after .noCard ⟨nofun, nofun⟩) fun _ => keeping_goIdleLoop h n
    refine (keeping_issueCommand h).step fun r => ?_
    cases classify r.status r.rto with
    | idleOnly => exact keeping_pure ()
    | timeout => exact hretry
    | clear => exact hretry
    | flagged => exact hretry

theorem keeping_opCondLoop (hprefix : Commands J J F 55#6 0#32) (h : Commands J J F 41#6 arg) :
    ∀ n, Keeping J F (opCondLoop arg n) J
  | 0 => keeping_refuse _
  | n + 1 => by
    have hretry : ∀ e : Err, e.Plain →
        Keeping J F (do let late ← expiredDl0; if late then raise e else opCondLoop arg n) J := fun _ he =>
      (keeping_expiredDl0 h.after).step fun _ =>
        ends_ite (fun _ => keeping_raise h.after _ he) fun _ => keeping_opCondLoop hprefix h n
    refine (keeping_issueAppCommand hprefix h).step fun r => ?_
    cases classify r.status r.rto with
    | clear => exact keeping_pure ()
    | timeout => exact hretry .respTimeout ⟨nofun, nofun⟩
    | idleOnly => exact hretry (.protocol r.status) ⟨nofun, nofun⟩
    | flagged => exact hretry (.protocol r.status) ⟨nofun, nofun⟩

end Commanded

/-! ### What the history holds -/

variable {s t : State} {tr : List Event} {n : BitVec 6} {img : Image}

/-- The history holds, since `s`, a whole register read. -/
def ReadIn (s : State) (tr : List Event) (n : BitVec 6) (img : Image) : Prop := ReadBy s { s with trace := tr } n img

theorem bus_append (new tr : List Event) : bus (new ++ tr) = bus tr ++ bus new := by simp [bus]

theorem ReadIn.cons (h : ReadIn s tr n img) (ev : Event) : ReadIn s (ev :: tr) n img := by
  obtain ⟨before, after, during, pend, d, hd, hpend, hbus⟩ := h
  refine ⟨before, after ++ bus [ev], during, pend, d, hd, hpend, ?_⟩
  rw [← List.append_assoc, ← hbus]
  exact bus_append [ev] tr

theorem ReadIn.grown (h : ReadIn s tr n img) : ∃ past, bus tr = bus s.trace ++ past := by
  obtain ⟨before, after, during, pend, d, -, -, hbus⟩ := h
  exact ⟨_, hbus.trans (by simp only [List.append_assoc]; rfl)⟩

/-- The first byte of CMD10's frame. -/
def Event.opensCid : Event → Bool
  | .cs _ => false
  | .xchg b _ => b == 0x4A#8
  | .sample _ => false

/-- CMD10 has not been sent. -/
def BeforeCid (new : List Event) : Prop := ∀ ev ∈ new, ev.opensCid = false

/-- After the first byte of CMD10's frame the card was not selected again (newest event first). -/
def BeforeCsd (new : List Event) : Prop := new.Pairwise fun later earlier => earlier.opensCid = true → later ≠ .cs true

theorem BeforeCid.beforeCsd {new : List Event} (h : BeforeCid new) : BeforeCsd new :=
  List.pairwise_of_forall_mem_list fun _ _ ev hev hopens => by simp [h ev hev] at hopens

theorem BeforeCid.cons {new : List Event} (h : BeforeCid new) {ev : Event} (hev : ev.opensCid = false) :
    BeforeCid (ev :: new) := List.forall_mem_cons.mpr ⟨hev, h⟩

theorem BeforeCsd.cons {new : List Event} (h : BeforeCsd new) {ev : Event} (hev : ev ≠ .cs true) :
    BeforeCsd (ev :: new) := List.pairwise_cons.mpr ⟨fun _ _ _ => hev, h⟩

/-- Then `I_CSD` has not begun. -/
theorem BeforeCsd.not_csdBegun {new : List Event} (h : BeforeCsd new) (ht : t.trace = new ++ s.trace) :
    ¬CsdBegun s t := by
  rintro ⟨before, between, after, a, hbus⟩
  rw [ht, bus_append] at hbus
  have hnew : bus new = before ++ .xchg 0x4A#8 a :: between ++ .cs true :: after :=
    List.append_cancel_left (hbus.trans (by simp))
  have hp : (bus new).Pairwise fun earlier later => earlier.opensCid = true → later ≠ .cs true :=
    (List.pairwise_reverse.mpr h).filter _
  rw [hnew, List.append_assoc, List.pairwise_append] at hp
  exact (List.pairwise_cons.mp hp.2.1).1 (.cs true) (by simp) rfl rfl

/-! ### What INIT has done so far -/

/-- What holds of the CID, the CSD and the history. -/
abbrev ImagesClaim := Image → Image → List Event → Prop

/-- Neither register was read, and the history has grown as `A` says. -/
def Unread (s : State) (A : List Event → Prop) : ImagesClaim := fun cid csd tr =>
  cid = s.ses.cid ∧ csd = s.ses.csd ∧ ∃ new, tr = new ++ s.trace ∧ A new

/-- The CID is the image read (R233). -/
def CidRead (s : State) : ImagesClaim := fun cid csd tr => ReadIn s tr 10#6 cid ∧ csd = s.ses.csd

/-- Both images are those read (R233, R234). -/
def BothRead (s : State) : ImagesClaim := fun cid csd tr => ReadIn s tr 10#6 cid ∧ ReadIn s tr 9#6 csd

/-- INIT under way: not ready (R221), the kind and the images as said. -/
structure Progress (K : CardKind → Prop) (H : ImagesClaim) (ses : Session) (m : Memory) (tr : List Event) : Prop where
  kind : K ses.kind
  count : ses.blockCount = 0#64
  images : H ses.cid ses.csd tr
  scratch : m.wf = true

/-- `I_IFCOND` completed (R225). -/
def Classified (k : CardKind) : Prop := k = .sd2 ∨ k = .sdhc

/-- Where INIT may end with an error. -/
inductive InitFails (s : State) (e : Err) (ses : Session) (m : Memory) (tr : List Event) : Prop
  | unclassified (he : e.Plain) (h : Progress (· = .none) (Unread s BeforeCsd) ses m tr)
  | legacy (he : e = .notSupported) (h : Progress (· = .sd1) (Unread s BeforeCsd) ses m tr)
  | unread (he : e.Plain) (h : Progress Classified (Unread s BeforeCsd) ses m tr)
  | cidRead (he : e.Plain) (h : Progress Classified (CidRead s) ses m tr)
  | bothRead (h : Progress Classified (BothRead s) ses m tr)

/-- The session as the commit leaves it (R236). -/
structure InitDone (s : State) (ses : Session) (m : Memory) (tr : List Event) : Prop where
  kind : Classified ses.kind
  count : ses.blockCount ≠ 0#64
  bound : ses.blockCount.toNat < 2 ^ 32
  capacity : csdBlockCount ses.csd = some ses.blockCount
  images : BothRead s ses.cid ses.csd tr

variable {K K' : CardKind → Prop} {H H' : ImagesClaim} {A : List Event → Prop} {ev : Event}

/-- The claim about the images stays when the event is added to the history. -/
def ImagesClaim.Admits (H : ImagesClaim) (ev : Event) : Prop := ∀ cid csd tr, H cid csd tr → H cid csd (ev :: tr)

theorem admits_beforeCid (hev : ev.opensCid = false) : (Unread s BeforeCid).Admits ev :=
  fun _ _ _ ⟨hcid, hcsd, new, htr, hnew⟩ => ⟨hcid, hcsd, ev :: new, by rw [htr]; rfl, hnew.cons hev⟩

theorem admits_beforeCsd (hev : ev ≠ .cs true) : (Unread s BeforeCsd).Admits ev :=
  fun _ _ _ ⟨hcid, hcsd, new, htr, hnew⟩ => ⟨hcid, hcsd, ev :: new, by rw [htr]; rfl, hnew.cons hev⟩

theorem admits_cidRead : (CidRead s).Admits ev := fun _ _ _ ⟨hcid, hcsd⟩ => ⟨hcid.cons ev, hcsd⟩

theorem admits_bothRead : (BothRead s).Admits ev := fun _ _ _ ⟨hcid, hcsd⟩ => ⟨hcid.cons ev, hcsd.cons ev⟩

theorem unread_beforeCsd (cid csd : Image) (tr : List Event) (h : Unread s BeforeCid cid csd tr) :
    Unread s BeforeCsd cid csd tr :=
  have ⟨hcid, hcsd, new, htr, hnew⟩ := h
  ⟨hcid, hcsd, new, htr, hnew.beforeCsd⟩

theorem Unread.grown {cid csd : Image} (h : Unread s A cid csd tr) : ∃ past, bus tr = bus s.trace ++ past := by
  obtain ⟨-, -, new, rfl, -⟩ := h
  exact ⟨_, bus_append _ _⟩

theorem Progress.admits (h : H.Admits ev) : Claim.Admits (Progress K H) ev :=
  fun _ _ _ hp => { hp with images := h _ _ _ hp.images }

theorem Progress.implies (h : ∀ cid csd tr, H cid csd tr → H' cid csd tr) :
    Claim.Implies (Progress K H) (Progress K H') := fun _ _ _ hp => { hp with images := h _ _ _ hp.images }

theorem Progress.classifies {k : CardKind} (hk : K' k) : Claim.Classifies (Progress K H) k (Progress K' H) :=
  fun _ _ _ hp => { hp with kind := hk }

/-- Only selecting the card and the first byte of CMD10 can end a stage of INIT. -/
theorem Progress.carries (h : ∀ ev : Event, ev.opensCid = false → ev ≠ .cs true → H.Admits ev)
    (hF : ∀ e : Err, e.Plain → Claim.Implies (Progress K H) (F e)) : Carries (Progress K H) F where
  fill _ := admits (h _ rfl nofun)
  deselect := admits (h _ rfl nofun)
  sample _ := admits (h _ rfl nofun)
  scratch _ v hi hp := { hp with scratch := Memory.set_wf v hi hp.scratch }
  raises := hF

/-! ### The stages -/

/-- Before I_CID nothing was read. -/
abbrev EarlyStage (s : State) (K : CardKind → Prop) : Claim := Progress K (Unread s BeforeCid)

theorem unclassified_fails (s : State) (e : Err) (he : e.Plain) :
    Claim.Implies (EarlyStage s (· = .none)) (InitFails s e) :=
  fun _ _ _ hp => .unclassified he (Progress.implies unread_beforeCsd _ _ _ hp)

theorem classified_fails (s : State) (e : Err) (he : e.Plain) :
    Claim.Implies (EarlyStage s Classified) (InitFails s e) :=
  fun _ _ _ hp => .unread he (Progress.implies unread_beforeCsd _ _ _ hp)

theorem carries_early (hF : ∀ e : Err, e.Plain → Claim.Implies (EarlyStage s K) (F e)) : Carries (EarlyStage s K) F :=
  Progress.carries (fun _ hev _ => admits_beforeCid hev) hF

/-- The commands before I_CID (R223, R225, R227, R230, R232). -/
def earlyCommands : List (BitVec 6 × BitVec 32) :=
  [(0#6, 0#32), (8#6, Config.cmd8Arg), (55#6, 0#32), (41#6, 0#32), (41#6, Config.hcsArg), (58#6, 0#32),
    (16#6, Config.cmd16Arg)]

/-- Their frames do not hold the first byte of CMD10's. -/
theorem cidByte_notMem_frameOf : ∀ c ∈ earlyCommands, 0x4A#8 ∉ (frameOf c.1 c.2).toList :=
  List.forall_iff_forall_mem.mp (by decide +kernel)

theorem opCond_mem_earlyCommands (k : CardKind) : (41#6, opCondArg k) ∈ earlyCommands := by
  unfold opCondArg
  split <;> decide

theorem commands_early {arg : BitVec 32} (hF : ∀ e : Err, e.Plain → Claim.Implies (EarlyStage s K) (F e))
    (hc : (n, arg) ∈ earlyCommands) : Commands (EarlyStage s K) (EarlyStage s K) F n arg :=
  (carries_early hF).commands (Progress.admits (admits_beforeCid rfl)) fun _ hb _ =>
    Progress.admits (admits_beforeCid (beq_false_of_ne fun hopens => cidByte_notMem_frameOf _ hc (hopens ▸ hb)))

theorem commands_cid (s : State) : Commands (EarlyStage s Classified) (Progress Classified (Unread s BeforeCsd))
    (InitFails s) 10#6 0#32 where
  before := carries_early (classified_fails s)
  select := Progress.admits (admits_beforeCid rfl)
  goOn := Progress.implies unread_beforeCsd
  frame _ _ _ := Progress.admits (admits_beforeCsd nofun)
  after := Progress.carries (fun _ _ hev => admits_beforeCsd hev) fun _ he _ _ _ hp => .unread he hp

theorem commands_csd (s : State) : Commands (Progress Classified (CidRead s)) (Progress Classified (CidRead s))
    (InitFails s) 9#6 0#32 :=
  (Progress.carries (fun _ _ _ => admits_cidRead) fun _ he _ _ _ hp => .cidRead he hp).commands
    (Progress.admits admits_cidRead) fun _ _ _ => Progress.admits admits_cidRead

/-- Deselecting the card on exit changes nothing of the outcome (R372). -/
theorem initFails_admits (e : Err) : Claim.Admits (InitFails s e) (.cs false) := by
  intro ses m tr h
  have hunread : (Unread s BeforeCsd).Admits (.cs false) := admits_beforeCsd nofun
  cases h with
  | unclassified he h => exact .unclassified he (Progress.admits hunread _ _ _ h)
  | legacy he h => exact .legacy he (Progress.admits hunread _ _ _ h)
  | unread he h => exact .unread he (Progress.admits hunread _ _ _ h)
  | cidRead he h => exact .cidRead he (Progress.admits admits_cidRead _ _ _ h)
  | bothRead h => exact .bothRead (Progress.admits admits_bothRead _ _ _ h)

/-! ### From state to state -/

/-- INIT succeeded. -/
def State.Initialized (s t : State) : Prop := t.Has (InitDone s) ∧ t.res.kind = 0#4

/-- From claim `J` the rest of INIT ends as it may. -/
abbrev Initializes (s : State) (J : Claim) (p : Proc Unit) : Prop :=
  Ends (State.Has J) p (fun _ => State.Initialized s) (StopsIn (InitFails s))

/-- A register read under a claim, with what it leaves in the history (R320). -/
theorem keeping_readRegister_readIn (h : Commands J J' F n 0#32) (hn : n ≠ 12#6)
    (hJ : ∀ ses m tr, J ses m tr → m.wf = true ∧ ∃ past, bus tr = bus s.trace ++ past) :
    Ends (State.Has J) (readRegister n 0#32) (fun img t => t.Has J' ∧ ReadIn s t.trace n img) (StopsIn F) where
  ok hs hp :=
    have hread : ReadBy s _ n _ := (readBy_readRegister s hn).ok (hJ _ _ _ hs) hp
    ⟨(keeping_readRegister h).ok hs hp, hread⟩
  err hs hp := (keeping_readRegister h).err hs hp

theorem initializes_fromICommit (s : State) : Initializes s (Progress Classified (BothRead s)) fromICommit := by
  refine ends_rd.step fun u => ?_
  cases hc : csdBlockCount u.ses.csd with
  | none => exact ends_raise _ fun _ hv => .bothRead hv.1
  | some k =>
    refine ends_ite (fun _ => ends_raise _ fun _ hv => .bothRead hv.1) fun hbound =>
      ends_ite (fun _ => ends_raise _ fun _ hv => .bothRead hv.1) fun hcount => ?_
    have hset : Ends (fun v => v.Has (Progress Classified (BothRead s)) ∧ u = v) (setBlockCount k)
        (fun _ => State.Has (InitDone s)) (StopsIn (InitFails s)) := ends_upd fun v ⟨hv, hu⟩ =>
      { kind := hv.kind
        count := hcount
        bound := Nat.lt_succ_of_le (Nat.le_of_not_lt hbound)
        capacity := hu ▸ hc
        images := hv.images }
    have hcs : Claim.Admits (InitDone s) (.cs false) := fun _ _ _ hd =>
      { hd with images := admits_bothRead _ _ _ hd.images }
    exact hset.step fun _ => (keeping_cs hcs).step fun _ => ends_upd fun _ hv => ⟨hv.exitActions hcs, rfl⟩

theorem initializes_fromICsd (s : State) : Initializes s (Progress Classified (CidRead s)) fromICsd := by
  refine (keeping_readRegister_readIn (commands_csd s) (by decide) fun _ _ _ hp =>
    ⟨hp.scratch, hp.images.1.grown⟩).step fun img => ?_
  have hset : Ends (fun t => t.Has (Progress Classified (CidRead s)) ∧ ReadIn s t.trace 9#6 img) (setCsd img)
      (fun _ => State.Has (Progress Classified (BothRead s))) (StopsIn (InitFails s)) :=
    ends_upd fun _ ⟨hp, hread⟩ => { hp with images := ⟨hp.images.1, hread⟩ }
  exact hset.step fun _ => (keeping_goFsm _).step fun _ => initializes_fromICommit s

theorem initializes_fromICid (s : State) : Initializes s (EarlyStage s Classified) fromICid := by
  refine (keeping_readRegister_readIn (s := s) (commands_cid s) (by decide) fun _ _ _ hp =>
    ⟨hp.scratch, hp.images.grown⟩).step fun img => ?_
  · have hset : Ends (fun t => t.Has (Progress Classified (Unread s BeforeCsd)) ∧ ReadIn s t.trace 10#6 img)
        (setCid img) (fun _ => State.Has (Progress Classified (CidRead s))) (StopsIn (InitFails s)) :=
      ends_upd fun _ ⟨hp, hread⟩ => { hp with images := ⟨hread, hp.images.2.1⟩ }
    exact hset.step fun _ => (keeping_goFsm _).step fun _ => initializes_fromICsd s

theorem initializes_fromIBlkLen (s : State) : Initializes s (EarlyStage s Classified) fromIBlkLen :=
  (keeping_ensureZeroStatus (commands_early (classified_fails s) (by decide))).step fun _ =>
    (keeping_goFsm _).step fun _ => initializes_fromICid s

theorem initializes_fromIOcr (s : State) : Initializes s (EarlyStage s Classified) fromIOcr :=
  (keeping_rd.step fun _ => ends_ite
    (fun _ => keeping_readOcr (commands_early (classified_fails s) (by decide)) (Progress.classifies (.inr rfl)))
    fun _ => keeping_pure () : Keeping _ _ ocrStep _).step fun _ =>
      (keeping_goFsm _).step fun _ => initializes_fromIBlkLen s

theorem initializes_fromIOpCond (s : State) : Initializes s (EarlyStage s Classified) fromIOpCond :=
  keeping_rd.step fun _ => (keeping_loadDl0 (carries_early (classified_fails s)) _).step fun _ =>
    keeping_rd.step fun _ =>
      (keeping_opCondLoop (commands_early (classified_fails s) (by decide))
        (commands_early (classified_fails s) (opCond_mem_earlyCommands _)) _).step fun _ =>
          (keeping_goFsm _).step fun _ => initializes_fromIOcr s

theorem initializes_fromIIfCond (s : State) : Initializes s (EarlyStage s (· = .none)) fromIIfCond :=
  (keeping_interfaceCondition (commands_early (unclassified_fails s) (by decide))
    (fun _ _ _ hp => .legacy rfl (Progress.implies unread_beforeCsd _ _ _ { hp with kind := rfl }))
    (Progress.classifies (.inl rfl))).step fun _ => (keeping_goFsm _).step fun _ => initializes_fromIOpCond s

theorem initializes_fromIGoIdle (s : State) : Initializes s (EarlyStage s (· = .none)) fromIGoIdle :=
  (keeping_loadDl0 (carries_early (unclassified_fails s)) _).step fun _ => keeping_rd.step fun _ =>
    (keeping_goIdleLoop (commands_early (unclassified_fails s) (by decide)) _).step fun _ =>
      (keeping_goFsm _).step fun _ => initializes_fromIIfCond s

theorem initializes_fromIReset (s : State) : Initializes s (EarlyStage s (· = .none)) fromIReset :=
  (keeping_cs (Progress.admits (admits_beforeCid rfl))).step fun _ =>
    (keeping_discard (carries_early (unclassified_fails s)) _).step fun _ =>
      (keeping_goFsm _).step fun _ => initializes_fromIGoIdle s

/-- I_START makes the session not ready (R221). -/
theorem ends_start (hwf : s.wrk.scratch.wf = true) : Ends (· = s) (do start .init .iReset; enterInit)
    (fun _ => State.Has (EarlyStage s (· = .none))) (StopsIn (InitFails s)) where
  ok hs hp := by
    subst hs
    cases hp
    exact { kind := rfl, count := rfl, images := ⟨rfl, rfl, [], rfl, List.forall_mem_nil _⟩, scratch := hwf }
  err _ hp := by cases hp

/-- How INIT ends: with the commit, or with an error where it may (R241). -/
theorem init_next (hwf : s.wrk.scratch.wf = true) (h : exec .init s = .next t) :
    State.Initialized s t ∨ ∃ e : Err, t.res.kind = e.code ∧ t.Has (InitFails s e) := by
  have hends : Ends (· = s) (do start .init .iReset; enterInit; fromIReset) (fun _ => State.Initialized s)
      (StopsIn (InitFails s)) := (ends_start hwf).step fun _ => initializes_fromIReset s
  have hcall : hostCall (do start .init .iReset; enterInit; fromIReset) s = .next t := h
  unfold hostCall at hcall
  split at hcall
  · rcases settle_next hcall with hok | ⟨e, u, herr, rfl⟩
    · exact .inl (hends.ok rfl hok)
    · exact .inr ⟨e, rfl, (hends.err rfl herr).exitActions (initFails_admits e)⟩
  · cases hcall

/-! ### The outcome -/

theorem Err.Plain.code {e : Err} (he : e.Plain) : e.code ≠ 3#4 ∧ e.code ≠ 6#4 := by
  obtain ⟨hsupported, hblocks⟩ := he
  cases e <;> simp_all [Err.code]

variable {e : Err}

/-- A failed INIT leaves the session not ready, each image fresh or unchanged (R221, R241). -/
theorem initFails_session (h : t.Has (InitFails s e)) (hcode : t.res.kind = e.code) : t.ready = false ∧
    (((t.ses.kind = .none ∨ (t.ses.kind = .sd1 ∧ t.res.kind = 3#4)) ∧ t.ses.cid = s.ses.cid ∧
        t.ses.csd = s.ses.csd) ∨
      (t.ses.kind = .sd2 ∨ t.ses.kind = .sdhc) ∧
        (t.ses.cid = s.ses.cid ∨ ReadBy s t 10#6 t.ses.cid) ∧
        (t.ses.csd = s.ses.csd ∨ ReadBy s t 10#6 t.ses.cid ∧ ReadBy s t 9#6 t.ses.csd)) := by
  have hready (hcount : t.ses.blockCount = 0#64) : t.ready = false := by simp [State.ready, hcount]
  cases h with
  | unclassified he h => exact ⟨hready h.count, .inl ⟨.inl h.kind, h.images.1, h.images.2.1⟩⟩
  | legacy he h => exact ⟨hready h.count, .inl ⟨.inr ⟨h.kind, by rw [hcode, he]; rfl⟩, h.images.1, h.images.2.1⟩⟩
  | unread he h => exact ⟨hready h.count, .inr ⟨h.kind, .inl h.images.1, .inl h.images.2.1⟩⟩
  | cidRead he h => exact ⟨hready h.count, .inr ⟨h.kind, .inr h.images.1, .inl h.images.2⟩⟩
  | bothRead h => exact ⟨hready h.count, .inr ⟨h.kind, .inr h.images.1, .inr h.images⟩⟩

/-- The checks of the commit come after both reads (R235). -/
theorem initFails_checked (h : t.Has (InitFails s e)) (hcode : t.res.kind = e.code)
    (hkind : t.res.kind = 6#4 ∨ (t.res.kind = 3#4 ∧ t.ses.kind ≠ .sd1)) :
    ReadBy s t 10#6 t.ses.cid ∧ ReadBy s t 9#6 t.ses.csd := by
  rw [hcode] at hkind
  have hplain (he : e.Plain) : False := hkind.elim he.code.2 fun h3 => he.code.1 h3.1
  cases h with
  | unclassified he h => exact (hplain he).elim
  | legacy he h => subst he; exact hkind.elim nofun fun h3 => absurd h.kind h3.2
  | unread he h => exact (hplain he).elim
  | cidRead he h => exact (hplain he).elim
  | bothRead h => exact h.images

/-- Once I_CSD began the CID is fresh (R233). -/
theorem initFails_csdBegun (h : t.Has (InitFails s e)) (hbegun : CsdBegun s t) :
    (t.ses.kind = .sd2 ∨ t.ses.kind = .sdhc) ∧ ReadBy s t 10#6 t.ses.cid := by
  have hunread (h : Unread s BeforeCsd t.ses.cid t.ses.csd t.trace) : False := by
    obtain ⟨-, -, new, ht, hnew⟩ := h
    exact hnew.not_csdBegun ht hbegun
  cases h with
  | unclassified he h => exact (hunread h.images).elim
  | legacy he h => exact (hunread h.images).elim
  | unread he h => exact (hunread h.images).elim
  | cidRead he h => exact ⟨h.kind, h.images.1⟩
  | bothRead h => exact ⟨h.kind, h.images.1⟩

/-- Settles O45: each state of INIT claims what it has done so far, and the claims cover every end. -/
theorem initOutcome : Obligations.InitOutcome := by
  unfold Obligations.InitOutcome
  intro s t hwf h
  rcases init_next hwf h with ⟨hdone, hok⟩ | ⟨e, hcode, hfails⟩
  · have ⟨hcid, hcsd⟩ : ReadBy s t 10#6 t.ses.cid ∧ ReadBy s t 9#6 t.ses.csd := hdone.images
    exact ⟨fun _ => ⟨hdone.kind, hdone.count, hdone.bound, hdone.capacity, hcid, hcsd⟩, fun hne => absurd hok hne,
      fun _ => ⟨hcid, hcsd⟩, fun _ => ⟨hdone.kind, hcid⟩⟩
  · exact ⟨fun hok => absurd (hcode ▸ hok) (code_ne_ok e), fun _ => initFails_session hfails hcode,
      initFails_checked hfails hcode, initFails_csdBegun hfails⟩

end Sys2Proof.Machine
end

