-- ==== Sys2Proof/Proofs/CsdViews.lean ====
section
/-! PROOFS. The derived views of a CSD: the capacity (R280, R281), whose fields are narrow enough for 64 bits, and the
validity (R282), which inherits what the CRC7 detects. -/

namespace Sys2Proof.Machine

variable {img : Image}

/-! ### Capacity -/

theorem csdDeviceBytes_version0 (h : csdVersion img = 0#2) : csdDeviceBytes img =
    some (((csdCSizeV1 img).toNat + 1) * csdMultV1 img * csdReadBlLen img) := by
  rw [csdDeviceBytes, h]; rfl

theorem csdDeviceBytes_version1 (h : csdVersion img = 1#2) :
    csdDeviceBytes img = some ((csdCSizeV2 img).toNat * 512000) := by
  rw [csdDeviceBytes, h]; rfl

theorem csdDeviceBytes_unnamed (h : csdVersion img = 2#2 ∨ csdVersion img = 3#2) : csdDeviceBytes img = none := by
  rcases h with h | h <;> rw [csdDeviceBytes, h] <;> rfl

theorem csdReadBlLen_pos : 0 < csdReadBlLen img := Nat.two_pow_pos _

theorem csdReadBlLen_le : csdReadBlLen img ≤ 2 ^ 15 :=
  Nat.pow_le_pow_right Nat.two_pos (Nat.le_of_lt_succ (csdReadBlExp img).isLt)

/-- `C_SIZE` has 12 bits, and `MULT` is 2² to 2⁹ (R277, R278). -/
theorem csdBlocksV1_bounds : 4 ≤ ((csdCSizeV1 img).toNat + 1) * csdMultV1 img ∧
    ((csdCSizeV1 img).toNat + 1) * csdMultV1 img ≤ 2 ^ 21 := by
  have hmult : 2 ^ 2 ≤ csdMultV1 img ∧ csdMultV1 img ≤ 2 ^ 9 :=
    ⟨Nat.pow_le_pow_right Nat.two_pos (Nat.le_add_right 2 _),
      Nat.pow_le_pow_right Nat.two_pos (Nat.add_le_add_left (Nat.le_of_lt_succ (csdCSizeMultV1 img).isLt) 2)⟩
  have hfield : (csdCSizeV1 img).toNat + 1 ≤ 2 ^ 12 := (csdCSizeV1 img).isLt
  exact ⟨Nat.mul_le_mul (Nat.le_add_left 1 _) hmult.1,
    (Nat.mul_le_mul hfield hmult.2).trans_eq (Nat.pow_add 2 12 9).symm⟩

/-- A size of less than 2⁶⁴ bytes loses nothing in the 64-bit views, nor does its count (R283). -/
theorem csdCapacity_exact {n : Nat} (h : csdDeviceBytes img = some n) (hn : n < 2 ^ 64) :
    ∃ size count : BitVec 64, csdDeviceSize img = some size ∧ csdBlockCount img = some count ∧
      size.toNat = n ∧ count.toNat = n / csdReadBlLen img := by
  refine ⟨BitVec.ofNat 64 n, BitVec.ofNat 64 (n / csdReadBlLen img), ?_, ?_, Nat.mod_eq_of_lt hn,
    Nat.mod_eq_of_lt ((Nat.div_le_self _ _).trans_lt hn)⟩
  · rw [csdDeviceSize, h, Option.map_some]
  · rw [csdBlockCount, h, Option.map_some]

/-- Settles O59: the widths of the fields bound the exact size below 2⁶⁴, version by version. -/
theorem capacity : Obligations.Capacity := by
  unfold Obligations.Capacity
  intro img
  refine ⟨fun h => ?version0, fun h => ?version1, fun h => ?unnamed⟩
  case version0 =>
    have ⟨hge, hle⟩ := csdBlocksV1_bounds (img := img)
    have hsizeGe := Nat.mul_le_mul hge (csdReadBlLen_pos (img := img))
    have hsizeLe := Nat.mul_le_mul hle (csdReadBlLen_le (img := img))
    obtain ⟨size, count, hsize, hcount, hsizeNat, hcountNat⟩ :=
      csdCapacity_exact (csdDeviceBytes_version0 h) (hsizeLe.trans_lt (by decide))
    rw [Nat.mul_div_cancel _ csdReadBlLen_pos] at hcountNat
    rw [← hsizeNat] at hsizeGe hsizeLe
    rw [← hcountNat] at hge hle
    exact ⟨size, count, hsize, hcount, hsizeNat, hsizeGe, hsizeLe, hcountNat, hge, hle⟩
  case version1 =>
    have hfield : (csdCSizeV2 img).toNat < 2 ^ 22 := (csdCSizeV2 img).isLt
    obtain ⟨size, count, hsize, hcount, hsizeNat, hcountNat⟩ :=
      csdCapacity_exact (csdDeviceBytes_version1 h) (by omega)
    refine ⟨size, count, hsize, hcount, hsizeNat, by omega, hcountNat, fun hexp => ?_⟩
    have hlen : csdReadBlLen img = 512 := by rw [csdReadBlLen, hexp]; rfl
    rw [hlen] at hcountNat
    omega
  case unnamed =>
    simp [csdDeviceSize, csdBlockCount, csdDeviceBytes_unnamed h]

/-! ### Validity -/

theorem csdIsValid_iff : csdIsValid img = true ↔
    crc7 (img.toList.take 15) = img[15].extractLsb' 1 7 ∧ img[15].extractLsb' 0 1 = 1#1 := by
  have hstop : img[15].extractLsb' 0 1 = 1#1 ↔ img[15].getLsbD 0 = true := by
    generalize img[15] = b
    revert b
    decide
  rw [csdIsValid, Bool.and_eq_true, beq_iff_eq, hstop]

theorem crc7_set_flip_ne {m : List Byte} {i k : Nat} (hi : i < m.length) (hk : k < 8) :
    crc7 (m.set i (m[i] ^^^ (1#8 <<< k))) ≠ crc7 m := by
  have hm : m = m.take i ++ m[i] :: m.drop (i + 1) := by simp
  rw [List.set_eq_take_append_cons_drop, if_pos hi]
  exact fun h => crc7_flip_ne (m.take i) (m.drop (i + 1)) m[i] hk (h.trans (congrArg crc7 hm))

/-- Byte 15, and with it the CRC7 a valid image must have, stands while the CRC7 of the other bytes changes. -/
theorem csdIsValid_set_flip {i k : Nat} (hi : i < 15) (hk : k < 8) (h : csdIsValid img = true) :
    csdIsValid (img.set i (img[i] ^^^ (1#8 <<< k))) = false := by
  rw [Bool.eq_false_iff]
  intro hflip
  have hcrc := (csdIsValid_iff.mp hflip).1
  rw [Vector.getElem_set_ne (by omega) (by omega) (by omega), ← (csdIsValid_iff.mp h).1, Vector.toList_set,
    List.take_set] at hcrc
  exact crc7_set_flip_ne (m := img.toList.take 15) (i := i) (by simpa using hi) hk (by simpa using hcrc)

/-- Settles O60: the CRC7 detects every change of one bit in the bytes it covers. -/
theorem csdValidity : Obligations.CsdValidity := by
  unfold Obligations.CsdValidity
  exact ⟨fun _ => csdIsValid_iff, fun _ i _ hk => csdIsValid_set_flip i.isLt hk,
    by decide +kernel, by decide +kernel⟩

end Sys2Proof.Machine
end

