-- ==== Sys2Proof/Proofs/DataCommands.lean ====
section
/-! PROOFS. The commands with a data phase (45_block_transfer.md): the register reads, CMD17 and CMD24 against a given
card, the ends of the token wait and of a write that they share with RDBLK and WRBLK, and what the commands leave
unchanged for every card and every clock. -/

namespace Sys2Proof.Machine

/-! ### A command inside an operation -/

@[simp] theorem answered_req (s : State) (n : BitVec 6) (arg : BitVec 32) (b : Byte) (d : Clock) (e : Env)
    (tr : List Event) : (s.answered n arg b d e tr).req = s.req := rfl

/-- `ensure_zero_status` against a card that answers 0x00, whatever the step it is issued in (R194). -/
theorem ensureZeroStatus_inOp {s : State} {n : BitVec 6} {arg : BitVec 32} {r : CardReply} {rest : List Answer}
    (o : Op) (x : Fsm) (hn : n ≠ 12#6) (hr : r.Ok s.par) (h0 : r.resp = 0x00#8)
    (hrx : s.env.rx = (r.talk n arg).answers ++ rest) (hc : r.InTime s.env 0) :
    ∃ (e : Env) (tr : List Event),
      ensureZeroStatus n arg (s.inOp o x) =
        .ok () ((s.answered n arg 0x00#8 (s.env.deadlineAt 0 300) e tr).inOp o x) ∧
      Talked s.env s.trace r.ticks e tr rest (s.csEvents true ++ (r.talk n arg).events) :=
  ensureZeroStatus_run (s := s.inOp o x) hn hr h0 hrx hc

/-- An error inside an operation: the exit actions forget the step. -/
theorem settle_raise_inOp {p : Proc Unit} {s u : State} {err : Err} {o : Op} {x : Fsm}
    (h : p s = .error (.raise err) (u.inOp o x)) : settle p s = .next (exitActions (some err) u) :=
  (settle_raise h).trans (congrArg _ (exitActions_inOp ..))

/-! ### The register reads -/

/-- The instruction is `read_register(n)` (R198, R199, R131). -/
def ReadsRegister (i : Instr) (n : BitVec 6) (arg : BitVec 32) : Prop :=
  (i = .cmd9 arg ∧ n = 9#6) ∨ (i = .cmd10 arg ∧ n = 10#6) ∨ (i = .rdreg n ∧ arg = 0#32)

theorem ReadsRegister.exec_eq {i : Instr} {n : BitVec 6} {arg : BitVec 32} (h : ReadsRegister i n arg) (s : State) :
    exec i s = settle (do let _ ← readRegister n arg) s := by
  rcases h with ⟨rfl, rfl⟩ | ⟨rfl, rfl⟩ | ⟨rfl, rfl⟩ <;> rfl

/-- Settles O30: the run of `read_register`, whose bytes are read back from where they were written. -/
theorem registerRead : Obligations.RegisterRead := by
  unfold Obligations.RegisterRead
  intro s i n arg r d rest hi hwf hr h0 hrx hc hd
  have hread : ReadsRegister i n arg ∧ n ≠ 12#6 := by
    rcases hi with ⟨rfl, rfl⟩ | ⟨rfl, rfl⟩ | ⟨rfl, rfl, hn⟩
    · exact ⟨.inl ⟨rfl, rfl⟩, by decide⟩
    · exact ⟨.inr (.inl ⟨rfl, rfl⟩), by decide⟩
    · exact ⟨.inr (.inr ⟨rfl, rfl⟩), hn⟩
  obtain ⟨hreads, hn⟩ := hread
  obtain ⟨e, tr, hx, ht⟩ := readRegister_run hn hr h0 hwf hrx hc hd
  refine ⟨e, tr, _, ?_, ht.rx, Memory.get_write_zero d.data _ hwf (by decide), ?_⟩
  · exact (hreads.exec_eq s).trans (settle_ok (by rw [run_bind_ok hx, run_pure]))
  · simpa only [List.append_assoc] using ht.bus

/-! ### The wait for the start token -/

/-- The five instructions of `WaitsForToken`, with the command each of them issues. -/
theorem Issues.waits_cases {s : State} {i : Instr} {n : BitVec 6} {arg : BitVec 32} (hi : Issues s i n arg)
    (hw : WaitsForToken i n arg) :
    ReadsRegister i n arg ∨ (i = .cmd17 arg ∧ n = 17#6) ∨ (i = .rdblk ∧ n = 17#6 ∧ s.RequestOk arg) := by
  simp only [WaitsForToken, List.mem_cons, List.not_mem_nil, or_false] at hw
  rcases hw with rfl | rfl | rfl | rfl | rfl <;> simpa [Issues, ReadsRegister] using hi

/-- Such an instruction is `ensure_zero_status`, the wait for the start token and a rest `k`; between the two it goes
at most to the next step of its operation. -/
theorem Issues.exec_wait {s : State} {i : Instr} {n : BitVec 6} {arg : BitVec 32} (hi : Issues s i n arg)
    (hw : WaitsForToken i n arg) : ∃ (o : Op) (x y : Fsm) (f k : Unit → Proc Unit),
      exec i s = settle (ensureZeroStatus n arg >>= f) (s.inOp o x) ∧
      ∀ u : State, f () (u.inOp o x) = (waitStartToken >>= k) (u.inOp o y) := by
  rcases hi.waits_cases hw with hread | ⟨rfl, rfl⟩ | ⟨rfl, rfl, hq⟩
  · exact ⟨s.seq.op, s.seq.fsm, s.seq.fsm, _, _,
      (hread.exec_eq s).trans (congrArg (settle · s) (bind_assoc ..)), fun _ => congrFun (bind_assoc ..) _⟩
  · exact ⟨s.seq.op, s.seq.fsm, s.seq.fsm, _, _, rfl, fun _ => rfl⟩
  · exact ⟨.rdblk, .rCmd, .rToken, _, _,
      (hostCall_idle hq.idle).trans (settle_congr (fromRCheck_run hq.len hq.range hq.address)), fun _ => rfl⟩

/-- Settles O31: the command is answered, the wait raises after its deselect, and the exit actions forget the step. -/
theorem tokenError : Obligations.TokenError := by
  unfold Obligations.TokenError
  intro s i n arg r q rest hi hw hn hr h0 hlast hc hq hrx
  rw [Talk.answers_append, List.append_assoc] at hrx
  obtain ⟨o, x, y, f, k, hexec, hf⟩ := hi.exec_wait hw
  obtain ⟨e, tr, hx, ht⟩ := ensureZeroStatus_inOp o x hn hr h0 hrx hc
  obtain ⟨e1, tr1, hx1, ht1⟩ := waitStartToken_none
    (s := (s.answered n arg 0x00#8 (s.env.deadlineAt 0 300) e tr).inOp o y) rfl hlast ht.rx (ht.noToken (i := 0) hq)
  have hdl1 : e.deadlineAt 0 300 = s.env.deadlineAt r.ticks 300 := ht.deadlineAt 0 300
  refine ⟨e1, tr1, ?_, ht1.rx, ?_⟩
  · rw [hexec, ← hdl1]
    exact settle_raise_inOp ((run_bind_ok hx).trans ((hf _).trans (run_bind_error hx1)))
  · simpa only [Talk.events_append, List.append_assoc] using (ht.trans ht1).bus

/-! ### The read with its data phase -/

/-- The data phase of CMD17 against a card that delivers, which is no step of an operation (R202, R304). -/
theorem readData_run {s : State} {d : DataReply 512} {rest : List Answer} (hs : s.wrk.csActive = true)
    (hrx : s.env.rx = d.talk.answers ++ rest) (hc : d.InTime s.env 0) :
    ∃ (e : Env) (tr : List Event),
      (do
        waitStartToken
        let c ← receiveBlock Config.blockLen 0 0#16
        recordCrc c : Proc Unit) s = .ok () { s with
          wrk.dl1 := s.env.deadlineAt 0 300, wrk.csActive := false, req.buf := s.req.buf.write 0 d.data.toList
          ses.lastCrc16 := d.crcHigh ++ d.crcLow, ses.calcCrc16 := crc16 d.data.toList, env := e, trace := tr } ∧
      Talked s.env s.trace d.ticks e tr rest (d.talk.events ++ [.cs false]) := by
  rw [DataReply.talk, polls_append, polls_append, Talk.answers_append, Talk.answers_append, List.append_assoc,
    List.append_assoc] at hrx
  have hlen : d.data.toList.length = 512 := by simp
  obtain ⟨e1, tr1, hx1, ht1⟩ := waitStartToken_run hrx hc
  obtain ⟨e2, tr2, hx2, ht2⟩ := receiveBlock_run d.data.toList ((s.withDl1 (s.env.deadlineAt 0 300)).io e1 tr1) 0 0#16
    (by rw [hlen]; decide) ht1.rx
  rw [hlen] at hx2
  obtain ⟨e3, tr3, hx3, ht3⟩ := recordCrc_run (c := crc16 d.data.toList)
    (s := (((s.withDl1 (s.env.deadlineAt 0 300)).io e1 tr1).withBuf (s.req.buf.write 0 d.data.toList)).io e2 tr2)
    hs ht2.rx
  refine ⟨e3, tr3, ?_, (ht1.trans (ht2.trans ht3)).cast rfl ?_⟩
  · rw [run_bind_ok hx1, show Config.blockLen = 512 from rfl, run_bind_ok hx2]
    exact hx3
  · simp only [DataReply.talk, List.append_assoc, polls_append, Talk.events_append]

/-- Settles O32: the run of the command, then of its data phase. -/
theorem readCommand : Obligations.ReadCommand := by
  unfold Obligations.ReadCommand
  intro s arg r d rest hwf hr h0 hrx hc hd
  rw [Talk.answers_append, List.append_assoc] at hrx
  obtain ⟨e, tr, hx, ht⟩ := ensureZeroStatus_run (by decide) hr h0 hrx hc
  obtain ⟨e1, tr1, hx1, ht1⟩ := readData_run
    (s := s.answered 17#6 arg 0x00#8 (s.env.deadlineAt 0 300) e tr) rfl ht.rx (ht.before (i := 0) hd)
  have hdl1 : e.deadlineAt 0 300 = s.env.deadlineAt r.ticks 300 := ht.deadlineAt 0 300
  refine ⟨e1, tr1, s.req.buf.write 0 d.data.toList, ?_, ht1.rx,
    Memory.get_write_zero d.data _ hwf (le_refl _), ?_⟩
  · rw [← hdl1]
    exact settle_ok ((run_bind_ok hx).trans hx1)
  · simpa only [Talk.events_append, List.append_assoc] using (ht.trans ht1).bus

/-! ### The write with its data packet -/

/-- Settles O33: the runs of the command, of the packet, of the accepting token and of the busy-wait. -/
theorem writeCommand : Obligations.WriteCommand := by
  unfold Obligations.WriteCommand
  intro s arg r w rest hr h0 hok hbusy hrx hc hw
  rw [WriteReply.talk, Talk.answers_append, Talk.answers_append, List.append_assoc, List.append_assoc] at hrx
  obtain ⟨e, tr, hx, ht⟩ := ensureZeroStatus_run (by decide) hr h0 hrx hc
  obtain ⟨e1, tr1, hx1, hrx1, hall⟩ := packet_run
    (s := s.answered 24#6 arg 0x00#8 (s.env.deadlineAt 0 300) e tr) ht.rx
  obtain ⟨e2, tr2, hx2, ht2⟩ := writeResponse_run
    (s := (s.answered 24#6 arg 0x00#8 (s.env.deadlineAt 0 300) e tr).io e1 tr1) hok hrx1
  have htoken := ht.trans (hall 0 _ _ [] _ ht2)
  obtain ⟨e3, tr3, hx3, ht3⟩ := writeBusy_run
    (s := { s.answered 24#6 arg 0x00#8 (s.env.deadlineAt 0 300) e2 tr2 with wrk.dresp := w.token }) rfl hbusy ht2.rx
    (htoken.before (i := 0) hw)
  have hdl1 : e2.deadlineAt 0 600 = s.env.deadlineAt r.ticks 600 := htoken.deadlineAt 0 600
  refine ⟨e3, tr3, ?_, ht3.rx, ?_⟩
  · rw [← hdl1]
    exact settle_ok ((run_bind_ok hx).trans ((hx1 _).trans ((run_bind_ok hx2).trans hx3)))
  · simpa only [WriteReply.talk, Talk.events_append, List.append_assoc, List.append_nil, answered_req] using
      (htoken.trans ht3).bus

/-- CMD24 and an accepted WRBLK, answered with 0x00, reach the data-response token; after it the busy-wait follows. -/
theorem Issues.exec_write {s : State} {i : Instr} {arg : BitVec 32} {r : CardReply} {w : WriteReply}
    {rest : List Answer} (hi : Issues s i 24#6 arg) (hmem : i ∈ [Instr.cmd24 arg, .wrblk]) (hr : r.Ok s.par)
    (h0 : r.resp = 0x00#8)
    (hrx : s.env.rx = (r.talk 24#6 arg ++ w.packet (s.req.buf.bytes 0 512)).answers ++ rest)
    (hc : r.InTime s.env 0) :
    ∃ (o : Op) (x y : Fsm) (k k' : Unit → Proc Unit) (e : Env) (tr : List Event),
      exec i s = settle (writeResponse >>= k)
        ((s.answered 24#6 arg 0x00#8 (s.env.deadlineAt 0 300) e tr).inOp o x) ∧
      (∀ u : State, k () (u.inOp o x) = (writeBusy >>= k') (u.inOp o y)) ∧
      e.rx = .byte w.token :: rest ∧
      ∀ (n : Nat) (e' : Env) (tr' : List Event) (evs : List Event) (rest' : List Answer),
        Talked e tr n e' tr' rest' (.xchg Config.fill (.byte w.token) :: evs) →
        Talked s.env s.trace (r.ticks + n) e' tr' rest'
          (s.csEvents true ++ (r.talk 24#6 arg ++ w.packet (s.req.buf.bytes 0 512)).events ++ evs) := by
  rw [Talk.answers_append, List.append_assoc] at hrx
  simp only [List.mem_cons, List.not_mem_nil, or_false] at hmem
  rcases hmem with rfl | rfl
  · obtain ⟨e, tr, hx, ht⟩ := ensureZeroStatus_run (by decide) hr h0 hrx hc
    obtain ⟨e1, tr1, hx1, hrx1, hall⟩ := packet_run
      (s := s.answered 24#6 arg 0x00#8 (s.env.deadlineAt 0 300) e tr) ht.rx
    refine ⟨s.seq.op, s.seq.fsm, s.seq.fsm, fun _ => writeBusy, pure, e1, tr1,
      settle_congr ((run_bind_ok hx).trans (hx1 _)), fun u => by rw [bind_pure], hrx1, fun n e' tr' evs rest' h => ?_⟩
    exact (ht.trans (hall n e' tr' evs rest' h)).cast rfl (by
      simp only [Talk.events_append, List.append_assoc, answered_req])
  · have hq : s.RequestOk arg := by simpa [Issues] using hi
    obtain ⟨e, tr, hx, ht⟩ := ensureZeroStatus_inOp .wrblk .wCmd (by decide) hr h0 hrx hc
    obtain ⟨e1, tr1, hx1, hrx1, hall⟩ := fromWToken_packet
      (s := (s.answered 24#6 arg 0x00#8 (s.env.deadlineAt 0 300) e tr).inOp .wrblk .wToken) ht.rx
    refine ⟨.wrblk, .wResp, .wBusy, fun _ => do goFsm .wBusy; fromWBusy, fun _ => finish, e1, tr1, ?_,
      fun u => run_bind_ok (goFsm_run .wBusy (u.inOp .wrblk .wResp)), hrx1, fun n e' tr' evs rest' h => ?_⟩
    · exact (hostCall_idle hq.idle).trans (settle_congr
        ((fromWCheck_run hq.len hq.range hq.address).trans ((run_bind_ok hx).trans hx1)))
    · exact (ht.trans (hall n e' tr' evs rest' h)).cast rfl (by
        simp only [Talk.events_append, List.append_assoc, inOp_req, answered_req])

/-- Settles O34: the token's test raises, or the busy-wait does; each has deselected the card. -/
theorem writeErrors : Obligations.WriteErrors := by
  unfold Obligations.WriteErrors
  refine fun s i arg r w rest hmem hi hr h0 => ⟨fun hno hrx hc => ?_, fun b hok hbusy hrx hc hw => ?_⟩
  · obtain ⟨o, x, y, k, k', e, tr, hexec, -, hrx1, hall⟩ := hi.exec_write hmem hr h0 hrx hc
    obtain ⟨e1, tr1, hx1, ht1⟩ := writeResponse_rejected
      (s := (s.answered 24#6 arg 0x00#8 (s.env.deadlineAt 0 300) e tr).inOp o x) rfl
      (by simpa [writeAccepted] using hno) hrx1
    have ht := hall 0 _ _ _ _ ht1
    refine ⟨e1, tr1, ?_, ht.rx, by simpa only [List.append_assoc] using ht.bus⟩
    exact hexec.trans (settle_raise_inOp (run_bind_error hx1))
  · rw [Talk.answers_append, List.append_assoc] at hrx
    obtain ⟨o, x, y, k, k', e, tr, hexec, hk, hrx1, hall⟩ := hi.exec_write hmem hr h0 hrx hc
    obtain ⟨e1, tr1, hx1, ht1⟩ := writeResponse_run
      (s := (s.answered 24#6 arg 0x00#8 (s.env.deadlineAt 0 300) e tr).inOp o x) (beq_iff_eq.mpr hok) hrx1
    have ht := hall 0 _ _ [] _ ht1
    obtain ⟨e2, tr2, hx2, ht2⟩ := writeBusy_late
      (s := State.inOp { s.answered 24#6 arg 0x00#8 (s.env.deadlineAt 0 300) e1 tr1 with wrk.dresp := w.token } o y) rfl
      hbusy ht1.rx (ht.busyWait (i := 0) hw)
    have hdl1 : e1.deadlineAt 0 600 = s.env.deadlineAt r.ticks 600 := ht.deadlineAt 0 600
    refine ⟨e2, tr2, ?_, ht2.rx, ?_⟩
    · rw [hexec, ← hdl1]
      exact settle_raise_inOp ((run_bind_ok hx1).trans ((hk _).trans (run_bind_error hx2)))
    · simpa only [Talk.events_append, List.append_assoc, List.append_nil] using (ht.trans ht2).bus

/-! ### What the commands leave unchanged -/

/-- A relation that follows from one that the operations keep. -/
theorem OperationKeeps.mono {R R' : State → State → Prop} (h : OperationKeeps R) (hR' : Steady R')
    (hle : ∀ s t, R s t → R' s t) : OperationKeeps R' where
  toSteady := hR'
  withCs s a := hle _ _ (h.withCs s a)
  afterXchg s b := hle _ _ (h.afterXchg s b)
  afterSample s := hle _ _ (h.afterSample s)
  dl1 s d := hle _ _ (h.dl1 s d)
  cfsm s x := hle _ _ (h.cfsm s x)
  endCommand s b t := hle _ _ (h.endCommand s b t)
  frame s f := hle _ _ (h.frame s f)
  start s o x := hle _ _ (h.start s o x)
  fsm s x := hle _ _ (h.fsm s x)
  exit s r := hle _ _ (h.exit s r)

/-- A canonical scratch buffer is canonical still, and reads as before outside the 16 bytes of a register (R320). -/
def ScratchKeptAbove (s t : State) : Prop :=
  s.wrk.scratch.wf = true →
    t.wrk.scratch.wf = true ∧ ∀ a : Nat, Config.regLen ≤ a → t.wrk.scratch.get a = s.wrk.scratch.get a

theorem scratchKeptAbove_steady : Steady ScratchKeptAbove where
  refl _ hwf := ⟨hwf, fun _ _ => rfl⟩
  trans h h' hwf :=
    have ⟨hwf', hget⟩ := h hwf
    have ⟨hwf'', hget'⟩ := h' hwf'
    ⟨hwf'', fun a ha => (hget' a ha).trans (hget a ha)⟩

theorem scratchKeptAbove_operationKeeps : OperationKeeps ScratchKeptAbove :=
  (OperationKeeps.of_view (f := (·.wrk.scratch)) fun _ => rfl).mono scratchKeptAbove_steady fun _ _ h hwf => by
    rw [h]
    exact ⟨hwf, fun _ _ => rfl⟩

theorem scratchKeptAbove_set (s : State) (i : Nat) (v : Byte) (hi : i < Config.regLen) :
    ScratchKeptAbove s { s with wrk.scratch := s.wrk.scratch.set i v } := fun hwf =>
  ⟨Memory.set_wf v (hi.trans (by decide)) hwf,
    fun _ ha => Memory.get_set_other v (Nat.ne_of_gt (hi.trans_le ha)) _ hwf⟩

/-- What a register read leaves: everything but what every command writes and the scratch buffer (R320). -/
def State.besideScratch (s : State) : State := { s.ended with wrk.scratch := [] }

/-- What CMD17 leaves: everything but what every command writes, the host buffer and the CRC registers (R304). -/
def State.besideBlock (s : State) : State :=
  { s.ended with req.buf := [], ses.lastCrc16 := 0#16, ses.calcCrc16 := 0#16 }

/-- What CMD24 leaves: everything but what every command writes and the data-response token (R314). -/
def State.besideDresp (s : State) : State := { s.ended with wrk.dresp := 0x00#8 }

/-- A register read keeps every relation of the operations that a byte written to the scratch buffer keeps. -/
theorem ReadsRegister.keeps {R : State → State → Prop} (hR : OperationKeeps R)
    (hset : ∀ (s : State) i v, i < Config.regLen → R s { s with wrk.scratch := s.wrk.scratch.set i v }) {s t : State}
    {i : Instr} {n : BitVec 6} {arg : BitVec 32} (hi : ReadsRegister i n arg) (h : exec i s = .next t) : R s t :=
  settle_always hR (always_bind hR.toSteady (always_readRegister hR.toEngineKeeps hset n arg) fun _ =>
    always_pure hR.toSteady ()) ((hi.exec_eq s).symm.trans h)

theorem exec_cmd17_besideBlock {arg : BitVec 32} {s t : State} (h : exec (.cmd17 arg) s = .next t) :
    t.besideBlock = s.besideBlock :=
  have hO : OperationKeeps fun s t => t.besideBlock = s.besideBlock := .of_view fun _ => rfl
  settle_always hO (always_bind hO.toSteady (always_ensureZeroStatus hO.toEngineKeeps _ _) fun _ =>
    always_bind hO.toSteady (always_waitStartToken hO.toEngineKeeps) fun _ =>
      always_bind hO.toSteady (always_receiveBlock hO.toEngineKeeps (fun _ _ _ _ => rfl) _ _ _) fun c =>
        always_recordCrc hO.toEngineKeeps (fun _ _ _ => rfl) c) h

theorem exec_cmd24_besideDresp {arg : BitVec 32} {s t : State} (h : exec (.cmd24 arg) s = .next t) :
    t.besideDresp = s.besideDresp :=
  have hO : OperationKeeps fun s t => t.besideDresp = s.besideDresp := .of_view fun _ => rfl
  have hsend (bs : List Byte) := always_sendAll hO.toSteady hO.afterXchg bs
  settle_always hO (always_bind hO.toSteady (always_ensureZeroStatus hO.toEngineKeeps _ _) fun _ =>
    always_bind hO.toSteady (hsend _) fun _ => always_bind hO.toSteady (always_sendBlock hO.toEngineKeeps _ _) fun _ =>
      always_bind hO.toSteady (hsend _) fun _ =>
        always_bind hO.toSteady (always_writeResponse hO.toEngineKeeps fun _ _ => rfl) fun _ =>
          always_writeBusy hO.toEngineKeeps) h

/-- What all of them leave. -/
def State.besideData (s : State) : State :=
  { s.ended with
    ses.lastCrc16 := 0#16, ses.calcCrc16 := 0#16, req.buf := [], wrk.scratch := [], wrk.dresp := 0x00#8 }

theorem dataCommand_cases {i : Instr} {n : BitVec 6} {arg : BitVec 32}
    (hi : i ∈ [Instr.cmd9 arg, .cmd10 arg, .rdreg n, .cmd17 arg, .cmd24 arg]) :
    (∃ n arg, ReadsRegister i n arg) ∨ i = .cmd17 arg ∨ i = .cmd24 arg := by
  simp only [List.mem_cons, List.not_mem_nil, or_false] at hi
  rcases hi with rfl | rfl | rfl | h17 | h24
  · exact .inl ⟨9#6, arg, .inl ⟨rfl, rfl⟩⟩
  · exact .inl ⟨10#6, arg, .inr (.inl ⟨rfl, rfl⟩)⟩
  · exact .inl ⟨n, 0#32, .inr (.inr ⟨rfl, rfl⟩)⟩
  · exact .inr (.inl h17)
  · exact .inr (.inr h24)

/-- Settles O51: what each command leaves unchanged is read off the rest of the state. -/
theorem dataCommandFrame : Obligations.DataCommandFrame := by
  unfold Obligations.DataCommandFrame
  intro s t i n arg hi hwf h
  have hkept : t.besideData = s.besideData ∧
      (∀ a : Nat, 16 ≤ a → t.wrk.scratch.get a = s.wrk.scratch.get a) ∧
      (i ≠ .cmd24 arg → t.wrk.dresp = s.wrk.dresp) ∧
      (i ≠ .cmd17 arg → t.ses = s.ses ∧ t.req.buf = s.req.buf) ∧
      (i = .cmd17 arg ∨ i = .cmd24 arg → t.wrk.scratch = s.wrk.scratch) := by
    rcases dataCommand_cases hi with ⟨n, arg', hread⟩ | rfl | rfl
    · have hsame : t.besideScratch = s.besideScratch := hread.keeps (.of_view fun _ => rfl) (fun _ _ _ _ => rfl) h
      obtain ⟨-, habove⟩ := hread.keeps scratchKeptAbove_operationKeeps scratchKeptAbove_set h hwf
      refine ⟨congrArg (·.besideData) hsame, habove, fun _ => congrArg (·.wrk.dresp) hsame,
        fun _ => ⟨congrArg (·.ses) hsame, congrArg (·.req.buf) hsame⟩, ?_⟩
      rintro (rfl | rfl) <;> simp [ReadsRegister] at hread
    · have hsame := exec_cmd17_besideBlock h
      have hscratch : t.wrk.scratch = s.wrk.scratch := congrArg (·.wrk.scratch) hsame
      exact ⟨congrArg (·.besideData) hsame, fun a _ => by rw [hscratch], fun _ => congrArg (·.wrk.dresp) hsame,
        fun hne => absurd rfl hne, fun _ => hscratch⟩
    · have hsame := exec_cmd24_besideDresp h
      have hscratch : t.wrk.scratch = s.wrk.scratch := congrArg (·.wrk.scratch) hsame
      exact ⟨congrArg (·.besideData) hsame, fun a _ => by rw [hscratch], fun hne => absurd rfl hne,
        fun _ => ⟨congrArg (·.ses) hsame, congrArg (·.req.buf) hsame⟩, fun _ => hscratch⟩
  obtain ⟨hrest, habove, hdresp, hblock, hscratch⟩ := hkept
  exact ⟨congrArg (·.ses.kind) hrest, congrArg (·.ses.cid) hrest, congrArg (·.ses.csd) hrest,
    congrArg (·.ses.blockCount) hrest, congrArg (·.req.op) hrest, congrArg (·.req.index) hrest,
    congrArg (·.req.len) hrest, congrArg (·.wrk.dl0) hrest, congrArg (·.wrk.r7) hrest, congrArg (·.wrk.ocr0) hrest,
    congrArg (·.res.data) hrest, congrArg (·.par) hrest, congrArg (·.hostPort) hrest, congrArg (·.cmdPort) hrest,
    habove, hdresp, fun hne => ⟨(hblock hne).1, fun a => by rw [(hblock hne).2]⟩, fun hor a => by rw [hscratch hor]⟩

end Sys2Proof.Machine
end

