-- ==== Sys2Proof/Proofs/BlockTransfers.lean ====
section
/-! PROOFS. RDBLK and WRBLK (45_block_transfer.md): the translation of the block index, the refused requests, and the
two operations against a given card, with the read that the transport cuts off. -/

namespace Sys2Proof.Machine

/-! ### The translation of the block index -/

theorem translate_sdhc (index : BitVec 64) : translate .sdhc index = some (index.extractLsb' 0 32) := if_pos rfl

theorem translate_byteAddress {k : CardKind} (hk : k ≠ .sdhc) (index : BitVec 64) : translate k index =
    if index.toNat * 512 < 2 ^ 32 then some (BitVec.ofNat 32 (index.toNat * 512)) else none := if_neg hk

theorem translate_eq_some_iff {k : CardKind} (hk : k ≠ .sdhc) (index : BitVec 64) (a : BitVec 32) :
    translate k index = some a ↔ a.toNat = index.toNat * 512 := by
  rw [translate_byteAddress hk]
  split
  case isTrue hfits =>
    rw [Option.some_inj, ← BitVec.toNat_inj, BitVec.toNat_ofNat, Nat.mod_eq_of_lt hfits, eq_comm]
  case isFalse hlarge =>
    have ha : a.toNat < 2 ^ 32 := a.isLt
    exact ⟨nofun, fun h => absurd (h ▸ ha) hlarge⟩

theorem translate_eq_none_iff (k : CardKind) (index : BitVec 64) :
    translate k index = none ↔ k ≠ .sdhc ∧ 2 ^ 32 ≤ index.toNat * 512 := by
  by_cases hk : k = .sdhc
  · simp [hk, translate_sdhc]
  · rw [translate_byteAddress hk, ite_eq_right_iff]
    simp [hk]

/-- 73 bits hold the byte address of every index. -/
theorem toNat_byteAddress (index : BitVec 64) : (index.zeroExtend 73 <<< 9).toNat = index.toNat * 512 := by
  have hi : index.toNat < 2 ^ 64 := index.isLt
  rw [BitVec.toNat_shiftLeft, BitVec.toNat_setWidth, Nat.mod_eq_of_lt (by omega), Nat.shiftLeft_eq,
    Nat.mod_eq_of_lt (by omega)]

/-- Settles O35: an address is given exactly where the product fits 32 bits. -/
theorem translation : Obligations.Translation := by
  unfold Obligations.Translation
  refine ⟨translate_sdhc, fun k index a hk => translate_eq_some_iff hk index a, fun k index => ?_, by decide, by decide,
    by decide, by decide⟩
  rw [toNat_byteAddress]
  exact translate_eq_none_iff k index

/-! ### The refused requests -/

/-- A request that fails its check ends through the exit actions, with nothing done before (R303). -/
theorem exec_refused {s : State} {i : Instr} {err : Err} (hi : i ∈ [Instr.rdblk, .wrblk]) (hidle : s.seq.op = .idle)
    (hcheck : checkRequest s.ses s.req = .error err) : exec i s = .next (exitActions (some err) s) := by
  simp only [List.mem_cons, List.not_mem_nil, or_false] at hi
  rcases hi with rfl | rfl
  · refine (hostCall_idle hidle).trans (settle_raise_inOp (o := .rdblk) (x := .rCheck) ?_)
    rw [run_bind_ok (start_run _ _ _), fromRCheck, run_bind_ok (run_rd _), inOp_ses, inOp_req, hcheck]
    rfl
  · refine (hostCall_idle hidle).trans (settle_raise_inOp (o := .wrblk) (x := .wCheck) ?_)
    rw [run_bind_ok (start_run _ _ _), fromWCheck, run_bind_ok (run_rd _), inOp_ses, inOp_req, hcheck]
    rfl

/-- On an idle engine the exit actions write `RES` only. -/
theorem exitActions_of_idle {s : State} (h : s.Inv) (hidle : s.seq.op = .idle) (r : Option Err) :
    exitActions r s = { s with res := ⟨kindCode r, statusInfo r, tcodeInfo r, s.res.data⟩ } := by
  rw [exitActions, withCs_same (h.idleDeselected hidle),
    show (⟨.idle, .fIdle, .cOff⟩ : Sequencer) = s.seq from (legal_idle h.legal hidle).symm]

theorem checkRequest_bufLen {ses : Session} {req : Request} (hlen : req.len ≠ 512#32) :
    checkRequest ses req = .error .bufLen := if_pos hlen

theorem checkRequest_range {ses : Session} {req : Request} (hlen : req.len = 512#32)
    (hindex : ses.blockCount.toNat ≤ req.index.toNat) : checkRequest ses req = .error .range := by
  rw [checkRequest, if_neg (not_not_intro hlen), if_pos hindex]

theorem checkRequest_overflow {ses : Session} {req : Request} (hlen : req.len = 512#32)
    (hindex : req.index.toNat < ses.blockCount.toNat) (haddr : translate ses.kind req.index = none) :
    checkRequest ses req = .error .range := by
  rw [checkRequest, if_neg (not_not_intro hlen), if_neg (Nat.not_le_of_lt hindex), haddr]

/-- Settles O36: the first check that fails names the error, and the exit actions of an idle engine write `RES`
only. -/
theorem refusedTransfers : Obligations.RefusedTransfers := by
  unfold Obligations.RefusedTransfers
  intro s i hi hinv hidle
  have hexec {err : Err} (hcheck : checkRequest s.ses s.req = .error err) :=
    (exec_refused hi hidle hcheck).trans (congrArg _ (exitActions_of_idle hinv hidle (some err)))
  exact ⟨fun hlen => hexec (checkRequest_bufLen hlen), fun hlen hindex => hexec (checkRequest_range hlen hindex),
    fun hlen hindex hkind haddr =>
      hexec (checkRequest_overflow hlen hindex ((translate_eq_none_iff ..).mpr ⟨hkind, haddr⟩))⟩

/-! ### The accepted requests -/

/-- Settles O37: the run of the command, then RDBLK from R_TOKEN on. -/
theorem rdblkSucceeds : Obligations.RdblkSucceeds := by
  unfold Obligations.RdblkSucceeds
  intro s addr r d rest hidle hwf hlen hindex haddr hr h0 hrx hc hd
  rw [Talk.answers_append, List.append_assoc] at hrx
  obtain ⟨e, tr, hx, ht⟩ := ensureZeroStatus_inOp .rdblk .rCmd (by decide) hr h0 hrx hc
  obtain ⟨e1, tr1, hx1, ht1⟩ := fromRToken_run
    (s := (s.answered 17#6 addr 0x00#8 (s.env.deadlineAt 0 300) e tr).inOp .rdblk .rToken) rfl ht.rx
    (ht.before (i := 0) hd)
  have hdl1 : e.deadlineAt 0 300 = s.env.deadlineAt r.ticks 300 := ht.deadlineAt 0 300
  refine ⟨e1, tr1, s.req.buf.write 0 d.data.toList, ?_, ht1.rx,
    Memory.get_write_zero d.data _ hwf (le_refl _), ?_⟩
  · rw [← hdl1]
    exact exec_rdblk_ok hidle ((fromRCheck_run hlen hindex haddr).trans
      ((run_bind_ok hx).trans ((run_bind_ok (goFsm_run _ _)).trans hx1)))
  · simpa only [Talk.events_append, List.append_assoc] using (ht.trans ht1).bus

/-- Settles O40: the run of the command, then WRBLK from W_TOKEN on. -/
theorem wrblkSucceeds : Obligations.WrblkSucceeds := by
  unfold Obligations.WrblkSucceeds
  intro s addr r w rest hidle hlen hindex haddr hr h0 hok hbusy hrx hc hw
  rw [Talk.answers_append, List.append_assoc] at hrx
  obtain ⟨e, tr, hx, ht⟩ := ensureZeroStatus_inOp .wrblk .wCmd (by decide) hr h0 hrx hc
  obtain ⟨e1, tr1, hx1, ht1⟩ := fromWToken_run
    (s := (s.answered 24#6 addr 0x00#8 (s.env.deadlineAt 0 300) e tr).inOp .wrblk .wToken) rfl hok hbusy ht.rx
    (ht.before (i := 0) hw)
  have hdl1 : e.deadlineAt 0 600 = s.env.deadlineAt r.ticks 600 := ht.deadlineAt 0 600
  refine ⟨e1, tr1, ?_, ht1.rx, ?_⟩
  · rw [← hdl1]
    exact exec_wrblk_ok hidle ((fromWCheck_run hlen hindex haddr).trans
      ((run_bind_ok hx).trans ((run_bind_ok (goFsm_run _ _)).trans hx1)))
  · simpa only [Talk.events_append, List.append_assoc, inOp_req, answered_req] using (ht.trans ht1).bus

/-! ### The read that is cut off -/

/-- RDBLK from R_TOKEN on, against a transport that fails after the bytes `first` (R307, R77). -/
theorem fromRToken_fails {s : State} {gap code : Nat} {first : List Byte} {rest : List Answer}
    (hfirst : first.length < 512)
    (hrx : s.env.rx = (polls (List.replicate gap Config.idleLine ++ [Config.startToken] ++ first)).answers ++
      .fail code :: rest) (hc : s.env.Before 0 gap 300) :
    ∃ (e : Env) (tr : List Event),
      fromRToken s = .error (.raise (.transport (code % 2 ^ s.par.tcodeW)))
        ((((s.withDl1 (s.env.deadlineAt 0 300)).withFsm .rData).withBuf (s.req.buf.write 0 first)).io e tr) ∧
      Talked s.env s.trace (gap + 1) e tr rest
        ((polls (List.replicate gap Config.idleLine ++ [Config.startToken] ++ first)).events ++
          [.xchg Config.fill (.fail (code % 2 ^ s.par.tcodeW))]) := by
  rw [polls_append, Talk.answers_append, List.append_assoc] at hrx
  obtain ⟨e, tr, hx, ht⟩ := waitStartToken_run hrx hc
  obtain ⟨e1, tr1, hx1, ht1⟩ := receiveBlock_fails (k := 511 - first.length) first
    (((s.withDl1 (s.env.deadlineAt 0 300)).io e tr).withFsm .rData) 0 0#16
    (by rw [Nat.zero_add]; exact hfirst.le) ht.rx
  rw [show first.length + (511 - first.length + 1) = Config.blockLen by unfold Config.blockLen; omega] at hx1
  refine ⟨e1, tr1, ?_, (ht.trans ht1).cast rfl ?_⟩
  · rw [fromRToken, run_bind_ok hx, run_bind_ok (goFsm_run _ _), fromRData, run_bind_error hx1]
    rfl
  · rw [polls_append _ first, Talk.events_append, List.append_assoc]
    rfl

/-- An accepted RDBLK against such a transport: the exact next state and transport events. -/
theorem exec_rdblk_fails {s : State} {addr : BitVec 32} {r : CardReply} {gap code : Nat} {first : List Byte}
    {rest : List Answer} (hq : s.RequestOk addr) (hr : r.Ok s.par) (h0 : r.resp = 0x00#8) (hfirst : first.length < 512)
    (hrx : s.env.rx = (r.talk 17#6 addr ++
      polls (List.replicate gap Config.idleLine ++ [Config.startToken] ++ first)).answers ++ .fail code :: rest)
    (hc : r.InTime s.env 0) (hgap : s.env.Before r.ticks gap 300) :
    ∃ (e : Env) (tr : List Event),
      exec .rdblk s = .next (exitActions (some (.transport (code % 2 ^ s.par.tcodeW)))
        ((s.answered 17#6 addr 0x00#8 (s.env.deadlineAt r.ticks 300) e tr).withBuf (s.req.buf.write 0 first))) ∧
      e.rx = rest ∧ bus tr = bus s.trace ++ s.csEvents true ++
        (r.talk 17#6 addr ++ polls (List.replicate gap Config.idleLine ++ [Config.startToken] ++ first)).events ++
        [.xchg Config.fill (.fail (code % 2 ^ s.par.tcodeW))] := by
  rw [Talk.answers_append, List.append_assoc] at hrx
  obtain ⟨e, tr, hx, ht⟩ := ensureZeroStatus_inOp .rdblk .rCmd (by decide) hr h0 hrx hc
  obtain ⟨e1, tr1, hx1, ht1⟩ := fromRToken_fails
    (s := (s.answered 17#6 addr 0x00#8 (s.env.deadlineAt 0 300) e tr).inOp .rdblk .rToken) hfirst ht.rx
    (ht.before (i := 0) hgap)
  have hdl1 : e.deadlineAt 0 300 = s.env.deadlineAt r.ticks 300 := ht.deadlineAt 0 300
  refine ⟨e1, tr1, ?_, ht1.rx, ?_⟩
  · rw [← hdl1]
    exact exec_rdblk_raise (o := .rdblk) (x := .rData) hq
      ((run_bind_ok hx).trans ((run_bind_ok (goFsm_run _ _)).trans hx1))
  · rw [Talk.events_append]
    exact (ht.trans ht1).bus.trans (by simp only [List.append_assoc]; rfl)

/-- Settles O38: the received bytes stand in the host buffer, and the exit actions leave it alone. -/
theorem rdblkPartial : Obligations.RdblkPartial := by
  unfold Obligations.RdblkPartial
  intro s addr r gap first code rest hidle hwf hlen hindex haddr hr h0 hfirst hrx hc hgap
  obtain ⟨e, tr, hx, hrest, hbus⟩ := exec_rdblk_fails ⟨hidle, hlen, hindex, haddr⟩ hr h0 hfirst hrx hc hgap
  refine ⟨_, hx, rfl, rfl, rfl, exitActions_ses .., ?_, ?_, fun a => ?_, ?_⟩
  · rw [exitActions_wrk]
    rfl
  · rw [exitActions_env]
    exact hrest
  · rw [exitActions_req]
    exact Memory.get_write_zero ⟨first.toArray, rfl⟩ s.req.buf hwf hfirst.le a
  · rw [exitActions_trace, if_neg Bool.noConfusion, bus_cs]
    exact (congrArg (· ++ [.cs false]) hbus).trans (List.append_assoc ..)

end Sys2Proof.Machine
end

