-- ==== Sys2Proof/Proofs/ReadDiagnostics.lean ====
section
/-! PROOFS. The two CRC registers of RDBLK (R309, R310), for every card and every clock. Up to R_CRC nothing writes
them, so that every error leaves them; the generator's register is the CRC16 of what stands in the host buffer; after
they are written only the deselect and the success exit follow. -/

namespace Sys2Proof.Machine

variable {α : Type} {P : State → Prop} {Q : α → State → Prop} {A : Bool → Byte → Prop} {x : BitVec 16 × BitVec 16}

/-! ### What a read writes -/

/-- `S.last_crc16` and `S.calc_crc16`. -/
def State.crcs (s : State) : BitVec 16 × BitVec 16 := (s.ses.lastCrc16, s.ses.calcCrc16)

/-- The registers that the data phase of a read writes (R304). -/
def State.readTarget (s : State) : (BitVec 16 × BitVec 16) × Memory := (s.crcs, s.req.buf)

/-- From `P` the procedure ends well in `Q`, or it stops with the CRC registers at `x`. -/
abbrev Reads {α : Type} (x : BitVec 16 × BitVec 16) (P : State → Prop) (p : Proc α) (Q : α → State → Prop) : Prop :=
  Ends P p Q fun _ s => s.crcs = x

theorem readTarget_operationKeeps : OperationKeeps fun s t => t.readTarget = s.readTarget := .of_view fun _ => rfl

/-- A procedure of the command engine or of the sequencer, before the data phase. -/
theorem Always.reads {p : Proc α} (hp : Always (fun s t => t.readTarget = s.readTarget) p) (hQ : EndsWell P p Q)
    (m : Memory) : Reads x (fun s => s.readTarget = (x, m) ∧ P s) p fun a s => s.readTarget = (x, m) ∧ Q a s where
  ok hs h := ⟨(hp.ok h).trans hs.1, hQ.ok hs.2 h⟩
  err hs h := congrArg Prod.fst ((hp.error h).trans hs.1)

/-! ### The latch in the token wait -/

theorem holds_tokenLoop : ∀ n, Holds A (tokenLoop n)
  | 0 => endsWell_stop _
  | n + 1 => by
    refine (holds_xchg _).step fun b => ?_
    cases tokenClass b with
    | start => exact holds_pure ()
    | invalid => exact (endsWell_trivial _).step fun _ => endsWell_raise _
    | idleLine =>
      exact holds_expiredDl1.step fun _ => ends_ite
        (fun _ => (endsWell_trivial _).step fun _ => endsWell_raise _) fun _ => holds_tokenLoop n

theorem holds_waitStartToken : Holds A waitStartToken :=
  (holds_loadDl1 _).step fun _ => holds_rd.step fun _ => holds_tokenLoop _

/-! ### The data phase -/

theorem bufWrite_reads (i : Nat) (v : Byte) (m : Memory) :
    Reads x (fun s => s.readTarget = (x, m) ∧ s.Latches Selected) (bufWrite i v)
      fun _ s => s.readTarget = (x, m.set i v) ∧ s.Latches Selected where
  ok {s t a} hs h := by
    obtain ⟨htarget, hsel⟩ := hs
    obtain ⟨hcrcs, hbuf⟩ := Prod.mk.inj htarget
    unfold bufWrite at h
    split at h <;> cases h
    exact ⟨Prod.ext hcrcs (congrArg (Memory.set · i v) hbuf), hsel⟩
  err {s t r} hs h := by
    unfold bufWrite at h
    split at h <;> cases h
    exact congrArg Prod.fst hs.1

/-- The received bytes are in the host buffer, and the generator's register has taken them in (R307). -/
theorem receiveBlock_reads : ∀ (k i : Nat) (c : BitVec 16) (m : Memory),
    Reads x (fun s => s.readTarget = (x, m) ∧ s.Latches Selected) (receiveBlock k i c)
      fun c' s => ∃ data : List Byte, data.length = k ∧ c' = data.foldl crc16Update c ∧
        s.readTarget = (x, m.write i data) ∧ s.Latches Selected
  | 0, _, c, _ => ends_pure c fun _ hs => ⟨[], rfl, rfl, hs⟩
  | k + 1, i, c, m =>
    ((always_xchg readTarget_operationKeeps.afterXchg _).reads (holds_xchg _) m).step fun b =>
      (bufWrite_reads i b m).step fun _ =>
        ends_weaken (receiveBlock_reads k (i + 1) (crc16Update c b) (m.set i b)) (fun _ hs => hs)
          (fun _ _ ⟨data, hlen, hc, hs⟩ => ⟨b :: data, congrArg (· + 1) hlen, hc, hs⟩) fun _ _ h => h

/-- The data phase is over: the generator's register is `c`, the CRC16 of the host buffer (R307). -/
def State.BlockReceived (x : BitVec 16 × BitVec 16) (c : BitVec 16) (s : State) : Prop :=
  s.crcs = x ∧ c = crc16 (s.req.buf.bytes 0 512) ∧ s.Latches Selected

theorem receiveBlock_received {m : Memory} (hm : m.wf = true) :
    Reads x (fun s => s.readTarget = (x, m) ∧ s.Latches Selected) (receiveBlock Config.blockLen 0 0#16)
      (State.BlockReceived x) :=
  ends_weaken (receiveBlock_reads Config.blockLen 0 0#16 m) (fun _ hs => hs)
    (fun c s ⟨data, hlen, hc, htarget, hsel⟩ => by
      obtain ⟨hcrcs, hbuf⟩ := Prod.mk.inj htarget
      replace hlen : data.length = 512 := hlen
      have hbytes := Memory.bytes_write data m 0 (by rw [hlen]; exact le_refl _) hm
      rw [hlen] at hbytes
      exact ⟨hcrcs, by rw [hbuf, hbytes]; exact hc, hsel⟩) fun _ _ h => h

/-! ### The two registers -/

/-- The computed register is the CRC16 of the host buffer, and the observed one is the last two bytes received, the
card deselected after them (R309, R310). -/
def State.Recorded (s : State) : Prop :=
  s.ses.calcCrc16 = crc16 (s.req.buf.bytes 0 512) ∧
    ∃ (h l : Byte) (older : List Event), s.ses.lastCrc16 = h ++ l ∧
      s.trace = .cs false :: .xchg 0xFF#8 (.byte l) :: .xchg 0xFF#8 (.byte h) :: older

/-- The data phase is over, and the history ends with the events `past`, newest first. -/
def State.Trailing (x : BitVec 16 × BitVec 16) (c : BitVec 16) (past : List Event) (s : State) : Prop :=
  s.BlockReceived x c ∧ ∃ older : List Event, s.trace = past ++ older

theorem xchg_trailing (c : BitVec 16) (past : List Event) : Reads x (State.Trailing x c past) (xchg Config.fill)
    fun b => State.Trailing x c (.xchg 0xFF#8 (.byte b) :: past) :=
  ends_xchg (fun s b ⟨hs, older, htrace⟩ hn => ⟨hs, older, by rw [afterXchg_trace, hn, htrace]; rfl⟩)
    fun _ _ hs _ => hs.1.1

/-- The registers are written and the card is deselected, right after the two bytes (R304 R_CRC). -/
theorem setCrcs_records (h l : Byte) (c : BitVec 16) :
    Reads x (State.Trailing x c [.xchg 0xFF#8 (.byte l), .xchg 0xFF#8 (.byte h)]) (do setCrcs (h ++ l) c; cs false)
      fun _ s => s.Recorded ∧ s.wrk.csActive = false where
  ok {s t a} hs hrun := by
    obtain ⟨⟨-, hc, hsel⟩, older, htrace⟩ := hs
    cases hrun
    have hselected : s.wrk.csActive ≠ false := fun hcs => Bool.noConfusion (hsel.symm.trans hcs)
    refine ⟨⟨?_, h, l, older, ?_, ?_⟩, by rw [withCs_wrk]⟩
    · rw [withCs_ses, withCs_req]
      exact hc
    · rw [withCs_ses]
    · rw [withCs_trace, if_neg hselected, htrace]
      rfl
  err _ hrun := nomatch hrun

theorem recordCrc_records (c : BitVec 16) : Reads x (State.BlockReceived x c) (recordCrc c)
    fun _ s => s.Recorded ∧ s.wrk.csActive = false :=
  ends_weaken ((xchg_trailing c []).step fun h => (xchg_trailing c _).step fun l => setCrcs_records h l c)
    (fun s hs => ⟨hs, s.trace, rfl⟩) (fun _ _ h => h) fun _ _ h => h

theorem fromRCrc_records (c : BitVec 16) :
    Reads x (State.BlockReceived x c) (fromRCrc c) fun _ => State.Recorded :=
  (recordCrc_records c).step fun _ => ends_upd fun s ⟨⟨hcalc, h, l, older, hlast, htrace⟩, hcs⟩ =>
    ⟨by rw [exitActions_ses, exitActions_req]; exact hcalc, h, l, older, by rw [exitActions_ses]; exact hlast,
      by rw [exitActions_trace, if_pos hcs]; exact htrace⟩

/-! ### RDBLK -/

section Rdblk

variable {m : Memory} (hm : m.wf = true)
include hm

theorem fromRData_records :
    Reads x (fun s => s.readTarget = (x, m) ∧ s.Latches Selected) fromRData fun _ => State.Recorded :=
  (receiveBlock_received hm).step fun c =>
    (ends_upd fun _ hs => hs : Reads x _ (goFsm .rCrc) fun _ => State.BlockReceived x c).step fun _ =>
      fromRCrc_records c

theorem fromRToken_records :
    Reads x (fun s => s.readTarget = (x, m) ∧ s.Latches Selected) fromRToken fun _ => State.Recorded :=
  have hO := readTarget_operationKeeps
  ((always_waitStartToken hO.toEngineKeeps).reads holds_waitStartToken m).step fun _ =>
    ((always_goFsm hO _).reads (holds_goFsm _) m).step fun _ => fromRData_records hm

theorem fromRCmd_records :
    Reads x (fun s => s.readTarget = (x, m) ∧ True) fromRCmd fun _ => State.Recorded := by
  have hO := readTarget_operationKeeps
  refine ((always_rd hO.toSteady).reads (endsWell_trivial rd) m).step fun s => ?_
  cases translate s.ses.kind s.req.index with
  | none => exact ends_raise _ fun _ hs => congrArg Prod.fst hs.1
  | some a =>
    exact ((always_ensureZeroStatus hO.toEngineKeeps _ a).reads (ensureZeroStatus_selects _ a) m).step fun _ =>
      ((always_goFsm hO _).reads (holds_goFsm _) m).step fun _ => fromRToken_records hm

theorem fromRCheck_records :
    Reads x (fun s => s.readTarget = (x, m) ∧ True) fromRCheck fun _ => State.Recorded := by
  have hO := readTarget_operationKeeps
  refine ((always_rd hO.toSteady).reads (endsWell_trivial rd) m).step fun s => ?_
  cases checkRequest s.ses s.req with
  | error e => exact ends_raise _ fun _ hs => congrArg Prod.fst hs.1
  | ok a => exact ((always_goFsm hO _).reads (endsWell_trivial _) m).step fun _ => fromRCmd_records hm

end Rdblk

theorem hostCall_settles {p : Proc Unit} {s t : State} (h : hostCall p s = .next t) : settle p s = .next t := by
  unfold hostCall at h
  split at h
  · exact h
  · cases h

/-- Settles O39: a good end has recorded both registers and is the success exit; an error has another code, and leaves
both. -/
theorem rdblkDiagnostics : Obligations.RdblkDiagnostics := by
  unfold Obligations.RdblkDiagnostics
  intro s t hwf h
  rcases settle_next (hostCall_settles h) with hx | ⟨err, u, hx, rfl⟩
  · have hrec := (fromRCheck_records hwf).ok (s := s.inOp .rdblk .rCheck) ⟨rfl, trivial⟩ hx
    have hok : t.res.kind = 0#4 := completes_fromRCheck.done (s := s.inOp .rdblk .rCheck) hx
    exact ⟨fun _ => hrec, fun hne => absurd hok hne⟩
  · have hcrcs : u.crcs = s.crcs := (fromRCheck_records hwf).err (s := s.inOp .rdblk .rCheck) ⟨rfl, trivial⟩ hx
    obtain ⟨hlast, hcalc⟩ := Prod.mk.inj hcrcs
    refine ⟨fun hk => absurd hk (code_ne_ok err), fun _ => ?_⟩
    rw [exitActions_ses]
    exact ⟨hcalc, hlast⟩

end Sys2Proof.Machine
end

