-- ==== Sys2Proof/Proofs/HostOperations.lean ====
section
/-! PROOFS. The host operations (46_host_operations.md): what INIT, RDBLK and WRBLK leave unchanged, for every card and
every clock (R354), what a step runs, and the operations that complete at once or are refused. -/

namespace Sys2Proof.Machine

/-! ### What the operations with a command leave unchanged -/

/-- What INIT leaves: everything but what every command writes, the deadline of its loops, and what it reads of the
card (R220, R354). -/
def State.besideInit (s : State) : State :=
  { s.ended with
    ses := { State.reset.ses with lastCrc16 := s.ses.lastCrc16, calcCrc16 := s.ses.calcCrc16 }
    wrk := { State.reset.wrk with dresp := s.wrk.dresp } }

theorem besideInit_initKeeps : InitKeeps fun s t => t.besideInit = s.besideInit where
  toOperationKeeps := .of_view fun _ => rfl
  dl0 _ _ := rfl
  kind _ _ := rfl
  r7 _ _ _ := rfl
  ocr0 _ _ := rfl
  scratch _ _ _ _ := rfl
  cid _ _ := rfl
  csd _ _ := rfl
  count _ _ := rfl
  enter _ := rfl

theorem exec_init_besideInit {s t : State} (h : exec .init s = .next t) : t.besideInit = s.besideInit :=
  have hI := besideInit_initKeeps
  (hostCall_always hI.toOperationKeeps (always_bind hI.toSteady (always_upd fun s => hI.start s _ _) fun _ =>
    always_bind hI.toSteady (always_upd hI.enter) fun _ => always_fromIReset hI) h).2

theorem exec_rdblk_besideBlock {s t : State} (h : exec .rdblk s = .next t) : t.besideBlock = s.besideBlock :=
  have hO : OperationKeeps fun s t => t.besideBlock = s.besideBlock := .of_view fun _ => rfl
  (hostCall_always hO (always_bind hO.toSteady (always_upd fun s => hO.start s _ _) fun _ =>
    always_fromRCheck hO (fun _ _ _ _ => rfl) fun _ _ _ => rfl) h).2

theorem exec_wrblk_besideDresp {s t : State} (h : exec .wrblk s = .next t) : t.besideDresp = s.besideDresp :=
  have hO : OperationKeeps fun s t => t.besideDresp = s.besideDresp := .of_view fun _ => rfl
  (hostCall_always hO (always_bind hO.toSteady (always_upd fun s => hO.start s _ _) fun _ =>
    always_fromWCheck hO fun _ _ => rfl) h).2

/-- Settles O46: what INIT leaves unchanged is read off the rest of the state. -/
theorem initWrites : Obligations.InitWrites := by
  unfold Obligations.InitWrites
  intro s t h
  have hrest := exec_init_besideInit h
  have hreq : t.req = s.req := congrArg (·.req) hrest
  exact ⟨congrArg (·.ses.lastCrc16) hrest, congrArg (·.ses.calcCrc16) hrest, congrArg (·.wrk.dresp) hrest, hreq,
    fun a => by rw [hreq], congrArg (·.res.data) hrest, congrArg (·.par) hrest, congrArg (·.hostPort) hrest,
    congrArg (·.cmdPort) hrest⟩

/-- Settles O47: RDBLK leaves what CMD17 leaves. -/
theorem rdblkWrites : Obligations.RdblkWrites := by
  unfold Obligations.RdblkWrites
  intro s t h
  have hrest := exec_rdblk_besideBlock h
  have hscratch : t.wrk.scratch = s.wrk.scratch := congrArg (·.wrk.scratch) hrest
  exact ⟨congrArg (·.ses.kind) hrest, congrArg (·.ses.cid) hrest, congrArg (·.ses.csd) hrest,
    congrArg (·.ses.blockCount) hrest, congrArg (·.wrk.dresp) hrest, congrArg (·.wrk.dl0) hrest,
    congrArg (·.wrk.r7) hrest, congrArg (·.wrk.ocr0) hrest, fun a => by rw [hscratch], congrArg (·.req.op) hrest,
    congrArg (·.req.index) hrest, congrArg (·.req.len) hrest, congrArg (·.res.data) hrest, congrArg (·.par) hrest,
    congrArg (·.hostPort) hrest, congrArg (·.cmdPort) hrest⟩

/-- Settles O48: WRBLK leaves what CMD24 leaves. -/
theorem wrblkWrites : Obligations.WrblkWrites := by
  unfold Obligations.WrblkWrites
  intro s t h
  have hrest := exec_wrblk_besideDresp h
  have hreq : t.req = s.req := congrArg (·.req) hrest
  have hscratch : t.wrk.scratch = s.wrk.scratch := congrArg (·.wrk.scratch) hrest
  exact ⟨congrArg (·.ses) hrest, congrArg (·.wrk.dl0) hrest, congrArg (·.wrk.r7) hrest, congrArg (·.wrk.ocr0) hrest,
    fun a => by rw [hscratch], hreq, fun a => by rw [hreq], congrArg (·.res.data) hrest, congrArg (·.par) hrest,
    congrArg (·.hostPort) hrest, congrArg (·.cmdPort) hrest⟩

/-! ### What a step runs -/

/-- A request of the host comes first, and is taken (R33, R340). -/
theorem step_request {s : State} {r : Request} (hl : s.seq.legal = true) (hport : s.hostPort = some r) :
    step s = exec (hostOf r.op) (s.take r) := by
  have hfetch : fetch s = .run (hostOf r.op) (s.take r) := by rw [fetch, hl, hport]; rfl
  rw [step, hfetch]

/-- A command in its port is issued inside the operation that issues it (R26, R92). -/
theorem step_command {s : State} {c : Code} {i : Instr} (hl : s.seq.legal = true) (hhost : s.hostPort = none)
    (hcmd : s.cmdPort = some c) (hdec : decode c = .ok i) (hop : s.seq.op = (placeOf i).1) :
    step s = exec i { s with cmdPort := none } := by
  have hfetch : fetch s = fetchCommand c s := by rw [fetch, hl, hhost, hcmd]; rfl
  have hrun : fetchCommand c s = .run i { s with cmdPort := none } := by rw [fetchCommand, hdec]; exact if_pos hop
  rw [step, hfetch, hrun]

/-- With both ports empty a busy engine carries its operation on (R238, R311, R319). -/
theorem step_carryOn {s : State} (hl : s.seq.legal = true) (hhost : s.hostPort = none) (hcmd : s.cmdPort = none)
    (hop : s.seq.op ≠ .idle) : step s = settle (resume s.seq.fsm) s := by
  have hfetch : fetch s = .carryOn := by
    rw [fetch, hl, hhost, hcmd]
    exact if_neg hop
  rw [step, hfetch]

/-- With both ports empty an idle engine waits (R401). -/
theorem step_wait {s : State} (hl : s.seq.legal = true) (hhost : s.hostPort = none) (hcmd : s.cmdPort = none)
    (hop : s.seq.op = .idle) : step s = .next s := by
  have hfetch : fetch s = .wait := by
    rw [fetch, hl, hhost, hcmd]
    exact if_pos hop
  rw [step, hfetch]

theorem request_buf_wf (code : BitVec 4) (index : BitVec 64) (len : BitVec 32) (bytes : Vector Byte 512) :
    (Request.of code index len bytes).buf.wf = true :=
  Memory.write_wf bytes.toList [] 0 (by simp [Config.blockLen]) rfl

theorem request_buf_get (code : BitVec 4) (index : BitVec 64) (len : BitVec 32) (bytes : Vector Byte 512) (a : Nat) :
    (Request.of code index len bytes).buf.get a = if h : a < 512 then bytes[a] else 0x00#8 :=
  Memory.get_write_zero bytes [] rfl (le_refl _) a

/-- Settles O14: the cases of the step, and the request as the host writes it. -/
theorem stepRunsDecoded : Obligations.StepRunsDecoded := by
  unfold Obligations.StepRunsDecoded
  refine ⟨fun s r i hl hport hdec => ?request, fun s code index len bytes => ?port,
    fun _ _ _ hl hhost hcmd hdec hop => step_command hl hhost hcmd hdec hop,
    fun _ hl hhost hcmd hop => step_carryOn hl hhost hcmd hop, fun _ hl hhost hcmd hop => step_wait hl hhost hcmd hop⟩
  case request =>
    have hi : hostOf r.op = i := Except.ok.inj ((decode_hostCode r.op).symm.trans hdec)
    rw [step_request hl hport, hi]
    rfl
  case port =>
    exact ⟨_, rfl, rfl, rfl, rfl, request_buf_wf .., fun _ => request_buf_get ..⟩

/-! ### A table word placed where the step fetches -/

theorem decode_of_decodeTableWord {nbits w : Nat} {i : Instr} (h : decodeTableWord nbits w = some i) :
    decode (tableCode nbits w) = .ok i := by
  unfold decodeTableWord at h
  split at h
  · next hdec => rw [hdec, Option.some.inj h]
  · cases h

/-- A word of up to 8 bits is a host code (log 12). -/
theorem tableCode_fmt_host {nbits : Nat} (h : nbits ≤ 8) (w : Nat) : (tableCode nbits w).fmt = .hostop4 := by
  rw [tableCode, if_pos h]

/-- A longer word is a frame, or the two frames of ACMD41 (log 12). -/
theorem tableCode_fmt_command {nbits : Nat} (h : 8 < nbits) (w : Nat) :
    (tableCode nbits w).fmt = .cmdframe48 ∨ (tableCode nbits w).fmt = .pseudoAcmd41 := by
  rw [tableCode, if_neg (Nat.not_le_of_lt h)]
  split
  · exact .inl rfl
  · exact .inr rfl

/-- A sequencer that stands nowhere in R25's table is put at idle (log 8). -/
theorem legal_or_idle_legal (q : Sequencer) : (if q.legal then q else .idle).legal = true := by
  split
  · assumption
  · rfl

/-- The operation code of an accepted host code names its instruction (R130). -/
theorem hostOf_of_decodeHost {bytes : List Byte} {i : Instr} (h : decodeHost bytes = .ok i) :
    hostOf ((bytes.headD 0#8).extractLsb' 0 4) = i := by
  match bytes with
  | [b] =>
    simp only [decodeHost] at h
    split_ifs at h
    exact Except.ok.inj h

/-- A host code makes a request that writes `REQ.op`; the step takes it, the sequencer at its place or idle (log 8). -/
theorem step_placeCode_host {c : Code} {i : Instr} (hfmt : c.fmt = .hostop4) (hdec : decode c = .ok i) (s : State) :
    step (placeCode c s) = exec i { s with
      seq := if s.seq.legal then s.seq else .idle
      hostPort := none
      req.op := (c.bytes.headD 0#8).extractLsb' 0 4 } := by
  have hplace : placeCode c s = { s with
      seq := if s.seq.legal then s.seq else .idle
      hostPort := some { s.req with op := (c.bytes.headD 0#8).extractLsb' 0 4 } } := by
    simp only [placeCode, hdec, hfmt]
  rw [decode, hfmt] at hdec
  rw [hplace, step_request (legal_or_idle_legal s.seq) rfl, hostOf_of_decodeHost hdec]
  rfl

/-- A frame goes to the command port (log 7, log 8). -/
theorem placeCode_command {c : Code} {i : Instr} (hfmt : c.fmt = .cmdframe48 ∨ c.fmt = .pseudoAcmd41)
    (hdec : decode c = .ok i) (s : State) : placeCode c s = placeCommand i c s := by
  rcases hfmt with hfmt | hfmt <;> simp only [placeCode, hdec, hfmt]

/-- The step that issues a command is a step of the operation it runs in (R25, R92). -/
theorem issuerOf_op (n : BitVec 6) : (issuerOf n).2.op = (issuerOf n).1 := by
  unfold issuerOf
  split <;> rfl

theorem placeOf_op (i : Instr) : (placeOf i).2.op = (placeOf i).1 := by
  cases i
  case zcmd n _ | rdreg n => exact issuerOf_op n
  all_goals rfl

theorem placeCommand_legal (i : Instr) (c : Code) (s : State) : (placeCommand i c s).seq.legal = true := by
  unfold placeCommand
  dsimp only
  split
  · next h => exact (Bool.and_eq_true_iff.mp h).1
  · exact legal_iff.mpr ⟨(placeOf_op i).symm, rfl⟩

theorem placeCommand_op (i : Instr) (c : Code) (s : State) : (placeCommand i c s).seq.op = (placeOf i).1 := by
  unfold placeCommand
  dsimp only
  split
  · next h => exact beq_iff_eq.mp (Bool.and_eq_true_iff.mp h).2
  · rfl

/-- Settles O15: a host code is taken as a request, a frame is issued by the step it was placed at. -/
theorem fetchWordRuns : Obligations.FetchWordRuns := by
  unfold Obligations.FetchWordRuns
  intro s nbits w i h
  have hdec := decode_of_decodeTableWord h
  rw [State.withFetchWord]
  rcases Nat.lt_or_ge 8 nbits with hlong | hshort
  · rw [placeCode_command (tableCode_fmt_command hlong w) hdec]
    have hlegal := placeCommand_legal i (tableCode nbits w) s
    have hop := placeCommand_op i (tableCode nbits w) s
    exact ⟨_, step_command hlegal rfl rfl hdec hop, hlegal, rfl, fun hle => absurd hle (Nat.not_le_of_lt hlong),
      fun _ => ⟨rfl, rfl, hop⟩⟩
  · exact ⟨_, step_placeCode_host (tableCode_fmt_host hshort w) hdec s, legal_or_idle_legal s.seq, rfl,
      fun _ => ⟨rfl, fun hl => if_pos hl, fun hl => congrArg Sequencer.op (if_neg (ne_true_of_eq_false hl))⟩,
      fun hlt => absurd hshort (Nat.not_le_of_lt hlt)⟩

/-! ### The operations that complete at once -/

/-- Settles O16: NOP is the success in `RES` and nothing else. -/
theorem nopEffect : Obligations.NopEffect := by
  unfold Obligations.NopEffect
  exact ⟨rfl, fun _ hidle => (hostCall_idle hidle).trans rfl⟩

/-- A getter of the idle engine writes its value and the success (R344 to R351). -/
theorem getter_result {s : State} (hidle : s.seq.op = .idle) (v : State → BitVec 128) :
    hostCall (getter v) s = .next { s with res := ⟨0#4, 0x00#8, 0, v s⟩ } := (hostCall_idle hidle).trans rfl

/-- A flag, zero-extended, is the number 1 or 0. -/
theorem setWidth_ofBool (b : Bool) : (BitVec.ofBool b).setWidth 128 = if b = true then 1#128 else 0#128 := by
  cases b <;> rfl

/-- Settles O17: `getter_result` for each register, and the bytes of an image in its word. -/
theorem getterValues : Obligations.GetterValues := by
  unfold Obligations.GetterValues
  intro s hidle
  have hget := getter_result hidle
  refine ⟨hget _, hget _, hget _, hget _, hget _, hget _, ?valid, rfl, rfl, rfl, rfl, fun img k => ?image⟩
  case valid =>
    rw [← setWidth_ofBool]
    exact hget _
  case image =>
    have hpos : 120 - 8 * k.val = 8 * (15 - k.val) := by omega
    rw [hpos]
    exact (imageByte_eq img k.val k.isLt).symm

/-! ### The refused requests -/

theorem hostCall_busy {s : State} (hbusy : s.seq.op ≠ .idle) (p : Proc Unit) :
    hostCall p s = .refused .requestWhileBusy := by
  rw [hostCall, if_neg hbusy]

/-- Each of the eleven operations is a host call (R340), so a busy engine refuses it (R341). -/
theorem exec_busy {s : State} {i : Instr} (hbusy : s.seq.op ≠ .idle)
    (hi : i ∈ [Instr.nop, .init, .rdblk, .wrblk, .blkcnt, .cid, .csd, .lastcrc, .kind, .calccrc, .csdvalid]) :
    exec i s = .refused .requestWhileBusy := by
  simp only [List.mem_cons, List.not_mem_nil, or_false] at hi
  rcases hi with rfl | rfl | rfl | rfl | rfl | rfl | rfl | rfl | rfl | rfl | rfl <;> exact hostCall_busy hbusy _

/-- The codes that are not reserved name the eleven operations (R130). -/
theorem hostOf_of_le_ten : ∀ code : BitVec 4, code.toNat ≤ 10 →
    hostOf code ∈ [Instr.nop, .init, .rdblk, .wrblk, .blkcnt, .cid, .csd, .lastcrc, .kind, .calccrc, .csdvalid] := by
  decide

/-- Settles O18: `exec_busy`; taking the request leaves the sequencer where it is. -/
theorem busyRequestRefused : Obligations.BusyRequestRefused := by
  unfold Obligations.BusyRequestRefused
  refine ⟨fun s i hbusy hi => exec_busy hbusy hi, fun s code index len bytes hl hbusy hcode => ?_⟩
  rw [step_request (s := s.request code index len bytes) hl rfl]
  exact exec_busy hbusy (hostOf_of_le_ten code hcode)

/-- Settles O19: each reserved code is refused in its own arm. -/
theorem reservedRefused : Obligations.ReservedRefused := by
  unfold Obligations.ReservedRefused
  intro s i hi
  simp only [List.mem_cons, List.not_mem_nil, or_false] at hi
  rcases hi with rfl | rfl | rfl | rfl | rfl <;> rfl

end Sys2Proof.Machine
end

