-- ==== Sys2Proof/Proofs/ExitAndReset.lean ====
section
/-! PROOFS. How an operation ends, after an error and after success (60_exceptions.md), and the engine after reset
(70_reset_and_hazards.md). -/

namespace Sys2Proof.Machine

/-! ### The end of an operation -/

/-- All that the exit actions write, register by register (R372). -/
theorem exitActions_eq (r : Option Err) (t : State) : exitActions r t =
    { t with
      res.kind := kindCode r
      res.status := statusInfo r
      res.tcode := tcodeInfo r
      seq := { op := .idle, fsm := .fIdle, cfsm := .cOff }
      wrk.csActive := false
      trace := (t.withCs false).trace } := by
  unfold exitActions State.withCs
  split
  case isTrue hoff => rw [← hoff]
  case isFalse => rfl

/-- Settles O20: `exitActions_eq` after an error and after success; the codes are read off their definitions. -/
theorem exitActions_after_raise_and_success : Obligations.ExitActions := by
  unfold Obligations.ExitActions
  refine ⟨fun p s t e h => ⟨_, ?raised, bus_withCs t false⟩, fun p s t h => ⟨_, ?succeeded, bus_withCs t false⟩,
    fun _ => rfl, fun _ => rfl, fun e => statusInfo_eq_zero (r := some e), fun e => tcodeInfo_eq_zero (r := some e),
    rfl, fun _ => rfl, rfl, rfl, fun _ => rfl, rfl, rfl, rfl, rfl, rfl, rfl, rfl, rfl⟩
  case raised => exact (settle_raise h).trans (congrArg _ (exitActions_eq (some e) t))
  case succeeded =>
    have hrun : (p >>= fun _ => finish) s = .ok () (exitActions none t) := run_bind_ok h
    exact (settle_ok hrun).trans (congrArg _ (exitActions_eq none t))

/-! ### Reset -/

/-- Without a block there is no index in range (R302): RDBLK and WRBLK of the idle engine end with `E_RANGE`. -/
theorem exec_range_of_no_blocks {s : State} {i : Instr} (hi : i ∈ [Instr.rdblk, .wrblk]) (hidle : s.seq.op = .idle)
    (hcount : s.ses.blockCount = 0#64) (hlen : s.req.len = 512#32) :
    exec i s = .next (exitActions (some .range) s) :=
  exec_refused hi hidle (checkRequest_range hlen (hcount ▸ Nat.zero_le _))

/-- Settles O12: the registers are read off the reset state; no block is there, and a zero CSD has no stop bit. -/
theorem resetValues : Obligations.ResetValues := by
  unfold Obligations.ResetValues
  obtain ⟨-, -, hzero, -⟩ := csdValidity
  refine ⟨rfl, rfl, rfl, rfl, rfl, rfl, rfl, rfl, rfl, rfl, rfl, rfl, rfl, rfl, rfl, rfl, fun _ => rfl, rfl, rfl, rfl,
    fun _ => rfl, rfl, rfl, hzero, fun i index hi => ⟨_, exec_range_of_no_blocks hi rfl rfl rfl, ?_⟩⟩
  rw [exitActions_res]
  rfl

/-- Settles O13: the history is that of a deselect, and the rest is the reset state by definition. -/
theorem blockReset : Obligations.BlockReset := by
  unfold Obligations.BlockReset
  exact fun s => ⟨_, rfl, bus_withCs s false⟩

end Sys2Proof.Machine
end
